-- ==== Sys2Proof/Word.lean ====
section
/-! DEFINITION. The word types of the Jiari JM-256 and the keys by which its parts are numbered (R13 to R17). -/

namespace Sys2Proof

/-- A 64-bit scalar register, address or control register value (R145). -/
abbrev Word64 := BitVec 64

/-- A byte of memory. -/
abbrev Byte := BitVec 8

/-- A vector register: 256 bytes (R17, R145). Byte `k` is bits `8k+7` to `8k` (R214). -/
abbrev VVal := BitVec 2048

/-- A mask register: one bit for each byte of a vector register (R145, R215). -/
abbrev MVal := BitVec 256

/-- An accumulator tile: 64 × 64 elements of 32 bits (R17); element (i, j) is word `64i + j`. -/
abbrev TileVal := BitVec 131072

/-- An operand slot: 8 KiB (R17, R281); byte `k` is bits `8k+7` to `8k`. -/
abbrev OperandVal := BitVec 65536

/-- A copy-engine, slice or host byte address is a plain natural number once it is resolved. -/
abbrev PhysAddr := Nat

/-- The device-wide number of a slot: `64 · cell + 16 · core + slot` (R13, R15). -/
abbrev SlotKey := Nat

/-- The device-wide number of a core: `4 · cell + core`. -/
abbrev CoreKey := Nat

/-- The device-wide cell index `16 · y + x` (R15). -/
abbrev CellKey := Nat

end Sys2Proof
end

