-- ==== Sys2Proof/Syntax.lean ====
section
/-! DEFINITION. The syntax of the Jiari JM-256: one constructor of `Instr` for every row of spec/opcode_table.json,
instructions (R46 to R49) and the machine's own steps (95_what_each_step_holds.md) alike. -/

namespace Sys2Proof

/-- A scalar register number s0 to s31 (R145). -/
abbrev SReg := Fin 32
/-- A vector register number v0 to v31 (R145). -/
abbrev VRegNo := Fin 32
/-- A guard register number p0 to p7 (R145). -/
abbrev GReg := Fin 8
/-- A mask register number m0 to m7 (R145). -/
abbrev MReg := Fin 8
/-- An accumulator tile number acc0 to acc7 (R279). -/
abbrev AccNo := Fin 8
/-- An operand slot number o0 to o31 (R279). -/
abbrev OSlot := Fin 32

/-- The type codes 0 to 21 of R33, in code order. -/
inductive Ty where
  | b8 | b16 | b32 | b64 | s8 | s16 | s32 | s64 | z8 | z16 | z32 | z64
  | h16 | bf16 | f32 | f64 | e4m3 | e5m2 | e2m1 | bf16x2 | s32x2 | f32x2
deriving DecidableEq, Repr

/-- The rounding field func10[9:8] (R32). -/
inductive Rm where
  | rne | rtz | rdn | rup
deriving DecidableEq, Repr

/-- The condition of CMP and CMPI (R47, R174). -/
inductive Cond where
  | eq | ne | lts | ltz | les | lez
deriving DecidableEq, Repr

/-- The condition of VCMP (R228). -/
inductive VCond where
  | eq | ne | lt | le | un
deriving DecidableEq, Repr

/-- The operation of VSCAN (R240). -/
inductive ScanOp where
  | add | min | max
deriving DecidableEq, Repr

/-- The width of LD (R47). -/
inductive LdWidth where
  | s8 | s16 | s32 | z8 | z16 | z32 | b64
deriving DecidableEq, Repr

/-- The width of ST (R47). -/
inductive StWidth where
  | b8 | b16 | b32 | b64
deriving DecidableEq, Repr

/-- The operation of AMO and AMON (R47). -/
inductive AmoOp where
  | add | sub | min | max | and | or | xor | swap
deriving DecidableEq, Repr

/-- A scope code (R34). -/
inductive Scope where
  | cell | sector | dev | pod | sys
deriving DecidableEq, Repr

/-- The hint of PREF (R256). -/
inductive PrefHint where
  | slc | stash | code
deriving DecidableEq, Repr

/-- A register designator (R35): the kind and the number. -/
inductive Desig where
  | s (n : SReg)
  | p (n : GReg)
  | v (n : VRegNo)
  | m (n : MReg)
  | acc (n : AccNo)
deriving DecidableEq, Repr

/-- The remote target of RPUT, and of BSUM in a register (R50). -/
structure Target where
  rel  : Bool
  x    : BitVec 5
  y    : BitVec 5
  core : Fin 4
  slot : Fin 16
  reg  : Desig
deriving DecidableEq, Repr

/-- The count operand of a vector shift (R224, R230): a vector register, or a scalar register when func10[0] = 1. -/
inductive ShCount where
  | vec (vb : VRegNo)
  | sca (sc : SReg)
deriving DecidableEq, Repr

/-- The source form of an accumulator tile in ASTORE (R295). -/
inductive AccSrc where
  | s32 | f32 | f64 | bx
deriving DecidableEq, Repr

/-- The command of TMMAR (R298). -/
inductive TmmarCmd where
  /-- CMD 0: multiply under the MMA right. -/
  | mma (acc : AccNo) (oa ob : OSlot) (n : BitVec 5) (ty : Ty) (rm : Rm) (z xb : Bool)
  /-- CMD 1: zero the tile under the ZERO right. -/
  | zero (acc : AccNo)
deriving DecidableEq, Repr

/-- The verdict of the page service (R246): the entry is repaired by writing page-table entries (address, value),
or the failure is declared unrecoverable. -/
inductive PageVerdict where
  | repaired (entries : List (Nat × Word64))
  | unrecoverable
deriving DecidableEq, Repr

/-- An access that reaches the link agent from the pod links or the host link (R316, R323). -/
inductive LinkAccess where
  | read (pa : Nat) (len : Nat)
  | write (pa : Nat) (bytes : List Byte)
  /-- A peer's AMO on memory of this device, performed by the link agent (R325). -/
  | atomic (pa : Nat) (op : AmoOp) (ty : Ty) (b : Word64)
  /-- A peer's CAS of a 32-bit or 64-bit location (R325, R328). -/
  | cas (pa : Nat) (ty : Ty) (exp new : Word64)
  /-- A peer's CAS2 of two 64-bit words (R325, R329). -/
  | cas2 (pa : Nat) (lo hi nlo nhi : Word64)
  /-- A peer's SLR or SLRN: the routine `id` of context `asid` on the line of an address (R325, R335). -/
  | routine (pa asid id : Nat) (g : Vector Word64 4)
  /-- LRW by slot `id` of a peer on a word of this device, whose queue is kept here (R343, R344). -/
  | lrw (pa id : Nat)
  /-- SCH of `v` by slot `id` of a peer on a word of this device (R343, R344). -/
  | sch (pa id : Nat) (v : Word64)
  /-- SCHX by slot `id` of a peer on a word of this device (R343, R344). -/
  | schx (pa id : Nat)
  /-- Slot `id` of a peer leaves the FIFOs of the words here; where it has `ended`, it also passes on the words that it holds (R345). -/
  | leave (id : Nat) (ended : Bool)
  /-- A peer grants a word of its memory, with its value, to the first slot of this device that waits for it (R344). -/
  | grant (pa : Nat) (v : Word64)
deriving DecidableEq, Repr

/-- What the debug port reads or writes of a halted slot (R377). -/
inductive DebugItem where
  | reg (r : Desig)
  | pc
  | loops
  | shadow
  | creg (n : Nat)
  /-- The internal word that the core's instruction cache holds for an address (R39). -/
  | cached (va : Word64)
deriving DecidableEq, Repr

/-- The presence states of R146. -/
inductive Pres where
  | empty | full | owed
deriving DecidableEq, Repr

/-- A firmware image (R403, R405): which one it is, its digest, the version of the state block that it writes, and the
versions that it accepts. -/
structure FwImage where
  number  : Nat
  digest  : Nat
  writes  : Nat
  accepts : List Nat
deriving DecidableEq, Repr

/-- The configuration table (R403), with the outcome of its signature's check. -/
structure ConfigTable where
  signatureOk : Bool
  version     : Nat
  device      : Nat
  fwColumns   : List Nat
  /-- One role code for each firmware core in the order of R89. -/
  roles       : List Nat
  /-- The pod routes (R402): a device and the port that leads to it. -/
  routes      : List (Nat × Nat)
  /-- The firmware image's digest. -/
  digest      : Nat
deriving DecidableEq, Repr

/-- A soft error (R408). -/
inductive SoftErr where
  /-- A corrected error in a cell's SRAM: counted and logged. -/
  | corrected (cell : CellKey)
  /-- An uncorrectable error in HBM or LPDDR: the line is poisoned. -/
  | line (pa : Nat)
  /-- An uncorrectable error in the slice that is a line's home. -/
  | slice (pa : Nat)
  /-- An uncorrectable error in a cell's stash: the 128 bytes around it are poisoned. -/
  | stash (cell off : Nat)
  /-- An uncorrectable error in a register of a slot. -/
  | register (slot : SlotKey)
  /-- An uncorrectable error in operand or accumulator memory: a deferred trap on the consuming slot. -/
  | operand (slot : SlotKey)
deriving DecidableEq, Repr

/-- What the Anole core samples beside the cells (R406): temperatures of the HBM stacks in 0.1 °C; voltage and current of each
rail in mV and mA; coolant inlet and outlet temperature in 0.1 °C, and flow in 0.1 L/min. -/
structure Plant where
  hbm    : List Nat
  rails  : List (Nat × Nat)
  inlet  : Nat
  outlet : Nat
  flow   : Nat
deriving DecidableEq, Repr

/-- One sample of the sensors (R406): temperatures of cells in 0.1 °C, and the rest. -/
structure Sample where
  temps : List (CellKey × Nat)
  plant : Plant
deriving DecidableEq, Repr

/-- What the Anole core fetches for a boot (R404 step 2). -/
structure BootFetch where
  table : ConfigTable
  image : FwImage
deriving DecidableEq, Repr

/-- A fault record of a grid (R108). -/
structure GFault where
  dev   : Nat
  x : Nat
  y : Nat
  core  : Nat
  slot  : Nat
  cause : Nat
  block : Nat
  pc    : Word64
  addr  : Word64
deriving DecidableEq, Repr

/-- A fault report that reaches the root of a grid (R105): message `k` of this device, or the record of another device of the grid
record `grid`. -/
inductive FaultReport where
  | own (k : Nat)
  | peer (grid : Nat) (f : GFault)
deriving DecidableEq, Repr

/-- What a remote device reports of a grid it takes part in (R106, R109). -/
structure PeerReport where
  dealt : Nat
  started : Nat
  finished : Nat
  killed : Nat
deriving DecidableEq, Repr

/-- The instruction set: one constructor for each row of the opcode table. An event constructor carries what the
manual leaves to the environment or to the unit that acts. -/
inductive Instr where
  -- S32: integer ALU, major 0x01 (R163)
  /-- ADD (R163): sA + sB. -/
  | add (d a b : SReg)
  /-- SUB (R163): sA − sB. -/
  | sub (d a b : SReg)
  /-- MUL (R163): low half of the product. -/
  | mul (d a b : SReg)
  /-- MULHS (R163): upper half, signed. -/
  | mulhs (d a b : SReg)
  /-- MULHZ (R163): upper half, unsigned. -/
  | mulhz (d a b : SReg)
  /-- DIVS (R164): signed quotient (R164). -/
  | divs (d a b : SReg)
  /-- DIVZ (R164): unsigned quotient (R164). -/
  | divz (d a b : SReg)
  /-- REMS (R164): signed remainder (R164). -/
  | rems (d a b : SReg)
  /-- REMZ (R164): unsigned remainder (R164). -/
  | remz (d a b : SReg)
  /-- AND (R163): bitwise AND. -/
  | and (d a b : SReg)
  /-- OR (R163): bitwise OR. -/
  | or (d a b : SReg)
  /-- XOR (R163): bitwise XOR. -/
  | xor (d a b : SReg)
  /-- ANDN (R163): sA AND NOT sB. -/
  | andn (d a b : SReg)
  /-- SHL (R165): shift left (R165). -/
  | shl (d a b : SReg)
  /-- SHRZ (R165): shift right, zeros (R165). -/
  | shrz (d a b : SReg)
  /-- SHRS (R165): shift right, sign (R165). -/
  | shrs (d a b : SReg)
  /-- ROTL (R165): rotate left (R165). -/
  | rotl (d a b : SReg)
  /-- MINS (R163): signed minimum. -/
  | mins (d a b : SReg)
  /-- MINZ (R163): unsigned minimum. -/
  | minz (d a b : SReg)
  /-- MAXS (R163): signed maximum. -/
  | maxs (d a b : SReg)
  /-- MAXZ (R163): unsigned maximum. -/
  | maxz (d a b : SReg)
  -- S32: unary, major 0x02 (R167), and multiply-add (R166)
  /-- CLZ (R167): leading zeros. -/
  | clz (d a : SReg)
  /-- CTZ (R167): trailing zeros. -/
  | ctz (d a : SReg)
  /-- POPC (R167): one bits. -/
  | popc (d a : SReg)
  /-- BSWAP (R167): bytes reversed. -/
  | bswap (d a : SReg)
  /-- SEXT_8 (R167): sign-extend 8 bits. -/
  | sext8 (d a : SReg)
  /-- SEXT_16 (R167): sign-extend 16 bits. -/
  | sext16 (d a : SReg)
  /-- SEXT_32 (R167): sign-extend 32 bits. -/
  | sext32 (d a : SReg)
  /-- MADD (R166): sA × sB + sC. -/
  | madd (d a b c : SReg)
  -- S32: immediates, majors 0x04 to 0x09 (R168, R169)
  /-- ADDI_S32 (R168): imm14 sign-extended. -/
  | addiS (d a : SReg) (i : BitVec 14)
  /-- ANDI_S32 (R168): imm14 sign-extended. -/
  | andiS (d a : SReg) (i : BitVec 14)
  /-- ORI_S32 (R168): imm14 sign-extended. -/
  | oriS (d a : SReg) (i : BitVec 14)
  /-- XORI_S32 (R168): imm14 sign-extended. -/
  | xoriS (d a : SReg) (i : BitVec 14)
  /-- SHLI (R169): shift left by n. -/
  | shli (d a : SReg) (n : BitVec 6)
  /-- SHRI (R169): shift right by n, .s when `sgn`. -/
  | shri (d a : SReg) (sgn : Bool) (n : BitVec 6)
  -- S32: bit fields, comparisons, guards (R171 to R176) and XYA (R177)
  /-- BFX (R171): extract width `w`+1 at `p`. -/
  | bfx (d a : SReg) (sgn : Bool) (w p : BitVec 6)
  /-- BFI (R172): insert width `w`+1 at `p`. -/
  | bfi (d a : SReg) (w p : BitVec 6)
  /-- CMP (R174): compare registers. -/
  | cmp (g : GReg) (a b : SReg) (c : Cond)
  /-- CMPI (R174): compare with imm11. -/
  | cmpi (g : GReg) (a : SReg) (c : Cond) (i : BitVec 11)
  /-- PAND (R175): guard AND. -/
  | pand (d a b : GReg)
  /-- POR (R175): guard OR. -/
  | por (d a b : GReg)
  /-- PXOR (R175): guard XOR. -/
  | pxor (d a b : GReg)
  /-- PNOT (R175): guard NOT. -/
  | pnot (d a : GReg)
  /-- MOVP_FROM_GUARD (R175): sD := pA. -/
  | movpFrom (d : SReg) (a : GReg)
  /-- MOVP_TO_GUARD (R175): pD := (sA ≠ 0). -/
  | movpTo (d : GReg) (a : SReg)
  /-- SEL (R176): select by a guard. -/
  | sel (d a b : SReg) (g : GReg) (neg : Bool)
  /-- XYA (R177): build a coordinate address. -/
  | xya (d a b : SReg) (ctl rel : Bool)
  -- S32: control registers (R155) and presence (R153, R154)
  /-- CGET (R155): read a control register. -/
  | cget (d : SReg) (n : BitVec 14)
  /-- CSET (R155): write a control register that has no row of its own. -/
  | cset (a : SReg) (n : BitVec 14)
  /-- CSET_VWIN (R150): request a vector window size (R150). -/
  | csetVwin (a : SReg)
  /-- CSET_PBASE (R125): stage a partition base (R125). -/
  | csetPbase (a : SReg)
  /-- CSET_PLEN (R125): check and commit a partition (R125). -/
  | csetPlen (a : SReg)
  /-- CSET_DEQBASE (R194): name the deque spill area (R194). -/
  | csetDeqbase (a : SReg)
  /-- CSET_SPECLIM (R203): bound specialisation (R203). -/
  | csetSpeclim (a : SReg)
  /-- CSET_LLEASE (R308): set the lease length (R308). -/
  | csetLlease (a : SReg)
  /-- FWIN_WORD0_WRITE (R272): enable or disable a format window (R272). -/
  | fwinWord0Write (a : SReg) (n : Fin 16)
  /-- FWIN_CONFIG_WRITE (R272): write word k of a format window (R272). -/
  | fwinConfigWrite (a : SReg) (n : Fin 16) (k : Fin 8)
  /-- INVAL (R275): start invalidation of a view (R275). -/
  | inval (a : SReg) (n : Fin 16)
  /-- VIEW_LINES_DROPPED (R275): event: the view lines of window n are dropped (R275). -/
  | viewLinesDropped (sector : Fin 8) (n : Fin 16)
  /-- PRES (R153): test presence. -/
  | pres (g : GReg) (k : Desig)
  /-- DROP (R154): empty a register. -/
  | drop (k : Desig)
  -- S32: control flow (R180 to R197)
  /-- BR (R180): branch. -/
  | br (j : BitVec 24)
  /-- CALL (R180): call, link in s31. -/
  | call (j : BitVec 24)
  /-- JR (R180): jump to sA. -/
  | jr (a : SReg)
  /-- CALLR (R180): call sA, link in sD. -/
  | callr (d a : SReg)
  /-- RET (R180): return to s31. -/
  | ret
  /-- LOOP (R184): hardware loop, count in sA. -/
  | loop (a : SReg) (i : BitVec 14)
  /-- LOOPI (R184): hardware loop, immediate count. -/
  | loopi (c : BitVec 10) (i : BitVec 14)
  /-- FORK (R187): push a task. -/
  | fork (a : SReg) (i : BitVec 14)
  /-- JOIN (R188): decrement a join counter. -/
  | join (a : SReg)
  /-- NOP (R182): no operation. -/
  | nop
  /-- IDLE (R189): look for a task. -/
  | idle
  /-- DONE (R197): end the slot or retire the block. -/
  | done
  /-- IFENCE (R139): discard the fetch buffer (R139). -/
  | ifence
  /-- TRET (R364): return from a trap (R364). -/
  | tret
  /-- BRK (R365): breakpoint (R365). -/
  | brk
  /-- AMOW (R333): wait for posted operations (R333). -/
  | amow
  /-- TRAP (R364): trap with a code (R364). -/
  | trap (c : BitVec 14)
  -- S32: handles and specialisation (R198 to R209)
  /-- CALLH (R198): call by handle. -/
  | callh (a : SReg)
  /-- SPEC (R199): request a specialisation. -/
  | spec (d a b : SReg)
  /-- RFREE (R207): free a residual. -/
  | rfree (a : SReg)
  /-- RINFO (R208): describe a handle. -/
  | rinfo (d a : SReg)
  -- S32: slots, dealing and grids (R99 to R136)
  /-- SSTART (R129): start a slot. -/
  | sstart (a b : SReg)
  /-- SREAP (R130): reap slots. -/
  | sreap (d a : SReg)
  /-- IDLE_SLOTS_END (R195): event: idle slots of a block end while its keeper reaps (R195). -/
  | idleSlotsEnd (core : CoreKey)
  /-- SSTAT (R131): state of a slot. -/
  | sstat (d a : SReg)
  /-- TNEXT (R132): ask the dealer. -/
  | tnext (d a : SReg)
  /-- DEALER_NEXT (R136): event: the home dealer serves request k, a NEXT (R136). -/
  | dealerNext (k : Nat)
  /-- DEALER_SET (R133): event: the home dealer serves request k, a SET (R133). -/
  | dealerSet (k : Nat)
  /-- DEALER_QUERY (R133): event: the home dealer serves request k, a QUERY (R133). -/
  | dealerQuery (k : Nat)
  /-- LAUNCH (R99): launch a grid. -/
  | launch (d a : SReg)
  /-- ROOT_DISPATCH_LAUNCH (R101): event: the root serves the oldest LAUNCH, taking grid record `rec` (R101). -/
  | rootDispatchLaunch (rec : Nat)
  /-- DISPATCHER_REQUEST (R128): event: a sector asks the device dispatcher, or a cell asks its sector, for a range of blocks (R128). -/
  | dispatcherRequest (grid : Nat) (sector : Fin 8) (cell : Option CellKey)
  /-- BLOCK_START (R128): event: a cell dealer starts its lowest held block (R128). -/
  | blockStart (cell : CellKey)
  /-- GRID_COMPLETE (R106): event: the root writes the completion record (R106). -/
  | gridComplete (rec : Nat) (peers : List PeerReport)
  /-- GCANCEL_DRAIN (R110): drain a grid (R110). -/
  | gcancelDrain (a : SReg)
  /-- GCANCEL_KILL (R110): kill a grid (R110). -/
  | gcancelKill (a : SReg)
  /-- CANCEL_ARRIVAL (R112): event: cancel message k takes effect on this device (R112). -/
  | cancelArrival (k : Nat)
  /-- GSTAT (R113): state of a grid (R113). -/
  | gstat (d a : SReg)
  -- S32: channels (R117 to R122)
  /-- CHSEND (R118): reserve ring space. -/
  | chsend (d a b : SReg)
  /-- CHRECV (R119): retire and receive a message. -/
  | chrecv (d a b : SReg)
  /-- GETSTATE (R120): CHCTL, operation 0 in sA[15:12] (R120). -/
  | getstate (d a b : SReg)
  /-- SETSTATE (R121): CHCTL, operation 1 in sA[15:12] (R120). -/
  | setstate (d a b : SReg)
  /-- GETWIDX (R120): CHCTL, operation 2 in sA[15:12] (R120). -/
  | getwidx (d a b : SReg)
  /-- GETRIDX (R120): CHCTL, operation 3 in sA[15:12] (R120). -/
  | getridx (d a b : SReg)
  /-- SETRIDX (R120): CHCTL, operation 4 in sA[15:12] (R120). -/
  | setridx (d a b : SReg)
  /-- GETBASE (R120): CHCTL, operation 5 in sA[15:12] (R120). -/
  | getbase (d a b : SReg)
  -- S32: loads, stores and full/empty words (R248, R346)
  /-- LD_BASE_OFFSET (R249): load, base + offset. -/
  | ldOff (d a : SReg) (w : LdWidth) (o : BitVec 11)
  /-- LD_BASE_INDEX (R249): load, base + index. -/
  | ldIdx (d a b : SReg) (w : LdWidth) (h : BitVec 3)
  /-- ST_BASE_OFFSET (R249): store, base + offset. -/
  | stOff (d a : SReg) (w : StWidth) (o : BitVec 11)
  /-- ST_BASE_INDEX (R249): store, base + index. -/
  | stIdx (d a b : SReg) (w : StWidth) (h : BitVec 3)
  /-- LDF (R346): load a full word and empty it. -/
  | ldf (d a : SReg) (o : BitVec 11)
  /-- LDFK (R346): load a full word. -/
  | ldfk (d a : SReg) (o : BitVec 11)
  /-- STE (R346): store an empty word and fill it. -/
  | ste (d a : SReg) (o : BitVec 11)
  /-- STFF (R346): store and fill. -/
  | stff (d a : SReg) (o : BitVec 11)
  /-- FCLR (R346): empty a word. -/
  | fclr (a : SReg) (o : BitVec 11)
  /-- FEQ (R346): test a word. -/
  | feq (d a : SReg) (o : BitVec 11)
  -- S32: atomics, reservations, barriers, fences (R318, R326 to R354)
  /-- AMO (R327): atomic, returning. -/
  | amo (d a b : SReg) (o : AmoOp) (t : Ty)
  /-- AMON (R327): atomic, posted. -/
  | amon (a b : SReg) (o : AmoOp) (t : Ty)
  /-- CAS (R329): compare and swap. -/
  | cas (d a b : SReg) (t : Ty)
  /-- CAS2 (R330): compare and swap a pair. -/
  | cas2 (d a b : SReg)
  /-- SLR (R338): run a slice routine. -/
  | slr (d a b : SReg) (i : BitVec 6)
  /-- SLRN (R338): run a slice routine, posted. -/
  | slrn (a b : SReg) (i : BitVec 6)
  /-- SLICE_ROUTINE (R337): event: the home performs atomic request k (R337). -/
  | sliceRoutine (k : Nat)
  /-- LRW (R344): take a reservation. -/
  | lrw (d a : SReg)
  /-- SCH (R344): store and hand over. -/
  | sch (a b : SReg)
  /-- SCHX (R344): hand over. -/
  | schx (a : SReg)
  /-- BARI (R352): set a barrier count. -/
  | bari (a : SReg) (n : Fin 64)
  /-- BARA (R352): arrive. -/
  | bara (d : SReg) (n : Fin 64)
  /-- BARW (R352): wait for a generation. -/
  | barw (d a : SReg) (n : Fin 64)
  /-- BARQ (R354): straggler record. -/
  | barq (d a : SReg) (n : Fin 64)
  /-- BARRIER_UNIT_REQUEST (R352): event: the barrier unit applies request k (R352). -/
  | barrierUnitRequest (k : Nat)
  /-- FENCE (R318): fence. -/
  | fence (s : Scope)
  -- S32: copies, prefetch, stash maps, matrix scalar side (R256 to R269, R280 to R301)
  /-- CPYW (R268): wait for a write pointer. -/
  | cpyw (d a b : SReg)
  /-- CPYQ (R269): read a write pointer. -/
  | cpyq (d a : SReg)
  /-- PREF (R256): prefetch hint. -/
  | pref (a : SReg) (h : PrefHint) (o : BitVec 12)
  /-- STMAP (R258): map stash to global memory. -/
  | stmap (d a b : SReg)
  /-- STUNMAP (R260): remove a mapping. -/
  | stunmap (d a : SReg)
  /-- STFLUSH (R260): write back a mapping. -/
  | stflush (d a : SReg)
  /-- OCLAIM (R280): claim operand slots or tiles. -/
  | oclaim (d a : SReg)
  /-- OPERAND_CLAIM_GRANT (R280): event: a waiting claim receives its items (R280). -/
  | operandClaimGrant (cell : CellKey)
  /-- OREL (R280): release operand slots or tiles. -/
  | orel (a : SReg)
  /-- MXWAIT (R296): wait for matrix steps. -/
  | mxwait (d a b : SReg)
  /-- MXCAP (R297): mint a matrix capability. -/
  | mxcap (d a : SReg)
  /-- BSUM (R300): send a block sum. -/
  | bsum (d a b : SReg)
  /-- BSACC (R301): arm a block-sum pair. -/
  | bsacc (d a : SReg)
  /-- BSUM_ARRIVAL (R300): event: block-sum message k reaches its slot (R300). -/
  | bsumArrival (k : Nat)
  -- X16 and L64 (R45, R49)
  /-- NOP16 (R45): short no operation. -/
  | nop16
  /-- LI (R170): load immediate. -/
  | li (d : SReg) (i : BitVec 32)
  /-- LIH (R170): load immediate high. -/
  | lih (d : SReg) (i : BitVec 32)
  /-- RPUT (R151): write a remote register. -/
  | rput (a : SReg) (t : Target)
  /-- RPUT_ARRIVAL (R151): event: remote write k reaches its slot (R151). -/
  | rputArrival (k : Nat)
  /-- CPY (R265): start a copy. -/
  | cpy (d a : SReg) (acq rel : Bool) (sc : Scope) (ch : Fin 128)
  /-- CPYX (R265): start an indexed copy. -/
  | cpyx (d a : SReg) (acq rel : Bool) (sc : Scope) (ch : Fin 128)
  /-- COPY_SEGMENT (R265): event: the copy engine moves one segment (R265). -/
  | copySegment (core : CoreKey) (ch : Fin 128)
  /-- COPY_COMPLETE (R266): event: a copy ends and fills sD (R266). -/
  | copyComplete (core : CoreKey) (ch : Fin 128)
  /-- TMMAR (R298): command another cell's matrix unit. -/
  | tmmar (d a : SReg) (c : TmmarCmd)
  /-- TMMAR_COMMAND_ARRIVAL (R299): event: matrix command k reaches its cell (R299). -/
  | tmmarCommandArrival (k : Nat)
  /-- SLRINST (R340): install a slice routine. -/
  | slrinst (a : SReg) (i : BitVec 6)
  /-- ADDI_L64 (R168): imm32 sign-extended. -/
  | addiL (d a : SReg) (i : BitVec 32)
  /-- ANDI_L64 (R168): imm32 sign-extended. -/
  | andiL (d a : SReg) (i : BitVec 32)
  /-- ORI_L64 (R168): imm32 sign-extended. -/
  | oriL (d a : SReg) (i : BitVec 32)
  /-- XORI_L64 (R168): imm32 sign-extended. -/
  | xoriL (d a : SReg) (i : BitVec 32)
  -- V48: arithmetic (R226, R227)
  /-- VADD (R226): elementwise. -/
  | vadd (d a b : VRegNo) (m : MReg) (t : Ty) (rm : Rm)
  /-- VSUB (R226): elementwise. -/
  | vsub (d a b : VRegNo) (m : MReg) (t : Ty) (rm : Rm)
  /-- VMUL (R226): elementwise. -/
  | vmul (d a b : VRegNo) (m : MReg) (t : Ty) (rm : Rm)
  /-- VFMA (R226): fused, one rounding. -/
  | vfma (d a b c : VRegNo) (m : MReg) (t : Ty) (rm : Rm)
  /-- VFMS (R226): fused, one rounding. -/
  | vfms (d a b c : VRegNo) (m : MReg) (t : Ty) (rm : Rm)
  /-- VFNMA (R226): fused, one rounding. -/
  | vfnma (d a b c : VRegNo) (m : MReg) (t : Ty) (rm : Rm)
  /-- VMIN (R226): elementwise. -/
  | vmin (d a b : VRegNo) (m : MReg) (t : Ty)
  /-- VMAX (R226): elementwise. -/
  | vmax (d a b : VRegNo) (m : MReg) (t : Ty)
  /-- VABS (R226): elementwise. -/
  | vabs (d a : VRegNo) (m : MReg) (t : Ty)
  /-- VNEG (R226): elementwise. -/
  | vneg (d a : VRegNo) (m : MReg) (t : Ty)
  /-- VDIV (R226): elementwise, one rounding. -/
  | vdiv (d a b : VRegNo) (m : MReg) (t : Ty) (rm : Rm)
  /-- VSQRT (R226): square root. -/
  | vsqrt (d a : VRegNo) (m : MReg) (t : Ty) (rm : Rm)
  /-- VRCPA (R227): approximation of 1/x. -/
  | vrcpa (d a : VRegNo) (m : MReg) (t : Ty)
  /-- VRSQA (R227): approximation of 1/√x. -/
  | vrsqa (d a : VRegNo) (m : MReg) (t : Ty)
  /-- VEXPA (R227): approximation of 2^x. -/
  | vexpa (d a : VRegNo) (m : MReg) (t : Ty)
  /-- VLOGA (R227): approximation of log2 x. -/
  | vloga (d a : VRegNo) (m : MReg) (t : Ty)
  -- V48: comparison, selection, logic, shifts, integer forms (R228 to R232)
  /-- VCMP (R228): compare into a mask. -/
  | vcmp (d : MReg) (a b : VRegNo) (m : MReg) (t : Ty) (c : VCond)
  /-- VSEL (R229): select by mask. -/
  | vsel (d a b : VRegNo) (m : MReg) (t : Ty)
  /-- VAND (R229): bitwise. -/
  | vand (d a b : VRegNo) (m : MReg) (t : Ty)
  /-- VOR (R229): bitwise. -/
  | vor (d a b : VRegNo) (m : MReg) (t : Ty)
  /-- VXOR (R229): bitwise. -/
  | vxor (d a b : VRegNo) (m : MReg) (t : Ty)
  /-- VNOT (R229): bitwise NOT. -/
  | vnot (d a : VRegNo) (m : MReg) (t : Ty)
  /-- VSHL (R230): shift elements. -/
  | vshl (d a : VRegNo) (n : ShCount) (m : MReg) (t : Ty)
  /-- VSHRZ (R230): shift elements. -/
  | vshrz (d a : VRegNo) (n : ShCount) (m : MReg) (t : Ty)
  /-- VSHRS (R230): shift elements. -/
  | vshrs (d a : VRegNo) (n : ShCount) (m : MReg) (t : Ty)
  /-- VADDS (R231): saturating. -/
  | vadds (d a b : VRegNo) (m : MReg) (t : Ty)
  /-- VSUBS (R231): saturating. -/
  | vsubs (d a b : VRegNo) (m : MReg) (t : Ty)
  /-- VMULH (R231): upper half of the product. -/
  | vmulh (d a b : VRegNo) (m : MReg) (t : Ty)
  /-- VDOT4 (R232): four-byte dot products. -/
  | vdot4 (d a b : VRegNo) (m : MReg) (t : Ty) (sat : Bool)
  -- V48: conversion and movement (R233 to R238)
  /-- VCVT (R233): convert elements. -/
  | vcvt (d a : VRegNo) (m : MReg) (td ts : Ty) (rm : Rm) (part : BitVec 3) (sat : Bool)
  /-- VBCAST (R234): broadcast a scalar. -/
  | vbcast (d : VRegNo) (c : SReg) (m : MReg) (t : Ty)
  /-- VIDX (R234): scalar plus index. -/
  | vidx (d : VRegNo) (c : SReg) (m : MReg) (t : Ty)
  /-- VPERM (R235): permute. -/
  | vperm (d a b : VRegNo) (m : MReg) (t : Ty)
  /-- VSLIDE (R235): slide. -/
  | vslide (d a b : VRegNo) (m : MReg) (t : Ty) (k : BitVec 8)
  /-- VREDADD (R239): sum tree. -/
  | vredadd (d : SReg) (a : VRegNo) (c : SReg) (m : MReg) (t : Ty) (rm : Rm)
  /-- VREDMIN (R239): minimum. -/
  | vredmin (d : SReg) (a : VRegNo) (c : SReg) (m : MReg) (t : Ty)
  /-- VREDMAX (R239): maximum. -/
  | vredmax (d : SReg) (a : VRegNo) (c : SReg) (m : MReg) (t : Ty)
  /-- VSCAN (R240): inclusive prefixes. -/
  | vscan (d a : VRegNo) (m : MReg) (t : Ty) (rm : Rm) (o : ScanOp)
  /-- VCOMP (R236): compress. -/
  | vcomp (d a : VRegNo) (m : MReg) (t : Ty)
  /-- VXPND (R236): expand. -/
  | vxpnd (d a : VRegNo) (m : MReg) (t : Ty)
  /-- VPACK (R237): narrow two vectors. -/
  | vpack (d a b : VRegNo) (m : MReg) (t : Ty) (sat : Bool)
  /-- VUNPK (R237): widen half a vector. -/
  | vunpk (d a : VRegNo) (m : MReg) (t : Ty) (hi : Bool)
  /-- VMOV (R238): copy active elements. -/
  | vmov (d a : VRegNo) (m : MReg) (t : Ty)
  /-- VEXT (R238): element to scalar. -/
  | vext (d : SReg) (a : VRegNo) (t : Ty) (k : BitVec 8)
  /-- VINS (R238): scalar to element. -/
  | vins (d : VRegNo) (c : SReg) (t : Ty) (k : BitVec 8)
  -- V48: masks (R241)
  /-- MAND (R241): combine masks. -/
  | mand (d a b : MReg)
  /-- MOR (R241): combine masks. -/
  | mor (d a b : MReg)
  /-- MXOR (R241): combine masks. -/
  | mxor (d a b : MReg)
  /-- MNOT (R241): invert a mask. -/
  | mnot (d a : MReg)
  /-- MPOPC (R241): count active elements. -/
  | mpopc (d : SReg) (a : MReg) (t : Ty)
  /-- MFIRST (R241): first active element. -/
  | mfirst (d : SReg) (a : MReg) (t : Ty)
  -- V48: vector memory (R250, R251)
  /-- VLD (R251): load contiguous. -/
  | vld (d : VRegNo) (c : SReg) (m : MReg) (t : Ty) (o : BitVec 10)
  /-- VST (R251): store contiguous. -/
  | vst (a : VRegNo) (c : SReg) (m : MReg) (t : Ty) (o : BitVec 10)
  /-- VLDS (R251): load strided. -/
  | vlds (d : VRegNo) (b c : SReg) (m : MReg) (t : Ty)
  /-- VSTS (R251): store strided. -/
  | vsts (a : VRegNo) (b c : SReg) (m : MReg) (t : Ty)
  /-- VGATH (R251): gather. -/
  | vgath (d a : VRegNo) (c : SReg) (m : MReg) (t : Ty) (k : BitVec 3)
  /-- VSCAT (R251): scatter. -/
  | vscat (a b : VRegNo) (c : SReg) (m : MReg) (t : Ty) (k : BitVec 3)
  -- V48: matrix (R282 to R295)
  /-- OLOAD (R282): load a tile into an operand slot. -/
  | oload (o : OSlot) (b c : SReg) (t : Ty) (shapeB tr : Bool) (acq : Option Scope)
  /-- OFILL (R284): copy registers into an operand slot, `k`+1 of them. -/
  | ofill (o : OSlot) (a : VRegNo) (seg k : BitVec 5)
  /-- TMMA (R286): multiply tiles, `n`+1 pairs; `c` is the BX exponent register. -/
  | tmma (acc : AccNo) (oa ob : OSlot) (c : Option SReg) (t : Ty) (rm : Rm) (z xb : Bool) (n : BitVec 5)
  /-- AZERO (R293): zero a tile. -/
  | azero (acc : AccNo)
  /-- ASTORE (R295): convert and store a tile. -/
  | astore (s : SReg) (acc : AccNo) (vb : Option VRegNo) (c : SReg) (t : Ty) (rm : Rm) (sat : Bool) (src : AccSrc)
  /-- AVEC (R294): copy a row of a tile. -/
  | avec (d : VRegNo) (acc : AccNo) (row : BitVec 6)
  -- Events that the model tries by itself (log entry 3, DESIGN CHOICE)
  /-- WIDE_UNIT_START (R211): event: the wide unit starts its next operation (R211). -/
  | wideUnitStart (cell : CellKey)
  /-- SEQUENCER_STEP (R287): event: the sequencer runs one step (R287). -/
  | sequencerStep (cell : CellKey)
  /-- OPERAND_LOADER_FILL (R283): event: the reads of an OLOAD return (R283). -/
  | operandLoaderFill (cell : CellKey)
  /-- INSTRUCTION_CACHE_FILL (R137): event: a cache line finishes filling (R137). -/
  | instructionCacheFill (core : CoreKey) (line : Nat)
  /-- GRID_FAULT_REPORT (R108): event: a fault report reaches the root of its grid (R105, R108). -/
  | gridFaultReport (report : FaultReport)
  /-- SKINK_SPILL (R370): event: the Skink engine spills a slot (R370). -/
  | skinkSpill (slot : SlotKey)
  /-- SKINK_RESTORE (R372): event: the Skink engine restores a slot (R372). -/
  | skinkRestore (slot : SlotKey)
  /-- RESULT_ARRIVAL (R141): event: reply k reaches its slot (R141). -/
  | resultArrival (k : Nat)
  /-- HOME_ACCESS (R310): event: the home performs load or store request k (R310). -/
  | homeAccess (k : Nat)
  /-- VWIN_RESIZE_GRANT (R150): event: a window resize is granted (R150). -/
  | vwinResizeGrant (slot : SlotKey)
  /-- BANK_WAKE (R378): event: a bank is awake (R378). -/
  | bankWake (cell : CellKey) (bank : Fin 32)
  /-- QUEUE_SCAN (R94): event: firmware scans a queue (R94). -/
  | queueScan (vf : Fin 128) (q : Fin 64)
  /-- LAUNCH_PACKET (R101): event: firmware acts on accepted LAUNCH packet k, taking grid record `rec` (R101). -/
  | launchPacket (k rec : Nat)
  /-- UNLOAD (R69): event: the loader performs UNLOAD packet k (R69). -/
  | unload (k : Nat)
  /-- STAGE_GRAPH_PACKET (R115): event: firmware acts on accepted STAGE GRAPH packet k (R115). -/
  | stageGraphPacket (k rec : Nat)
  /-- STAGE_GRAPH_BIND (R115): event: firmware binds a held stage graph (R115). -/
  | stageGraphBind (rec : Nat)
  /-- GANG_SWITCH_TICK (R373): event: the partition of the running context `asid` switches (R373). -/
  | gangSwitchTick (asid : Nat)
  /-- SAVE_DEADLINE (R374): event: the save deadline of incoming context `asid` passes, `elapsed` ns on the device timer after its last
  reading (R374). -/
  | saveDeadline (asid elapsed : Nat)
  -- Events of queues, firmware, system software, the Skink engine, the debug port, links and management
  /-- SPECIALISE (R202): event: the specialiser serves its oldest request, placing a residual at unit offset `units`. -/
  | specialise (units : Nat)
  /-- WAITLIM_EXPIRY (R349): event: a limited park exceeds its limit (R349). -/
  | waitlimExpiry (slot : SlotKey)
  /-- PAGE_SERVICE (R246): event: the page service settles a translation failure (R246). -/
  | pageService (id : Nat) (v : PageVerdict)
  /-- BANK_RETENTION (R378): event: a bank enters retention (R378). -/
  | bankRetention (cell : CellKey) (bank : Fin 32)
  /-- WAKE (R95): event: a host rings a queue (R95). -/
  | wake (vf : Fin 128) (q : Fin 64)
  /-- TOKEN_BUCKET_REFILL (R96): event: a token bucket gains tokens for one µs (R96). -/
  | tokenBucketRefill (vf : Fin 128)
  /-- LOAD (R64): event: the loader performs LOAD packet k; `places` are its choices of units (R64, R71). -/
  | load (k : Nat) (places : List Nat)
  /-- QREG (R396): event: a host writes QREG (R396). -/
  | qreg (vf : Fin 128) (q : Fin 64) (addr : Word64)
  /-- QCLEAR (R396): event: a host writes QCLEAR (R396). -/
  | qclear (vf : Fin 128) (q : Fin 64) (skip : Bool)
  /-- FUNCTION_LEVEL_RESET (R98): event: a virtual function is reset (R98). -/
  | functionLevelReset (vf : Fin 128)
  /-- CREATE (R397): event: firmware takes CREATE from the admin queue whose control block is at `cb`; `asid` is its choice (R397, R400). -/
  | create (cb asid : Nat)
  /-- DESTROY (R397): event: firmware takes DESTROY from the admin queue whose control block is at `cb` (R397). -/
  | destroy (cb : Nat)
  /-- INVALIDATE (R397): event: firmware takes INVALIDATE from the admin queue whose control block is at `cb` (R397). -/
  | invalidate (cb : Nat)
  /-- MIGRATE (R397): event: firmware takes MIGRATE from the admin queue whose control block is at `cb` (R397). -/
  | migrate (cb : Nat)
  /-- PARTITION_CHANGE (R125): event: a committed partition takes effect (R125). -/
  | partitionChange (asid : Nat)
  /-- CLOCK_REBASE (R313): event: clocks, stamps and leases return to 0 (R313). -/
  | clockRebase
  /-- SENSOR_SAMPLE (R406): event: the Anole core samples its sensors (R406, R409). -/
  | sensorSample (sample : Sample)
  /-- SET_POWER_CAP (R409): event: the power cap is set, and held against the sample that the Anole core then takes (R409). -/
  | setPowerCap (watts : Nat) (sample : Sample)
  /-- HALT (R377): debug port: halt a slot (R377). -/
  | halt (slot : SlotKey)
  /-- RESUME (R377): debug port: resume a slot (R377). -/
  | resume (slot : SlotKey)
  /-- STEP (R377): debug port: run one word (R377). -/
  | step (slot : SlotKey)
  /-- RDREG (R377): debug port: read a register (R377). -/
  | rdreg (slot : SlotKey) (item : DebugItem)
  /-- WRREG (R377): debug port: write a register (R377). -/
  | wrreg (slot : SlotKey) (item : DebugItem) (vals : List Nat) (pres : Option Pres)
  /-- DBGFLUSH (R377): debug port: discard unstarted operations (R377). -/
  | dbgflush (slot : SlotKey)
  /-- SPILL (R377): debug port: request a spill (R377). -/
  | spill (slot : SlotKey)
  /-- RESTORE (R377): debug port: request a restore (R377). -/
  | restore (slot : SlotKey)
  /-- RDSAVE (R377): debug port: read a save area (R377). -/
  | rdsave (slot : SlotKey)
  /-- LINK_AGENT_ACCESS (R316): event: an access from the pod links is performed (R316). -/
  | linkAgentAccess (acc : LinkAccess)
  /-- HOST_ACCESS (R323): event: a host access to device memory is performed (R323). -/
  | hostAccess (acc : LinkAccess)
  /-- DEVICE_UNREACHABLE (R109): event: a device is counted lost (R109). -/
  | deviceUnreachable (dev : Nat) (reports : List (Nat × PeerReport))
  /-- COLD_BOOT (R404): event: the Anole core boots the device with the table and the image that it fetches (R404). -/
  | coldBoot (fetched : BootFetch)
  /-- LEAPFROG_HANDOVER (R405): event: a new firmware image takes over (R405): step 1 with its table, or, with `finish`, steps 2 and 3. -/
  | leapfrogHandover (table : ConfigTable) (image : FwImage) (finish : Bool)
  /-- FIRMWARE_UPDATE (R407): event: an update is written to flash (R407). -/
  | firmwareUpdate (image : FwImage) (checkOk : Bool)
  /-- SOFT_ERROR (R408): event: a soft error (R408). -/
  | softError (e : SoftErr)
  /-- HBM_SCRUB (R408): event: the HBM is scrubbed (R408). -/
  | hbmScrub
  /-- DEBUGGER_ATTACH (R365): event: a debugger attaches or detaches (R365). -/
  | debuggerAttach (asid : Nat) (on : Bool)
  /-- LINK_DOWN (R406): event: a link port goes down (R406). -/
  | linkDown (port : Fin 24)
  /-- FLIT_REPLAY (R402): event: a flit is replayed (R402). -/
  | flitReplay (port : Fin 24)
deriving DecidableEq, Repr

end Sys2Proof
end

