-- ==== Sys2Proof/WellFormed.lean ====
section
/-! DEFINITION. When an instruction is one the manual lists: the type codes each operation accepts (R33, R224, R250, R282 to
R295, R326) and the limits its definition puts on its fields. Events are well formed as they stand. -/

namespace Sys2Proof

namespace Ty

/-- The code of R33. -/
def code : Ty → Nat
  | b8 => 0 | b16 => 1 | b32 => 2 | b64 => 3 | s8 => 4 | s16 => 5 | s32 => 6 | s64 => 7
  | z8 => 8 | z16 => 9 | z32 => 10 | z64 => 11 | h16 => 12 | bf16 => 13 | f32 => 14 | f64 => 15
  | e4m3 => 16 | e5m2 => 17 | e2m1 => 18 | bf16x2 => 19 | s32x2 => 20 | f32x2 => 21

/-- The width W of an element in bits (R214). -/
def width : Ty → Nat
  | b8 | s8 | z8 | e4m3 | e5m2 => 8
  | b16 | s16 | z16 | h16 | bf16 => 16
  | b32 | s32 | z32 | f32 | bf16x2 => 32
  | b64 | s64 | z64 | f64 | s32x2 | f32x2 => 64
  | e2m1 => 4

/-- Group I of R224: the integer types. -/
def isInt : Ty → Bool
  | s8 | s16 | s32 | s64 | z8 | z16 | z32 | z64 => true
  | _ => false

/-- The signed integer types. -/
def isSigned : Ty → Bool
  | s8 | s16 | s32 | s64 => true
  | _ => false

/-- Group F of R224. -/
def isFloat : Ty → Bool
  | h16 | bf16 | f32 | f64 => true
  | _ => false

/-- Group B of R224. -/
def isRaw : Ty → Bool
  | b8 | b16 | b32 | b64 => true
  | _ => false

/-- The 4-bit and 8-bit float types, which take part in arithmetic only through VCVT and the matrix unit (R226). -/
def isNarrow : Ty → Bool
  | e4m3 | e5m2 | e2m1 => true
  | _ => false

/-- The packed types, with two lanes. -/
def isPacked : Ty → Bool
  | bf16x2 | s32x2 | f32x2 => true
  | _ => false

/-- The number of elements of a vector register, n = 2,048 / W (R214). -/
def count (t : Ty) : Nat := 2048 / t.width

end Ty

/-- The combinations of AMO operation and type that R326 lists. -/
def amoLegal : AmoOp → Ty → Bool
  | _, .s32 | _, .z32 | _, .s64 | _, .z64 | _, .s32x2 => true
  | .and, _ | .or, _ | .xor, _ => false
  | _, .f32 | _, .f64 | _, .bf16 | _, .bf16x2 | _, .f32x2 => true
  | _, _ => false

/-- R32, R224: the rounding field is zero for the types of groups I and B. -/
def rmFits (t : Ty) (rm : Rm) : Bool := t.isFloat || rm == .rne

/-- R50, R151: an absolute target lies on the mesh by its 5-bit fields, and the designator names an s or v register. -/
def Target.wf (t : Target) : Bool :=
  (t.rel || (t.x.toNat ≤ 15 && t.y.toNat ≤ 15)) &&
  match t.reg with
  | .s _ | .v _ => true
  | _ => false

/-- The types of TMMA (R286) and the modifiers that apply to them. -/
def tmmaFits (acc : AccNo) (oa ob : OSlot) (bx : Bool) (t : Ty) (rm : Rm) (xb : Bool) (n : BitVec 5) : Bool :=
  (match t with
    | .s8 => rm == .rne && !xb && !(bx && n.toNat + 1 > 8)
    | .e4m3 | .e5m2 => !bx
    | .h16 | .bf16 | .f64 => !bx && !xb
    | _ => false) &&
  oa.val + n.toNat ≤ 31 && ob.val + n.toNat ≤ 31 &&
  !((t == .f64 || bx) && acc.val % 2 == 1)

/-- R298: the fields of a TMMAR command follow R286, without BX. -/
def TmmarCmd.wf : TmmarCmd → Bool
  | .mma acc oa ob n t rm _ xb => tmmaFits acc oa ob false t rm xb n
  | .zero _ => true

/-- R33, R233: a type VCVT converts from or to. -/
def cvtType (t : Ty) : Bool := t.isInt || t.isFloat || t.isNarrow

/-- R237: the types of VPACK and VUNPK. -/
def packType : Ty → Bool
  | .s16 | .s32 | .s64 | .z16 | .z32 | .z64 | .b16 | .b32 | .b64 => true
  | _ => false

/-- R156: the numbers of the control registers. -/
def cregListed (n : Nat) : Bool :=
  n ≤ 4 || (0x10 ≤ n && n ≤ 0x15) || (0x20 ≤ n && n ≤ 0x23) || n == 0x30 || n == 0x31 || (0x100 ≤ n && n < 0x180)

/-- The numbers whose CSET has a row of its own. -/
def csetOwnRow (n : Nat) : Bool :=
  n == 0x004 || n == 0x011 || n == 0x014 || n == 0x015 || n == 0x030 || n == 0x031 || (0x100 ≤ n && n < 0x180)

/-- R284: a pair register of CAS2, SLR and BSACC is even and from 2 to 30. -/
def pairReg (d : SReg) : Bool := d.val % 2 == 0 && 2 ≤ d.val

/-- Whether the manual lists the instruction with these fields. -/
def Instr.wf : Instr → Bool
  | .bfx _ _ _ w p | .bfi _ _ w p => p.toNat + (w.toNat + 1) ≤ 64
  | .cget _ n => cregListed n.toNat
  | .cset _ n => cregListed n.toNat && !csetOwnRow n.toNat
  | .fwinConfigWrite _ _ k => k.val != 0 && k.val != 5
  | .amo _ _ _ o t | .amon _ _ o t => amoLegal o t
  | .cas _ _ _ t => t == .z32 || t == .z64
  | .cas2 d _ b => pairReg d && b.val % 2 == 0
  | .slr d _ b _ => pairReg d && b.val ≤ 28
  | .slrn _ b _ => b.val ≤ 28
  | .bsacc d _ => pairReg d
  | .rput _ t => t.wf
  | .cpy _ _ acq rel sc _ | .cpyx _ _ acq rel sc _ => acq || rel || sc == .cell
  | .tmmar _ _ c => c.wf
  | .slrinst _ i => 48 ≤ i.toNat
  | .vadd _ _ _ _ t rm | .vsub _ _ _ _ t rm | .vmul _ _ _ _ t rm => (t.isInt || t.isFloat) && rmFits t rm
  | .vdiv _ _ _ _ t _ | .vfma _ _ _ _ _ t _ | .vfms _ _ _ _ _ t _ | .vfnma _ _ _ _ _ t _
  | .vsqrt _ _ _ t _ => t.isFloat
  | .vrcpa _ _ _ t | .vrsqa _ _ _ t | .vexpa _ _ _ t | .vloga _ _ _ t => t.isFloat
  | .vmin _ _ _ _ t | .vmax _ _ _ _ t | .vabs _ _ _ t | .vneg _ _ _ t => t.isInt || t.isFloat
  | .vcmp _ _ _ _ t c => (t.isInt || t.isFloat) && !(t.isInt && c == .un)
  | .vsel _ _ _ _ t | .vand _ _ _ _ t | .vor _ _ _ _ t | .vxor _ _ _ _ t | .vperm _ _ _ _ t => t.isRaw
  | .vnot _ _ _ t | .vcomp _ _ _ t | .vxpnd _ _ _ t | .vmov _ _ _ t => t.isRaw
  | .vshl _ _ _ _ t | .vshrz _ _ _ _ t | .vshrs _ _ _ _ t => t.isInt || t.isRaw
  | .vadds _ _ _ _ t | .vsubs _ _ _ _ t | .vmulh _ _ _ _ t => t.isInt
  | .vdot4 _ _ _ _ t _ => t == .s8 || t == .z8
  | .vcvt _ _ _ td ts _ part _ =>
      cvtType td && cvtType ts && td != ts &&
      part.toNat < max td.width ts.width / min td.width ts.width
  | .vbcast _ _ _ t => t.isRaw
  | .vidx _ _ _ t => t.isInt
  | .vslide _ _ _ _ t k => t.isRaw && k.toNat < t.count
  | .vredadd _ _ _ _ t rm => (t.isInt || t.isFloat) && rmFits t rm
  | .vredmin _ _ _ _ t | .vredmax _ _ _ _ t => t.isInt || t.isFloat
  | .vscan _ _ _ t rm o => (t.isInt || t.isFloat) && (rm == .rne || (t.isFloat && o == .add))
  | .vpack _ _ _ _ t sat => packType t && !(sat && t.isRaw)
  | .vunpk _ _ _ t _ => packType t
  | .vext _ _ t k | .vins _ _ t k => (t.isInt || t.isFloat || t.isRaw) && k.toNat < t.count
  | .mpopc _ _ t | .mfirst _ _ t => t.isRaw
  | .vld _ _ _ t _ | .vst _ _ _ t _ | .vlds _ _ _ _ t | .vsts _ _ _ _ t | .vgath _ _ _ _ t _
  | .vscat _ _ _ _ t _ => t.isRaw
  | .oload _ _ _ t _ _ _ => t == .b8 || t == .b16 || t == .b64
  | .ofill _ _ seg k => seg.toNat + (k.toNat + 1) ≤ 32
  | .tmma acc oa ob c t rm _ xb n => tmmaFits acc oa ob c.isSome t rm xb n
  | .astore _ acc _ _ t _ _ src =>
      (match t with
        | .s8 | .s32 | .e4m3 | .e5m2 | .h16 | .bf16 | .f32 | .f64 => true
        | _ => false) &&
      !((src == .f64 || src == .bx) && acc.val % 2 == 1)
  | _ => true

end Sys2Proof
end

