-- ==== Sys2Proof/Decode.lean ====
section
/-! DEFINITION. The encodings (R28 to R51): from the granules of an internal word to its instructions, and back. Decoding is
total; what it rejects raises F.ILL when the word would issue (R51), and the reason is kept by name. -/

namespace Sys2Proof

/-- Why a sequence of granules is no internal word (R38, R51). -/
inductive Reject where
  /-- A reserved first granule, an X16 other than NOP16, or a sequence of R38. -/
  | badSequence
  /-- A reserved major operation or op. -/
  | reservedOp
  /-- A reserved minor function. -/
  | reservedMinor
  /-- A reserved field code: a condition, a width, a type, a scope, a designator. -/
  | reservedCode
  /-- A nonzero must-be-zero field. -/
  | mustBeZero
  /-- A type or field value that the instruction's definition does not accept. -/
  | illFormed
  /-- Fewer granules than the word has. -/
  | truncated
deriving DecidableEq, Repr

/-! ### Fields -/

/-- Bits [lo + n − 1 : lo] of a value (R6). -/
def field (v lo n : Nat) : Nat := v / 2 ^ lo % 2 ^ n

/-- A 5-bit register field. -/
def field5 (v lo : Nat) : Fin 32 := ⟨field v lo 5, Nat.mod_lt _ (by decide)⟩

/-- A 3-bit register field. -/
def field3 (v lo : Nat) : Fin 8 := ⟨field v lo 3, Nat.mod_lt _ (by decide)⟩

/-- One bit as a truth value. -/
def flag (v lo : Nat) : Bool := field v lo 1 == 1

/-- Accept when a must-be-zero field is zero. -/
def mbz (z : Nat) (i : Instr) : Except Reject Instr := if z = 0 then .ok i else .error .mustBeZero

/-- Go on with a decoded field code, or reject a reserved one. -/
def withCode {α : Type} (o : Option α) (k : α → Except Reject Instr) : Except Reject Instr :=
  match o with
  | some x => k x
  | none => .error .reservedCode

/-! ### Field codes -/

/-- R33. -/
def Ty.ofCode : Nat → Option Ty
  | 0 => some .b8 | 1 => some .b16 | 2 => some .b32 | 3 => some .b64
  | 4 => some .s8 | 5 => some .s16 | 6 => some .s32 | 7 => some .s64
  | 8 => some .z8 | 9 => some .z16 | 10 => some .z32 | 11 => some .z64
  | 12 => some .h16 | 13 => some .bf16 | 14 => some .f32 | 15 => some .f64
  | 16 => some .e4m3 | 17 => some .e5m2 | 18 => some .e2m1
  | 19 => some .bf16x2 | 20 => some .s32x2 | 21 => some .f32x2
  | _ => none

/-- R32. -/
def Rm.code : Rm → Nat
  | .rne => 0 | .rtz => 1 | .rdn => 2 | .rup => 3

/-- R32: every 2-bit code is a rounding mode. -/
def Rm.ofCode (n : Nat) : Rm :=
  match n with
  | 0 => .rne | 1 => .rtz | 2 => .rdn | _ => .rup

/-- R47. -/
def Cond.code : Cond → Nat
  | .eq => 0 | .ne => 1 | .lts => 2 | .ltz => 3 | .les => 4 | .lez => 5

/-- R47. -/
def Cond.ofCode : Nat → Option Cond
  | 0 => some .eq | 1 => some .ne | 2 => some .lts | 3 => some .ltz | 4 => some .les | 5 => some .lez
  | _ => none

/-- R228. -/
def VCond.code : VCond → Nat
  | .eq => 0 | .ne => 1 | .lt => 2 | .le => 3 | .un => 4

/-- R228. -/
def VCond.ofCode : Nat → Option VCond
  | 0 => some .eq | 1 => some .ne | 2 => some .lt | 3 => some .le | 4 => some .un
  | _ => none

/-- R240. -/
def ScanOp.code : ScanOp → Nat
  | .add => 0 | .min => 1 | .max => 2

/-- R240. -/
def ScanOp.ofCode : Nat → Option ScanOp
  | 0 => some .add | 1 => some .min | 2 => some .max
  | _ => none

/-- R47. -/
def LdWidth.code : LdWidth → Nat
  | .s8 => 0 | .s16 => 1 | .s32 => 2 | .z8 => 3 | .z16 => 4 | .z32 => 5 | .b64 => 6

/-- R47. -/
def LdWidth.ofCode : Nat → Option LdWidth
  | 0 => some .s8 | 1 => some .s16 | 2 => some .s32 | 3 => some .z8 | 4 => some .z16 | 5 => some .z32 | 6 => some .b64
  | _ => none

/-- R47. -/
def StWidth.code : StWidth → Nat
  | .b8 => 0 | .b16 => 1 | .b32 => 2 | .b64 => 3

/-- R47. -/
def StWidth.ofCode : Nat → Option StWidth
  | 0 => some .b8 | 1 => some .b16 | 2 => some .b32 | 3 => some .b64
  | _ => none

/-- R47. -/
def AmoOp.code : AmoOp → Nat
  | .add => 0 | .sub => 1 | .min => 2 | .max => 3 | .and => 4 | .or => 5 | .xor => 6 | .swap => 7

/-- R47. -/
def AmoOp.ofCode : Nat → Option AmoOp
  | 0 => some .add | 1 => some .sub | 2 => some .min | 3 => some .max
  | 4 => some .and | 5 => some .or | 6 => some .xor | 7 => some .swap
  | _ => none

/-- R34. -/
def Scope.code : Scope → Nat
  | .cell => 0 | .sector => 1 | .dev => 2 | .pod => 3 | .sys => 4

/-- R34. -/
def Scope.ofCode : Nat → Option Scope
  | 0 => some .cell | 1 => some .sector | 2 => some .dev | 3 => some .pod | 4 => some .sys
  | _ => none

/-- R256. -/
def PrefHint.num : PrefHint → Nat
  | .slc => 0 | .stash => 1 | .code => 2

/-- R256. -/
def PrefHint.ofNum : Nat → Option PrefHint
  | 0 => some .slc | 1 => some .stash | 2 => some .code
  | _ => none

/-- R295. -/
def AccSrc.code : AccSrc → Nat
  | .s32 => 0 | .f32 => 1 | .f64 => 2 | .bx => 3

/-- R295: every 2-bit code is a source form. -/
def AccSrc.ofCode (n : Nat) : AccSrc :=
  match n with
  | 0 => .s32 | 1 => .f32 | 2 => .f64 | _ => .bx

/-- R35. -/
def Desig.code : Desig → Nat
  | .s n => n.val | .p n => 32 + n.val | .v n => 64 + n.val | .m n => 96 + n.val | .acc n => 128 + n.val

/-- R35: for kinds 1, 3 and 4 a number of 8 or more is reserved, and so are kinds 5 to 7. -/
def Desig.ofCode (c : Nat) : Option Desig :=
  let small := field c 3 2 = 0
  match field c 5 3 with
  | 0 => some (.s (field5 c 0))
  | 1 => if small then some (.p (field3 c 0)) else none
  | 2 => some (.v (field5 c 0))
  | 3 => if small then some (.m (field3 c 0)) else none
  | 4 => if small then some (.acc (field3 c 0)) else none
  | _ => none

/-- R50: the 32-bit target, whose bits [6:0] are zero. -/
def Target.code (t : Target) : Nat :=
  t.rel.toNat * 2 ^ 31 + t.x.toNat * 2 ^ 26 + t.y.toNat * 2 ^ 21 + t.core.val * 2 ^ 19 + t.slot.val * 2 ^ 15 +
    t.reg.code * 2 ^ 7

/-- R50: the fields of a 32-bit target; bits [6:0] are checked by the caller. -/
def Target.ofCode (w : Nat) : Option Target :=
  match Desig.ofCode (field w 7 8) with
  | some r => some
      { rel := flag w 31, x := BitVec.ofNat 5 (field w 26 5), y := BitVec.ofNat 5 (field w 21 5),
        core := ⟨field w 19 2, Nat.mod_lt _ (by decide)⟩, slot := ⟨field w 15 4, Nat.mod_lt _ (by decide)⟩, reg := r }
  | none => none

/-- R298: the command in imm32. -/
def TmmarCmd.code : TmmarCmd → Nat
  | .mma acc oa ob n t rm z xb =>
      acc.val * 2 ^ 26 + oa.val * 2 ^ 21 + ob.val * 2 ^ 16 + n.toNat * 2 ^ 11 + t.code * 2 ^ 6 + rm.code * 2 ^ 4 +
        z.toNat * 2 ^ 3 + xb.toNat * 2 ^ 2
  | .zero acc => 2 ^ 29 + acc.val * 2 ^ 26

/-- R298: CMD 2 to 7 are reserved; fields [25:2] are zero for ZERO, and [1:0] always. -/
def TmmarCmd.ofCode (w : Nat) : Except Reject TmmarCmd :=
  match field w 29 3 with
  | 0 =>
    match Ty.ofCode (field w 6 5) with
    | some t =>
      if field w 0 2 = 0 then
        .ok (.mma (field3 w 26) (field5 w 21) (field5 w 16) (BitVec.ofNat 5 (field w 11 5)) t
          (Rm.ofCode (field w 4 2)) (flag w 3) (flag w 2))
      else .error .mustBeZero
    | none => .error .reservedCode
  | 1 => if field w 0 26 = 0 then .ok (.zero (field3 w 26)) else .error .mustBeZero
  | _ => .error .reservedCode

/-! ### S32 (R30, R46) -/

/-- R163: the minor operations of major 0x01. -/
def aluMinor (d a b : SReg) : Nat → Except Reject Instr
  | 0 => .ok (.add d a b) | 1 => .ok (.sub d a b) | 2 => .ok (.mul d a b) | 3 => .ok (.mulhs d a b)
  | 4 => .ok (.mulhz d a b) | 5 => .ok (.divs d a b) | 6 => .ok (.divz d a b) | 7 => .ok (.rems d a b)
  | 8 => .ok (.remz d a b) | 9 => .ok (.and d a b) | 10 => .ok (.or d a b) | 11 => .ok (.xor d a b)
  | 12 => .ok (.andn d a b) | 13 => .ok (.shl d a b) | 14 => .ok (.shrz d a b) | 15 => .ok (.shrs d a b)
  | 16 => .ok (.rotl d a b) | 17 => .ok (.mins d a b) | 18 => .ok (.minz d a b) | 19 => .ok (.maxs d a b)
  | 20 => .ok (.maxz d a b)
  | _ => .error .reservedMinor

/-- R167: the minor operations of major 0x02. -/
def unaryMinor (d a : SReg) : Nat → Except Reject Instr
  | 0 => .ok (.clz d a) | 1 => .ok (.ctz d a) | 2 => .ok (.popc d a) | 3 => .ok (.bswap d a)
  | 4 => .ok (.sext8 d a) | 5 => .ok (.sext16 d a) | 6 => .ok (.sext32 d a)
  | _ => .error .reservedMinor

/-- R175: the minor operations of major 0x0E; a guard field has zero upper bits (R31). -/
def guardMinor (v : Nat) : Except Reject Instr :=
  let dHi := field v 22 2
  let aHi := field v 17 2
  let bHi := field v 12 2
  let d3 := field3 v 19
  let a3 := field3 v 14
  let b3 := field3 v 9
  match field v 0 9 with
  | 0 => mbz (dHi + aHi + bHi) (.pand d3 a3 b3)
  | 1 => mbz (dHi + aHi + bHi) (.por d3 a3 b3)
  | 2 => mbz (dHi + aHi + bHi) (.pxor d3 a3 b3)
  | 3 => mbz (dHi + aHi + field v 9 5) (.pnot d3 a3)
  | 4 => mbz (aHi + field v 9 5) (.movpFrom (field5 v 19) a3)
  | 5 => mbz (dHi + field v 9 5) (.movpTo d3 (field5 v 14))
  | _ => .error .reservedMinor

/-- R155, R156: CSET by register number. -/
def csetNumber (a : SReg) (n : BitVec 14) : Instr :=
  match n.toNat with
  | 0x004 => .csetVwin a
  | 0x011 => .csetLlease a
  | 0x014 => .csetDeqbase a
  | 0x015 => .csetSpeclim a
  | 0x030 => .csetPbase a
  | 0x031 => .csetPlen a
  | m =>
    if 0x100 ≤ m ∧ m < 0x180 then
      let w : Fin 16 := ⟨field m 3 4, Nat.mod_lt _ (by decide)⟩
      match field m 0 3 with
      | 0 => .fwinWord0Write a w
      | 5 => .inval a w
      | _ => .fwinConfigWrite a w (field3 m 0)
    else .cset a n

/-- R182: the minor operations of major 0x1E. -/
def systemMinor : Nat → Except Reject Instr
  | 0 => .ok .nop | 1 => .ok .idle | 2 => .ok .done | 3 => .ok .ifence | 4 => .ok .tret | 5 => .ok .brk
  | 6 => .ok .amow
  | _ => .error .reservedMinor

/-- R346: the full/empty word instructions. -/
def fullEmptyOp (v : Nat) : Except Reject Instr :=
  let d := field5 v 19
  let a := field5 v 14
  let o := BitVec.ofNat 11 (field v 0 11)
  match field v 11 3 with
  | 0 => .ok (.ldf d a o)
  | 1 => .ok (.ldfk d a o)
  | 2 => .ok (.ste d a o)
  | 3 => .ok (.stff d a o)
  | 4 => mbz d.val (.fclr a o)
  | 5 => .ok (.feq d a o)
  | _ => .error .reservedMinor

/-- R46: an S32 from its value V, whose bit 30 (P) the caller has read. -/
def decodeS32 (v : Nat) : Except Reject Instr :=
  let d := field5 v 19
  let a := field5 v 14
  let b := field5 v 9
  let f9 := field v 0 9
  let n14 := field v 0 14
  let i14 := BitVec.ofNat 14 n14
  match field v 24 6 with
  | 0x01 => aluMinor d a b f9
  | 0x02 => if b.val = 0 then unaryMinor d a f9 else .error .mustBeZero
  | 0x03 => mbz (field v 0 4) (.madd d a b (field5 v 4))
  | 0x04 => .ok (.addiS d a i14)
  | 0x05 => .ok (.andiS d a i14)
  | 0x06 => .ok (.oriS d a i14)
  | 0x07 => .ok (.xoriS d a i14)
  | 0x08 => mbz (field v 6 8) (.shli d a (BitVec.ofNat 6 (field v 0 6)))
  | 0x09 => mbz (field v 7 7) (.shri d a (flag v 6) (BitVec.ofNat 6 (field v 0 6)))
  | 0x0A => mbz (field v 13 1) (.bfx d a (flag v 12) (BitVec.ofNat 6 (field v 6 6)) (BitVec.ofNat 6 (field v 0 6)))
  | 0x0B => mbz (field v 12 2) (.bfi d a (BitVec.ofNat 6 (field v 6 6)) (BitVec.ofNat 6 (field v 0 6)))
  | 0x0C => withCode (Cond.ofCode (field v 6 3)) fun c => mbz (field v 22 2 + field v 0 6) (.cmp (field3 v 19) a b c)
  | 0x0D => withCode (Cond.ofCode (field v 11 3)) fun c =>
      mbz (field v 22 2) (.cmpi (field3 v 19) a c (BitVec.ofNat 11 (field v 0 11)))
  | 0x0E => guardMinor v
  | 0x0F => mbz (field v 0 5) (.sel d a b (field3 v 6) (flag v 5))
  | 0x10 =>
    if field v 2 1 = 1 then .error .reservedCode
    else mbz (field v 3 6) (.xya d a b (flag v 1) (flag v 0))
  | 0x11 => mbz a.val (.cget d i14)
  | 0x12 => mbz d.val (csetNumber a i14)
  | 0x13 => withCode (Desig.ofCode (field v 0 8)) fun k => mbz (field v 22 2 + a.val + field v 8 6) (.pres (field3 v 19) k)
  | 0x14 => withCode (Desig.ofCode (field v 0 8)) fun k => mbz (d.val + a.val + field v 8 6) (.drop k)
  | 0x15 => .ok (.br (BitVec.ofNat 24 (field v 0 24)))
  | 0x16 => .ok (.call (BitVec.ofNat 24 (field v 0 24)))
  | 0x17 => mbz (d.val + n14) (.jr a)
  | 0x18 => mbz n14 (.callr d a)
  | 0x19 => mbz (field v 0 24) .ret
  | 0x1A => mbz d.val (.loop a i14)
  | 0x1B => .ok (.loopi (BitVec.ofNat 10 (field v 14 10)) i14)
  | 0x1C => mbz d.val (.fork a i14)
  | 0x1D => mbz (d.val + n14) (.join a)
  | 0x1E => if field v 9 15 = 0 then systemMinor f9 else .error .mustBeZero
  | 0x1F => mbz (d.val + a.val) (.trap i14)
  | 0x20 => mbz (d.val + n14) (.callh a)
  | 0x21 => mbz f9 (.spec d a b)
  | 0x22 => mbz (d.val + n14) (.rfree a)
  | 0x23 => mbz n14 (.rinfo d a)
  | 0x24 => mbz (d.val + f9) (.sstart a b)
  | 0x25 => mbz n14 (.sreap d a)
  | 0x26 => mbz n14 (.sstat d a)
  | 0x27 => mbz n14 (.tnext d a)
  | 0x28 =>
    match f9 with
    | 0 => mbz b.val (.launch d a)
    | 1 => mbz (d.val + b.val) (.gcancelDrain a)
    | 2 => mbz (d.val + b.val) (.gcancelKill a)
    | 3 => mbz b.val (.gstat d a)
    | _ => .error .reservedMinor
  | 0x29 =>
    match f9 with
    | 0 => .ok (.chsend d a b)
    | 1 => .ok (.chrecv d a b)
    | 2 => .ok (.getstate d a b)      -- CHCTL: one word for the six rows of R120
    | _ => .error .reservedMinor
  | 0x2A => withCode (LdWidth.ofCode (field v 11 3)) fun w => .ok (.ldOff d a w (BitVec.ofNat 11 (field v 0 11)))
  | 0x2B => withCode (LdWidth.ofCode (field v 6 3)) fun w =>
      mbz (field v 0 3) (.ldIdx d a b w (BitVec.ofNat 3 (field v 3 3)))
  | 0x2C => withCode (StWidth.ofCode (field v 11 3)) fun w => .ok (.stOff d a w (BitVec.ofNat 11 (field v 0 11)))
  | 0x2D => withCode (StWidth.ofCode (field v 6 3)) fun w =>
      mbz (field v 0 3) (.stIdx d a b w (BitVec.ofNat 3 (field v 3 3)))
  | 0x2E => fullEmptyOp v
  | 0x2F => withCode (AmoOp.ofCode (field v 5 4)) fun o => withCode (Ty.ofCode (field v 0 5)) fun t => .ok (.amo d a b o t)
  | 0x30 => withCode (AmoOp.ofCode (field v 5 4)) fun o => withCode (Ty.ofCode (field v 0 5)) fun t =>
      mbz d.val (.amon a b o t)
  | 0x31 => withCode (Ty.ofCode (field v 0 5)) fun t => mbz (field v 5 4) (.cas d a b t)
  | 0x32 => mbz f9 (.cas2 d a b)
  | 0x33 => mbz (field v 6 3) (.slr d a b (BitVec.ofNat 6 (field v 0 6)))
  | 0x34 => mbz (d.val + field v 6 3) (.slrn a b (BitVec.ofNat 6 (field v 0 6)))
  | 0x35 =>
    match f9 with
    | 0 => mbz b.val (.lrw d a)
    | 1 => mbz d.val (.sch a b)
    | 2 => mbz (d.val + b.val) (.schx a)
    | _ => .error .reservedMinor
  | 0x36 =>
    let n : Fin 64 := ⟨field v 0 6, Nat.mod_lt _ (by decide)⟩
    match field v 6 3 with
    | 0 => mbz (d.val + b.val) (.bari a n)
    | 1 => mbz (a.val + b.val) (.bara d n)
    | 2 => mbz b.val (.barw d a n)
    | 3 => mbz b.val (.barq d a n)
    | _ => .error .reservedMinor
  | 0x37 => withCode (Scope.ofCode (field v 0 3)) fun s => mbz (field v 3 21) (.fence s)
  | 0x38 =>
    match f9 with
    | 0 => .ok (.cpyw d a b)
    | 1 => mbz b.val (.cpyq d a)
    | _ => .error .reservedMinor
  | 0x39 => withCode (PrefHint.ofNum (field v 12 2)) fun h => mbz d.val (.pref a h (BitVec.ofNat 12 (field v 0 12)))
  | 0x3A =>
    match f9 with
    | 0 => .ok (.stmap d a b)
    | 1 => mbz b.val (.stunmap d a)
    | 2 => mbz b.val (.stflush d a)
    | _ => .error .reservedMinor
  | 0x3B =>
    match f9 with
    | 0 => mbz b.val (.oclaim d a)
    | 1 => mbz (d.val + b.val) (.orel a)
    | 2 => .ok (.mxwait d a b)
    | 3 => mbz b.val (.mxcap d a)
    | 4 => .ok (.bsum d a b)
    | 5 => mbz b.val (.bsacc d a)
    | _ => .error .reservedMinor
  | _ => .error .reservedOp

/-! ### V48 (R30, R48, R224, R250, R282 to R295) -/

/-- R224, R250 and the matrix chapter: a V48 from its value V. -/
def decodeV48 (v : Nat) : Except Reject Instr :=
  let d := field5 v 33
  let a := field5 v 28
  let b := field5 v 23
  let c := field5 v 18
  let m := field3 v 15
  let f := field v 0 10
  let rm := Rm.ofCode (field v 8 2)
  let lo8 := field v 0 8
  -- a field that names a mask or a tile has zero upper bits (R31)
  let dHi := field v 36 2
  let aHi := field v 31 2
  let bHi := field v 26 2
  let d3 := field3 v 33
  let a3 := field3 v 28
  let b3 := field3 v 23
  withCode (Ty.ofCode (field v 10 5)) fun t =>
  match field v 38 8 with
  | 0x01 => mbz (c.val + lo8) (.vadd d a b m t rm)
  | 0x02 => mbz (c.val + lo8) (.vsub d a b m t rm)
  | 0x03 => mbz (c.val + lo8) (.vmul d a b m t rm)
  | 0x04 => mbz lo8 (.vfma d a b c m t rm)
  | 0x05 => mbz lo8 (.vfms d a b c m t rm)
  | 0x06 => mbz lo8 (.vfnma d a b c m t rm)
  | 0x07 => mbz (c.val + f) (.vmin d a b m t)
  | 0x08 => mbz (c.val + f) (.vmax d a b m t)
  | 0x09 => mbz (b.val + c.val + f) (.vabs d a m t)
  | 0x0A => mbz (b.val + c.val + f) (.vneg d a m t)
  | 0x0B => mbz (c.val + lo8) (.vdiv d a b m t rm)
  | 0x0C => mbz (b.val + c.val + lo8) (.vsqrt d a m t rm)
  | 0x0D => mbz (b.val + c.val + f) (.vrcpa d a m t)
  | 0x0E => mbz (b.val + c.val + f) (.vrsqa d a m t)
  | 0x0F => mbz (b.val + c.val + f) (.vexpa d a m t)
  | 0x10 => mbz (b.val + c.val + f) (.vloga d a m t)
  | 0x11 => withCode (VCond.ofCode (field v 0 3)) fun k => mbz (dHi + c.val + field v 3 7) (.vcmp d3 a b m t k)
  | 0x12 => mbz (c.val + f) (.vsel d a b m t)
  | 0x13 => mbz (c.val + f) (.vand d a b m t)
  | 0x14 => mbz (c.val + f) (.vor d a b m t)
  | 0x15 => mbz (c.val + f) (.vxor d a b m t)
  | 0x16 => mbz (b.val + c.val + f) (.vnot d a m t)
  | 0x17 => if flag v 0 then mbz (b.val + field v 1 9) (.vshl d a (.sca c) m t)
            else mbz (c.val + f) (.vshl d a (.vec b) m t)
  | 0x18 => if flag v 0 then mbz (b.val + field v 1 9) (.vshrz d a (.sca c) m t)
            else mbz (c.val + f) (.vshrz d a (.vec b) m t)
  | 0x19 => if flag v 0 then mbz (b.val + field v 1 9) (.vshrs d a (.sca c) m t)
            else mbz (c.val + f) (.vshrs d a (.vec b) m t)
  | 0x1A => mbz (c.val + f) (.vadds d a b m t)
  | 0x1B => mbz (c.val + f) (.vsubs d a b m t)
  | 0x1C => mbz (c.val + f) (.vmulh d a b m t)
  | 0x1D => mbz (c.val + field v 1 9) (.vdot4 d a b m t (flag v 0))
  | 0x1E => withCode (Ty.ofCode b.val) fun ts =>
      mbz (c.val + field v 4 4) (.vcvt d a m t ts rm (BitVec.ofNat 3 (field v 1 3)) (flag v 0))
  | 0x1F => mbz (a.val + b.val + f) (.vbcast d c m t)
  | 0x20 => mbz (a.val + b.val + f) (.vidx d c m t)
  | 0x21 => mbz (c.val + f) (.vperm d a b m t)
  | 0x22 => mbz (c.val + field v 8 2) (.vslide d a b m t (BitVec.ofNat 8 lo8))
  | 0x23 => mbz (b.val + lo8) (.vredadd d a c m t rm)
  | 0x24 => mbz (b.val + f) (.vredmin d a c m t)
  | 0x25 => mbz (b.val + f) (.vredmax d a c m t)
  | 0x26 => withCode (ScanOp.ofCode (field v 0 2)) fun o => mbz (b.val + c.val + field v 2 6) (.vscan d a m t rm o)
  | 0x27 => mbz (b.val + c.val + f) (.vcomp d a m t)
  | 0x28 => mbz (b.val + c.val + f) (.vxpnd d a m t)
  | 0x29 => mbz (c.val + field v 1 9) (.vpack d a b m t (flag v 0))
  | 0x2A => mbz (b.val + c.val + field v 1 9) (.vunpk d a m t (flag v 0))
  | 0x2B => mbz (b.val + c.val + f) (.vmov d a m t)
  | 0x2C => mbz (b.val + c.val + m.val + field v 8 2) (.vext d a t (BitVec.ofNat 8 lo8))
  | 0x2D => mbz (a.val + b.val + m.val + field v 8 2) (.vins d c t (BitVec.ofNat 8 lo8))
  | 0x2E => if t = .b8 then mbz (dHi + aHi + bHi + c.val + m.val + f) (.mand d3 a3 b3) else .error .illFormed
  | 0x2F => if t = .b8 then mbz (dHi + aHi + bHi + c.val + m.val + f) (.mor d3 a3 b3) else .error .illFormed
  | 0x30 => if t = .b8 then mbz (dHi + aHi + bHi + c.val + m.val + f) (.mxor d3 a3 b3) else .error .illFormed
  | 0x31 => if t = .b8 then mbz (dHi + aHi + b.val + c.val + m.val + f) (.mnot d3 a3) else .error .illFormed
  | 0x32 => mbz (aHi + b.val + c.val + m.val + f) (.mpopc d a3 t)
  | 0x33 => mbz (aHi + b.val + c.val + m.val + f) (.mfirst d a3 t)
  | 0x40 => mbz (a.val + b.val) (.vld d c m t (BitVec.ofNat 10 f))
  | 0x41 => mbz (d.val + b.val) (.vst a c m t (BitVec.ofNat 10 f))
  | 0x42 => mbz (a.val + f) (.vlds d b c m t)
  | 0x43 => mbz (d.val + f) (.vsts a b c m t)
  | 0x44 => mbz (b.val + field v 3 7) (.vgath d a c m t (BitVec.ofNat 3 (field v 0 3)))
  | 0x45 => mbz (d.val + field v 3 7) (.vscat a b c m t (BitVec.ofNat 3 (field v 0 3)))
  | 0x50 =>
    if field v 1 1 = 1 then .error .reservedCode
    else if flag v 4 then withCode (Scope.ofCode (field v 5 3)) fun s =>
      mbz (a.val + m.val + field v 8 2 + field v 3 1) (.oload d b c t (flag v 2) (flag v 0) (some s))
    else mbz (a.val + m.val + field v 5 5 + field v 3 1) (.oload d b c t (flag v 2) (flag v 0) none)
  | 0x51 => if t = .b8 then
      mbz (b.val + c.val + m.val) (.ofill d a (BitVec.ofNat 5 (field v 5 5)) (BitVec.ofNat 5 (field v 0 5)))
    else .error .illFormed
  | 0x52 =>
    if flag v 7 then
      mbz (dHi + m.val) (.tmma d3 a b (some c) t rm (flag v 6) (flag v 5) (BitVec.ofNat 5 (field v 0 5)))
    else
      mbz (dHi + m.val + c.val) (.tmma d3 a b none t rm (flag v 6) (flag v 5) (BitVec.ofNat 5 (field v 0 5)))
  | 0x53 => if t = .b32 then mbz (dHi + a.val + b.val + c.val + m.val + f) (.azero d3) else .error .illFormed
  | 0x54 =>
    if flag v 7 then
      mbz (aHi + m.val + field v 0 4) (.astore d a3 (some b) c t rm (flag v 6) (AccSrc.ofCode (field v 4 2)))
    else
      mbz (aHi + m.val + b.val + field v 0 4) (.astore d a3 none c t rm (flag v 6) (AccSrc.ofCode (field v 4 2)))
  | 0x55 => if t = .b32 then mbz (aHi + b.val + c.val + m.val + field v 6 4) (.avec d a3 (BitVec.ofNat 6 (field v 0 6)))
    else .error .illFormed
  | _ => .error .reservedOp

/-! ### L64 (R30, R49) -/

/-- R262: the copy instructions' fields. -/
def decodeCopy (v : Nat) (mk : SReg → SReg → Bool → Bool → Scope → Fin 128 → Instr) : Except Reject Instr :=
  withCode (Scope.ofCode (field v 38 3)) fun s =>
    mbz (field v 32 6 + field v 7 25)
      (mk (field5 v 48) (field5 v 43) (flag v 42) (flag v 41) s ⟨field v 0 7, Nat.mod_lt _ (by decide)⟩)

/-- R49: an L64 from its value V. -/
def decodeL64 (v : Nat) : Except Reject Instr :=
  let d := field5 v 48
  let a := field5 v 43
  let mo := field v 32 11
  let w := field v 0 32
  let i := BitVec.ofNat 32 w
  match field v 53 8 with
  | 0x01 => mbz (a.val + mo) (.li d i)
  | 0x02 => mbz (a.val + mo) (.lih d i)
  | 0x03 => withCode (Target.ofCode w) fun t => mbz (d.val + mo + field w 0 7) (.rput a t)
  | 0x04 => decodeCopy v .cpy
  | 0x05 => decodeCopy v .cpyx
  | 0x06 =>
    match TmmarCmd.ofCode w with
    | .ok c => mbz mo (.tmmar d a c)
    | .error e => .error e
  | 0x07 => mbz (d.val + mo + field w 6 26) (.slrinst a (BitVec.ofNat 6 (field w 0 6)))
  | 0x08 => mbz mo (.addiL d a i)
  | 0x09 => mbz mo (.andiL d a i)
  | 0x0A => mbz mo (.oriL d a i)
  | 0x0B => mbz mo (.xoriL d a i)
  | _ => .error .reservedOp

/-- Accept only what the manual lists (R51). -/
def checked (r : Except Reject Instr) : Except Reject Instr :=
  match r with
  | .ok i => if i.wf then .ok i else .error .illFormed
  | .error e => .error e

/-! ### Classes and internal words (R29, R37, R38) -/

/-- The class of an instruction, by bits [15:11] of its first granule (R29). -/
inductive GranuleClass where
  | s32 | v48 | l64 | g16 | x16 | reserved
deriving DecidableEq, Repr

/-- R29. -/
def classOf (g : BitVec 16) : GranuleClass :=
  let top := field g.toNat 11 5
  if top < 16 then .s32
  else if top < 24 then .v48
  else if top < 28 then .l64
  else if top < 30 then .g16
  else if top = 30 then .x16
  else .reserved

/-- The guard prefix of a word (R30): guard register and the negate bit. -/
structure GuardField where
  neg : Bool
  reg : GReg
deriving DecidableEq, Repr

/-- What an internal word holds (R37). -/
inductive Body where
  | single (i : Instr)
  | pair (sc vec : Instr)
deriving DecidableEq, Repr

/-- An internal word: an optional G16 and a body. -/
structure IWord where
  guard : Option GuardField
  body  : Body
deriving DecidableEq, Repr

/-- How many granules the part after a G16 has, as far as the granules at hand decide it (R29, R37); the answer is one more
than there are while it is undecided. How many granules a sequence has that is no instruction (R38) the manual leaves open: an S32
with P = 1 takes the third granule, and five where that is a V48, whatever its major operation (log entry 56, DESIGN CHOICE). -/
def bodyNeed (gs : List (BitVec 16)) : Nat :=
  match gs with
  | [] => 1
  | g :: rest =>
    match classOf g with
    | .s32 =>
      if field g.toNat 14 1 = 1 then
        match rest with
        | _ :: h :: _ => if classOf h = .v48 then 5 else 3
        | _ => 3
      else 2
    | .v48 => 3
    | .l64 => 4
    | _ => 1

/-- How many granules the word that starts with these granules has. -/
def wordNeed (gs : List (BitVec 16)) : Nat :=
  match gs with
  | [] => 1
  | g :: rest => if classOf g = .g16 then 1 + bodyNeed rest else bodyNeed gs

/-- The value V of granules, the most significant first (R28). -/
def valueOf (gs : List (BitVec 16)) : Nat := gs.foldl (fun v g => v * 65536 + g.toNat) 0

/-- R37, R38: the body from its granules. -/
def decodeBody (gs : List (BitVec 16)) : Except Reject Body :=
  match gs with
  | [] => .error .truncated
  | g :: _ =>
    match classOf g with
    | .s32 =>
      if gs.length < 2 then .error .truncated
      else
        let v := valueOf (gs.take 2)
        match checked (decodeS32 v) with
        | .error e => .error e
        | .ok i =>
          if field v 30 1 = 1 then
            if 1 ≤ field v 24 6 ∧ field v 24 6 ≤ 0x10 then
              match gs.drop 2 with
              | [] => .error .truncated
              | h :: _ =>
                if classOf h = .v48 then
                  if gs.length < 5 then .error .truncated
                  else match checked (decodeV48 (valueOf ((gs.drop 2).take 3))) with
                    | .ok j => .ok (.pair i j)
                    | .error e => .error e
                else .error .badSequence
            else .error .badSequence
          else .ok (.single i)
    | .v48 =>
      if gs.length < 3 then .error .truncated
      else match checked (decodeV48 (valueOf (gs.take 3))) with
        | .ok i => .ok (.single i)
        | .error e => .error e
    | .l64 =>
      if gs.length < 4 then .error .truncated
      else match checked (decodeL64 (valueOf (gs.take 4))) with
        | .ok i => .ok (.single i)
        | .error e => .error e
    | .x16 => if g = 0xF000#16 then .ok (.single .nop16) else .error .badSequence
    | _ => .error .badSequence

/-- The scalar register a vector operation writes, if any (R224). -/
def scalarDestV : Instr → Option SReg
  | .vredadd d .. | .vredmin d .. | .vredmax d .. | .vext d .. | .mpopc d .. | .mfirst d .. => some d
  | _ => none

/-- The scalar register the scalar half of a pair writes, if any (R163 to R177). -/
def scalarDestS : Instr → Option SReg
  | .add d .. | .sub d .. | .mul d .. | .mulhs d .. | .mulhz d .. | .divs d .. | .divz d .. | .rems d .. | .remz d ..
  | .and d .. | .or d .. | .xor d .. | .andn d .. | .shl d .. | .shrz d .. | .shrs d .. | .rotl d .. | .mins d ..
  | .minz d .. | .maxs d .. | .maxz d .. | .clz d .. | .ctz d .. | .popc d .. | .bswap d .. | .sext8 d .. | .sext16 d ..
  | .sext32 d .. | .madd d .. | .addiS d .. | .andiS d .. | .oriS d .. | .xoriS d .. | .shli d .. | .shri d ..
  | .bfx d .. | .bfi d .. | .movpFrom d .. | .sel d .. | .xya d .. => some d
  | _ => none

/-- R38: a pair in which both halves write the same scalar register. Two halves that name s0 count, though the write is discarded
(R146): log entry 56, DESIGN CHOICE. -/
def pairClash (i j : Instr) : Bool :=
  match scalarDestS i, scalarDestV j with
  | some d, some e => d == e
  | _, _ => false

/-- The internal word that these granules are (R37, R38). -/
def decodeWord (gs : List (BitVec 16)) : Except Reject IWord :=
  match gs with
  | [] => .error .truncated
  | g :: rest =>
    let guard : Option GuardField :=
      if classOf g = .g16 then some { neg := flag g.toNat 11, reg := field3 g.toNat 8 } else none
    let tail := if classOf g = .g16 then rest else gs
    if classOf g = .g16 ∧ field g.toNat 0 8 ≠ 0 then .error .mustBeZero
    else match decodeBody tail with
      | .error e => .error e
      | .ok (.pair i j) => if pairClash i j then .error .badSequence else .ok ⟨guard, .pair i j⟩
      | .ok (.single i) =>
        if i = .nop16 ∧ guard.isSome then .error .badSequence else .ok ⟨guard, .single i⟩

/-- R39: the 96-bit layout into which the instruction cache expands the word of these granules. A word that raises F.ILL has LEN 7;
its other fields are filled as those of a word of its classes (log entry 56, DESIGN CHOICE). -/
def expandWord (gs : List (BitVec 16)) : BitVec 96 :=
  let g := gs.headD 0
  let guarded := classOf g == .g16
  let body := if guarded then gs.drop 1 else gs
  let off := if guarded then 2 else 0
  let legal := match decodeWord gs with | .ok _ => true | .error _ => false
  let len := if legal then gs.length - 1 else 7
  let parts : Nat × Nat × Nat :=
    match body with
    | [] => (0, 0xFF, 0)
    | h :: _ =>
      match classOf h with
      | .s32 => (valueOf (body.take 2), off, if field h.toNat 14 1 = 1 then valueOf ((body.drop 2).take 3) else 0)
      | .v48 => (0, 0xFF, valueOf (body.take 3))
      | .l64 =>
        let v := valueOf (body.take 4)
        (v / 2 ^ 32, field v 24 8, field v 0 24 * 2 ^ 24)
      | _ => (0, 0xFF, 0)
  let pre := if guarded then 2 ^ 95 + field g.toNat 11 1 * 2 ^ 94 + field g.toNat 8 3 * 2 ^ 91 else 0
  BitVec.ofNat 96 (pre + len * 2 ^ 88 + parts.1 * 2 ^ 56 + parts.2.1 * 2 ^ 48 + parts.2.2)

/-- The granules of a value of `n` granules, the most significant first (R28). -/
def granulesOf (n v : Nat) : List (BitVec 16) :=
  match n with
  | 0 => []
  | k + 1 => granulesOf k (v / 65536) ++ [BitVec.ofNat 16 (v % 65536)]

/-- The host's question (bits numbered as in V, R6): the instruction of a value of `nbits` bits, followed by zero
granules. -/
def decodeTableWord (nbits w : Nat) : Option Instr :=
  let gs := granulesOf (nbits / 16) w ++ List.replicate 6 0#16
  match decodeWord gs with
  | .ok ⟨_, .single i⟩ => some i
  | _ => none

/-! ### The encoder, from the same tables -/

/-- The S32 R form. -/
def s32R (maj d a b f9 : Nat) : Nat := maj * 2 ^ 24 + d * 2 ^ 19 + a * 2 ^ 14 + b * 2 ^ 9 + f9

/-- The S32 I form. -/
def s32I (maj d a i14 : Nat) : Nat := maj * 2 ^ 24 + d * 2 ^ 19 + a * 2 ^ 14 + i14

/-- The V48 form. -/
def v48F (op d a b c m : Nat) (t : Ty) (f : Nat) : Nat :=
  2 ^ 47 + op * 2 ^ 38 + d * 2 ^ 33 + a * 2 ^ 28 + b * 2 ^ 23 + c * 2 ^ 18 + m * 2 ^ 15 + t.code * 2 ^ 10 + f

/-- The L64 form. -/
def l64F (op d a mo w : Nat) : Nat := 2 ^ 63 + 2 ^ 62 + op * 2 ^ 53 + d * 2 ^ 48 + a * 2 ^ 43 + mo * 2 ^ 32 + w

/-- The copy instructions' modifier (R262). -/
def copyMod (acq rel : Bool) (sc : Scope) : Nat := acq.toNat * 2 ^ 10 + rel.toNat * 2 ^ 9 + sc.code * 2 ^ 6

/-- The shift count's fields b, c and func10[0] (R224). -/
def ShCount.fields : ShCount → Nat × Nat × Nat
  | .vec b => (b.val, 0, 0)
  | .sca c => (0, c.val, 1)

/-- The value V of an instruction and its length in granules; none for an event. -/
def encodeValue : Instr → Option (Nat × Nat)
  | .add d a b => some (2, s32R 1 d a b 0)
  | .sub d a b => some (2, s32R 1 d a b 1)
  | .mul d a b => some (2, s32R 1 d a b 2)
  | .mulhs d a b => some (2, s32R 1 d a b 3)
  | .mulhz d a b => some (2, s32R 1 d a b 4)
  | .divs d a b => some (2, s32R 1 d a b 5)
  | .divz d a b => some (2, s32R 1 d a b 6)
  | .rems d a b => some (2, s32R 1 d a b 7)
  | .remz d a b => some (2, s32R 1 d a b 8)
  | .and d a b => some (2, s32R 1 d a b 9)
  | .or d a b => some (2, s32R 1 d a b 10)
  | .xor d a b => some (2, s32R 1 d a b 11)
  | .andn d a b => some (2, s32R 1 d a b 12)
  | .shl d a b => some (2, s32R 1 d a b 13)
  | .shrz d a b => some (2, s32R 1 d a b 14)
  | .shrs d a b => some (2, s32R 1 d a b 15)
  | .rotl d a b => some (2, s32R 1 d a b 16)
  | .mins d a b => some (2, s32R 1 d a b 17)
  | .minz d a b => some (2, s32R 1 d a b 18)
  | .maxs d a b => some (2, s32R 1 d a b 19)
  | .maxz d a b => some (2, s32R 1 d a b 20)
  | .clz d a => some (2, s32R 2 d a 0 0)
  | .ctz d a => some (2, s32R 2 d a 0 1)
  | .popc d a => some (2, s32R 2 d a 0 2)
  | .bswap d a => some (2, s32R 2 d a 0 3)
  | .sext8 d a => some (2, s32R 2 d a 0 4)
  | .sext16 d a => some (2, s32R 2 d a 0 5)
  | .sext32 d a => some (2, s32R 2 d a 0 6)
  | .madd d a b c => some (2, s32R 3 d a b (c * 2 ^ 4))
  | .addiS d a i => some (2, s32I 4 d a i.toNat)
  | .andiS d a i => some (2, s32I 5 d a i.toNat)
  | .oriS d a i => some (2, s32I 6 d a i.toNat)
  | .xoriS d a i => some (2, s32I 7 d a i.toNat)
  | .shli d a n => some (2, s32I 8 d a n.toNat)
  | .shri d a g n => some (2, s32I 9 d a (g.toNat * 2 ^ 6 + n.toNat))
  | .bfx d a g w p => some (2, s32I 10 d a (g.toNat * 2 ^ 12 + w.toNat * 2 ^ 6 + p.toNat))
  | .bfi d a w p => some (2, s32I 11 d a (w.toNat * 2 ^ 6 + p.toNat))
  | .cmp g a b c => some (2, s32R 12 g a b (c.code * 2 ^ 6))
  | .cmpi g a c i => some (2, s32I 13 g a (c.code * 2 ^ 11 + i.toNat))
  | .pand d a b => some (2, s32R 14 d a b 0)
  | .por d a b => some (2, s32R 14 d a b 1)
  | .pxor d a b => some (2, s32R 14 d a b 2)
  | .pnot d a => some (2, s32R 14 d a 0 3)
  | .movpFrom d a => some (2, s32R 14 d a 0 4)
  | .movpTo d a => some (2, s32R 14 d a 0 5)
  | .sel d a b g n => some (2, s32R 15 d a b (g.val * 2 ^ 6 + n.toNat * 2 ^ 5))
  | .xya d a b ctl rel => some (2, s32R 16 d a b (ctl.toNat * 2 + rel.toNat))
  | .cget d n => some (2, s32I 17 d 0 n.toNat)
  | .cset a n => some (2, s32I 18 0 a n.toNat)
  | .csetVwin a => some (2, s32I 18 0 a 0x004)
  | .csetPbase a => some (2, s32I 18 0 a 0x030)
  | .csetPlen a => some (2, s32I 18 0 a 0x031)
  | .csetDeqbase a => some (2, s32I 18 0 a 0x014)
  | .csetSpeclim a => some (2, s32I 18 0 a 0x015)
  | .csetLlease a => some (2, s32I 18 0 a 0x011)
  | .fwinWord0Write a n => some (2, s32I 18 0 a (0x100 + 8 * n.val))
  | .fwinConfigWrite a n k => some (2, s32I 18 0 a (0x100 + 8 * n.val + k.val))
  | .inval a n => some (2, s32I 18 0 a (0x100 + 8 * n.val + 5))
  | .pres g k => some (2, s32I 19 g 0 k.code)
  | .drop k => some (2, s32I 20 0 0 k.code)
  | .br j => some (2, 21 * 2 ^ 24 + j.toNat)
  | .call j => some (2, 22 * 2 ^ 24 + j.toNat)
  | .jr a => some (2, s32I 23 0 a 0)
  | .callr d a => some (2, s32I 24 d a 0)
  | .ret => some (2, s32I 25 0 0 0)
  | .loop a i => some (2, s32I 26 0 a i.toNat)
  | .loopi c i => some (2, 27 * 2 ^ 24 + c.toNat * 2 ^ 14 + i.toNat)
  | .fork a i => some (2, s32I 28 0 a i.toNat)
  | .join a => some (2, s32I 29 0 a 0)
  | .nop => some (2, s32R 30 0 0 0 0)
  | .idle => some (2, s32R 30 0 0 0 1)
  | .done => some (2, s32R 30 0 0 0 2)
  | .ifence => some (2, s32R 30 0 0 0 3)
  | .tret => some (2, s32R 30 0 0 0 4)
  | .brk => some (2, s32R 30 0 0 0 5)
  | .amow => some (2, s32R 30 0 0 0 6)
  | .trap c => some (2, s32I 31 0 0 c.toNat)
  | .callh a => some (2, s32I 32 0 a 0)
  | .spec d a b => some (2, s32R 33 d a b 0)
  | .rfree a => some (2, s32I 34 0 a 0)
  | .rinfo d a => some (2, s32I 35 d a 0)
  | .sstart a b => some (2, s32R 36 0 a b 0)
  | .sreap d a => some (2, s32I 37 d a 0)
  | .sstat d a => some (2, s32I 38 d a 0)
  | .tnext d a => some (2, s32I 39 d a 0)
  | .launch d a => some (2, s32R 40 d a 0 0)
  | .gcancelDrain a => some (2, s32R 40 0 a 0 1)
  | .gcancelKill a => some (2, s32R 40 0 a 0 2)
  | .gstat d a => some (2, s32R 40 d a 0 3)
  | .chsend d a b => some (2, s32R 41 d a b 0)
  | .chrecv d a b => some (2, s32R 41 d a b 1)
  | .getstate d a b | .setstate d a b | .getwidx d a b | .getridx d a b | .setridx d a b | .getbase d a b =>
      some (2, s32R 41 d a b 2)
  | .ldOff d a w o => some (2, s32I 42 d a (w.code * 2 ^ 11 + o.toNat))
  | .ldIdx d a b w h => some (2, s32R 43 d a b (w.code * 2 ^ 6 + h.toNat * 2 ^ 3))
  | .stOff d a w o => some (2, s32I 44 d a (w.code * 2 ^ 11 + o.toNat))
  | .stIdx d a b w h => some (2, s32R 45 d a b (w.code * 2 ^ 6 + h.toNat * 2 ^ 3))
  | .ldf d a o => some (2, s32I 46 d a (0 * 2 ^ 11 + o.toNat))
  | .ldfk d a o => some (2, s32I 46 d a (1 * 2 ^ 11 + o.toNat))
  | .ste d a o => some (2, s32I 46 d a (2 * 2 ^ 11 + o.toNat))
  | .stff d a o => some (2, s32I 46 d a (3 * 2 ^ 11 + o.toNat))
  | .fclr a o => some (2, s32I 46 0 a (4 * 2 ^ 11 + o.toNat))
  | .feq d a o => some (2, s32I 46 d a (5 * 2 ^ 11 + o.toNat))
  | .amo d a b o t => some (2, s32R 47 d a b (o.code * 2 ^ 5 + t.code))
  | .amon a b o t => some (2, s32R 48 0 a b (o.code * 2 ^ 5 + t.code))
  | .cas d a b t => some (2, s32R 49 d a b t.code)
  | .cas2 d a b => some (2, s32R 50 d a b 0)
  | .slr d a b i => some (2, s32R 51 d a b i.toNat)
  | .slrn a b i => some (2, s32R 52 0 a b i.toNat)
  | .lrw d a => some (2, s32R 53 d a 0 0)
  | .sch a b => some (2, s32R 53 0 a b 1)
  | .schx a => some (2, s32R 53 0 a 0 2)
  | .bari a n => some (2, s32R 54 0 a 0 (0 * 2 ^ 6 + n.val))
  | .bara d n => some (2, s32R 54 d 0 0 (1 * 2 ^ 6 + n.val))
  | .barw d a n => some (2, s32R 54 d a 0 (2 * 2 ^ 6 + n.val))
  | .barq d a n => some (2, s32R 54 d a 0 (3 * 2 ^ 6 + n.val))
  | .fence s => some (2, 55 * 2 ^ 24 + s.code)
  | .cpyw d a b => some (2, s32R 56 d a b 0)
  | .cpyq d a => some (2, s32R 56 d a 0 1)
  | .pref a h o => some (2, s32I 57 0 a (h.num * 2 ^ 12 + o.toNat))
  | .stmap d a b => some (2, s32R 58 d a b 0)
  | .stunmap d a => some (2, s32R 58 d a 0 1)
  | .stflush d a => some (2, s32R 58 d a 0 2)
  | .oclaim d a => some (2, s32R 59 d a 0 0)
  | .orel a => some (2, s32R 59 0 a 0 1)
  | .mxwait d a b => some (2, s32R 59 d a b 2)
  | .mxcap d a => some (2, s32R 59 d a 0 3)
  | .bsum d a b => some (2, s32R 59 d a b 4)
  | .bsacc d a => some (2, s32R 59 d a 0 5)
  | .nop16 => some (1, 0xF000)
  | .li d i => some (4, l64F 1 d 0 0 i.toNat)
  | .lih d i => some (4, l64F 2 d 0 0 i.toNat)
  | .rput a t => some (4, l64F 3 0 a 0 t.code)
  | .cpy d a q r s ch => some (4, l64F 4 d a (copyMod q r s) ch.val)
  | .cpyx d a q r s ch => some (4, l64F 5 d a (copyMod q r s) ch.val)
  | .tmmar d a c => some (4, l64F 6 d a 0 c.code)
  | .slrinst a i => some (4, l64F 7 0 a 0 i.toNat)
  | .addiL d a i => some (4, l64F 8 d a 0 i.toNat)
  | .andiL d a i => some (4, l64F 9 d a 0 i.toNat)
  | .oriL d a i => some (4, l64F 10 d a 0 i.toNat)
  | .xoriL d a i => some (4, l64F 11 d a 0 i.toNat)
  | .vadd d a b m t rm => some (3, v48F 0x01 d a b 0 m t (rm.code * 2 ^ 8))
  | .vsub d a b m t rm => some (3, v48F 0x02 d a b 0 m t (rm.code * 2 ^ 8))
  | .vmul d a b m t rm => some (3, v48F 0x03 d a b 0 m t (rm.code * 2 ^ 8))
  | .vfma d a b c m t rm => some (3, v48F 0x04 d a b c m t (rm.code * 2 ^ 8))
  | .vfms d a b c m t rm => some (3, v48F 0x05 d a b c m t (rm.code * 2 ^ 8))
  | .vfnma d a b c m t rm => some (3, v48F 0x06 d a b c m t (rm.code * 2 ^ 8))
  | .vmin d a b m t => some (3, v48F 0x07 d a b 0 m t 0)
  | .vmax d a b m t => some (3, v48F 0x08 d a b 0 m t 0)
  | .vabs d a m t => some (3, v48F 0x09 d a 0 0 m t 0)
  | .vneg d a m t => some (3, v48F 0x0A d a 0 0 m t 0)
  | .vdiv d a b m t rm => some (3, v48F 0x0B d a b 0 m t (rm.code * 2 ^ 8))
  | .vsqrt d a m t rm => some (3, v48F 0x0C d a 0 0 m t (rm.code * 2 ^ 8))
  | .vrcpa d a m t => some (3, v48F 0x0D d a 0 0 m t 0)
  | .vrsqa d a m t => some (3, v48F 0x0E d a 0 0 m t 0)
  | .vexpa d a m t => some (3, v48F 0x0F d a 0 0 m t 0)
  | .vloga d a m t => some (3, v48F 0x10 d a 0 0 m t 0)
  | .vcmp d a b m t c => some (3, v48F 0x11 d a b 0 m t c.code)
  | .vsel d a b m t => some (3, v48F 0x12 d a b 0 m t 0)
  | .vand d a b m t => some (3, v48F 0x13 d a b 0 m t 0)
  | .vor d a b m t => some (3, v48F 0x14 d a b 0 m t 0)
  | .vxor d a b m t => some (3, v48F 0x15 d a b 0 m t 0)
  | .vnot d a m t => some (3, v48F 0x16 d a 0 0 m t 0)
  | .vshl d a n m t => some (3, v48F 0x17 d a n.fields.1 n.fields.2.1 m t n.fields.2.2)
  | .vshrz d a n m t => some (3, v48F 0x18 d a n.fields.1 n.fields.2.1 m t n.fields.2.2)
  | .vshrs d a n m t => some (3, v48F 0x19 d a n.fields.1 n.fields.2.1 m t n.fields.2.2)
  | .vadds d a b m t => some (3, v48F 0x1A d a b 0 m t 0)
  | .vsubs d a b m t => some (3, v48F 0x1B d a b 0 m t 0)
  | .vmulh d a b m t => some (3, v48F 0x1C d a b 0 m t 0)
  | .vdot4 d a b m t s => some (3, v48F 0x1D d a b 0 m t s.toNat)
  | .vcvt d a m td ts rm p s => some (3, v48F 0x1E d a ts.code 0 m td (rm.code * 2 ^ 8 + p.toNat * 2 + s.toNat))
  | .vbcast d c m t => some (3, v48F 0x1F d 0 0 c m t 0)
  | .vidx d c m t => some (3, v48F 0x20 d 0 0 c m t 0)
  | .vperm d a b m t => some (3, v48F 0x21 d a b 0 m t 0)
  | .vslide d a b m t k => some (3, v48F 0x22 d a b 0 m t k.toNat)
  | .vredadd d a c m t rm => some (3, v48F 0x23 d a 0 c m t (rm.code * 2 ^ 8))
  | .vredmin d a c m t => some (3, v48F 0x24 d a 0 c m t 0)
  | .vredmax d a c m t => some (3, v48F 0x25 d a 0 c m t 0)
  | .vscan d a m t rm o => some (3, v48F 0x26 d a 0 0 m t (rm.code * 2 ^ 8 + o.code))
  | .vcomp d a m t => some (3, v48F 0x27 d a 0 0 m t 0)
  | .vxpnd d a m t => some (3, v48F 0x28 d a 0 0 m t 0)
  | .vpack d a b m t s => some (3, v48F 0x29 d a b 0 m t s.toNat)
  | .vunpk d a m t h => some (3, v48F 0x2A d a 0 0 m t h.toNat)
  | .vmov d a m t => some (3, v48F 0x2B d a 0 0 m t 0)
  | .vext d a t k => some (3, v48F 0x2C d a 0 0 0 t k.toNat)
  | .vins d c t k => some (3, v48F 0x2D d 0 0 c 0 t k.toNat)
  | .mand d a b => some (3, v48F 0x2E d a b 0 0 .b8 0)
  | .mor d a b => some (3, v48F 0x2F d a b 0 0 .b8 0)
  | .mxor d a b => some (3, v48F 0x30 d a b 0 0 .b8 0)
  | .mnot d a => some (3, v48F 0x31 d a 0 0 0 .b8 0)
  | .mpopc d a t => some (3, v48F 0x32 d a 0 0 0 t 0)
  | .mfirst d a t => some (3, v48F 0x33 d a 0 0 0 t 0)
  | .vld d c m t o => some (3, v48F 0x40 d 0 0 c m t o.toNat)
  | .vst a c m t o => some (3, v48F 0x41 0 a 0 c m t o.toNat)
  | .vlds d b c m t => some (3, v48F 0x42 d 0 b c m t 0)
  | .vsts a b c m t => some (3, v48F 0x43 0 a b c m t 0)
  | .vgath d a c m t k => some (3, v48F 0x44 d a 0 c m t k.toNat)
  | .vscat a b c m t k => some (3, v48F 0x45 0 a b c m t k.toNat)
  | .oload o b c t sh tr acq =>
      some (3, v48F 0x50 o 0 b c 0 t
        ((match acq with | some s => s.code * 2 ^ 5 + 2 ^ 4 | none => 0) + sh.toNat * 2 ^ 2 + tr.toNat))
  | .ofill o a seg k => some (3, v48F 0x51 o a 0 0 0 .b8 (seg.toNat * 2 ^ 5 + k.toNat))
  | .tmma acc oa ob c t rm z xb n =>
      some (3, v48F 0x52 acc oa ob (match c with | some r => r.val | none => 0) 0 t
        (rm.code * 2 ^ 8 + c.isSome.toNat * 2 ^ 7 + z.toNat * 2 ^ 6 + xb.toNat * 2 ^ 5 + n.toNat))
  | .azero acc => some (3, v48F 0x53 acc 0 0 0 0 .b32 0)
  | .astore s acc vb c t rm sat src =>
      some (3, v48F 0x54 s acc (match vb with | some r => r.val | none => 0) c 0 t
        (rm.code * 2 ^ 8 + vb.isSome.toNat * 2 ^ 7 + sat.toNat * 2 ^ 6 + src.code * 2 ^ 4))
  | .avec d acc row => some (3, v48F 0x55 d acc 0 0 0 .b32 row.toNat)
  | _ => none

/-- The granules of an instruction, the most significant first; none for an event. -/
def encode (i : Instr) : List (BitVec 16) :=
  match encodeValue i with
  | some (n, v) => granulesOf n v
  | none => []

/-- The granules of an internal word (R37): the guard, then the body; the scalar half of a pair has P = 1. -/
def encodeWord (w : IWord) : List (BitVec 16) :=
  (match w.guard with
    | some g => [BitVec.ofNat 16 (0xE000 + g.neg.toNat * 2 ^ 11 + g.reg.val * 2 ^ 8)]
    | none => []) ++
  (match w.body with
    | .single i => encode i
    | .pair i j =>
      (match encodeValue i with
        | some (_, v) => granulesOf 2 (v + 2 ^ 30)
        | none => []) ++ encode j)

/-- The bytes of granules as they stand in memory: each granule little-endian, in order of address (R28). -/
def granuleBytes (gs : List (BitVec 16)) : List Byte :=
  gs.flatMap fun g => [BitVec.ofNat 8 (g.toNat % 256), BitVec.ofNat 8 (g.toNat / 256)]

end Sys2Proof
end

