-- ==== Sys2Proof/Machine/State.lean ====
section
/-! DEFINITION. The state of a Jiari JM-256 as plain data: slots, cores, cells, sectors, contexts and the device (R13 to R21),
what travels between them, and the machine right after a cold reset. Tables list only what differs from the state a part
has at reset. -/

namespace Sys2Proof.Machine

/-- A table by number: keys strictly rising, an unlisted key as at reset. -/
abbrev Tab (α : Type) := List (Nat × α)

/-! ### Slots (R142 to R157, R184, R307, R331, R348, R360, R368) -/

/-- The seven slot states, in the order of their codes (R142). -/
inductive SlotSt where
  | free | running | parked | idle | spilled | halted | ended
deriving DecidableEq, Repr

/-- What a FENCE, AMOW or DONE waits for in its drain (R143 code 15). -/
inductive Drain where
  | amow
  | fence (sc : Scope)
  | done
deriving DecidableEq, Repr

/-- Why a slot is parked and what its word still has to do (R143). -/
inductive Wait where
  | none
  /-- memory: earlier vector memory operations (R255); the word has issued and then makes its access. -/
  | vmem
  /-- memory: the slot's own posted operations to a line (R320); the word has issued and then makes its access. -/
  | posted (line : Nat)
  /-- memory: a reply ends the park and completes the word. -/
  | reply
  /-- memory: LAUNCH's release with its captured operand (R99). -/
  | release (d : SReg) (a : Word64)
  /-- memory: IFENCE (R139). -/
  | ifence
  /-- memory: a keeper-waiter of the join counter at a memory location (R188). -/
  | join (loc : Nat)
  | presence (rd wr : List Desig)
  | queue
  | fetch (line : Nat)
  /-- A word that has issued waits for the page service. -/
  | page (id : Nat)
  /-- memory: the work of the word is on its way to the unit that does it (R198, R207, R208, R258, R260); the word has issued and is
  done in its slot's turn. -/
  | visit
  /-- memory: the context's state is not at a cell yet (R373); the word has issued and then makes its access. -/
  | away (cell : Nat)
  /-- The fetch of a word waits for the page service; the word has not issued. -/
  | codePage (id : Nat)
  | bank (cell bank : Nat)
  | resize (size : Nat)
  | reap (d : SReg) (sel : Nat)
  /-- A CHSEND (true) or CHRECV (false) on a channel number, with its count of bytes. -/
  | channel (ch : Nat) (send : Bool) (n : Nat)
  | copy (d : SReg) (ch : Nat) (want : Word64)
  | fullempty (loc : Nat)
  | reserve (d : SReg) (loc : Nat)
  | barrier (d : SReg) (n : Nat) (gen : Nat)
  | operand (d : SReg)
  /-- MXWAIT: the TMMA it waits on, how many steps that has, and how many are wanted (R296). -/
  | sequencer (d : SReg) (seq total want : Nat)
  | drain (k : Drain)
deriving DecidableEq, Repr

/-- A trap on its way to a slot: the columns of R362. `pc` is TRAPPC where it is not the slot's own pc. -/
structure TrapInfo where
  code     : Nat
  status   : Nat := 0
  addr     : Word64 := 0
  detail   : Nat := 0
  half     : Bool := false
  deferred : Bool := false
  fetch    : Bool := false
deriving DecidableEq, Repr

/-- A hardware loop record (R184). -/
structure LoopRec where
  start : Word64
  stop  : Word64
  count : Word64
deriving DecidableEq, Repr

/-- TRAPVEC, TRAPCAUSE, TRAPADDR and TRAPPC (R360). -/
structure TrapRegs where
  vec   : Word64
  cause : Word64
  addr  : Word64
  pc    : Word64
deriving DecidableEq, Repr

/-- The shadow of R361: s1 to s3 and p1 with their presence, and the loop records. -/
structure Shadow where
  s     : Vector Word64 3
  sp    : Vector Pres 3
  p1    : Bool
  pp1   : Pres
  loops : List LoopRec
deriving DecidableEq, Repr

/-- A slot's vector window (R150): pool registers BASE to BASE + SIZE − 1. -/
structure Window where
  base : Nat
  size : Nat
deriving DecidableEq, Repr

/-- The posted-failure record (R334). -/
structure PostedFail where
  code   : Nat
  status : Nat
  addr   : Word64
  count  : Nat
deriving DecidableEq, Repr

/-- An armed block-sum pair (R301): register, arrivals still to come, and the sum m · 2^e so far. -/
structure BsaccRec where
  reg   : SReg
  left  : Nat
  m     : Int
  e     : Int
deriving DecidableEq, Repr

/-- One register write of a result or message (R146, R369). A vector result writes all 256 bytes. -/
inductive RegWrite where
  | s (n : SReg) (v : Word64)
  | p (n : GReg) (v : Bool)
  | v (n : VRegNo) (x : VVal)
  | m (n : MReg) (x : MVal)
  /-- A tile becomes full: its last queued operation is complete (R279). -/
  | acc (n : AccNo)
deriving DecidableEq, Repr

/-- What an arrival does at its slot: writes promised registers, and may end the park of the word. -/
structure Reply where
  gid    : SlotKey
  epoch  : Nat
  writes : List RegWrite := []
  /-- The reply ends the slot's park: its word completes. -/
  ends   : Bool := false
  /-- A JOIN's reply that sends the slot to IDLE (R188). -/
  idle   : Bool := false
  /-- A precise fault returned for the word (R339). -/
  fault  : Option TrapInfo := none
  clock  : Nat := 0
  /-- A residual handle that is freed when nobody receives it (R209). -/
  handle : Option Word64 := none
  /-- The vector operation of the slot that this reply completes, by its sequence number. -/
  op     : Option Nat := none
deriving DecidableEq, Repr

/-- An inbox entry (R369). -/
inductive InboxEntry where
  | result (r : Reply)
  | rput (reg : Desig) (v : Word64) (clock : Nat)
  | bsum (reg : SReg) (m e : Int) (clock : Nat)
deriving DecidableEq, Repr

/-- A slot's registers and their presence (R145, R146). Vector registers stand in the cell's pool. -/
structure Regs where
  s  : Vector Word64 32
  sp : Vector Pres 32
  p  : Vector Bool 8
  pp : Vector Pres 8
  m  : Vector MVal 8
  mp : Vector Pres 8
  vp : Vector Pres 32
deriving DecidableEq, Repr

/-- Requests a slot honours at its next turn (R367, R377). -/
structure SlotReq where
  halt    : Bool
  /-- 0 none, 1 one word to issue, 2 that word has parked (R377). -/
  step    : Nat
  /-- Steps that wait for the one that is pending (R377). -/
  more    : Nat
  /-- A spill is requested; of a SPILLED slot, it is stopped and not saved yet (R370). -/
  spill   : Bool
  restore : Bool
deriving DecidableEq, Repr

/-- A granule held in a slot's fetch buffer: its address, its value, and for how many words it may still serve (R138). -/
structure BufGranule where
  addr : Nat
  val  : BitVec 16
  left : Nat
deriving DecidableEq, Repr

/-- A word that has issued and is parked before its access: the word, and the registers as they stood when it issued (R144). -/
structure Caught where
  instr : Instr
  regs  : Regs
deriving DecidableEq, Repr

/-- Slot state that only issue and control use. -/
structure Ctl where
  st      : SlotSt
  wait    : Wait
  /-- The state the slot was spilled or halted from (R142). -/
  under   : SlotSt
  /-- A spilled slot was halted when it was spilled; `under` is then the state it was halted from. -/
  held    : Bool
  /-- The address of the word. Bit 0, which no address of a word has, marks a parked word whose continuation the debugger has written
  (R377): it goes on at `npc`, past no loop end. -/
  pc      : Word64
  /-- N: the address after the word that issues (R180). -/
  npc     : Word64
  loops   : List LoopRec
  /-- The model's own: counts the lives of a slot, so that results of an earlier life are discarded (R196, R209). -/
  epoch   : Nat
  /-- The context the slot runs; 0 for none (R157). -/
  asid    : Nat
  req     : SlotReq
  deferred : Option TrapInfo
  buf     : List BufGranule
  /-- The word that has issued and waits with reason memory or page to make its access (R143, R144). -/
  caught  : Option Caught
deriving DecidableEq, Repr

/-- One thread context (R13). -/
structure Slot where
  ctl     : Ctl
  regs    : Regs
  win     : Window
  lclk    : Nat
  waitlim : Word64
  parkCnt : Nat
  parkLim : Nat
  trap    : TrapRegs
  shadow  : Shadow
  posted  : Nat
  pfail   : Option PostedFail
  bsaccs  : List BsaccRec
  inbox   : List InboxEntry
  /-- Messages that have come and wait for the bank of the slot's window, oldest first (R378). -/
  arrs    : List Nat
  /-- By line, the renewal point plus the lease granted with it: a copy serves below that (R308, R309, R311). -/
  renew   : Tab Nat
  /-- The counters of R379, by index. -/
  ctr     : Vector Nat 16
deriving DecidableEq, Repr

/-! ### Cores (R128, R137, R140, R193, R194, R210, R262) -/

/-- The block a core runs (R102, R115, R128). -/
structure Block where
  /-- The model's own: tells the blocks of a core apart. -/
  id    : Nat
  asid  : Nat
  /-- The grid record on this device, and the linear block index. -/
  grid  : Nat
  index : Nat
  slots : Nat
  vwin  : Nat
  /-- Reserved window bases by slot number (R423). -/
  resv  : List Nat
  /-- The keeper has issued its first word (R104). -/
  begun : Bool
deriving DecidableEq, Repr

/-- A task on a deque (R187). -/
structure Task where
  pc   : Word64
  ctr  : Word64
  args : Vector Word64 4
  asid : Nat
  grid : Nat
  clock : Nat
deriving DecidableEq, Repr

/-- An entry of a dispatch queue: a vector-class word with the scalars it captured (R210). -/
structure QEntry where
  seq   : Nat
  gid   : SlotKey
  epoch : Nat
  instr : Instr
  scal  : List Word64
deriving DecidableEq, Repr

/-- A byte that a copy has written: what it held before the copy, what earlier rows had left there, and the row that wrote it
last (R264). -/
structure Undo where
  old  : Byte
  left : Byte
  row  : Nat
deriving DecidableEq, Repr

/-- A running copy (R263 to R267). -/
structure Copy where
  gid     : SlotKey
  epoch   : Nat
  blk     : Nat
  asid    : Nat
  priv    : Bool
  d       : SReg
  desc    : Word64
  indexed : Bool
  acq     : Bool
  rel     : Bool
  scope   : Scope
  clock   : Nat
  /-- The descriptor once the engine has read it: its 64 bytes, as a number. -/
  read    : Option Nat
  row     : Nat
  col     : Nat
  /-- The index of the row under way, once read (R264). -/
  idx     : Option Nat
  /-- The page request that stalls the channel (R246). -/
  page    : Option Nat
  /-- What sD receives: the copy has stopped or ended, and its completion is due. -/
  outcome    : Option Int
  /-- Destination bytes already written (R264). -/
  undo    : Tab Undo
deriving DecidableEq, Repr

/-- A copy channel (R262, R266). -/
structure Chan where
  wp     : Nat
  w0     : Nat
  /-- The failure point and the status of the channel's last copy. -/
  failAt : Nat
  status : Int
  /-- The clock of the last write that a copy of the channel has made (R312). -/
  clock  : Nat
  cur    : Option Copy
deriving DecidableEq, Repr

/-- A core. -/
structure Core where
  cycle  : Nat
  block  : Option Block
  /-- Tasks, oldest first (R187, R193). -/
  deque  : List Task
  /-- The entry of the spill area in which the oldest task stands (R193). -/
  areaAt : Nat
  /-- How many of the deque's entries, the oldest, lie in the spill area (R193). -/
  area   : Nat
  deqbase : Word64
  queue  : List QEntry
  lines  : List Nat
  chans  : Tab Chan
  /-- Posted-failure records passed to the block (R334). -/
  passed : List PostedFail
deriving DecidableEq, Repr

/-! ### Cells (R17, R257, R279) -/

/-- A stash mapping (R258). -/
structure StMap where
  asid : Nat
  entry : Nat
  va   : Nat
  off  : Nat
  len  : Nat
  /-- Lines present, by number within the range, with their physical line; and those among them that are written. -/
  present : Tab Nat
  dirty   : List Nat
  /-- The place of its STMAP in the single order (R258, R304). -/
  place   : Nat := 0
deriving DecidableEq, Repr

/-- Who holds an operand slot or tile (R279): a slot's key, with what the holder record needs. -/
structure Holder where
  asid : Nat
  core : CoreKey
  slot : SlotKey
  /-- Released, but a matrix operation has not finished with it (R280). -/
  left : Bool
deriving DecidableEq, Repr

/-- An operand claim that waits (R280). -/
structure Claim where
  gid   : SlotKey
  epoch : Nat
  d     : SReg
  tiles : Bool
  start : Nat
  count : Nat
  /-- The slot that receives the items. -/
  dest    : SlotKey
deriving DecidableEq, Repr

/-- What an operation that has started at the wide unit does (R211, R282 to R299). -/
inductive MxKind where
  /-- A vector operation that waits for an owed source or for memory, with the scalars it captured. -/
  | vop (i : Instr) (scal : List Word64)
  /-- OLOAD (R282). -/
  | load (o : OSlot) (base stride : Word64) (t : Ty) (shapeB tr : Bool) (acq : Option Scope)
  /-- OFILL (R284). -/
  | fill (o : OSlot) (a : VRegNo) (seg k : Nat)
  /-- TMMA, or a TMMAR multiply (R286, R298): `n` tile pairs, with the captured exponents of BX mode. -/
  | mma (acc : AccNo) (oa ob : OSlot) (bx : Option Word64) (t : Ty) (rm : Rm) (z xb : Bool) (n : Nat)
  /-- AZERO (R293). -/
  | zero (acc : AccNo)
  /-- ASTORE (R295). -/
  | store (acc : AccNo) (vb : Option VRegNo) (base stride : Word64) (t : Ty) (rm : Rm) (sat : Bool) (src : AccSrc)
  /-- AVEC (R294). -/
  | vec (d : VRegNo) (acc : AccNo) (row : Nat)
deriving DecidableEq, Repr

/-- An operation that has started and not finished (R211, R285, R287); a cell lists them in the order of their starts. -/
structure MxOp where
  /-- Its number from issue. -/
  seq   : Nat
  gid   : SlotKey
  epoch : Nat
  asid  : Nat
  priv  : Bool
  clock : Nat
  /-- A TMMAR command: its status register at the sender (R299). -/
  remote : Option SReg
  kind  : MxKind
  /-- The vector and mask sources it has read. -/
  srcs  : List RegWrite
  /-- Steps, rows or elements already done. -/
  steps : Nat
  /-- The page request that holds it (R246, R252, R283). -/
  page  : Option Nat
  /-- What it has read of memory so far. -/
  data  : OperandVal
  /-- The unrecoverable failure of its elements: cause of the first, lowest address (R252). -/
  fail  : Option TrapInfo
  /-- The bytes of poisoned lines that it has stored (R408). -/
  wiped : List Nat := []
  /-- A command of another cell: one of its items has been released (R299). -/
  lost  : Bool := false
  /-- The tiles as the running tile pair found them (R302). -/
  before : List (Nat × TileVal) := []
deriving DecidableEq, Repr

/-- A read copy of a line that a cell keeps (R309, R311): its bytes, their write stamp, and the lease. -/
structure ReadCopy where
  bytes : List Byte
  wts   : Nat
  rts   : Nat
deriving DecidableEq, Repr

/-- A full/empty request in a FIFO (R347); `v` is what an STE stores, and the address of an LDF or LDFK. -/
structure FeReq where
  gid   : SlotKey
  epoch : Nat
  /-- 0 LDF, 1 LDFK, 2 STE (R346). -/
  op    : Nat
  d     : SReg
  v     : Word64
  clock : Nat
deriving DecidableEq, Repr

/-- A cell. -/
structure Cell where
  live    : Nat
  tested  : Nat
  pool    : Tab VVal
  /-- Banks in retention, banks waking, and the core cycle of each bank's last use (R378). -/
  retained : List Nat
  waking  : List Nat
  lastUse : Tab Nat
  /-- Banks that have no allocated window are gated; `wide` is the wide unit's last served core (R211). -/
  wide    : Nat
  opnd    : Tab OperandVal
  ohold   : Tab Holder
  tile    : Tab TileVal
  tpres   : Tab Pres
  thold   : Tab Holder
  claims  : List Claim
  /-- The channel that the copy engine served last: 128 · core + channel (R265). -/
  cpyLast : Nat
  /-- The last TMMA that its holder issued to a tile: its number and how many steps it has (R296). -/
  lastMma : Tab (Nat × Nat)
  stash   : List Host.Cell
  tags    : List Nat
  maps    : List StMap
  feq     : Tab (List FeReq × List FeReq)
  /-- Read copies by line (R311). -/
  copies  : Tab ReadCopy
  mx      : List MxOp
  /-- The source the sequencer served last: cores 0 to 3, or 4 for remote commands (R287). -/
  mxLast  : Nat
  /-- MXCAP generation per context (R297). -/
  mxgen   : Tab Nat
  /-- Block ranges held by the cell dealer: grid, first, count (R128). -/
  held    : List (Nat × Nat × Nat)
  temp    : Nat
  throt   : Nat
  ce      : Nat
  ue      : Nat
  /-- The cell has joined its partition's incoming context (R374). -/
  joined  : Bool
  /-- Unit counters: slice routines, slice cycles, wide operations, engine steps, copy bytes, remote stash accesses, by
  ASID (R379): key 8 · asid + index. -/
  units   : Tab Nat
deriving DecidableEq, Repr

/-! ### Contexts (R125, R133, R203, R206, R308, R335, R350, R398) -/

/-- A dealer queue (R133). -/
structure DealQ where
  set : Bool
  b   : Nat
  r   : Nat
  g   : Nat
deriving DecidableEq, Repr

/-- An arrival at a barrier: slot and device time (R352). -/
structure Arrival where
  gid  : SlotKey
  time : Nat
deriving DecidableEq, Repr

/-- The straggler record of a completed generation (R352, R354): generation, count, arrivals oldest first. -/
structure BarRec where
  g   : Nat
  c   : Nat
  arr : List Arrival
deriving DecidableEq, Repr

/-- A hardware barrier (R350): count, arrivals oldest first, generation, and the record of the last completed generation. -/
structure Barrier where
  c    : Nat
  arr  : List Arrival
  g    : Nat
  last : Option BarRec
  /-- The latest place in the single order of a BARI or BARA here (R304). -/
  clock : Nat
deriving DecidableEq, Repr

/-- A channel ring (R115 to R121). -/
structure Ring where
  /-- 0 ACTIVE, 1 ERROR, 2 DRAINED. -/
  st    : Nat
  whole : Bool
  log2  : Nat
  allow : Nat
  widx  : Nat
  ridx  : Nat
  cell  : CellKey
  off   : Nat
  grid  : Nat
deriving DecidableEq, Repr

/-- A template of a loaded object (R70, R81). -/
structure Template where
  off    : Nat
  gen    : Nat
  obj    : Nat
  /-- Unit range of the generic code: first unit and count. -/
  code   : Nat
  units  : Nat
  bytes  : Nat
  body   : List Byte
deriving DecidableEq, Repr

/-- A global or weak symbol that an object defines (R61, R68): its placed address, and its template handle for KIND 3. -/
structure ObjSym where
  name   : List Byte
  weak   : Bool
  addr   : Word64
  handle : Option Word64
deriving DecidableEq, Repr

/-- A loaded code object (R60, R64 to R71): its unit ranges in the code and data stores and its ranges in the stash area, as
first and count, its definitions, and the objects whose definitions its references bind to. -/
structure Obj where
  id    : Nat
  code  : List (Nat × Nat)
  data  : List (Nat × Nat)
  stash : List (Nat × Nat)
  syms  : List ObjSym
  deps  : List Nat
deriving DecidableEq, Repr

/-- A residual (R206, R208). -/
structure Residual where
  off   : Nat
  units : Nat
  gen   : Nat
  bytes : Nat
  info  : Nat
  tmpl  : Nat
deriving DecidableEq, Repr

/-- A packet that firmware has accepted and not finished (R93, R94). -/
structure Packet where
  id   : Nat
  q    : Nat
  index : Nat
  ty   : Nat
  ptr  : Word64
  /-- The grid it launched, once it has begun. -/
  grid : Option Nat
deriving DecidableEq, Repr

/-- A registered queue (R92 to R97). -/
structure Queue where
  cb    : Word64
  /-- QREG value that takes effect at the next scan (R396). -/
  next  : Option Word64
  wake  : Bool
  /-- Wakes that hold a token and wait for their scan. -/
  scans : Nat
  /-- A BARRIER packet waits for the earlier packets (R94). -/
  barrier : Bool
  fault : Bool
deriving DecidableEq, Repr

/-- The fields of a context record (R398). -/
structure CtxRec where
  vf : Nat
  priv : Bool
  debug : Bool
  ptroot : Nat
  savebase : Nat
  cellsave : Nat
  rstore : Nat
  rsize : Nat
  tick : Nat
  deadline : Nat
  bdepth : Nat
  brate : Nat
  lcap : Word64
  swlog : Nat
  swcap : Nat
  /-- The record's own address: SWCNT stands in it. -/
  addr : Nat
  cstore : Nat
  csize : Nat
  rva : Nat
  dstore : Nat
  dsize : Nat
deriving DecidableEq, Repr

/-- A context's PBASE and PLEN: committed, in force, and the staged base (R125). -/
structure Part where
  base : Nat
  len  : Nat
  curBase : Nat
  curLen  : Nat
  staged  : Option Nat
  /-- The model's own: what has a lower number was accepted or issued before the last commit (R125). -/
  since   : Nat := 0
deriving DecidableEq, Repr

/-- A translation that a TLB holds (R13, R247): the TLB (a core's number for its first level, 1,024 and the sector's for the second), the
key of the page (its level and address), and the entry. -/
structure TlbEntry where
  unit : Nat
  key  : Nat
  leaf : Word64
deriving DecidableEq, Repr

/-- A context. -/
structure Ctx where
  rcd     : CtxRec
  part    : Part
  /-- Creation order, for the turn order of R401. -/
  born    : Nat
  llease  : Nat
  speclim : Word64
  dealq   : Tab DealQ
  bars    : Tab Barrier
  routines : Tab (List Byte)
  rings   : Tab Ring
  objs    : List Obj
  tmpls   : List Template
  resids  : List Residual
  loads   : Nat
  queues  : Tab Queue
  packets : List Packet
  attached : Bool
  /-- An admin command on it that has begun: its type and request block (R397). -/
  pending : Option (Nat × Nat)
  /-- Translations that the TLBs hold of it (R13, R247). -/
  tlb     : List TlbEntry
  /-- It is not the context's turn on its partition (R373, R401). -/
  out     : Bool
  /-- The cells where its state does not stand now (R373). -/
  away    : List CellKey
  /-- The saved state of such cells, by cell offset from PBASE. -/
  saved   : Tab Cell
  /-- Deques, DEQBASE values, blocks and channels of their cores. -/
  savedCores : Tab Core
deriving DecidableEq, Repr

/-! ### Grids (R100 to R115) -/

/-- A stage of a stage graph (R114, R115). -/
structure Stage where
  entry : Word64
  slots : Nat
  vwin  : Nat
  args  : Word64
  cores : Nat
  bound : List CoreKey
deriving DecidableEq, Repr

/-- A stage graph held or bound (R115). -/
structure Graph where
  stages : List Stage
  /-- Channels: producer, consumer, MODE, LOG2SIZE, ALLOW. -/
  chans  : List (Nat × Nat × Bool × Nat × Nat)
  first  : Nat
  bound  : Bool
deriving DecidableEq, Repr

/-- A grid record (R101 to R113). -/
structure Grid where
  gen    : Nat
  live   : Bool
  asid   : Nat
  priv   : Bool
  entry  : Word64
  coop   : Bool
  fstop  : Bool
  slots  : Nat
  vwin   : Nat
  cscope : Nat
  gx : Nat
  gy : Nat
  gz : Nat
  args   : Word64
  compl  : Word64
  /-- Devices that take part. -/
  devs   : List Nat
  /-- What the root has left: the next index to deal and how many remain. -/
  next   : Nat
  left   : Nat
  /-- The range that this device's dispatcher holds: first and count. -/
  range  : Nat × Nat
  /-- Ranges held at sectors: sector, first, count. -/
  held   : List (Nat × Nat × Nat)
  dealt  : Nat
  started : Nat
  finished : Nat
  killed : Nat
  nfault : Nat
  faults : List GFault
  /-- 0 dealing, 1 draining, 2 killing, 3 complete. -/
  phase  : Nat
  /-- Devices of the grid that have become unreachable (R109). -/
  lost   : List Nat
  wasDrained : Bool
  wasKilled : Bool
  graph  : Option Graph
  clock  : Nat
  /-- The packet that launched it; or the slot that did, its life, and the number of its LAUNCH (R103). -/
  packet : Option Nat
  launcher : Option (SlotKey × Nat × Nat)
  /-- Finish without a completion record (R98, R397). -/
  mute   : Bool
deriving DecidableEq, Repr

/-! ### What travels (R141, R151, R188, R324) -/

/-- What an atomic request asks its home to do. -/
inductive AtomOp where
  | amo (o : AmoOp) (t : Ty) (b : Word64)
  | cas (t : Ty) (exp new : Word64)
  | cas2 (lo hi nlo nhi : Word64)
  | routine (id : Nat) (g : Vector Word64 4)
deriving DecidableEq, Repr

/-- A request on its way to a home: who asks, at which address, with which destination. -/
structure Req where
  gid   : SlotKey
  epoch : Nat
  blk   : Nat
  asid  : Nat
  priv  : Bool
  va    : Word64
  clock : Nat
deriving DecidableEq, Repr

/-- A message or request in flight. -/
inductive Msg where
  | reply (r : Reply)
  | load (q : Req) (d : SReg) (w : LdWidth)
  | store (q : Req) (w : StWidth) (v : Word64)
  /-- A returning atomic (destination) or a posted one (none). -/
  | atomic (q : Req) (d : Option SReg) (op : AtomOp) (page : Option Nat)
  | dealer (q : Req) (d : SReg) (ask : Word64)
  | barInit (q : Req) (n : Nat) (v : Word64)
  | barArrive (q : Req) (n : Nat) (d : SReg)
  | barQuery (q : Req) (n : Nat) (d : SReg) (v : Word64)
  | join (q : Req)
  | lrw (q : Req) (d : SReg)
  /-- SLRINST on its way to every slice (R340). -/
  | slrinst (q : Req) (id : Nat)
  /-- The work of a word on its way to the unit that does it: the look-up of a handle, a free, a mapping, a write-back. -/
  | visit (q : Req)
  /-- GSTAT on its way to the root (R113). -/
  | gstat (q : Req) (d : SReg) (h : Word64)
  | rput (q : Req) (cell core slot : Nat) (reg : Desig) (v : Word64)
  | bsum (q : Req) (cell core slot : Nat) (reg : SReg) (m e : Int)
  | tmmar (q : Req) (cell : CellKey) (d : SReg) (cap : Word64) (c : TmmarCmd)
  | spec (q : Req) (d : SReg) (tmpl : Word64) (block : Word64) (lim : Word64)
  | launch (q : Req) (d : SReg) (desc : Word64)
  | cancel (asid : Nat) (grid : Nat) (gen : Nat) (kill : Bool)
  | gfault (grid : Nat) (f : GFault)
  /-- A store to a peer's or the host's memory, accepted by the local interface (R322). -/
  | remoteStore (gid : SlotKey) (pa : Nat) (bytes : List Byte)
  /-- The invalidation of a window that a slot has written (R275). -/
  | inval (gid : SlotKey) (sector win : Nat)
deriving DecidableEq, Repr

/-- A translation failure that the page service has before it (R246). -/
structure PageReq where
  asid  : Nat
  va    : Word64
  /-- Who waits: 0 a slot's word, 1 a copy, 2 a queued vector operation, 3 a matrix operand stream, 4 a posted operation,
  5 the specialiser. -/
  kind  : Nat
  gid   : SlotKey
  epoch : Nat
  /-- The copy channel, operation number or message. -/
  item  : Nat
  need  : Nat
  /-- The verdict, once given: true for repaired. -/
  done  : Option Bool
deriving DecidableEq, Repr

/-- A word holding a reservation, and those who wait (R344). -/
structure Resv where
  holder : Option SlotKey
  fifo   : List SlotKey
deriving DecidableEq, Repr

/-! ### The model's own: which agent moves next -/

/-- What happens next (log entry 3, DESIGN CHOICE): whose turn it is, which unit works, what comes from outside, and what the hidden
caches hold (log entry 7, DESIGN CHOICE). -/
inductive Pick where
  /-- One core cycle: the turn of its slot (R140). -/
  | core (c : CoreKey)
  /-- A step of the machine itself or an input. -/
  | event (i : Instr)
  /-- The slot's fetch buffer takes the granule at an address (R137, R138). -/
  | prefetch (g : SlotKey) (addr : Nat)
  /-- A TLB keeps a translation, or drops all it holds of a context (R247). -/
  | tlbFill (unit asid : Nat) (va : Word64)
  | tlbDrop (unit asid : Nat)
  /-- A view line is cached in its home slice (R275). -/
  | viewFill (line : Nat)
  /-- From now on, requests travel (true) or are performed at once (false); log entry 4, DESIGN CHOICE. -/
  | fly (on : Bool)
  /-- From now on, cells keep and use read copies (true) or none (false); log entry 7, DESIGN CHOICE. -/
  | copies (on : Bool)
  /-- A cell drops its read copy of a line (R311). -/
  | copyDrop (cell : CellKey) (line : Nat)
  /-- Somebody outside changes peer or host memory (R322, R323). -/
  | outside (pa : Nat) (bytes : List Byte)
deriving DecidableEq, Repr

/-- Which part of a word issues (R41). -/
inductive Half where
  | whole | scalar | vector
deriving DecidableEq, Repr

/-- The word that issues: for which slot, which half, and what has become of it. -/
structure Issue where
  gid  : SlotKey
  half : Half
  /-- The word has issued; false when it has parked to issue again or has faulted. -/
  done : Bool
deriving DecidableEq, Repr

/-! ### The device -/

/-- An entry of the Anole core's log (R406): time in ns, class, and 24 bytes of detail. -/
structure LogEntry where
  time   : Nat
  cls    : Nat
  detail : Nat
deriving DecidableEq, Repr

/-- Boot, firmware and management (R86, R89, R403 to R409). -/
structure Boot where
  booted   : Bool
  stopped  : Bool
  device   : Nat
  columns  : List Nat
  roles    : List Nat
  /-- Pod routes (R402, R403), and the devices that can be reached over them. -/
  routes   : List (Nat × Nat)
  reach    : List Nat
  /-- The firmware image's digest, as the table has it (R403). -/
  digest   : Nat
  /-- The bank that runs, its image, and the image and roles that wait in the idle bank (R405). -/
  bank     : Nat
  image    : Option FwImage
  idle     : Option (FwImage × List Nat)
  /-- The version of the state block that the old firmware has written (R405). -/
  block    : Option Nat
  /-- The update in flash (R407). -/
  flash    : Option FwImage
  fuse     : Nat
  cap      : Nat
  linksUp  : List Nat
  /-- The Anole log, oldest first (R406). -/
  log      : List LogEntry
  /-- The last sample of the sensors that belong to no cell (R406). -/
  plant    : Plant
  /-- Firmware is being handed over: wakes only set flags (R405). -/
  handover : Bool
deriving DecidableEq, Repr

/-- Memory and what homes keep of it. -/
structure Mem where
  /-- HBM and LPDDR by physical address; an unlisted byte is 0 (R404 step 5). -/
  bytes  : List Host.Cell
  /-- Peer and host memory; an unlisted byte is `Config.externByte` (log entry 10, DESIGN CHOICE). -/
  ext    : List Host.Cell
  /-- Poisoned lines (R408). -/
  poison : List Nat
  /-- Write stamp and read lease by line or stash word (R307). -/
  stamps : Tab (Nat × Nat)
  resv   : Tab Resv
  /-- Keeper-waiters of join counters (R188). -/
  joins  : Tab SlotKey
  /-- View lines cached in the home slices: line number and 128 bytes (R275). -/
  views  : Tab (List Byte)
deriving DecidableEq, Repr

/-- A gang switch that is under way on a partition (R373 to R375): the outgoing and the incoming context, the cells that still have to be
saved, those among them that have missed the deadline, and the time of the deadline once it has passed. -/
structure Switch where
  out      : Nat
  inn      : Nat
  left     : List CellKey
  late     : List CellKey
  deadline : Option Nat
  /-- The outgoing context takes another partition once it is saved (R125). -/
  part     : Bool
deriving DecidableEq, Repr

/-- The whole machine. -/
structure State where
  slots  : Tab Slot
  cores  : Tab Core
  cells  : Tab Cell
  /-- Format window words: key 128 · sector + 8 · n + k (R271). -/
  fwin   : Tab Word64
  ctxs   : Tab Ctx
  grids  : Tab Grid
  mem    : Mem
  net    : Tab Msg
  pages  : Tab PageReq
  /-- Generations of code, residual and data units by ASID number and unit: (asid, store, unit) packed (R206). -/
  gens   : Tab Nat
  /-- Token buckets of the virtual functions (R96). -/
  tokens : Tab Nat
  boot   : Boot
  /-- Slots of contexts that are switched out, by save-area key (R368, R373). -/
  saves  : Tab Slot
  /-- The clock of the link agent (R316). -/
  linkClk : Nat
  lastAsid : Nat
  nextId : Nat
  /-- Tick number by partition base (R375). -/
  tickNo : Tab Nat
  /-- Gang switches under way, by partition base. -/
  switches : Tab Switch
  agenda : List Pick
  fly    : Bool
  /-- Cells keep read copies and serve loads from them wherever R311 permits (log entry 7, DESIGN CHOICE). -/
  copies : Bool
  issue  : Issue
  /-- What the last access from outside was answered: bytes to the host or a peer, register values to the probe (log entry 33, DESIGN CHOICE). -/
  port   : List Nat
  fresh  : Nat
  time   : Nat
  turn   : CoreKey
deriving DecidableEq, Repr

/-- Why the machine as a whole goes no further. -/
inductive Fault where
  /-- Raised by `step` when the Anole core has stopped the device at 115 °C (R409). Safe: nothing runs any more. -/
  | deviceStopped
deriving DecidableEq, Repr

/-- Why the model gives no answer. -/
inductive Refusal where
  /-- Raised by an arm of `exec` that has no meaning yet. Safe: nothing can be proved of such an instruction. -/
  | notModelled (mnemonic : String)
deriving DecidableEq, Repr

/-! ### Reset -/

/-- Registers as a slot has them at a cold reset: zero and full (log entry 1, DESIGN CHOICE), p0 true and m0 all ones (R146). -/
def Regs.reset : Regs where
  s  := Vector.replicate 32 0
  sp := Vector.replicate 32 .full
  p  := (Vector.replicate 8 false).set 0 true
  pp := Vector.replicate 8 .full
  m  := (Vector.replicate 8 0).set 0 (BitVec.allOnes 256)
  mp := Vector.replicate 8 .full
  vp := Vector.replicate 32 .full

/-- A slot at a cold reset: FREE (R142). -/
def Slot.reset : Slot where
  ctl := { st := .free, wait := .none, under := .free, held := false, pc := 0, npc := 0, loops := [], epoch := 0, asid := 0,
           req := { halt := false, step := 0, more := 0, spill := false, restore := false }, deferred := none, buf := [], caught := none }
  regs := Regs.reset
  win := { base := 0, size := 0 }
  lclk := 0
  waitlim := 0
  parkCnt := 0
  parkLim := 0
  trap := { vec := 0, cause := 0, addr := 0, pc := 0 }
  shadow := { s := Vector.replicate 3 0, sp := Vector.replicate 3 .full, p1 := false, pp1 := .full, loops := [] }
  posted := 0
  pfail := none
  bsaccs := []
  inbox := []
  arrs := []
  renew := []
  ctr := Vector.replicate 16 0

/-- A channel that has carried no copy. -/
def Chan.reset : Chan where
  wp := 0
  w0 := 0
  failAt := 0
  status := 0
  clock := 0
  cur := none

/-- A core at a cold reset. -/
def Core.reset : Core where
  cycle := 0
  block := none
  deque := []
  areaAt := 0
  area := 0
  deqbase := 0
  queue := []
  lines := []
  chans := []
  passed := []

/-- A cell at a cold reset: every SRAM zero, every tag empty (R404 step 5); the rest is log entries 1 and 64, DESIGN CHOICE. -/
def Cell.reset : Cell where
  live := 0
  tested := 0
  pool := []
  retained := []
  waking := []
  lastUse := []
  wide := 3
  opnd := []
  ohold := []
  tile := []
  tpres := []
  thold := []
  claims := []
  cpyLast := 511
  lastMma := []
  stash := []
  tags := []
  maps := []
  feq := []
  copies := []
  mx := []
  mxLast := 4
  mxgen := []
  held := []
  temp := 0
  throt := 0
  ce := 0
  ue := 0
  joined := true
  units := []

/-- The device right after a cold reset, before the Anole core boots it (R404). -/
def State.reset : State where
  slots := []
  cores := []
  cells := []
  fwin := []
  ctxs := []
  grids := []
  mem := { bytes := [], ext := [], poison := [], stamps := [], resv := [], joins := [], views := [] }
  net := []
  pages := []
  gens := []
  tokens := []
  boot := { booted := false, stopped := false, device := 0, columns := [], roles := [], routes := [], reach := [], digest := 0, bank := 0,
            image := none, idle := none, block := none, flash := none, fuse := 0, cap := 2000, linksUp := List.range 24, log := []
            plant := { hbm := List.replicate 8 0, rails := [], inlet := 0, outlet := 0, flow := 0 }, handover := false }
  saves := []
  linkClk := 0
  lastAsid := 0
  nextId := 0
  tickNo := []
  switches := []
  agenda := []
  fly := false
  copies := false
  issue := { gid := 0, half := .whole, done := false }
  port := []
  fresh := 0
  time := 0
  turn := 0

end Sys2Proof.Machine
end

