-- ==== Sys2Proof/Machine/Bits.lean ====
section
/-! DEFINITION. Bit fields, sign extension and byte order (R6, R28, R214), and tables by number. -/

namespace Sys2Proof.Machine

/-- The entry of a table. -/
def tfind {α : Type} (t : Tab α) (k : Nat) : Option α :=
  match t with
  | [] => none
  | (j, x) :: r => if j = k then some x else tfind r k

/-- A table with an entry set, its keys rising. -/
def tput {α : Type} (t : Tab α) (k : Nat) (x : α) : Tab α :=
  match t with
  | [] => [(k, x)]
  | (j, y) :: r => if k < j then (k, x) :: (j, y) :: r else if j = k then (k, x) :: r else (j, y) :: tput r k x

/-- A table without an entry. -/
def tdel {α : Type} (t : Tab α) (k : Nat) : Tab α :=
  match t with
  | [] => []
  | (j, y) :: r => if j = k then r else (j, y) :: tdel r k

/-- The keys of a table. -/
def tkeys {α : Type} (t : Tab α) : List Nat := t.map Prod.fst

/-- A set of numbers as a rising list, with a number added. -/
def sadd (l : List Nat) (k : Nat) : List Nat :=
  match l with
  | [] => [k]
  | j :: r => if k < j then k :: j :: r else if j = k then j :: r else j :: sadd r k

/-- A rising list with a number removed. -/
def sdel (l : List Nat) (k : Nat) : List Nat :=
  match l with
  | [] => []
  | j :: r => if j = k then r else j :: sdel r k

/-- The value of `n` bits read in two's complement. -/
def sgn (n v : Nat) : Int := if v % 2 ^ n < 2 ^ (n - 1) then (v % 2 ^ n : Nat) else (v % 2 ^ n : Nat) - (2 ^ n : Nat)

/-- An integer modulo 2^n, as n bits. -/
def wrap (n : Nat) (i : Int) : Nat := (i % (2 ^ n : Nat)).toNat

/-- A 64-bit value of an integer, modulo 2^64 (R158). -/
def w64 (i : Int) : Word64 := BitVec.ofInt 64 i

/-- Sign extension of the low `n` bits to 64 (R167, R249). -/
def sext64 (n v : Nat) : Word64 := w64 (sgn n v)

/-- A status or count as a 64-bit value. -/
def n64 (n : Nat) : Word64 := BitVec.ofNat 64 n

/-- Bits [lo + n − 1 : lo] of a 64-bit value. -/
def bits (w : Word64) (lo n : Nat) : Nat := field w.toNat lo n

/-- One bit of a 64-bit value. -/
def bit (w : Word64) (k : Nat) : Bool := w.getLsbD k

/-- The number of little-endian bytes. -/
def leNat (bs : List Byte) : Nat := bs.foldr (fun b n => b.toNat + 256 * n) 0

/-- The `n` little-endian bytes of a number. -/
def leBytes (n v : Nat) : List Byte :=
  match n with
  | 0 => []
  | k + 1 => BitVec.ofNat 8 v :: leBytes k (v / 256)

/-- Element `i` of width `w` bits in a register or tile value (R214). -/
def elem (x w i : Nat) : Nat := field x (w * i) w

/-- The value of elements of width `w` bits, element 0 lowest. -/
def ofElems (w : Nat) (es : List Nat) : Nat := es.foldr (fun e n => e % 2 ^ w + 2 ^ w * n) 0

/-- The `n` elements of width `w` bits of a value. -/
def elems (x w n : Nat) : List Nat := (List.range n).map (elem x w)

/-- A number with its bits [lo + n − 1 : lo] replaced. -/
def setField (x lo n v : Nat) : Nat := x - field x lo n * 2 ^ lo + v % 2 ^ n * 2 ^ lo

/-- The least common count that covers `a` in pieces of `b`. -/
def ceilDiv (a b : Nat) : Nat := (a + b - 1) / b

/-- The integer nearest zero of a quotient. -/
def towardZero (x y : Int) : Int := Int.tdiv x y

/-- The number of the highest one bit plus one; 0 for 0. -/
def bitLen (v : Nat) : Nat := if v = 0 then 0 else v.log2 + 1

/-- The integer square root, by halving a range of `fuel` bits. -/
def isqrtAux (fuel v r : Nat) : Nat :=
  match fuel with
  | 0 => r
  | k + 1 => if (r + 2 ^ k) * (r + 2 ^ k) ≤ v then isqrtAux k v (r + 2 ^ k) else isqrtAux k v r

/-- The integer square root. -/
def isqrt (v : Nat) : Nat := isqrtAux ((bitLen v + 1) / 2 + 1) v 0

end Sys2Proof.Machine
end

