-- ==== Sys2Proof/Machine/Flags.lean ====
section
/-! DEFINITION. The conditions that set guards (R47, R174). The machine has no carry, overflow or floating-point status flags
(R158, R213). -/

namespace Sys2Proof.Machine

/-- The condition of CMP and CMPI on two 64-bit operands (R174). -/
def condHolds (c : Cond) (a b : Word64) : Bool :=
  match c with
  | .eq => a == b
  | .ne => a != b
  | .lts => decide (a.toInt < b.toInt)
  | .ltz => decide (a.toNat < b.toNat)
  | .les => decide (a.toInt ≤ b.toInt)
  | .lez => decide (a.toNat ≤ b.toNat)

end Sys2Proof.Machine
end

