-- ==== Sys2Proof/Config.lean ====
section
/-! DEFINITION. What the manual leaves to the implementation or open: constants without a body. Nothing can evaluate
them and no proof can see a value of them; a statement that mentions one holds for every value. -/

namespace Sys2Proof.Config

/-- A free value (log entry 8, DESIGN CHOICE): the candidate result of VRCPA (0), VRSQA (1), VEXPA (2) and VLOGA (3) for an operand
given by its bits at width 32 or 64 (R227). The same input gives the same result on every cell. -/
opaque approx (op width bits : Nat) : Nat

/-- A free value (log entry 9, DESIGN CHOICE): the choices of the loader and of the specialiser in making code (R81, R202): which free
register a value takes, and where a NOP stands. By R205 a residual depends on the template's body, the early values, the bytes of
the early regions and SPECLIM alone; for generic code there are none of the last three. -/
opaque codeChoice (body : List Byte) (early : List Word64) (regions : List (List Byte)) (speclim : Word64) (k : Nat) : Nat

/-- A free value (log entry 9, DESIGN CHOICE): the generic code of a body that has more values at once than registers (R81). -/
opaque genericCode (body : List Byte) : List Byte

/-- A free value (log entry 9, DESIGN CHOICE): the residual of such a body (R202, R205). -/
opaque residualCode (body : List Byte) (early : List Word64) (regions : List (List Byte)) (speclim : Word64) : List Byte

/-- A free value (log entry 10, DESIGN CHOICE): what a byte of peer or host memory holds that nothing on this device has written. -/
opaque externByte (pa : Nat) : Byte

/-- A free value (log entry 11, DESIGN CHOICE): the ns that pass on the device timer between two readings of it (R352). -/
opaque elapsed (k : Nat) : Nat

/-- A free value (log entry 20, DESIGN CHOICE): the bytes a load finds in a deque's spill area (R193). -/
opaque dequeByte (k addr : Nat) : Byte

/-- A free value (log entry 20, DESIGN CHOICE): the entry of an empty spill area at which the next spill begins (R193). -/
opaque areaStart (k : Nat) : Nat

/-- A free value (log entry 20, DESIGN CHOICE): what a store into the spill area leaves of a task there: word `i` of task `n` (R193). -/
opaque damaged (k n i : Nat) : Word64

/-- A free value (log entry 21, DESIGN CHOICE): whether a copy reads a byte that is also one of its destination bytes as it stood before
the copy (R264). -/
opaque copyReadsOld (k addr : Nat) : Bool

/-- A free value (log entry 12, DESIGN CHOICE): what the root on another device answers to a poll of one of its grids (R113): the state is
taken modulo 5, the count of blocks is the rest. -/
opaque peerGrid (k : Nat) (id : Word64) : Nat

/-- A free value (log entry 10, DESIGN CHOICE): what a routine installed on another device does to a line there: 0 says that the peer knows
no such routine, `i` from 1 to 2 gives the results and 3 to 130 the bytes of the line (R325). -/
opaque peerRoutine (k i : Nat) : Nat

/-- A free value (log entry 10, DESIGN CHOICE): whether a slot outside this device comes first at a word of peer memory that passes on
(R343, R344). -/
opaque peerFirst (k : Nat) : Bool

/-- A free value (log entry 12, DESIGN CHOICE): how many blocks of a shape the partition of a context on another device can hold at once
(R101). -/
opaque peerRoom (dev asid slots vwin : Nat) : Nat

/-- A free value (log entry 12, DESIGN CHOICE): how many blocks the root hands this device when it runs dry, of a grid with other devices
(R103). -/
opaque podRange (k : Nat) : Nat

/-- A free value (log entry 15, DESIGN CHOICE): the bytes of a stash range once a mapping that discarded them is removed, in lines that the
mapping never brought in (R258, R260). -/
opaque discarded (k off : Nat) : Byte

/-- A free value (log entry 62, DESIGN CHOICE): what a firmware core reads in the device control range (R391). -/
opaque deviceByte (k addr : Nat) : Byte

/-- A free value (log entry 57, DESIGN CHOICE): which line leaves a full instruction cache (R137). -/
opaque evicted (k : Nat) : Nat

/-- A free value (log entry 34, DESIGN CHOICE): what a register holds whose owing operation the debugger has discarded (R377). -/
opaque flushed (k : Nat) : Nat

/-- A free value (log entry 34, DESIGN CHOICE): how a soft error leaves the value it hits (R408). -/
opaque upset (k : Nat) : Nat

/-- A free value (log entry 34, DESIGN CHOICE): the register or item that a soft error hits (R408). -/
opaque upsetAt (k : Nat) : Nat

/-- A constant of the device (log entry 61, DESIGN CHOICE): the tested speed code of a cell, taken modulo 33; it is fixed at manufacture
(R23, R24). -/
opaque tested (cell : Nat) : Nat

/-- A free value (log entry 42, DESIGN CHOICE): how far the Anole core lowers a live speed code when it throttles (R409). -/
opaque throttledTo (k live : Nat) : Nat

/-- A free value (log entry 63, DESIGN CHOICE): the bytes of a cell save area once the cell's state is saved there (R373, R398). -/
opaque cellImage (k i : Nat) : Byte

end Sys2Proof.Config
end

