-- ==== Sys2Proof/Machine/Geometry.lean ====
section
/-! DEFINITION. Where things stand: slots, cores, cells, dies and sectors (R13 to R16), the Hilbert index (R123), home slices
(R21) and the physical map (R20, R391, R392). -/

namespace Sys2Proof.Machine

/-- The core of a slot. -/
def coreOf (g : SlotKey) : CoreKey := g / 16
/-- The cell of a slot. -/
def cellOf (g : SlotKey) : CellKey := g / 64
/-- A slot's number within its core (R157). -/
def slotNo (g : SlotKey) : Nat := g % 16
/-- A slot's core number within its cell (R157). -/
def coreNo (g : SlotKey) : Nat := g / 16 % 4
/-- The keeper of a core is its slot 0 (R14). -/
def isKeeper (g : SlotKey) : Bool := g % 16 == 0
/-- The slots of a core, in order. -/
def slotsOfCore (c : CoreKey) : List SlotKey := (List.range 16).map (16 * c + ·)
/-- A cell's column. -/
def cellX (c : CellKey) : Nat := c % 16
/-- A cell's row. -/
def cellY (c : CellKey) : Nat := c / 16
/-- The sector of a cell (R15). -/
def sectorOf (c : CellKey) : Nat := cellX c / 4 + 4 * (cellY c / 8)
/-- The compute die of a cell (R15). -/
def dieOf (c : CellKey) : Nat := cellX c / 8 + 2 * (cellY c / 8)
/-- The slice number of a cell (R16). -/
def sliceOf (c : CellKey) : Nat := 32 * sectorOf c + (cellX c % 4 + 4 * (cellY c % 8))

/-- The cell of a slice (R16). -/
def cellOfSlice (n : Nat) : CellKey :=
  let sec := n / 32
  16 * (8 * (sec / 4) + n % 32 / 4) + (4 * (sec % 4) + n % 4)

/-- One quadrant step of the Hilbert index at size `s` (R123). -/
def hilbertStep (acc : Nat × Nat × Nat) (s : Nat) : Nat × Nat × Nat :=
  let (h, x, y) := acc
  let rx := x / s % 2
  let ry := y / s % 2
  let h := h + s * s * ((3 * rx) ^^^ ry)
  let x := x % s
  let y := y % s
  if ry = 0 then
    if rx = 1 then (h, s - 1 - y, s - 1 - x) else (h, y, x)
  else (h, x, y)

/-- The Hilbert index of the cell at (x, y) (R123). -/
def hilbertXY (x y : Nat) : Nat := ([8, 4, 2, 1].foldl hilbertStep (0, x, y)).1

/-- The Hilbert index of a cell. -/
def hilbert (c : CellKey) : Nat := hilbertXY (cellX c) (cellY c)

/-- The cells of a partition [base, base + len), by ascending Hilbert index (R124). -/
def cellsOf (base len : Nat) : List CellKey :=
  let at' (h : Nat) : Option Nat := (List.range 256).find? fun c => hilbert c == h
  (List.range len).filterMap fun k => at' (base + k)

/-- A range of the physical map (R20, R391). -/
inductive Region where
  | hbm (stack : Nat)
  | lpddr
  | view (sector : Nat)
  | vfPage (f off : Nat)
  | devCtl
  | peer (dev off : Nat)
  | host
  | hole
deriving DecidableEq, Repr

/-- R391, R392: the range a physical address lies in. Peer offsets from 0x0200_0000_0000 are not memory. -/
def regionOf (pa : Nat) : Region :=
  if pa < 0x006000000000 then .hbm (pa / 0xC00000000)
  else if 0x010000000000 ≤ pa ∧ pa < 0x020000000000 then .lpddr
  else if 0x020000000000 ≤ pa ∧ pa < 0x028000000000 then .view ((pa - 0x020000000000) / 0x1000000000)
  else if 0x028000000000 ≤ pa ∧ pa < 0x028000800000 then
    .vfPage ((pa - 0x028000000000) / 0x10000) ((pa - 0x028000000000) % 0x10000)
  else if 0x030000000000 ≤ pa ∧ pa < 0x040000000000 then .devCtl
  else if 0x4000000000000 ≤ pa ∧ pa < 0x8000000000000 then
    let off := pa % 0x20000000000
    if off < 0x020000000000 then .peer ((pa - 0x4000000000000) / 0x20000000000) off else .hole
  else if 0x8000000000000 ≤ pa ∧ pa < 0x10000000000000 then .host
  else .hole

/-- The XOR of `n` consecutive groups of `w` bits of an address, from bit `lo`. -/
def xorGroups (pa w lo n : Nat) : Nat := (List.range n).foldl (fun x k => x ^^^ field pa (lo + w * k) w) 0

/-- The home slice of a line, as a slice number (R21). -/
def homeSlice (pa : Nat) : Nat :=
  match regionOf pa with
  | .hbm s => 32 * s + xorGroups pa 5 7 9
  | _ => xorGroups pa 8 7 5 ^^^ field pa 47 5

/-- A memory location by one number: a physical address, or a stash byte. -/
def stashLoc (cell off : Nat) : Nat := 2 ^ 60 + cell * 2 ^ 19 + off

/-- Whether a location lies in a stash. -/
def isStashLoc (l : Nat) : Bool := 2 ^ 60 ≤ l

/-- The cell of a stash location. -/
def locCell (l : Nat) : CellKey := (l - 2 ^ 60) / 2 ^ 19

/-- The stash offset of a stash location. -/
def locOff (l : Nat) : Nat := (l - 2 ^ 60) % 2 ^ 19

/-- What carries stamps at a location: the 128-byte line of global memory, or the 64-bit word of a stash (R307, R315). -/
def stampKey (l : Nat) : Nat := if isStashLoc l then l / 8 else l / 128

end Sys2Proof.Machine
end

