-- ==== Sys2Proof/Machine/Memory.lean ====
section
/-! DEFINITION. Bytes of memory and stash in one canonical form, and the stamps their homes keep (R307 to R310). -/

namespace Sys2Proof.Machine

/-- A byte list is canonical: addresses strictly rising from above `lo`, and no listed byte is 0, which an unlisted one reads
as (R404 step 5). -/
def bytesFrom (lo : Nat) (l : List Host.Cell) : Bool :=
  match l with
  | [] => true
  | (a, b) :: r => decide (lo ≤ a) && b != 0 && bytesFrom (a + 1) r

/-- The canonical form of a memory. -/
def bytesWf (l : List Host.Cell) : Bool := bytesFrom 0 l

/-- One byte. -/
def getByte (l : List Host.Cell) (a : Nat) : Byte :=
  match l with
  | [] => 0
  | (b, x) :: r => if b = a then x else getByte r a

/-- One byte written; writing 0 removes the entry. -/
def putByte (l : List Host.Cell) (a : Nat) (x : Byte) : List Host.Cell :=
  match l with
  | [] => if x = 0 then [] else [(a, x)]
  | (b, y) :: r =>
    if a < b then (if x = 0 then (b, y) :: r else (a, x) :: (b, y) :: r)
    else if a = b then (if x = 0 then r else (a, x) :: r)
    else (b, y) :: putByte r a x

/-- `n` bytes from an address. -/
def getBytes (l : List Host.Cell) (a n : Nat) : List Byte :=
  match n with
  | 0 => []
  | k + 1 => getByte l a :: getBytes l (a + 1) k

/-- Bytes written from an address. -/
def putBytes (l : List Host.Cell) (a : Nat) (bs : List Byte) : List Host.Cell :=
  match bs with
  | [] => l
  | b :: r => putBytes (putByte l a b) (a + 1) r

/-- The keys of a table rise strictly from `lo` on. -/
def keysFrom {α : Type} (lo : Nat) (t : Tab α) : Bool :=
  match t with
  | [] => true
  | (k, _) :: r => decide (lo ≤ k) && keysFrom (k + 1) r

/-- Memory.wf: memory and every stash, here and of contexts that are switched out, are in canonical form. Peer and host memory
lists what has been written there: its addresses rise, and no value is left out, since an unlisted byte has no known value. -/
abbrev Memory.wf (s : State) : Prop :=
  bytesWf s.mem.bytes = true ∧ keysFrom 0 s.mem.ext = true ∧ (∀ c ∈ s.cells, bytesWf c.2.stash = true) ∧
  ∀ x ∈ s.ctxs, ∀ c ∈ x.2.saved, bytesWf c.2.stash = true

/-- One byte of peer or host memory as last written from here or outside; otherwise a free value (log entry 10, DESIGN CHOICE). -/
def getExt (l : List Host.Cell) (a : Nat) : Byte :=
  match l with
  | [] => Config.externByte a
  | (b, x) :: r => if b = a then x else getExt r a

/-- `n` bytes of peer or host memory. -/
def getExts (l : List Host.Cell) (a n : Nat) : List Byte :=
  match n with
  | 0 => []
  | k + 1 => getExt l a :: getExts l (a + 1) k

/-- Bytes of peer or host memory written. -/
def putExts (l : List Host.Cell) (a : Nat) (bs : List Byte) : List Host.Cell :=
  match bs with
  | [] => l
  | b :: r => putExts (tput l a b) (a + 1) r

/-! ### The parts of the state -/

/-- A slot. -/
def slotAt (s : State) (g : SlotKey) : Slot := (tfind s.slots g).getD Slot.reset
/-- A slot replaced. -/
def setSlot (g : SlotKey) (x : Slot) (s : State) : State := { s with slots := tput s.slots g x }
/-- A slot changed. -/
def modSlot (g : SlotKey) (f : Slot → Slot) (s : State) : State := setSlot g (f (slotAt s g)) s
/-- A slot's control state changed. -/
def modCtl (g : SlotKey) (f : Ctl → Ctl) (s : State) : State := modSlot g (fun x => { x with ctl := f x.ctl }) s
/-- The slots of contexts that are switched out, by ASID number and slot (R373). -/
def saveKey (a : Nat) (g : SlotKey) : Nat := a * 16384 + g
/-- A slot that is switched out, by the life in which it issued something. -/
def savedSlot (s : State) (g : SlotKey) (ep : Nat) : Option (Nat × Slot) :=
  s.saves.find? fun q => q.1 % 16384 == g && q.2.ctl.epoch == ep
/-- The slot that issued something, in that life, with the number by which queues name it (R345, R373). -/
def ownerOf (s : State) (g : SlotKey) (ep : Nat) : Option (Nat × Slot) :=
  if (slotAt s g).ctl.epoch = ep then some (g, slotAt s g) else savedSlot s g ep
/-- Whether the slot that issued something still lives that life, here or switched out. -/
def owned (s : State) (g : SlotKey) (ep : Nat) : Bool := (slotAt s g).ctl.epoch == ep || (savedSlot s g ep).isSome
/-- The slot that issued something changed, wherever it is. -/
def modOwner (g : SlotKey) (ep : Nat) (f : Slot → Slot) (s : State) : State :=
  if (slotAt s g).ctl.epoch = ep then modSlot g f s
  else match savedSlot s g ep with
    | some q => { s with saves := tput s.saves q.1 (f q.2) }
    | none => s
/-- A core. -/
def coreAt (s : State) (c : CoreKey) : Core := (tfind s.cores c).getD Core.reset
/-- A core changed. -/
def modCore (c : CoreKey) (f : Core → Core) (s : State) : State := { s with cores := tput s.cores c (f (coreAt s c)) }
/-- A cell. -/
def cellAt (s : State) (c : CellKey) : Cell := (tfind s.cells c).getD Cell.reset
/-- A cell changed. -/
def modCell (c : CellKey) (f : Cell → Cell) (s : State) : State := { s with cells := tput s.cells c (f (cellAt s c)) }
/-- A context. -/
def ctxAt (s : State) (a : Nat) : Option Ctx := tfind s.ctxs a
/-- A context changed, where it lives. -/
def modCtx (a : Nat) (f : Ctx → Ctx) (s : State) : State :=
  match ctxAt s a with
  | some c => { s with ctxs := tput s.ctxs a (f c) }
  | none => s
/-- The context a slot runs. -/
def ctxOf (s : State) (g : SlotKey) : Option Ctx := ctxAt s (slotAt s g).ctl.asid
/-- A grid record changed, where there is one. -/
def modGrid (k : Nat) (f : Grid → Grid) (s : State) : State :=
  match tfind s.grids k with
  | some x => { s with grids := tput s.grids k (f x) }
  | none => s
/-- A message put on its way, under the next number. -/
def send (m : Msg) (s : State) : State := { s with net := tput s.net s.nextId m, nextId := s.nextId + 1 }
/-- A message taken from the way. -/
def took (k : Nat) (s : State) : State := { s with net := tdel s.net k }

/-! ### Locations: memory of this device and stashes -/

/-- `n` bytes at a location. -/
def readLoc (s : State) (l n : Nat) : List Byte :=
  if isStashLoc l then getBytes (cellAt s (locCell l)).stash (locOff l) n else getBytes s.mem.bytes l n

/-- Bytes written at a location. A store of a whole line clears its poison (R408). -/
def writeLoc (l : Nat) (bs : List Byte) (s : State) : State :=
  if isStashLoc l then modCell (locCell l) (fun c => { c with stash := putBytes c.stash (locOff l) bs }) s
  else { s with mem := { s.mem with
    bytes := putBytes s.mem.bytes l bs
    poison := if bs.length = 128 ∧ l % 128 = 0 then sdel s.mem.poison (l / 128) else s.mem.poison } }

/-- The 64-bit word at a location. -/
def read64 (s : State) (l : Nat) : Word64 := n64 (leNat (readLoc s l 8))

/-- A 64-bit word written at a location. -/
def write64 (l : Nat) (v : Word64) (s : State) : State := writeLoc l (leBytes 8 v.toNat) s

/-! ### Lines that stashes hold (R259) -/

/-- Where a stash holds a physical line: cell, entry, line number, stash offset, and whether it is written. -/
def holdersOf (s : State) (line : Nat) : List (CellKey × StMap × Nat × Bool) :=
  s.cells.flatMap fun c => c.2.maps.flatMap fun m =>
    (m.present.filter (fun q => q.2 == line)).map fun q => (c.1, m, q.1, m.dirty.contains q.1)

/-- The line that has the newest bytes of a physical line: that of a stash where one holds it written (R315). -/
def newestLine (s : State) (line : Nat) : Nat :=
  match (holdersOf s line).find? (fun h => h.2.2.2) with
  | some (c, m, k, _) => stashLoc c (m.off + 128 * k) / 128
  | none => line

/-- The `n` bytes at a physical address as the single order has them: from a written stash line if one holds them (R315). -/
def readMem (s : State) (pa n : Nat) : List Byte :=
  match (holdersOf s (pa / 128)).find? (fun h => h.2.2.2) with
  | some (c, m, k, _) => getBytes (cellAt s c).stash (m.off + 128 * k + pa % 128) n
  | none => getBytes s.mem.bytes pa n

/-- The number of a stash location of a context while its cell is switched out (R373). -/
def outLoc (a l : Nat) : Nat := l + (a + 1) * 2 ^ 64

/-- The cell that a context has saved, by location number. -/
def savedCellAt (s : State) (k : Nat) : Cell :=
  match ctxAt s (k / 2 ^ 64 - 1) with
  | some c => (tfind c.saved (hilbert (locCell (k % 2 ^ 64)) - c.part.curBase)).getD Cell.reset
  | none => Cell.reset

/-- The 64-bit word that the key of a place names (R344): in a stash, here or saved, in memory, or outside the device. -/
def readKey (s : State) (k : Nat) : Word64 :=
  if 2 ^ 64 ≤ k then n64 (leNat (getBytes (savedCellAt s k).stash (locOff (k % 2 ^ 64)) 8))
  else if isStashLoc k then read64 s k
  else match regionOf k with
    | .peer _ _ | .host => n64 (leNat (getExts s.mem.ext k 8))
    | _ => n64 (leNat (readMem s k 8))

/-! ### Stamps -/

/-- The write stamp and read lease at a location (R307). -/
def stamps (s : State) (l : Nat) : Nat × Nat := (tfind s.mem.stamps (stampKey l)).getD (0, 0)

/-- Stamps set. -/
def setStamps (l : Nat) (x : Nat × Nat) (s : State) : State :=
  { s with mem := { s.mem with stamps := tput s.mem.stamps (stampKey l) x } }

/-- The lease length of a context (R308). -/
def leaseOf (s : State) (a : Nat) : Nat := match ctxAt s a with | some c => c.llease | none => 256

/-- A slot's clock raised to that of a message or place it depends on (R312). -/
def raiseClock (g : SlotKey) (c : Nat) (s : State) : State := modSlot g (fun x => { x with lclk := max x.lclk c }) s

/-- The clock of the slot that issued something, wherever it is; once it has been freed, that of its place, which a later life of the
slot never falls behind (R307). `c` is the clock at issue. -/
def issuerClock (s : State) (g : SlotKey) (ep c : Nat) : Nat :=
  max c (match ownerOf s g ep with | some x => x.2.lclk | none => (slotAt s g).lclk)

/-- The clock of the slot that issued something raised. -/
def raiseIssuer (g : SlotKey) (ep c : Nat) (s : State) : State :=
  if owned s g ep then modOwner g ep (fun x => { x with lclk := max x.lclk c }) s else raiseClock g c s

/-- A load's place in the single order (R309): the slot's clock and the line's lease. -/
def stampLoad (g : SlotKey) (l : Nat) (s : State) : State :=
  let x := slotAt s g
  let (w, r) := stamps s l
  let ts := max (x.lclk + 1) w
  setStamps l (w, max r (ts + leaseOf s x.ctl.asid - 1)) (setSlot g { x with lclk := ts } s)

/-- The place of a store, an atomic or a routine (R310). -/
def stampStore (g : SlotKey) (l : Nat) (s : State) : State :=
  let x := slotAt s g
  let ts := max x.lclk (stamps s l).2 + 1
  setStamps l (ts, ts) (setSlot g { x with lclk := ts } s)

/-- The same for a request whose slot has gone: only the line is stamped. -/
def stampLine (c l : Nat) (s : State) : State :=
  let ts := max c (stamps s l).2 + 1
  setStamps l (ts, ts) s

end Sys2Proof.Machine
end

