-- ==== Sys2Proof/Machine/Operands.lean ====
section
/-! DEFINITION. The operand forms: which registers an instruction reads before it may issue (R147), which scalar and guard
registers it writes (R148), which vector registers its fields name (R150), what a queued operation owes (R149) and which
scalars it captures (R210). -/

namespace Sys2Proof.Machine

/-- The next register of a pair or group (R330, R338). -/
def sreg (d : SReg) (k : Nat) : SReg := ⟨(d.val + k) % 32, Nat.mod_lt _ (by decide)⟩

/-- A tile number of a pair (R286). -/
def areg (d : AccNo) (k : Nat) : AccNo := ⟨(d.val + k) % 8, Nat.mod_lt _ (by decide)⟩

/-- Consecutive vector registers from `a` (R284). -/
def vregs (a : VRegNo) (n : Nat) : List Nat := (List.range n).map (a.val + ·)

/-- A merging destination is read under a mask other than m0 (R215). -/
def merged (d : VRegNo) (m : MReg) : List Desig := if m = 0 then [] else [.v d]

/-- The tiles a TMMA works on (R286). -/
def tilesOf (acc : AccNo) (t : Ty) (bx : Bool) : List Desig :=
  if t = .f64 ∨ bx then [.acc acc, .acc (areg acc 1)] else [.acc acc]

/-- The tiles an ASTORE reads (R295). -/
def srcTiles (acc : AccNo) (src : AccSrc) : List Desig :=
  match src with
  | .f64 | .bx => [.acc acc, .acc (areg acc 1)]
  | _ => [.acc acc]

/-- The registers a shift's count names (R230). -/
def ShCount.reads : ShCount → List Desig
  | .vec b => [.v b]
  | .sca c => [.s c]

/-- s4 to s7, which FORK carries and SSTART hands on (R187, R129). -/
def argRegs : List Desig := [.s 4, .s 5, .s 6, .s 7]

/-- A narrowing VCVT reads its destination whatever its mask (R233). -/
def cvtReads (d : VRegNo) (m : MReg) (td ts : Ty) : List Desig :=
  if td.width < ts.width then [.v d] else merged d m

/-- The registers an instruction reads (R147). -/
def reads : Instr → List Desig
  | .add _ a b | .sub _ a b | .mul _ a b | .mulhs _ a b | .mulhz _ a b | .divs _ a b | .divz _ a b | .rems _ a b
  | .remz _ a b | .and _ a b | .or _ a b | .xor _ a b | .andn _ a b | .shl _ a b | .shrz _ a b | .shrs _ a b
  | .rotl _ a b | .mins _ a b | .minz _ a b | .maxs _ a b | .maxz _ a b => [.s a, .s b]
  | .clz _ a | .ctz _ a | .popc _ a | .bswap _ a | .sext8 _ a | .sext16 _ a | .sext32 _ a => [.s a]
  | .madd d a b c => [.s d, .s a, .s b, .s c]
  | .addiS _ a _ | .andiS _ a _ | .oriS _ a _ | .xoriS _ a _ => [.s a]
  | .addiL _ a _ | .andiL _ a _ | .oriL _ a _ | .xoriL _ a _ => [.s a]
  | .shli _ a _ | .shri _ a _ _ | .bfx _ a _ _ _ => [.s a]
  | .bfi d a _ _ => [.s d, .s a]
  | .cmp _ a b _ => [.s a, .s b]
  | .cmpi _ a _ _ => [.s a]
  | .pand _ a b | .por _ a b | .pxor _ a b => [.p a, .p b]
  | .pnot _ a | .movpFrom _ a => [.p a]
  | .movpTo _ a => [.s a]
  | .sel _ a b g _ => [.p g, .s a, .s b]
  | .xya _ a b _ _ => [.s a, .s b]
  | .cset a _ | .csetVwin a | .csetPbase a | .csetPlen a | .csetDeqbase a | .csetSpeclim a | .csetLlease a
  | .fwinWord0Write a _ | .fwinConfigWrite a _ _ | .inval a _ => [.s a]
  | .jr a | .callr _ a | .loop a _ | .join a | .callh a | .rfree a | .rinfo _ a => [.s a]
  | .ret => [.s 31]
  | .fork a _ => .s a :: argRegs
  | .spec _ a b => [.s a, .s b]
  | .sstart a b => .s a :: .s b :: argRegs
  | .sreap _ a | .sstat _ a | .tnext _ a | .launch _ a | .gstat _ a => [.s a]
  | .gcancelDrain a | .gcancelKill a => [.s a]
  | .chsend _ a b | .chrecv _ a b | .getstate _ a b | .setstate _ a b | .getwidx _ a b | .getridx _ a b
  | .setridx _ a b | .getbase _ a b => [.s a, .s b]
  | .ldOff _ a _ _ => [.s a]
  | .ldIdx _ a b _ _ => [.s a, .s b]
  | .stOff d a _ _ => [.s d, .s a]
  | .stIdx d a b _ _ => [.s d, .s a, .s b]
  | .ldf _ a _ | .ldfk _ a _ | .fclr a _ | .feq _ a _ => [.s a]
  | .ste d a _ | .stff d a _ => [.s d, .s a]
  | .amo _ a b _ _ | .amon a b _ _ => [.s a, .s b]
  | .cas d a b _ => [.s d, .s a, .s b]
  | .cas2 d a b => [.s d, .s (sreg d 1), .s a, .s b, .s (sreg b 1)]
  | .slr _ a b _ | .slrn a b _ => [.s a, .s b, .s (sreg b 1), .s (sreg b 2), .s (sreg b 3)]
  | .lrw _ a | .schx a => [.s a]
  | .sch a b => [.s a, .s b]
  | .bari a _ | .barw _ a _ | .barq _ a _ => [.s a]
  | .cpyw _ a b => [.s a, .s b]
  | .cpyq _ a | .pref a _ _ | .stunmap _ a | .stflush _ a | .oclaim _ a | .orel a | .mxcap _ a | .bsacc _ a => [.s a]
  | .stmap _ a b | .mxwait _ a b => [.s a, .s b]
  | .bsum d a b => [.s d, .s a, .s b]
  | .lih d _ => [.s d]
  | .rput a _ | .cpy _ a _ _ _ _ | .cpyx _ a _ _ _ _ | .tmmar _ a _ | .slrinst a _ => [.s a]
  | .vadd d a b m _ _ | .vsub d a b m _ _ | .vmul d a b m _ _ | .vdiv d a b m _ _ => .v a :: .v b :: .m m :: merged d m
  | .vfma d a b c m _ _ | .vfms d a b c m _ _ | .vfnma d a b c m _ _ => .v a :: .v b :: .v c :: .m m :: merged d m
  | .vmin d a b m _ | .vmax d a b m _ | .vand d a b m _ | .vor d a b m _ | .vxor d a b m _ | .vadds d a b m _
  | .vsubs d a b m _ | .vmulh d a b m _ | .vperm d a b m _ => .v a :: .v b :: .m m :: merged d m
  | .vslide d a b m _ _ | .vpack d a b m _ _ => .v a :: .v b :: .m m :: merged d m
  | .vabs d a m _ | .vneg d a m _ | .vrcpa d a m _ | .vrsqa d a m _ | .vexpa d a m _ | .vloga d a m _ | .vnot d a m _
  | .vxpnd d a m _ | .vmov d a m _ => .v a :: .m m :: merged d m
  | .vsqrt d a m _ _ => .v a :: .m m :: merged d m
  | .vunpk d a m _ _ => .v a :: .m m :: merged d m
  | .vscan d a m _ _ _ => .v a :: .m m :: merged d m
  | .vcmp d a b m _ _ => .v a :: .v b :: .m m :: (if m = 0 then [] else [.m d])
  | .vsel _ a b m _ => [.v a, .v b, .m m]
  | .vcomp _ a m _ => [.v a, .m m]
  | .vshl d a n m _ | .vshrz d a n m _ | .vshrs d a n m _ => .v a :: .m m :: (ShCount.reads n ++ merged d m)
  | .vdot4 d a b m _ _ => [.v a, .v b, .m m, .v d]
  | .vcvt d a m td ts _ _ _ => .v a :: .m m :: cvtReads d m td ts
  | .vbcast d c m _ | .vidx d c m _ => .s c :: .m m :: merged d m
  | .vredadd _ a c m _ _ => [.v a, .s c, .m m]
  | .vredmin _ a c m _ | .vredmax _ a c m _ => [.v a, .s c, .m m]
  | .vext _ a _ _ => [.v a]
  | .vins d c _ _ => [.s c, .v d]
  | .mand _ a b | .mor _ a b | .mxor _ a b => [.m a, .m b]
  | .mnot _ a | .mpopc _ a _ | .mfirst _ a _ => [.m a]
  | .vld d c m _ _ => .s c :: .m m :: merged d m
  | .vst a c m _ _ => [.v a, .s c, .m m]
  | .vlds d b c m _ => .s b :: .s c :: .m m :: merged d m
  | .vsts a b c m _ => [.v a, .s b, .s c, .m m]
  | .vgath d a c m _ _ => .v a :: .s c :: .m m :: merged d m
  | .vscat a b c m _ _ => [.v a, .v b, .s c, .m m]
  | .oload _ b c _ _ _ _ => [.s b, .s c]
  | .ofill _ a _ k => (vregs a (k.toNat + 1)).filterMap fun n => if h : n < 32 then some (.v ⟨n, h⟩) else none
  | .tmma acc _ _ c t _ z _ _ =>
      (match c with | some r => [.s r] | none => []) ++ (if z then [] else tilesOf acc t c.isSome)
  | .astore st acc vb c _ _ _ src =>
      .s st :: .s c :: (match vb with | some r => [.v r] | none => []) ++ srcTiles acc src
  | .avec _ acc _ => [.acc acc]
  | _ => []

/-- The scalar and guard registers an instruction of the scalar class writes (R148). -/
def writes : Instr → List Desig
  | .add d _ _ | .sub d _ _ | .mul d _ _ | .mulhs d _ _ | .mulhz d _ _ | .divs d _ _ | .divz d _ _ | .rems d _ _
  | .remz d _ _ | .and d _ _ | .or d _ _ | .xor d _ _ | .andn d _ _ | .shl d _ _ | .shrz d _ _ | .shrs d _ _
  | .rotl d _ _ | .mins d _ _ | .minz d _ _ | .maxs d _ _ | .maxz d _ _ => [.s d]
  | .clz d _ | .ctz d _ | .popc d _ | .bswap d _ | .sext8 d _ | .sext16 d _ | .sext32 d _ => [.s d]
  | .madd d _ _ _ => [.s d]
  | .addiS d _ _ | .andiS d _ _ | .oriS d _ _ | .xoriS d _ _ => [.s d]
  | .addiL d _ _ | .andiL d _ _ | .oriL d _ _ | .xoriL d _ _ => [.s d]
  | .shli d _ _ | .shri d _ _ _ | .bfx d _ _ _ _ | .bfi d _ _ _ => [.s d]
  | .cmp g _ _ _ | .cmpi g _ _ _ => [.p g]
  | .pand d _ _ | .por d _ _ | .pxor d _ _ | .pnot d _ | .movpTo d _ => [.p d]
  | .movpFrom d _ | .sel d _ _ _ _ | .xya d _ _ _ _ | .cget d _ => [.s d]
  | .pres g _ => [.p g]
  | .call _ | .callh _ => [.s 31]
  | .callr d _ => [.s d]
  | .spec d _ _ | .rinfo d _ | .sreap d _ | .sstat d _ | .tnext d _ | .launch d _ | .gstat d _ => [.s d]
  | .chsend d _ _ | .chrecv d _ _ | .getstate d _ _ | .setstate d _ _ | .getwidx d _ _ | .getridx d _ _
  | .setridx d _ _ | .getbase d _ _ => [.s d]
  | .ldOff d _ _ _ | .ldIdx d _ _ _ _ | .ldf d _ _ | .ldfk d _ _ | .feq d _ _ => [.s d]
  | .amo d _ _ _ _ | .cas d _ _ _ => [.s d]
  | .cas2 d _ _ | .slr d _ _ _ | .bsacc d _ => [.s d, .s (sreg d 1)]
  | .lrw d _ | .bara d _ | .barw d _ _ | .barq d _ _ => [.s d]
  | .cpyw d _ _ | .cpyq d _ | .stmap d _ _ | .stunmap d _ | .stflush d _ | .oclaim d _ | .mxwait d _ _
  | .mxcap d _ => [.s d]
  | .li d _ | .lih d _ | .cpy d _ _ _ _ _ | .cpyx d _ _ _ _ _ | .tmmar d _ _ => [.s d]
  | _ => []

/-- The registers a queued operation writes, which its word marks owed (R149, R210). -/
def owes : Instr → List Desig
  | .vadd d _ _ _ _ _ | .vsub d _ _ _ _ _ | .vmul d _ _ _ _ _ | .vdiv d _ _ _ _ _ => [.v d]
  | .vfma d _ _ _ _ _ _ | .vfms d _ _ _ _ _ _ | .vfnma d _ _ _ _ _ _ => [.v d]
  | .vmin d _ _ _ _ | .vmax d _ _ _ _ | .vand d _ _ _ _ | .vor d _ _ _ _ | .vxor d _ _ _ _ | .vadds d _ _ _ _
  | .vsubs d _ _ _ _ | .vmulh d _ _ _ _ | .vperm d _ _ _ _ | .vsel d _ _ _ _ => [.v d]
  | .vslide d _ _ _ _ _ | .vpack d _ _ _ _ _ | .vdot4 d _ _ _ _ _ => [.v d]
  | .vabs d _ _ _ | .vneg d _ _ _ | .vrcpa d _ _ _ | .vrsqa d _ _ _ | .vexpa d _ _ _ | .vloga d _ _ _ | .vnot d _ _ _
  | .vxpnd d _ _ _ | .vmov d _ _ _ | .vcomp d _ _ _ => [.v d]
  | .vsqrt d _ _ _ _ | .vunpk d _ _ _ _ => [.v d]
  | .vscan d _ _ _ _ _ => [.v d]
  | .vcmp d _ _ _ _ _ => [.m d]
  | .vshl d _ _ _ _ | .vshrz d _ _ _ _ | .vshrs d _ _ _ _ => [.v d]
  | .vcvt d _ _ _ _ _ _ _ => [.v d]
  | .vbcast d _ _ _ | .vidx d _ _ _ => [.v d]
  | .vredadd d _ _ _ _ _ => [.s d]
  | .vredmin d _ _ _ _ | .vredmax d _ _ _ _ => [.s d]
  | .vext d _ _ _ => [.s d]
  | .vins d _ _ _ => [.v d]
  | .mand d _ _ | .mor d _ _ | .mxor d _ _ => [.m d]
  | .mnot d _ => [.m d]
  | .mpopc d _ _ | .mfirst d _ _ => [.s d]
  | .vld d _ _ _ _ | .vlds d _ _ _ _ => [.v d]
  | .vgath d _ _ _ _ _ => [.v d]
  | .tmma acc _ _ c t _ _ _ _ => tilesOf acc t c.isSome
  | .azero acc => [.acc acc]
  | .avec d _ _ => [.v d]
  | _ => []

/-- The vector register a designator names. -/
def vnum : Desig → Option Nat
  | .v n => some n.val
  | _ => none

/-- The vector registers an instruction's fields and designators name (R150). -/
def vfields : Instr → List Nat
  | .pres _ k | .drop k => (vnum k).toList
  | .ofill _ a _ k => vregs a (k.toNat + 1)
  | i => (reads i).filterMap vnum ++ (owes i).filterMap vnum

/-- The scalar registers whose values a queued operation captures, in the order its meaning takes them (R210). -/
def scalars : Instr → List SReg
  | .vshl _ _ (.sca c) _ _ | .vshrz _ _ (.sca c) _ _ | .vshrs _ _ (.sca c) _ _ => [c]
  | .vbcast _ c _ _ | .vidx _ c _ _ | .vins _ c _ _ => [c]
  | .vredadd _ _ c _ _ _ => [c]
  | .vredmin _ _ c _ _ | .vredmax _ _ c _ _ => [c]
  | .vld _ c _ _ _ | .vst _ c _ _ _ => [c]
  | .vlds _ b c _ _ | .vsts _ b c _ _ => [c, b]
  | .vgath _ _ c _ _ _ | .vscat _ _ c _ _ _ => [c]
  | .oload _ b c _ _ _ _ => [c, b]
  | .tmma _ _ _ (some c) _ _ _ _ _ => [c]
  | .astore st _ _ c _ _ _ _ => [c, st]
  | _ => []

/-- The mask register that a queued operation reads, if it has one (R252). -/
def maskOf : Instr → Option MReg
  | .vld _ _ m _ _ | .vst _ _ m _ _ => some m
  | .vlds _ _ _ m _ | .vsts _ _ _ m _ => some m
  | .vgath _ _ _ m _ _ | .vscat _ _ _ m _ _ => some m
  | _ => none

/-- The operations that count as vector memory operations for R255 (R250, R283, R295). -/
def isVmem : Instr → Bool
  | .vld .. | .vst .. | .vlds .. | .vsts .. | .vgath .. | .vscat .. | .oload .. | .astore .. => true
  | _ => false

/-- The operations of the matrix unit's loader and sequencer, which live on in the cell after they start (R285). -/
def isMatrix : Instr → Bool
  | .oload .. | .ofill .. | .tmma .. | .azero .. | .astore .. | .avec .. => true
  | _ => false

/-- The operand slots a matrix word names (R279). -/
def osFields : Instr → List Nat
  | .oload o _ _ _ _ _ _ => [o.val]
  | .ofill o _ _ _ => [o.val]
  | .tmma _ oa ob _ _ _ _ _ n => (List.range (n.toNat + 1)).map (oa.val + ·) ++ (List.range (n.toNat + 1)).map (ob.val + ·)
  | _ => []

/-- The tiles a word names (R153, R279). -/
def tileFields : Instr → List Nat
  | .pres _ (.acc n) | .drop (.acc n) => [n.val]
  | .tmma acc _ _ c t _ _ _ _ => if t = .f64 ∨ c.isSome then [acc.val, acc.val + 1] else [acc.val]
  | .azero acc => [acc.val]
  | .astore _ acc _ _ _ _ _ src =>
      (match src with
        | .f64 | .bx => [acc.val, acc.val + 1]
        | _ => [acc.val])
  | .avec _ acc _ => [acc.val]
  | _ => []

end Sys2Proof.Machine
end

