-- ==== Sys2Proof/Machine/Ops.lean ====
section
/-! DEFINITION. The shared operations on slots: registers and their presence (R145 to R149), parking and completing a word
(R143, R144, R185, R186), taking a trap and returning from one (R361, R364), stopping a slot (R111) and delivering an
arrival (R141, R371). -/

namespace Sys2Proof.Machine

/-- What a meaning answers. -/
abbrev Res := Host.Outcome State Fault Refusal

/-! ### The device timer (R352, R406) -/

/-- A reading of the device timer, in ns (log entry 11, DESIGN CHOICE). -/
def readTimer (s : State) : Nat × State :=
  let t := s.time + Config.elapsed s.fresh
  (t, { s with time := t, fresh := s.fresh + 1 })

/-! ### Firmware cores and their roles (R86, R89, R91) -/

/-- The firmware cores: core 3 of every cell of a firmware column, by column and then by y (R86, R89). -/
def fwCores (s : State) : List CoreKey :=
  ((List.range 16).filter fun x => s.boot.columns.contains x).flatMap fun x => (List.range 16).map fun y => 4 * (16 * y + x) + 3

/-- The firmware cores of a role, in the order of R89: 0 QUEUE, 1 PAGE, 2 SPEC, 3 LOADER, 4 SPARE. -/
def roleCores (s : State) (r : Nat) : List CoreKey := (((fwCores s).zip s.boot.roles).filter fun q => q.2 == r).map Prod.fst

/-- A core that does the work of a role (log entry 60, DESIGN CHOICE: the first). A SPARE core does none. -/
def workCore (s : State) (r : Nat) : Option CoreKey := (roleCores s r).head?

/-- R91: the QUEUE core that serves queue `q` of virtual function `f`. -/
def queueCore (s : State) (f q : Nat) : Option CoreKey :=
  let l := roleCores s 0
  l[(64 * f + q) % l.length]?

/-! ### Registers -/

/-- A scalar register's value; s0 reads 0 (R146). -/
def sGet (x : Slot) (n : SReg) : Word64 := if n = 0 then 0 else x.regs.s[n.val]

/-- A guard's value; p0 reads true (R146). -/
def pGet (x : Slot) (n : GReg) : Bool := if n = 0 then true else x.regs.p[n.val]

/-- A mask's value; m0 reads all ones (R146). -/
def mGet (x : Slot) (n : MReg) : MVal := if n = 0 then BitVec.allOnes 256 else x.regs.m[n.val]

/-- A vector register's value in the slot's window (R150). -/
def vGet (s : State) (g : SlotKey) (n : Nat) : VVal :=
  (tfind (cellAt s (cellOf g)).pool ((slotAt s g).win.base + n)).getD 0

/-- A scalar written and made full; a write to s0 is discarded (R146). -/
def sSet (n : SReg) (v : Word64) (x : Slot) : Slot :=
  if n = 0 then x
  else { x with regs := { x.regs with s := x.regs.s.set n.val v, sp := x.regs.sp.set n.val .full } }

/-- A guard written and made full; a write to p0 is discarded (R146). -/
def pSet (n : GReg) (v : Bool) (x : Slot) : Slot :=
  if n = 0 then x
  else { x with regs := { x.regs with p := x.regs.p.set n.val v, pp := x.regs.pp.set n.val .full } }

/-- A mask written and made full; a write to m0 is discarded (R146). -/
def mSet (n : MReg) (v : MVal) (x : Slot) : Slot :=
  if n = 0 then x
  else { x with regs := { x.regs with m := x.regs.m.set n.val v, mp := x.regs.mp.set n.val .full } }

/-- The core cycle that a cell has reached. -/
def cellCycle (s : State) (c : CellKey) : Nat := ([0, 1, 2, 3].map fun k => (coreAt s (4 * c + k)).cycle).foldl max 0

/-- A bank's use noted (R378). -/
def touchBank (g : SlotKey) (s : State) : State :=
  modCell (cellOf g) (fun c =>
    { c with lastUse := tput c.lastUse ((slotAt s g).win.base / 32) (cellCycle s (cellOf g)) }) s

/-- A vector register's value set, its presence left alone. -/
def vPut (g : SlotKey) (n : Nat) (v : VVal) (s : State) : State :=
  modCell (cellOf g) (fun c => { c with pool := tput c.pool ((slotAt s g).win.base + n) v }) (touchBank g s)

/-- The presence of a register (R146, R279). -/
def presOf (s : State) (g : SlotKey) : Desig → Pres
  | .s n => if n = 0 then .full else (slotAt s g).regs.sp[n.val]
  | .p n => if n = 0 then .full else (slotAt s g).regs.pp[n.val]
  | .v n => (slotAt s g).regs.vp[n.val]
  | .m n => if n = 0 then .full else (slotAt s g).regs.mp[n.val]
  | .acc n => (tfind (cellAt s (cellOf g)).tpres n.val).getD .full

/-- A presence state set; s0, p0 and m0 stay full (R146). -/
def setPres (g : SlotKey) (k : Desig) (pr : Pres) (s : State) : State :=
  match k with
  | .s n => if n = 0 then s else modSlot g (fun x => { x with regs := { x.regs with sp := x.regs.sp.set n.val pr } }) s
  | .p n => if n = 0 then s else modSlot g (fun x => { x with regs := { x.regs with pp := x.regs.pp.set n.val pr } }) s
  | .v n => modSlot g (fun x => { x with regs := { x.regs with vp := x.regs.vp.set n.val pr } }) s
  | .m n => if n = 0 then s else modSlot g (fun x => { x with regs := { x.regs with mp := x.regs.mp.set n.val pr } }) s
  | .acc n => modCell (cellOf g) (fun c => { c with tpres := tput c.tpres n.val pr }) s

/-- Several presence states set. -/
def setPresAll (g : SlotKey) (ks : List Desig) (pr : Pres) (s : State) : State :=
  ks.foldl (fun s k => setPres g k pr s) s

/-- Whether a register that is read holds a word back (R147). -/
def readBlocks (s : State) (g : SlotKey) (k : Desig) : Bool :=
  match k with
  | .s _ | .p _ => presOf s g k != .full
  | _ => presOf s g k == .empty

/-- Whether a register that is written holds a word back: it is owed (R148), or, for a DROP, an operation in the queue still
reads it (R212); a write to m0 has no effect (R146, R154) and waits for nothing. -/
def writeBlocks (s : State) (g : SlotKey) (k : Desig) : Bool :=
  presOf s g k == .owed ||
  match k with
  | .m 0 => false
  | .v _ | .m _ => (coreAt s (coreOf g)).queue.any fun e => e.gid == g && (reads e.instr).contains k
  | _ => false

/-- Whether a word is held back by what it reads or by an owed destination (R147, R148). -/
def blocked (s : State) (g : SlotKey) (rd wr : List Desig) : Bool :=
  rd.any (readBlocks s g) || wr.any (writeBlocks s g)

/-- The slot runs its handler (R360 IN). -/
def inTrap (x : Slot) : Bool := bit x.trap.cause 11

/-- R359: whether a slot runs privileged. -/
def privileged (s : State) (g : SlotKey) : Bool :=
  (coreNo g == 3 && s.boot.columns.contains (cellX (cellOf g))) ||
  match ctxOf s g with
  | some c => c.rcd.priv
  | none => false

/-! ### Counters (R379) -/

/-- A slot counter raised. -/
def count (k : Fin 16) (n : Nat) (x : Slot) : Slot := { x with ctr := x.ctr.set k.val ((x.ctr[k.val] + n) % 2 ^ 64) }

/-- A word that has issued is taken back: it has had no effect, and it counts when it issues again. -/
def uncount (x : Slot) : Slot := { x with ctr := x.ctr.set 1 ((x.ctr[1] + 2 ^ 64 - 1) % 2 ^ 64) }

/-- A unit counter of a cell raised for an ASID: 0 routines, 1 slice cycles, 2 wide operations, 3 engine steps, 4 copy
bytes, 5 remote stash accesses. -/
def countUnit (c : CellKey) (a k n : Nat) (s : State) : State :=
  modCell c (fun x => { x with units := tput x.units (8 * a + k) ((tfind x.units (8 * a + k)).getD 0 + n) }) s

/-! ### Moving on (R180, R185, R186) -/

/-- R185: the loop records and the next pc after a word at `w` that does not transfer control; `n` follows it. Records stand
innermost first. -/
def endCheck (w n : Word64) (l : List LoopRec) : List LoopRec × Word64 :=
  match l with
  | [] => ([], n)
  | r :: rest =>
    if r.stop = w then
      if 1 < r.count.toNat then ({ r with count := r.count - 1 } :: rest, r.start) else endCheck w n rest
    else if rest.any (fun q => q.stop == w) then endCheck w n rest
    else (r :: rest, n)

/-- R186: the records whose bodies contain the target. -/
def keepLoops (t : Word64) (l : List LoopRec) : List LoopRec :=
  l.filter fun r => decide (r.start.toNat ≤ t.toNat) && decide (t.toNat ≤ r.stop.toNat)

/-- The slot goes on after its word. -/
def advance (g : SlotKey) (s : State) : State :=
  modCtl g (fun c => let e := endCheck c.pc c.npc c.loops; { c with loops := e.1, pc := e.2 }) s

/-- The word counts as issued. -/
def issued (g : SlotKey) (s : State) : State :=
  modSlot g (count 1 1) { s with issue := { s.issue with done := true } }

/-- The word is done and the slot goes on (R185). -/
def complete (g : SlotKey) (s : State) : State := issued g (advance g s)

/-- A transfer of control to an even target (R181, R186). -/
def transfer (g : SlotKey) (t : Word64) (s : State) : State :=
  issued g (modCtl g (fun c => { c with loops := keepLoops t c.loops, pc := t }) s)

/-- A slot parks with its word to issue again (R144). -/
def park (g : SlotKey) (w : Wait) (s : State) : State :=
  modSlot g (fun x => { x with
    ctl := { x.ctl with st := .parked, wait := w }, parkCnt := 0, parkLim := bits x.waitlim 0 32 }) s

/-- A slot parks with its word issued; the end of the wait completes it (R144). -/
def parkIssued (g : SlotKey) (w : Wait) (s : State) : State := issued g (park g w s)

/-- A slot parks with its word issued and its access still to be made (R143 codes 1 and 5, R144): the word, and the registers as they
stand at its issue, are kept. -/
def parkAccess (i : Instr) (w : Wait) (s : State) : State :=
  let g := s.issue.gid
  let x := slotAt s g
  modCtl g (fun c => { c with caught := some (x.ctl.caught.getD { instr := i, regs := x.regs }) }) (parkIssued g w s)

/-- The end of a JOIN that sends its slot to IDLE, whose pc is N (R188). A halted slot keeps its loop records until it resumes. -/
def toIdle (x : Slot) : Slot :=
  { x with ctl :=
    match x.ctl.st with
    | .halted => { x.ctl with under := .idle, wait := .none, pc := x.ctl.npc }
    | .spilled => { x.ctl with under := .idle, wait := .none, pc := x.ctl.npc, loops := [] }
    | _ => { x.ctl with st := .idle, wait := .none, pc := x.ctl.npc, loops := [] } }

/-- Whether the word of a wait issues again when the wait is over (R143). -/
def Wait.restarts : Wait → Bool
  | .none | .queue | .fetch _ | .codePage _ | .bank _ _ | .presence _ _ | .channel .. => true
  | _ => false

/-- The end of a park, wherever the slot stands: parked, halted while parked, or spilled (R142). -/
def unpark (g : SlotKey) (dest : SlotSt) (s : State) : State :=
  modCtl g (fun c =>
    match c.st with
    | .halted | .spilled => { c with under := dest, wait := .none }
    | _ => { c with st := dest, wait := .none }) s

/-- A word whose park completes it: the slot goes on (R144). -/
def finish (g : SlotKey) (s : State) : State := unpark g .running (advance g s)

/-- A word whose park is over issues again (R144). -/
def reissue (g : SlotKey) (s : State) : State := unpark g .running s

/-- A parked slot's presence wait is over once nothing holds its word back (R147, R148). -/
def wakePresence (g : SlotKey) (s : State) : State :=
  match (slotAt s g).ctl.wait with
  | .presence rd wr => if blocked s g rd wr then s else reissue g s
  | _ => s

/-! ### Handles and residuals (R70, R206, R209) -/

/-- A handle's fields (R70). -/
def hOff (h : Word64) : Nat := bits h 0 30
def hAsid (h : Word64) : Nat := bits h 30 16
def hGen (h : Word64) : Nat := bits h 46 16
def hTmpl (h : Word64) : Bool := bit h 62

/-- The key of a unit's generation: ASID number, store (0 code, 1 residual), unit (R71, R206). -/
def genKey (a store u : Nat) : Nat := (4 * a + store) * 2 ^ 32 + u

/-- A unit's generation: 1 at first use (R206). -/
def genOf (s : State) (a store u : Nat) : Nat := (tfind s.gens (genKey a store u)).getD 1

/-- The generations of `n` units from `u` advanced (R207, R71). -/
def advanceGens (a store u n : Nat) (s : State) : State :=
  (List.range n).foldl (fun s k => { s with gens := tput s.gens (genKey a store (u + k)) (genOf s a store (u + k) + 1) }) s

/-- A residual freed: it is live no more and its units' generations have passed (R207, R209). -/
def freeResidual (a : Nat) (r : Residual) (s : State) : State :=
  advanceGens a 1 r.off r.units (modCtx a (fun c => { c with resids := c.resids.filter (· != r) }) s)

/-- The live residual that a handle names (R198). -/
def residualOf (s : State) (h : Word64) : Option Residual :=
  match ctxAt s (hAsid h) with
  | some c => c.resids.find? fun r => r.off == hOff h && r.gen == hGen h
  | none => none

/-- The residual that a handle names is freed when nobody receives the handle (R196, R209). -/
def freeHandle (h : Word64) (s : State) : State :=
  match residualOf s h with
  | some r => freeResidual (hAsid h) r s
  | none => s

/-- The residuals that results in an inbox would have named are freed when the inbox is discarded (R209). -/
def freeInbox (l : List InboxEntry) (s : State) : State :=
  l.foldl (fun s e =>
    match e with
    | .result r => match r.handle with | some h => if bit h 63 then s else freeHandle h s | none => s
    | _ => s) s

/-! ### Leaving a wait and stopping (R111, R345, R347) -/

/-- The slot that a FIFO names: by its own key, or by its save-area key while its context is switched out (R345, R373). -/
def queuedSlot (s : State) (k : Nat) : Slot := if k < 16384 then slotAt s k else (tfind s.saves k).getD Slot.reset

/-- A value handed to a slot's word that waits for it: the word completes (R344, R347). Where the slot is spilled, the value
stands in its inbox. -/
def grant (k : Nat) (w : List RegWrite) (clock : Nat) (s : State) : State :=
  send (.reply { gid := k % 16384, epoch := (queuedSlot s k).ctl.epoch, writes := w, ends := true, clock := clock }) s

/-- A slot's requests leave the FIFOs of a cell's full/empty words (R347). -/
def dropFeq (g : SlotKey) (ep : Nat) (x : Cell) : Cell :=
  let keep := fun (l : List FeReq) => l.filter fun r => r.gid != g || r.epoch != ep
  { x with feq := x.feq.map fun q => (q.1, keep q.2.1, keep q.2.2) }

/-- The same wherever the context's cell stands, here or switched out (R373). -/
def leaveFeq (a : Nat) (g : SlotKey) (ep loc : Nat) (s : State) : State :=
  modCell (locCell loc) (dropFeq g ep) (modCtx a (fun c => { c with saved := c.saved.map fun q => (q.1, dropFeq g ep q.2) }) s)

/-- Whether a slot's request stands in a FIFO of a cell's full/empty words. -/
def hasFeq (g : SlotKey) (ep : Nat) (x : Cell) : Bool :=
  x.feq.any fun q => (q.2.1 ++ q.2.2).any fun r => r.gid == g && r.epoch == ep

/-- Whether a slot still waits in a FIFO of a full/empty word, wherever the word's cell stands. -/
def feWaits (s : State) (a : Nat) (g : SlotKey) (ep loc : Nat) : Bool :=
  hasFeq g ep (cellAt s (locCell loc)) || match ctxAt s a with | some c => c.saved.any fun q => hasFeq g ep q.2 | none => false

/-- A slot's place, under the name by which queues know it, given up in every FIFO of a reservation (R345). -/
def leaveFifos (k : Nat) (s : State) : State :=
  { s with mem := { s.mem with resv := s.mem.resv.map fun q => (q.1, { q.2 with fifo := q.2.fifo.filter (· != k) }) } }

/-- A slot waits for no join counter any more (R188). -/
def leaveJoins (k : Nat) (s : State) : State :=
  { s with mem := { s.mem with joins := s.mem.joins.filter fun q => q.2 != k } }

/-- The register an LRW waits to fill. -/
def lrwDest (x : Slot) : SReg :=
  match x.ctl.wait with
  | .reserve d _ => d
  | _ => 0

/-- Whether a location carries stamps: a stash word, or memory of this device (R307). -/
def stamped (l : Nat) : Bool :=
  isStashLoc l || match regionOf l with | .hbm _ | .lpddr => true | _ => false

/-- A waiting word's load that is granted: its place in the single order is the grant's or later (R309, R344, R347). -/
def grantLoad (k loc clock : Nat) (s : State) : Nat × State :=
  let x := queuedSlot s k
  let ts := max (max (x.lclk + 1) clock) (stamps s loc).1
  if stamped loc then (ts, setStamps loc ((stamps s loc).1, max (stamps s loc).2 (ts + leaseOf s x.ctl.asid - 1)) s)
  else (max x.lclk clock, s)

/-- The name by which queues here know a slot of another device (R343). -/
def peerName (id : Nat) : Nat := 2 ^ 64 + id

/-- Whether the queue of a word is kept on another device (R343). -/
def queueAway (loc : Nat) : Bool :=
  !isStashLoc loc && match regionOf loc with | .peer _ _ => true | _ => false

/-- A word's reservation set; a word without holder and waiters has no record. -/
def putResv (loc : Nat) (r : Resv) (s : State) : State :=
  { s with mem := { s.mem with resv := if r.holder.isNone && r.fifo.isEmpty then tdel s.mem.resv loc else tput s.mem.resv loc r } }

/-- A reservation passed to the head of its FIFO with a value, or cleared (R344). A slot of another device has its grant sent there. -/
def passOn (loc : Nat) (r : Resv) (v : Word64) (clock : Nat) (s : State) : State :=
  match r.fifo with
  | [] => putResv loc { holder := none, fifo := [] } s
  | h :: t =>
    let s' := putResv loc { holder := some h, fifo := t } s
    if peerName 0 ≤ h then { s' with port := [v.toNat] }
    else
      let p := grantLoad h loc clock s'
      grant h [.s (lrwDest (queuedSlot s h)) v] p.1 p.2

/-- The holder of a word gives it up (R344). At a word of peer memory a slot outside this device may come before those of this one (log
entry 10, DESIGN CHOICE): these then wait until the peer grants them the word. -/
def handOver (loc : Nat) (v : Word64) (clock : Nat) (s : State) : State :=
  match tfind s.mem.resv loc with
  | none => s
  | some r =>
    if queueAway loc then
      let s := { s with fresh := s.fresh + 1 }
      if Config.peerFirst (s.fresh - 1) then putResv loc { r with holder := none } s else passOn loc r v clock s
    else passOn loc r v clock s

/-- Every reservation that a slot holds, by the name under which queues know it, passed on as if by SCHX (R345), and its places in FIFOs
given up. -/
def leaveResvAs (k clock : Nat) (s : State) : State :=
  (tkeys s.mem.resv).foldl (fun s loc =>
    match tfind s.mem.resv loc with
    | none => s
    | some r => if r.holder = some k then handOver loc (readKey s loc) clock s else s) (leaveFifos k s)

/-- The same for a slot that stands in its cell. -/
def leaveResv (g : SlotKey) (s : State) : State := leaveResvAs g (slotAt s g).lclk s

/-- A waiting slot's place in every FIFO of its wait given up (R347, R349, R188). -/
def leaveWait (g : SlotKey) (s : State) : State :=
  let x := slotAt s g
  match x.ctl.wait with
  | .fullempty loc => leaveFeq x.ctl.asid g x.ctl.epoch loc s
  | .reserve _ _ => leaveFifos g s
  | .join _ => leaveJoins g s
  | .operand _ => modCell (cellOf g) (fun c => { c with claims := c.claims.filter (·.gid != g) }) s
  | .page id | .codePage id => { s with pages := tdel s.pages id }
  | _ => s

/-- The operand slots that a matrix operation has not finished with (R285, R286). -/
def mxSlots (m : MxOp) : List Nat :=
  match m.kind with
  | .load o .. | .fill o .. => [o.val]
  | .mma _ oa ob _ _ _ _ _ n =>
    let p := m.steps / 64
    ((List.range n).filter (p ≤ ·)).flatMap fun k => [oa.val + k, ob.val + k]
  | _ => []

/-- The tiles that a matrix operation has not finished with. -/
def mxTiles (m : MxOp) : List Nat :=
  match m.kind with
  | .mma acc _ _ bx t _ _ _ _ => (tilesOf acc t bx.isSome).filterMap fun k => match k with | .acc n => some n.val | _ => none
  | .zero acc => [acc.val]
  | .vec _ acc _ => [acc.val]
  | .store acc _ _ _ _ _ _ src =>
    (srcTiles acc src).filterMap fun k => match k with | .acc n => some n.val | _ => none
  | _ => []

/-- R299: commands of other cells that name a released item are marked. -/
def loseItems (tiles : Bool) (items : List Nat) (x : Cell) : Cell :=
  { x with mx := x.mx.map fun m =>
      if m.remote.isSome ∧ ((if tiles then mxTiles m else mxSlots { m with steps := 0 }).any items.contains) = true
      then { m with lost := true } else m }

/-- The items of a table that slots of a core hold. -/
def heldBy (c : CoreKey) (t : Tab Holder) : List Nat := (t.filter fun h => h.2.core == c).map Prod.fst

/-- A table of holders without those of a core, and the numbers it frees (R279). -/
def freeHolders (c : CoreKey) (t : Tab Holder) : Tab Holder := t.filter fun h => h.2.core != c

/-- Whether a slot holds an item of a table of holders (R279). -/
def holds (t : Tab Holder) (n : Nat) (g : SlotKey) : Bool :=
  match tfind t n with
  | some h => h.slot == g && !h.left
  | none => false

/-- R111: one slot stops. Its posted operations and copies run on; queued and matrix operations that have not finished write
nothing, nor does the tile pair that runs (R213, R302). -/
def stopSlot (g : SlotKey) (s : State) : State :=
  if (slotAt s g).ctl.st = .free then s
  else
    let s := freeInbox (slotAt s g).inbox (leaveResv g (leaveWait g s))
    let s := modCore (coreOf g) (fun c => { c with queue := c.queue.filter (·.gid != g) }) s
    let mine := fun (m : MxOp) => m.gid == g && m.remote.isNone
    let back := fun (c : Cell) => (c.mx.filter mine).foldl (fun t m => m.before.foldl (fun t q => tput t q.1 q.2) t) c.tile
    let s := modCell (cellOf g) (fun c => { c with tile := back c, mx := c.mx.filter fun m => !mine m }) s
    modSlot g (fun x => { x with
      ctl := { Slot.reset.ctl with st := .free, pc := x.ctl.pc, epoch := x.ctl.epoch + 1, asid := x.ctl.asid }
      win := { base := 0, size := 0 }, posted := 0, pfail := none, bsaccs := [], inbox := [] }) s

/-- What a core's block holds in its cell is released (R111, R197, R279): operand slots, tiles, windows and tasks. -/
def releaseCore (c : CoreKey) (s : State) : State :=
  let s := modCell (c / 4) (fun x =>
    let x := loseItems true (heldBy c x.thold) (loseItems false (heldBy c x.ohold) x)
    let owed := x.mx.flatMap fun m => match m.kind with | .mma .. | .zero _ => mxTiles m | _ => []
    let lost := (tkeys x.thold).filter fun k => ((tfind x.thold k).map (·.core)) == some c && !owed.contains k
    { x with
      ohold := freeHolders c x.ohold, thold := freeHolders c x.thold
      claims := x.claims.filter fun q => coreOf q.gid != c
      tpres := lost.foldl (fun t k => tdel t k) x.tpres
      lastMma := x.lastMma.filter fun q => ((tfind x.thold q.1).map (·.core)) != some c }) s
  modCore c (fun x => { x with block := none, deque := [], area := 0, deqbase := 0, passed := [] }) s

/-- A block is killed: every slot of its core stops and the block counts as killed (R111). -/
def killBlock (c : CoreKey) (s : State) : State :=
  match (coreAt s c).block with
  | none => s
  | some b =>
    let s := (slotsOfCore c).foldl (fun s g => stopSlot g s) s
    modGrid b.grid (fun x => { x with killed := x.killed + 1 }) (releaseCore c s)

/-- A block that has not issued its first word counts as started when it is stopped after its start (R104). -/
def noteBegun (c : CoreKey) (s : State) : State :=
  match (coreAt s c).block with
  | some b =>
    if b.begun then s
    else modGrid b.grid (fun x => { x with started := x.started + 1 })
      (modCore c (fun x => { x with block := some { b with begun := true } }) s)
  | none => s

/-! ### Traps (R361 to R364) -/

/-- TRAPCAUSE at trap entry (R360, R361). -/
def causeWord (t : TrapInfo) : Word64 :=
  n64 (t.code + t.half.toNat * 2 ^ 8 + t.deferred.toNat * 2 ^ 9 + t.fetch.toNat * 2 ^ 10 + 2 ^ 11 +
    t.status % 256 * 2 ^ 16 + t.detail % 2 ^ 14 * 2 ^ 32)

/-- The bits of TRAPCAUSE that are not reserved (R11, R360). -/
def causeMask : Word64 := 0x3FFF00FF0FFF

/-- The fault record of a grid fault (R108). -/
def faultRecord (s : State) (g : SlotKey) (t : TrapInfo) (pc : Word64) (block : Nat) : GFault :=
  { dev := s.boot.device, x := cellX (cellOf g), y := cellY (cellOf g), core := coreNo g, slot := slotNo g,
    cause := t.code, block := block, pc := pc, addr := t.addr }

/-- A trap that no handler takes: a grid fault, which kills the block and is reported to the root (R105, R361). -/
def gridFault (g : SlotKey) (t : TrapInfo) (pc : Word64) (s : State) : State :=
  match (coreAt s (coreOf g)).block with
  | some b => killBlock (coreOf g) (noteBegun (coreOf g) (send (.gfault b.grid (faultRecord s g t pc b.index)) s))
  | none => stopSlot g s

/-- The presence a register of the shadow leaves live (R361). -/
def keepIfFull (p : Pres) : Pres := if p = .full then .full else .empty

/-- s1 to s3, p1 and the loop records copied to the shadow (R361). -/
def toShadow (x : Slot) : Shadow :=
  { s := #v[x.regs.s[1], x.regs.s[2], x.regs.s[3]], sp := #v[x.regs.sp[1], x.regs.sp[2], x.regs.sp[3]],
    p1 := x.regs.p[1], pp1 := x.regs.pp[1], loops := x.ctl.loops }

/-- R361: the slot enters its handler: cause, address and pc saved, the shadow taken, no live loop record. -/
def trapEntry (t : TrapInfo) (pc : Word64) (x : Slot) : Slot :=
  count 5 1 { x with
    trap := { x.trap with cause := causeWord t, addr := t.addr, pc := pc &&& ~~~(1 : Word64) }
    shadow := toShadow x
    regs := { x.regs with
      sp := ((x.regs.sp.set 1 (keepIfFull x.regs.sp[1])).set 2 (keepIfFull x.regs.sp[2])).set 3 (keepIfFull x.regs.sp[3])
      pp := x.regs.pp.set 1 (keepIfFull x.regs.pp[1]) }
    ctl := { x.ctl with
      st := .running, wait := .none, loops := [], pc := x.trap.vec, caught := none
      req := { x.ctl.req with step := if x.ctl.req.step = 0 then 0 else 2 } } }

/-- R361: taking a trap, whose TRAPPC is `pc`. -/
def takeTrap (g : SlotKey) (t : TrapInfo) (pc : Word64) (s : State) : State :=
  let x := slotAt s g
  if x.trap.vec = 0 ∨ inTrap x then gridFault g t (pc &&& ~~~(1 : Word64)) s else modSlot g (trapEntry t pc) s

/-- A fault of the word that issues: TRAPPC is the word (R362). -/
def fault (t : TrapInfo) (s : State) : State :=
  let g := s.issue.gid
  takeTrap g { t with half := s.issue.half == .vector } (slotAt s g).ctl.pc s

/-- R364: TRET with IN set. -/
def trapReturn (x : Slot) : Slot :=
  { x with
    regs := { x.regs with
      s := ((x.regs.s.set 1 x.shadow.s[0]).set 2 x.shadow.s[1]).set 3 x.shadow.s[2]
      sp := ((x.regs.sp.set 1 x.shadow.sp[0]).set 2 x.shadow.sp[1]).set 3 x.shadow.sp[2]
      p := x.regs.p.set 1 x.shadow.p1
      pp := x.regs.pp.set 1 x.shadow.pp1 }
    trap := { x.trap with cause := x.trap.cause &&& ~~~(0x800 : Word64) }
    ctl := { x.ctl with loops := x.shadow.loops, pc := x.trap.pc } }

/-! ### Faults by name (R362) -/

def fIll : TrapInfo := { code := 1 }
def fPriv (a : Word64) : TrapInfo := { code := 2, addr := a }
def fPage (st : Nat) (a : Word64) : TrapInfo := { code := 3, status := st, addr := a }
def fAlign (a : Word64) : TrapInfo := { code := 4, addr := a }
def fWindow : TrapInfo := { code := 5 }
def fWaitlim (c : Nat) : TrapInfo := { code := 6, status := c }
def fHandle (st : Nat) (a : Word64) : TrapInfo := { code := 7, status := st, addr := a }
def fFormat (st : Nat) (a : Word64) : TrapInfo := { code := 8, status := st, addr := a }
def fCap : TrapInfo := { code := 9 }
def fRing : TrapInfo := { code := 10 }
def fSlice (st : Nat) (a : Word64) : TrapInfo := { code := 11, status := st, addr := a }
def fAmofull : TrapInfo := { code := 12 }
def fQueue (st : Nat) : TrapInfo := { code := 13, status := st }

/-! ### Arrivals (R141, R146, R361) -/

/-- The registers a write touches. -/
def RegWrite.desig : RegWrite → Desig
  | .s n _ => .s n
  | .p n _ => .p n
  | .v n _ => .v n
  | .m n _ => .m n
  | .acc n => .acc n

/-- The registers that a matrix operation in its cell still owes its slot (R286, R294). -/
def mxOwes (m : MxOp) : List Desig :=
  match m.remote, m.kind with
  | some d, _ => [.s d]
  | none, .mma acc _ _ bx t .. => tilesOf acc t bx.isSome
  | none, .zero acc => [.acc acc]
  | none, .vec d _ _ => [.v d]
  | none, .vop i _ => owes i
  | none, _ => []

/-- The registers that a message in flight promises a slot, in one of its lives. -/
def msgOwes (g : SlotKey) (ep : Nat) : Msg → List Desig
  | .reply r => if r.gid = g ∧ r.epoch = ep then r.writes.map RegWrite.desig else []
  | .load q d _ => if q.gid = g ∧ q.epoch = ep then [.s d] else []
  | .dealer q d _ => if q.gid = g ∧ q.epoch = ep then [.s d] else []
  | .tmmar q _ d _ _ => if q.gid = g ∧ q.epoch = ep then [.s d] else []
  | .spec q d _ _ _ => if q.gid = g ∧ q.epoch = ep then [.s d] else []
  | .launch q d _ => if q.gid = g ∧ q.epoch = ep then [.s d] else []
  | .lrw q d | .barQuery q _ d _ | .barArrive q _ d | .gstat q d _ => if q.gid = g ∧ q.epoch = ep then [.s d] else []
  | .atomic q (some d) op _ =>
    if q.gid = g ∧ q.epoch = ep then
      match op with
      | .amo .. | .cas .. => [.s d]
      | .cas2 .. | .routine .. => [.s d, .s (sreg d 1)]
    else []
  | _ => []

/-- How many element reads an OLOAD makes (R281). -/
def loadReads (t : Ty) : Nat := 65536 / t.width

/-- Every register still promised to a slot (R146, R149). -/
def promised (s : State) (g : SlotKey) : List Desig :=
  let ep := (slotAt s g).ctl.epoch
  ((coreAt s (coreOf g)).queue.filter (·.gid == g)).flatMap (fun e => owes e.instr) ++
  s.net.flatMap (fun m => msgOwes g ep m.2) ++
  ((cellAt s (cellOf g)).mx.filter (fun m => m.gid == g && m.remote.isNone)).flatMap mxOwes ++
  s.cells.flatMap (fun c => (c.2.mx.filter (fun m => m.gid == g && m.epoch == ep && m.remote.isSome)).flatMap mxOwes) ++
  (coreAt s (coreOf g)).chans.flatMap (fun c =>
    match c.2.cur with
    | some q => if q.gid = g ∧ q.epoch = ep then [.s q.d] else []
    | none => []) ++
  (slotAt s g).bsaccs.flatMap fun b => [.s b.reg, .s (sreg b.reg 1)]

/-- The presence a register has after an arrival: it stays owed while a result is still promised (R146). -/
def arrived (old : Pres) (owed : Bool) : Pres := if owed ∧ old = .owed then .owed else .full

/-- A scalar arrival; while the handler runs, s1 to s3 go to the shadow (R361), but for the reply to the handler's own
parked word (`live`), which is the word's own write (R144). -/
def sArrive (live : Bool) (n : SReg) (v : Word64) (owed : Bool) (x : Slot) : Slot :=
  if n = 0 then x
  else if h : (live = false ∧ inTrap x = true) ∧ 1 ≤ n.val ∧ n.val ≤ 3 then
    have hk : n.val - 1 < 3 := by omega
    { x with shadow := { x.shadow with
      s := x.shadow.s.set (n.val - 1) v, sp := x.shadow.sp.set (n.val - 1) (arrived x.shadow.sp[n.val - 1] owed) } }
  else { x with regs := { x.regs with
      s := x.regs.s.set n.val v, sp := x.regs.sp.set n.val (arrived x.regs.sp[n.val] owed) } }

/-- A guard arrival (R361). -/
def pArrive (live : Bool) (n : GReg) (v : Bool) (owed : Bool) (x : Slot) : Slot :=
  if n = 0 then x
  else if live = false ∧ inTrap x = true ∧ n = 1 then
    { x with shadow := { x.shadow with p1 := v, pp1 := arrived x.shadow.pp1 owed } }
  else { x with regs := { x.regs with
      p := x.regs.p.set n.val v, pp := x.regs.pp.set n.val (arrived x.regs.pp[n.val] owed) } }

/-- One register write of an arrival; `owed` says whether another result for the register is still promised. -/
def arriveOne (live : Bool) (g : SlotKey) (owed : Bool) (w : RegWrite) (s : State) : State :=
  match w with
  | .s n v => modSlot g (sArrive live n v owed) s
  | .p n v => modSlot g (pArrive live n v owed) s
  | .v n x =>
    if n.val < (slotAt s g).win.size then
      setPres g (.v n) (arrived (presOf s g (.v n)) owed) (vPut g n.val x s)
    else s
  | .m n x =>
    if n = 0 then s
    else setPres g (.m n) (arrived (presOf s g (.m n)) owed)
      (modSlot g (fun y => { y with regs := { y.regs with m := y.regs.m.set n.val x } }) s)
  | .acc n => setPres g (.acc n) (arrived (presOf s g (.acc n)) owed) s

/-- The register writes of an arrival. -/
def arriveAll (live : Bool) (g : SlotKey) (ws : List RegWrite) (s : State) : State :=
  ws.foldl (fun s w => arriveOne live g ((promised s g).contains w.desig) w s) s

/-- A reply takes effect at its slot (R141): its writes, then the end of the park. -/
def applyReply (r : Reply) (s : State) : State :=
  let g := r.gid
  let s := raiseClock g r.clock (arriveAll r.ends g r.writes s)
  let s :=
    match r.fault with
    | some t =>
      let s := modSlot g uncount s
      match (slotAt s g).ctl.st with
      | .halted =>
        modCtl g (fun c => { c with deferred := some t, under := .running, wait := .none }) s
      | _ => takeTrap g t (slotAt s g).ctl.pc (leaveWait g s)
    | none =>
      if r.ends then (if r.idle then modSlot g toIdle s else finish g s) else s
  wakePresence g s

/-- A slot that is FREE or ENDED, or was spilled from ENDED: it accepts nothing (R151, R196). -/
def Ctl.gone (c : Ctl) : Bool := c.st == .free || c.st == .ended || (c.st == .spilled && c.under == .ended)

/-- A result that nobody receives: a handle's residual is freed (R196, R209). -/
def discardReply (r : Reply) (s : State) : State :=
  match r.handle with
  | some h => if bit h 63 then s else freeHandle h s
  | none => s

/-! ### Issuing a word of the scalar class (R42) -/

/-- R42 steps 5 and 8: the word parks on presence, or takes effect. -/
def whenReady (rd wr : List Desig) (k : State → State) (s : State) : State :=
  if blocked s s.issue.gid rd wr then park s.issue.gid (.presence rd wr) s else k s

/-- A slot as the word that it has caught reads it (R144). -/
def Slot.asCaught (x : Slot) (c : Caught) : Slot := { x with regs := c.regs }

/-- A word of the scalar class, with the registers its operand form names (R42, R147, R148). A word that has issued before, and now
makes its access, reads the operands it had then (R144). -/
def word (i : Instr) (k : Slot → State → State) (s : State) : Res :=
  match (slotAt s s.issue.gid).ctl.caught with
  | some c => .next (k ((slotAt s s.issue.gid).asCaught c) s)
  | none => .next (whenReady (reads i) (writes i) (fun s => k (slotAt s s.issue.gid) s) s)

/-- A word with faults that no operand decides (R42 step 4), which come before any park on presence. -/
def guardedWord (i : Instr) (pre : State → Option TrapInfo) (k : Slot → State → State) (s : State) : Res :=
  match pre s with
  | some t => .next (fault t s)
  | none => word i k s

/-- A scalar result is written and the word is done (R160). -/
def putS (d : SReg) (v : Word64) (s : State) : State := complete s.issue.gid (modSlot s.issue.gid (sSet d v) s)

/-- A guard result is written and the word is done (R160). -/
def putP (d : GReg) (v : Bool) (s : State) : State := complete s.issue.gid (modSlot s.issue.gid (pSet d v) s)

/-- The word is done and changes nothing but the pc. -/
def skip (s : State) : State := complete s.issue.gid s

/-- The operations of a slot that count as vector memory operations and are not yet performed (R255): queued, in the
operand loader, or storing a tile. -/
def vmemPending (s : State) (g : SlotKey) : Bool :=
  (coreAt s (coreOf g)).queue.any (fun e => e.gid == g && isVmem e.instr) ||
  (cellAt s (cellOf g)).mx.any fun m =>
    m.gid == g && m.remote.isNone &&
    match m.kind with
    | .vop i _ => isVmem i
    | .load _ _ _ t _ _ _ => decide (m.steps < loadReads t)
    | .store .. => true
    | _ => false

/-- A word that waits for the slot's earlier vector memory operations (R255), after its own issue checks. -/
def afterVmem (i : Instr) (k : State → State) (s : State) : State :=
  if vmemPending s s.issue.gid then parkAccess i .vmem s else k s

end Sys2Proof.Machine
end

