-- ==== Sys2Proof/Machine/Alu.lean ====
section
/-! DEFINITION. Scalar integer, bit-field, guard and address instructions (R158 to R179) and the L64 immediates (R168, R170). -/

namespace Sys2Proof.Machine

/-- A word that reads two scalars and writes one (R163). -/
def alu2 (i : Instr) (d a b : SReg) (f : Word64 → Word64 → Word64) (s : State) : Res :=
  word i (fun x s => putS d (f (sGet x a) (sGet x b)) s) s

/-- A word that reads one scalar and writes one (R167 to R171). -/
def alu1 (i : Instr) (d a : SReg) (f : Word64 → Word64) (s : State) : Res :=
  word i (fun x s => putS d (f (sGet x a)) s) s

/-- The count of a scalar shift (R165). -/
def shiftCount (b : Word64) : Nat := b.toNat % 64

/-- The signed division of R164: quotient and remainder. -/
def divSigned (a b : Word64) : Word64 × Word64 :=
  let x := a.toInt
  let y := b.toInt
  if y = 0 then (w64 (-1), a)
  else if x = -(2 ^ 63) ∧ y = -1 then (w64 (-(2 ^ 63)), 0)
  else let q := towardZero x y; (w64 q, w64 (x - q * y))

/-- The unsigned division of R164: quotient and remainder. -/
def divUnsigned (a b : Word64) : Word64 × Word64 :=
  if b.toNat = 0 then (n64 (2 ^ 64 - 1), a) else (n64 (a.toNat / b.toNat), n64 (a.toNat % b.toNat))

/-- Leading zeros (R167). -/
def leadingZeros (a : Word64) : Word64 := n64 (64 - bitLen a.toNat)

/-- Trailing zeros (R167). -/
def trailingZeros (a : Word64) : Word64 := n64 (((List.range 64).find? fun k => bit a k).getD 64)

/-- One bits (R167). -/
def onesCount (a : Word64) : Word64 := n64 ((List.range 64).filter fun k => bit a k).length

/-- Bytes reversed (R167). -/
def byteSwap (a : Word64) : Word64 := n64 (leNat (leBytes 8 a.toNat).reverse)

/-- The bit field of BFX (R171). -/
def extractField (sg : Bool) (w p : BitVec 6) (a : Word64) : Word64 :=
  let f := bits a p.toNat (w.toNat + 1)
  if sg then sext64 (w.toNat + 1) f else n64 f

/-- BFI's replacement of a field (R172). -/
def insertField (w p : BitVec 6) (d a : Word64) : Word64 :=
  let n := w.toNat + 1
  let mask : Word64 := n64 ((2 ^ n - 1) * 2 ^ p.toNat)
  (d &&& ~~~mask) ||| (n64 (bits a 0 n * 2 ^ p.toNat) &&& mask)

/-- XYA's address (R177). -/
def coordAddr (ctl rel : Bool) (a b : Word64) : Word64 :=
  n64 (0xFF * 2 ^ 56 + rel.toNat * 2 ^ 55 + bits a 0 8 * 2 ^ 40 + bits a 8 8 * 2 ^ 32 + ctl.toNat * 2 ^ 30 + bits b 0 19)

def execAdd (d a b : SReg) (s : State) : Res := alu2 (.add d a b) d a b (fun x y => x + y) s
def execSub (d a b : SReg) (s : State) : Res := alu2 (.sub d a b) d a b (fun x y => x - y) s
def execMul (d a b : SReg) (s : State) : Res := alu2 (.mul d a b) d a b (fun x y => x * y) s
/-- R163: bits [127:64] of the signed product. -/
def execMulhs (d a b : SReg) (s : State) : Res := alu2 (.mulhs d a b) d a b (fun x y => w64 (x.toInt * y.toInt / 2 ^ 64)) s
/-- R163: bits [127:64] of the unsigned product. -/
def execMulhz (d a b : SReg) (s : State) : Res := alu2 (.mulhz d a b) d a b (fun x y => n64 (x.toNat * y.toNat / 2 ^ 64)) s
def execDivs (d a b : SReg) (s : State) : Res := alu2 (.divs d a b) d a b (fun x y => (divSigned x y).1) s
def execDivz (d a b : SReg) (s : State) : Res := alu2 (.divz d a b) d a b (fun x y => (divUnsigned x y).1) s
def execRems (d a b : SReg) (s : State) : Res := alu2 (.rems d a b) d a b (fun x y => (divSigned x y).2) s
def execRemz (d a b : SReg) (s : State) : Res := alu2 (.remz d a b) d a b (fun x y => (divUnsigned x y).2) s
def execAnd (d a b : SReg) (s : State) : Res := alu2 (.and d a b) d a b (fun x y => x &&& y) s
def execOr (d a b : SReg) (s : State) : Res := alu2 (.or d a b) d a b (fun x y => x ||| y) s
def execXor (d a b : SReg) (s : State) : Res := alu2 (.xor d a b) d a b (fun x y => x ^^^ y) s
def execAndn (d a b : SReg) (s : State) : Res := alu2 (.andn d a b) d a b (fun x y => x &&& ~~~y) s
def execShl (d a b : SReg) (s : State) : Res := alu2 (.shl d a b) d a b (fun x y => x <<< shiftCount y) s
def execShrz (d a b : SReg) (s : State) : Res := alu2 (.shrz d a b) d a b (fun x y => x >>> shiftCount y) s
def execShrs (d a b : SReg) (s : State) : Res := alu2 (.shrs d a b) d a b (fun x y => x.sshiftRight (shiftCount y)) s
def execRotl (d a b : SReg) (s : State) : Res := alu2 (.rotl d a b) d a b (fun x y => x.rotateLeft (shiftCount y)) s
def execMins (d a b : SReg) (s : State) : Res := alu2 (.mins d a b) d a b (fun x y => if x.toInt ≤ y.toInt then x else y) s
def execMinz (d a b : SReg) (s : State) : Res := alu2 (.minz d a b) d a b (fun x y => if x.toNat ≤ y.toNat then x else y) s
def execMaxs (d a b : SReg) (s : State) : Res := alu2 (.maxs d a b) d a b (fun x y => if x.toInt ≤ y.toInt then y else x) s
def execMaxz (d a b : SReg) (s : State) : Res := alu2 (.maxz d a b) d a b (fun x y => if x.toNat ≤ y.toNat then y else x) s

def execClz (d a : SReg) (s : State) : Res := alu1 (.clz d a) d a leadingZeros s
def execCtz (d a : SReg) (s : State) : Res := alu1 (.ctz d a) d a trailingZeros s
def execPopc (d a : SReg) (s : State) : Res := alu1 (.popc d a) d a onesCount s
def execBswap (d a : SReg) (s : State) : Res := alu1 (.bswap d a) d a byteSwap s
def execSext8 (d a : SReg) (s : State) : Res := alu1 (.sext8 d a) d a (fun x => sext64 8 x.toNat) s
def execSext16 (d a : SReg) (s : State) : Res := alu1 (.sext16 d a) d a (fun x => sext64 16 x.toNat) s
def execSext32 (d a : SReg) (s : State) : Res := alu1 (.sext32 d a) d a (fun x => sext64 32 x.toNat) s
/-- R166. -/
def execMadd (d a b c : SReg) (s : State) : Res :=
  word (.madd d a b c) (fun x s => putS d (sGet x a * sGet x b + sGet x c) s) s

def execAddiS (d a : SReg) (i : BitVec 14) (s : State) : Res := alu1 (.addiS d a i) d a (fun x => x + i.signExtend 64) s
def execAndiS (d a : SReg) (i : BitVec 14) (s : State) : Res := alu1 (.andiS d a i) d a (fun x => x &&& i.signExtend 64) s
def execOriS (d a : SReg) (i : BitVec 14) (s : State) : Res := alu1 (.oriS d a i) d a (fun x => x ||| i.signExtend 64) s
def execXoriS (d a : SReg) (i : BitVec 14) (s : State) : Res := alu1 (.xoriS d a i) d a (fun x => x ^^^ i.signExtend 64) s
def execAddiL (d a : SReg) (i : BitVec 32) (s : State) : Res := alu1 (.addiL d a i) d a (fun x => x + i.signExtend 64) s
def execAndiL (d a : SReg) (i : BitVec 32) (s : State) : Res := alu1 (.andiL d a i) d a (fun x => x &&& i.signExtend 64) s
def execOriL (d a : SReg) (i : BitVec 32) (s : State) : Res := alu1 (.oriL d a i) d a (fun x => x ||| i.signExtend 64) s
def execXoriL (d a : SReg) (i : BitVec 32) (s : State) : Res := alu1 (.xoriL d a i) d a (fun x => x ^^^ i.signExtend 64) s
def execShli (d a : SReg) (n : BitVec 6) (s : State) : Res := alu1 (.shli d a n) d a (fun x => x <<< n.toNat) s
def execShri (d a : SReg) (sg : Bool) (n : BitVec 6) (s : State) : Res :=
  alu1 (.shri d a sg n) d a (fun x => if sg then x.sshiftRight n.toNat else x >>> n.toNat) s
/-- R170, R49: LI writes imm32 sign-extended. -/
def execLi (d : SReg) (i : BitVec 32) (s : State) : Res := word (.li d i) (fun _ s => putS d (i.signExtend 64) s) s
/-- R170, R49: LIH replaces the upper half and keeps the lower. -/
def execLih (d : SReg) (i : BitVec 32) (s : State) : Res :=
  word (.lih d i) (fun x s => putS d (n64 (i.toNat * 2 ^ 32 + bits (sGet x d) 0 32)) s) s

def execBfx (d a : SReg) (sg : Bool) (w p : BitVec 6) (s : State) : Res :=
  alu1 (.bfx d a sg w p) d a (extractField sg w p) s
def execBfi (d a : SReg) (w p : BitVec 6) (s : State) : Res :=
  word (.bfi d a w p) (fun x s => putS d (insertField w p (sGet x d) (sGet x a)) s) s
/-- R174. -/
def execCmp (g : GReg) (a b : SReg) (c : Cond) (s : State) : Res :=
  word (.cmp g a b c) (fun x s => putP g (condHolds c (sGet x a) (sGet x b)) s) s
/-- R174. -/
def execCmpi (g : GReg) (a : SReg) (c : Cond) (i : BitVec 11) (s : State) : Res :=
  word (.cmpi g a c i) (fun x s => putP g (condHolds c (sGet x a) (i.signExtend 64)) s) s
def execPand (d a b : GReg) (s : State) : Res := word (.pand d a b) (fun x s => putP d (pGet x a && pGet x b) s) s
def execPor (d a b : GReg) (s : State) : Res := word (.por d a b) (fun x s => putP d (pGet x a || pGet x b) s) s
def execPxor (d a b : GReg) (s : State) : Res := word (.pxor d a b) (fun x s => putP d (pGet x a != pGet x b) s) s
def execPnot (d a : GReg) (s : State) : Res := word (.pnot d a) (fun x s => putP d (!pGet x a) s) s
def execMovpFrom (d : SReg) (a : GReg) (s : State) : Res :=
  word (.movpFrom d a) (fun x s => putS d (if pGet x a then 1 else 0) s) s
def execMovpTo (d : GReg) (a : SReg) (s : State) : Res :=
  word (.movpTo d a) (fun x s => putP d (sGet x a != 0) s) s
/-- R176. -/
def execSel (d a b : SReg) (g : GReg) (neg : Bool) (s : State) : Res :=
  word (.sel d a b g neg) (fun x s => putS d (if pGet x g != neg then sGet x a else sGet x b) s) s
/-- R177, R178: XYA checks nothing. -/
def execXya (d a b : SReg) (ctl rel : Bool) (s : State) : Res :=
  alu2 (.xya d a b ctl rel) d a b (coordAddr ctl rel) s
/-- R182. -/
def execNop (s : State) : Res := word .nop (fun _ s => skip s) s
/-- R45. -/
def execNop16 (s : State) : Res := word .nop16 (fun _ s => skip s) s

end Sys2Proof.Machine
end

