-- ==== Sys2Proof/Machine/Access.lean ====
section
/-! DEFINITION. Where an address leads: address classes and checks (R243, R244), translation (R245 to R247), the page service
(R246), stash mappings (R259), and one access performed at its home (R305, R315, R322). -/

namespace Sys2Proof.Machine

/-- What an access wants of a page (R246). -/
inductive Need where
  | read | write | exec
deriving DecidableEq, Repr

/-- On whose behalf an access is made: context, privilege, the core it is made from, and whether a firmware core makes it. -/
structure Who where
  asid : Nat
  priv : Bool
  core : CoreKey
  fw   : Bool
deriving DecidableEq, Repr

/-- The cell an access is made from. -/
def Who.cell (w : Who) : CellKey := w.core / 4

/-- What an address names. -/
inductive Place where
  | mem (pa : Nat)
  | stash (cell off : Nat)
  /-- A mapped stash byte: cell, entry, stash offset, physical address (R259). -/
  | cached (cell entry off pa : Nat)
  | ctl (cell off : Nat)
  | view (pa : Nat)
  | vf (f off : Nat)
  | peer (pa : Nat)
  /-- Memory of this device through its own peer window, by its local address: the link agent performs the access (R392). -/
  | own (off : Nat)
  | host (pa : Nat)
  /-- Device control, which only firmware cores reach (R391). -/
  | dev (pa : Nat)
deriving DecidableEq, Repr

/-- Where an access goes: to a place, to a fault, or to the page service. -/
inductive Access where
  | go (p : Place)
  | trap (t : TrapInfo)
  | page
  /-- The context's state is not at the cell now (R373). -/
  | away (cell : CellKey)
deriving DecidableEq, Repr

/-- A party at a core: a firmware core's is firmware (R86). -/
def partyAt (s : State) (a : Nat) (priv : Bool) (c : CoreKey) : Who :=
  { asid := a, priv := priv, core := c, fw := (fwCores s).contains c }

/-- The party that a slot is. -/
def whoIs (s : State) (g : SlotKey) : Who := partyAt s (slotAt s g).ctl.asid (privileged s g) (coreOf g)

/-- Whether a cell lies in the partition a context has in force (R124, R125). -/
def inPart (s : State) (a : Nat) (c : CellKey) : Bool :=
  match ctxAt s a with
  | some x => decide (x.part.curBase ≤ hilbert c) && decide (hilbert c < x.part.curBase + x.part.curLen)
  | none => false

/-- The first stash offset that firmware keeps in a cell (R87). -/
def tenantStash (s : State) (c : CellKey) : Nat := if s.boot.columns.contains (cellX c) then 0x60000 else 0x80000

/-- One coordinate of R177 resolved: absolute, or signed and relative to the party's own. -/
def resolveXY (rel : Bool) (own v : Nat) : Int := if rel then (own : Int) + sgn 8 v else (v : Int)

/-- R244: the checks of a coordinate address, in their order. -/
def coordinate (s : State) (w : Who) (va : Word64) : Access :=
  if bits va 48 7 ≠ 0 ∨ bits va 19 11 ≠ 0 ∨ 1 < bits va 30 2 then .trap (fPage 3 va)
  else
    let rel := bit va 55
    let x := resolveXY rel (cellX w.cell) (bits va 40 8)
    let y := resolveXY rel (cellY w.cell) (bits va 32 8)
    if x < 0 ∨ 15 < x ∨ y < 0 ∨ 15 < y then .trap (fPage 3 va)
    else
      let c := 16 * y.toNat + x.toNat
      let off := bits va 0 19
      if inPart s w.asid c = false then .trap (fPage 4 va)
      else if bits va 30 2 = 1 then
        if w.priv = false then .trap (fPriv va)
        else if w.fw = false ∧ s.boot.columns.contains (cellX c) then .trap (fPriv va)
        else .go (.ctl c off)
      else if w.fw = false ∧ tenantStash s c ≤ off then .trap (fPriv va)
      else .go (.stash c off)

/-! ### Memory with the lines that stashes hold (R259) -/

/-- A mapping changed in its cell. -/
def modMap (c : CellKey) (a e : Nat) (f : StMap → StMap) (s : State) : State :=
  modCell c (fun x => { x with maps := x.maps.map fun m => if m.asid = a ∧ m.entry = e then f m else m }) s

/-- Bytes written at a location whose poison stays (R408). -/
def putLine (l : Nat) (bs : List Byte) (s : State) : State := { s with mem := { s.mem with bytes := putBytes s.mem.bytes l bs } }

/-- A line moves from one place to another with its poison (R408). -/
def movePoison (src dst : Nat) (s : State) : State :=
  { s with mem := { s.mem with poison := if s.mem.poison.contains src then sadd s.mem.poison dst else sdel s.mem.poison dst } }

/-- A written stash line written back to memory; the line stays present. -/
def writeBack (c : CellKey) (m : StMap) (k : Nat) (s : State) : State :=
  match tfind m.present k with
  | some line =>
    modMap c m.asid m.entry (fun m => { m with dirty := sdel m.dirty k })
      (movePoison (stashLoc c (m.off + 128 * k) / 128) line
        (putLine (128 * line) (getBytes (cellAt s c).stash (m.off + 128 * k) 128) s))
  | none => s

/-- A line recalled from every holder but `keep` (cell, context, entry and line of the mapping): written back where written, and no
longer present (R259, R315). -/
def recallLine (keep : Option (CellKey × Nat × Nat × Nat)) (line : Nat) (s : State) : State :=
  (holdersOf s line).foldl (fun s h =>
    if keep = some (h.1, h.2.1.asid, h.2.1.entry, h.2.2.1) then s
    else
      let s := if h.2.2.2 then writeBack h.1 h.2.1 h.2.2.1 s else s
      modMap h.1 h.2.1.asid h.2.1.entry (fun m => { m with present := tdel m.present h.2.2.1 }) s) s

/-- A load of a line by another party recalls it from a stash that holds it written (R259, R315). -/
def recallDirty (line : Nat) (s : State) : State := if (holdersOf s line).any (·.2.2.2) then recallLine none line s else s

/-- Bytes written at a physical address, within one line, at the line's home. -/
def writeMem (pa : Nat) (bs : List Byte) (s : State) : State := writeLoc pa bs (recallLine none (pa / 128) s)

/-- A 64-bit word of memory. -/
def mem64 (s : State) (pa : Nat) : Word64 := n64 (leNat (readMem s pa 8))

/-! ### Translation (R245 to R247) -/

/-- A page-table walk from a table, over the levels left (each by its lowest address bit): the leaf and its level. -/
def walk (s : State) (va table : Nat) (levels : List Nat) : Option (Nat × Word64) :=
  match levels with
  | [] => none
  | sh :: rest =>
    let i := if sh = 16 then field va 16 5 else field va sh 9
    let e := mem64 s (table + 8 * i)
    if bit e 0 = false ∨ bits e 5 7 ≠ 0 ∨ bits e 52 12 ≠ 0 then none
    else if bit e 1 then
      if sh ≤ 30 ∧ bits e 12 40 * 2 ^ 12 % 2 ^ sh = 0 then some (sh, e) else none
    else if rest = [] then none
    else walk s va (bits e 12 40 * 2 ^ 12) rest

/-- The lowest address bits of the five levels (R245). -/
def walkLevels : List Nat := [48, 39, 30, 21, 16]

/-- The key of a TLB entry: level and page. -/
def tlbKey (sh va : Nat) : Nat := va / 2 ^ sh * 64 + sh

/-- The number of a sector's second-level TLB (R13). -/
def sectorTlb (c : CellKey) : Nat := 1024 + sectorOf c

/-- The leaf for an address that a TLB keeps: its level and entry. -/
def tlbLeaf (c : Ctx) (unit va : Nat) : Option (Nat × Word64) :=
  (c.tlb.find? fun e => e.unit == unit && e.key == tlbKey (e.key % 64) va).map fun e => (e.key % 64, e.leaf)

/-- What the second-level TLB of a sector or, on a miss there, the page table gives for an address (R13, R245). -/
def sectorLeaf (s : State) (c : Ctx) (cell : CellKey) (va : Nat) : Option (Nat × Word64) :=
  match tlbLeaf c (sectorTlb cell) va with
  | some l => some l
  | none => walk s va c.rcd.ptroot walkLevels

/-- The leaf for an address as a core finds it: in its first-level TLB, in its sector's second-level TLB, or in the page table as it
stands (R13, R247, log entry 7, DESIGN CHOICE). -/
def leafOf (s : State) (w : Who) (va : Nat) : Option (Nat × Word64) :=
  match ctxAt s w.asid with
  | none => none
  | some c =>
    match tlbLeaf c w.core va with
    | some l => some l
    | none => sectorLeaf s c w.cell va

/-- Whether an enabled format window of the sector covers a view address (R270, R271). -/
def windowOf (s : State) (pa : Nat) : Option (Nat × Nat) :=
  match regionOf pa with
  | .view sec =>
    ((List.range 16).find? fun n =>
      let w := fun k => (tfind s.fwin (128 * sec + 8 * n + k)).getD 0
      let base := bits (w 1) 7 45 * 128
      bit (w 0) 0 && decide (base ≤ pa) && decide (pa < base + bits (w 2) 0 24 * bits (w 2) 32 24)).map fun n => (sec, n)
  | _ => none

/-- What a physical address is, for a party: a place, F.PRIV on device control, or a failure (R391). A view line that is cached stays
readable once its window is off (R272, R275). -/
def physical (s : State) (fw : Bool) (va : Word64) (pa : Nat) : Access :=
  match regionOf pa with
  | .hbm _ | .lpddr => .go (.mem pa)
  | .view _ => if (windowOf s pa).isSome ∨ (tfind s.mem.views (pa / 128)).isSome then .go (.view pa) else .page
  | .vfPage f off => .go (.vf f off)
  | .devCtl => if fw then .go (.dev pa) else .trap (fPriv va)
  | .peer d off =>
    match regionOf off with
    | .hbm _ | .lpddr => .go (if d = s.boot.device then .own off else .peer pa)
    | _ => .page
  | .host => .go (.host pa)
  | .hole => .page

/-- The physical address behind a byte of a context's residual store, which firmware maps (R71). -/
def residualPa (s : State) (a va : Nat) : Option Nat :=
  match ctxAt s a with
  | some c => if c.rcd.rva ≤ va ∧ va < c.rcd.rva + 64 * c.rcd.rsize then some (c.rcd.rstore + (va - c.rcd.rva)) else none
  | none => none

/-- R245, R246: translation of a global address with its permission checks. The residual store is readable and executable and
not writable (R71). -/
def translate (s : State) (w : Who) (need : Need) (va : Word64) : Access :=
  match residualPa s w.asid va.toNat with
  | some pa => if need = .write then .page else physical s w.fw va pa
  | none =>
    match leafOf s w va.toNat with
    | none => .page
    | some (sh, e) =>
      if (need = .write ∧ bit e 2 = false) ∨ (need = .exec ∧ bit e 3 = false) ∨ (bit e 4 ∧ w.priv = false) then .page
      else physical s w.fw va (bits e 12 40 * 2 ^ 12 + va.toNat % 2 ^ sh)

/-- R373: whether a context's state stands at a cell. -/
def isAway (s : State) (a : Nat) (c : CellKey) : Bool := match ctxAt s a with | some x => x.away.contains c | none => false

/-- The mapping of a context that covers a stash byte (R258). -/
def mapAt (s : State) (a c off : Nat) : Option StMap :=
  (cellAt s c).maps.find? fun m => m.asid == a && decide (m.off ≤ off) && decide (off < m.off + m.len)

/-- Where an address leads (R243 to R246, R259). -/
def resolve (s : State) (w : Who) (need : Need) (va : Word64) : Access :=
  if bits va 56 8 = 0xFF then
    match coordinate s w va with
    | .go (.stash c off) =>
      if isAway s w.asid c then .away c
      else match mapAt s w.asid c off with
      | some m =>
        match translate s w need (n64 (m.va + (off - m.off))) with
        | .go (.mem pa) => .go (.cached c m.entry off pa)
        | .go (.view pa) => .go (.view pa)
        | .go p => .go p
        | r => r
      | none => .go (.stash c off)
    | r => r
  else if bits va 57 7 = 0 then translate s w need va
  else .trap (fPage 3 va)

/-! ### The page service (R246) -/

/-- A translation failure referred to the page service. -/
def askPage (r : PageReq) (s : State) : State := { s with pages := tput s.pages s.nextId r, nextId := s.nextId + 1 }

/-- The code of what a page must permit. -/
def needCode (n : Need) : Nat :=
  match n with
  | .read => 0
  | .write => 1
  | .exec => 2

/-- A page failure: 0 of a slot's word, 1 a copy, 2 a queued operation, 3 an operand stream, 4 a posted operation (R246). -/
def pageReqOf (a : Nat) (va : Word64) (kind : Nat) (g : SlotKey) (ep item : Nat) (n : Need) : PageReq :=
  { asid := a, va := va, kind := kind, gid := g, epoch := ep, item := item, need := needCode n, done := none }

/-- A translation failure of a slot referred to the page service. -/
def askFor (va : Word64) (need : Need) (s : State) : State :=
  let g := s.issue.gid
  let x := slotAt s g
  askPage (pageReqOf x.ctl.asid va 0 g x.ctl.epoch 0 need) s

/-- The word that issues parks with reason page; its access replays once the entry is repaired. -/
def pagePark (i : Instr) (va : Word64) (need : Need) (s : State) : State := parkAccess i (.page s.nextId) (askFor va need s)

/-- A word whose code cannot be translated parks with reason page; it issues once the entry is repaired. -/
def codePark (va : Word64) (s : State) : State := park s.issue.gid (.codePage s.nextId) (askFor va .exec s)

/-- An access of the word that issues: it traps, parks for the page service, or goes on at its place. -/
def withPlace (i : Instr) (need : Need) (va : Word64) (k : Place → State → State) (s : State) : State :=
  match resolve s (whoIs s s.issue.gid) need va with
  | .go p => k p s
  | .trap t => fault t s
  | .page => pagePark i va need s
  | .away c => parkAccess i (.away c) s

/-! ### Format views (R273): decoding a view byte -/

/-- R222, R221: the CB2 patterns, four hex digits each, rows of sixteen joined. -/
def cb2Rows : List Nat :=
  [0x0000000100040010004001000400100040000005001100140041004400500101,
   0x0104011001400401040404100440050010011004101010401100140040014004,
   0x4010404041004400500000020008001500200045005100540080010501110114,
   0x0141014401500200040504110414044104440450050105040510054008001005,
   0x1011101410411044105011011104111011401401140414101440150020004005,
   0x4011401440414044405041014104411041404401440444104440450050015004,
   0x5010504051005400800000060009001200180021002400420048005500600081,
   0x0084009001020108011501200145015101540180020102040210024004020408,
   0x0415042004450451045404800505051105140541054405500600080108040810,
   0x0840090010021008101510201045105110541080110511111114114111441150,
   0x1200140514111414144114441450150115041510154018002001200420102040,
   0x2100240040024008401540204045405140544080410541114114414141444150,
   0x4200440544114414444144444450450145044510454048005005501150145041,
   0x5044505051015104511051405401540454105440550060008001800480108040,
   0x8100840090000016001900250046004900520058006100640085009100940106,
   0x0109011201180121012401420148015501600181018401900205021102140241]

/-- CB2PAT (R222). -/
def cb2Pat (p : Nat) : Nat := field ((cb2Rows[p / 16]?).getD 0) (16 * (15 - p % 16)) 16

/-- Twice the weight `i` of a CB2 index word (R221). -/
def cb2Twice (w i : Nat) : Int :=
  let m : Int := 2 * (field (cb2Pat (field w 8 8)) (14 - 2 * i) 2 : Nat) + 1
  if field w i 1 = 1 then -m else m

/-- Twice the value of an e2m1 nibble (R216): a multiple of 1/2. -/
def e2m1Twice (n : Nat) : Int :=
  let e := field n 1 2
  let f := field n 0 1
  let m : Int := if e = 0 then (f : Nat) else ((2 + f) * 2 ^ (e - 1) : Nat)
  if field n 3 1 = 1 then -m else m

/-- The e4m3 code of a small multiple of 1/2, given doubled, with its sign bit (R216): exact for the values that windows
decode to. -/
def e4m3OfTwice (neg : Bool) (m : Nat) : Nat :=
  let s := if neg then 0x80 else 0
  if m = 0 then s
  else
    let k := m.log2
    s + (k + 6) * 8 + (m * 8 / 2 ^ k - 8)

/-- Where the storage of a view byte stands (R273). -/
def viewSource (s : State) (pa : Nat) : Option Nat :=
  (windowOf s pa).map fun q =>
    let w := fun k => (tfind s.fwin (128 * q.1 + 8 * q.2 + k)).getD 0
    let o := pa - bits (w 1) 7 45 * 128
    let cols := bits (w 2) 32 24
    let bl := if bits (w 0) 6 2 = 0 then 32 else 64
    let col := bit (w 0) 4
    let blk := if col then o / cols / bl * cols + o % cols else o / cols * (cols / bl) + o % cols / bl
    let j := if col then o / cols % bl else o % cols % bl
    let base := bits (w 3) 4 48 * 16
    match bits (w 0) 1 3 with
    | 0 => base + blk * 16 + 2 * (j / 8)
    | 2 => base + blk * bl + j
    | _ => base + blk * (bl / 2) + j / 2

/-- The byte of a view at a physical address (R273). -/
def viewByte (s : State) (pa : Nat) : Byte :=
  match windowOf s pa with
  | none => 0
  | some (sec, n) =>
    let w := fun k => (tfind s.fwin (128 * sec + 8 * n + k)).getD 0
    let o := pa - bits (w 1) 7 45 * 128
    let cols := bits (w 2) 32 24
    let bl := if bits (w 0) 6 2 = 0 then 32 else 64
    let fmt := bits (w 0) 1 3
    let r := o / cols
    let c := o % cols
    let blk := if bit (w 0) 4 then r / bl * cols + c else r * (cols / bl) + c / bl
    let j := if bit (w 0) 4 then r % bl else c % bl
    let bb := match fmt with | 0 => 16 | 2 => bl | _ => bl / 2
    let base := bits (w 3) 4 48 * 16 + blk * bb
    let at' := fun a => (getByte s.mem.bytes a).toNat
    let nib := field (at' (base + j / 2)) (4 * (j % 2)) 4
    let toS8 := bit (w 0) 5
    match fmt with
    | 2 => BitVec.ofNat 8 (at' (base + j))
    | 0 =>
      let t := cb2Twice (at' (base + 2 * (j / 8)) + 256 * at' (base + 2 * (j / 8) + 1)) (j % 8)
      if toS8 then BitVec.ofInt 8 t else BitVec.ofNat 8 (e4m3OfTwice (decide (t < 0)) t.natAbs)
    | 1 =>
      let t := e2m1Twice nib
      if toS8 then BitVec.ofInt 8 t else BitVec.ofNat 8 (e4m3OfTwice (field nib 3 1 == 1) t.natAbs)
    | _ =>
      let v := sgn 4 nib
      if toS8 then BitVec.ofInt 8 v else BitVec.ofNat 8 (e4m3OfTwice (decide (v < 0)) (2 * v.natAbs))

/-- `n` bytes of a view: from the cached line where the home slices hold one (R275), decoded otherwise. -/
def readView (s : State) (pa n : Nat) : List Byte :=
  match tfind s.mem.views (pa / 128) with
  | some l => (List.range n).map fun k => (l[pa % 128 + k]?).getD 0
  | none => (List.range n).map fun k => viewByte s (pa + k)

/-! ### The link agent (R316, R392) -/

/-- The local address behind an address of the peer window that names this device (R392). -/
def ownOff (s : State) (pa : Nat) : Option Nat :=
  match regionOf pa with
  | .peer d off => if d = s.boot.device then some off else none
  | _ => none

/-- One piece of an access within a line of memory. -/
def pieceLen (pa n : Nat) : Nat := min n (128 - pa % 128)

/-- The link agent reads at the home (R309, R316). -/
def agentRead (fuel pa n : Nat) (s : State) : List Byte × State :=
  match fuel with
  | 0 => ([], s)
  | k + 1 =>
    if n = 0 then ([], s)
    else
      let m := pieceLen pa n
      let ts := max (s.linkClk + 1) (stamps s pa).1
      let b := readMem s pa m
      let s := recallDirty (pa / 128) (setStamps pa ((stamps s pa).1, max (stamps s pa).2 ts) { s with linkClk := ts })
      let r := agentRead k (pa + m) (n - m) s
      (b ++ r.1, r.2)

/-- The link agent writes at the home (R310, R316). -/
def agentWrite (fuel pa : Nat) (bs : List Byte) (s : State) : State :=
  match fuel with
  | 0 => s
  | k + 1 =>
    if bs.isEmpty then s
    else
      let m := pieceLen pa bs.length
      let ts := max s.linkClk (stamps s pa).2 + 1
      agentWrite k (pa + m) (bs.drop m) (writeMem pa (bs.take m) (setStamps pa (ts, ts) { s with linkClk := ts }))

/-- Bytes written to a peer's or the host's memory; this device's own through its peer window are written by the link agent (R392). -/
def writeOutside (pa : Nat) (bs : List Byte) (s : State) : State :=
  match ownOff s pa with
  | some off => agentWrite (bs.length / 128 + 2) off bs s
  | none => { s with mem := { s.mem with ext := putExts s.mem.ext pa bs } }

/-! ### Physical memory as firmware reaches it (log entry 36, DEDUCED) -/

/-- Bytes at a physical address: this device's memory, here or through its own peer window, unless a line of them is poisoned; a
peer's or the host's. -/
def readPhys (s : State) (pa n : Nat) : Option (List Byte) :=
  let a := (ownOff s pa).getD pa
  match regionOf a with
  | .hbm _ | .lpddr =>
    if (List.range n).any fun k => s.mem.poison.contains ((a + k) / 128) then none
    else some ((List.range n).flatMap fun k => readMem s (a + k) 1)
  | .host | .peer _ _ => some (getExts s.mem.ext pa n)
  | _ => none

/-- Bytes written at homes, line by line, each at a place in the single order past a clock (R310). -/
def writeHomes (fuel clk pa : Nat) (bs : List Byte) (s : State) : State :=
  match fuel with
  | 0 => s
  | k + 1 =>
    if bs.isEmpty then s
    else
      let m := pieceLen pa bs.length
      writeHomes k clk (pa + m) (bs.drop m) (writeMem pa (bs.take m) (stampLine clk pa s))

/-- Bytes written at a physical address, past a clock (R310). -/
def writePhys (clk pa : Nat) (bs : List Byte) (s : State) : State :=
  match regionOf pa with
  | .hbm _ | .lpddr => writeHomes (bs.length / 128 + 2) clk pa bs s
  | .host | .peer _ _ => writeOutside pa bs { s with linkClk := max s.linkClk clk }
  | _ => s

/-- A place in the single order past everything that has happened: no clock of the device is later. -/
def lastClock (s : State) : Nat :=
  ((s.slots.map fun q => q.2.lclk) ++ (s.saves.map fun q => q.2.lclk) ++ s.mem.stamps.map fun q => max q.2.1 q.2.2).foldl max s.linkClk

/-! ### One access at its place -/

/-- The control page of a cell (R393). -/
def ctlByte (s : State) (c off : Nat) : Byte :=
  let x := cellAt s c
  let v := if off < 0x800 then
      let y := cellAt s (off / 8)
      y.live + y.tested * 2 ^ 8
    else match off / 8 with
      | 0x100 => x.temp
      | 0x101 => x.throt
      | 0x102 => x.ce
      | 0x103 => x.ue
      | _ => 0
  BitVec.ofNat 8 (v / 2 ^ (8 * (off % 8)))

/-- A mapped stash line brought in from its home (R259). -/
def fillLine (c : CellKey) (a e : Nat) (off pa : Nat) (s : State) : State :=
  match mapAt s a c off with
  | none => s
  | some m =>
    let k := (off - m.off) / 128
    if (tfind m.present k).isSome then s
    else
      let s := recallDirty (pa / 128) s
      let bs := readMem s (pa / 128 * 128) 128
      movePoison (pa / 128) (stashLoc c (m.off + 128 * k) / 128)
        (modMap c a e (fun m => { m with present := tput m.present k (pa / 128) })
          (modCell c (fun x => { x with stash := putBytes x.stash (m.off + 128 * k) bs }) s))

/-- Whether a mapping of a cell holds a line at a stash offset. -/
def linePresent (s : State) (c e off : Nat) : Bool :=
  (cellAt s c).maps.any fun m =>
    m.entry == e && decide (m.off ≤ off) && decide (off < m.off + m.len) && (tfind m.present ((off - m.off) / 128)).isSome

/-- The 128-byte lines whose poison an access of `n` bytes at a place meets (R408): of a mapped line, the one that the stash holds, or
the one that it would be filled from; of a view, the storage that it decodes. -/
def linesMet (s : State) (p : Place) (n : Nat) : List Nat :=
  match p with
  | .mem pa | .own pa => [newestLine s (pa / 128)]
  | .cached c e off pa => if linePresent s c e off then [stashLoc c off / 128] else [newestLine s (pa / 128)]
  | .stash c off => [stashLoc c off / 128]
  | .view pa =>
    if (tfind s.mem.views (pa / 128)).isSome then []
    else (List.range n).filterMap fun k => (viewSource s (pa + k)).map (· / 128)
  | _ => []

/-- A poisoned line is met (R408). -/
def poisoned (s : State) (p : Place) (n : Nat) : Bool := (linesMet s p n).any s.mem.poison.contains

/-- The location whose stamps an access uses (R307, R315). -/
def Place.loc : Place → Option Nat
  | .mem pa | .cached _ _ _ pa | .own pa => some pa
  | .stash c off => some (stashLoc c off)
  | _ => none

/-- The clock from which an access of a party with clock `c` is stamped at a place: a mapped byte is accessed after the STMAP (R258), and
what goes through the own peer window is the link agent's access too (R316, R392). -/
def placeClock (s : State) (p : Place) (c : Nat) : Nat :=
  match p with
  | .cached cell e off _ =>
    let m := (cellAt s cell).maps.find? fun m => m.entry == e && decide (m.off ≤ off) && decide (off < m.off + m.len)
    max c ((m.map (·.place)).getD 0)
  | .own _ => max c s.linkClk
  | _ => c

/-- The link agent's clock after an access at a place, stamped `ts`. -/
def agentMoved (p : Place) (ts : Nat) (s : State) : State :=
  match p with
  | .own _ => { s with linkClk := max s.linkClk ts }
  | _ => s

/-- A slot takes the place of its access in the single order by `f`, past the clocks that the place itself has. -/
def slotStamped (g : SlotKey) (p : Place) (f : SlotKey → Nat → State → State) (s : State) : State :=
  match p.loc with
  | none => s
  | some l =>
    let s := match p with | .cached .. | .own _ => raiseClock g (placeClock s p 0) s | _ => s
    let s := f g l s
    agentMoved p (slotAt s g).lclk s

/-- The core of a cell whose deque has tasks in a spill area over a stash byte (R193, R194). -/
def areaOwner (s : State) (c off : Nat) : Option CoreKey :=
  ([4 * c, 4 * c + 1, 4 * c + 2, 4 * c + 3]).find? fun k =>
    let d := coreAt s k
    let base := bits d.deqbase 6 13 * 64
    decide (0 < d.area) && decide (base ≤ off) && decide (off < base + bits d.deqbase 32 13 * 64)

/-- The bytes of a stash: those of a deque's spill area are free values (R193, log entry 20, DESIGN CHOICE). -/
def stashBytes (s : State) (c off n : Nat) : List Byte :=
  if (areaOwner s c off).isSome then (List.range n).map fun i => Config.dequeByte s.fresh (off + i)
  else getBytes (cellAt s c).stash off n

/-- R193: a store into a deque's spill area damages the tasks held there (log entry 20, DESIGN CHOICE). -/
def damageTasks (c off : Nat) (s : State) : State :=
  match areaOwner s c off with
  | none => s
  | some k =>
    let f := s.fresh
    modCore k (fun d => { d with deque := d.deque.mapIdx fun n t =>
      if n < d.area then
        { t with pc := Config.damaged f n 0 &&& ~~~(1 : Word64), ctr := Config.damaged f n 1,
                 args := Vector.ofFn fun i => Config.damaged f n (2 + i.val) }
      else t }) { s with fresh := f + 1 }

/-- The bytes that a place holds, and the state once a mapped line is present. -/
def fetchBytes (a : Nat) (p : Place) (n : Nat) (s : State) : List Byte × State :=
  match p with
  | .mem pa | .own pa => (readMem s pa n, recallDirty (pa / 128) s)
  | .stash c off => (stashBytes s c off n, s)
  | .cached c e off pa =>
    let s := fillLine c a e off pa s
    (getBytes (cellAt s c).stash off n, s)
  | .ctl c off => ((List.range n).map fun k => ctlByte s c (off + k), s)
  | .view pa => (readView s pa n, s)
  | .vf _ _ => (List.replicate n 0, s)
  | .peer pa | .host pa => (getExts s.mem.ext pa n, s)
  | .dev pa => ((List.range n).map fun k => Config.deviceByte s.fresh (pa + k), { s with fresh := s.fresh + 1 })

/-- A line that a mapping of a stash is about to write leaves every other holder (R259). -/
def recallOthers (c : CellKey) (a off pa : Nat) (s : State) : State :=
  match mapAt s a c off with
  | some m => recallLine (some (c, a, m.entry, (off - m.off) / 128)) (pa / 128) s
  | none => s

/-- Bytes stored at a place. Stores to a control page are ignored (R393); a virtual function's page takes only wake writes
(R395), which the caller handles. -/
def storeBytes (a : Nat) (p : Place) (bs : List Byte) (s : State) : State :=
  match p with
  | .mem pa | .own pa => writeMem pa bs s
  | .stash c off => modCell c (fun x => { x with stash := putBytes x.stash off bs }) (damageTasks c off s)
  | .cached c e off pa =>
    let s := recallOthers c a off pa (fillLine c a e off pa s)
    match mapAt s a c off with
    | some _ =>
      modMap c a e (fun m => { m with dirty := sadd m.dirty ((off - m.off) / 128) })
        (modCell c (fun x => { x with stash := putBytes x.stash off bs }) s)
    | none => s
  | .peer pa | .host pa => { s with mem := { s.mem with ext := putExts s.mem.ext pa bs } }
  | .ctl _ _ | .view _ | .vf _ _ | .dev _ => s

/-- Remote stash accesses are counted for the context (R379). -/
def noteRemoteBy (own : CellKey) (a : Nat) (p : Place) (s : State) : State :=
  match p with
  | .stash c _ | .cached c _ _ _ => if c = own then s else countUnit c a 5 1 s
  | _ => s

/-- The same for an access of a slot. -/
def noteRemote (g : SlotKey) (p : Place) (s : State) : State := noteRemoteBy (cellOf g) (slotAt s g).ctl.asid p s

/-- The read copy that may serve a load of a slot (R311). -/
def copyFor (s : State) (g : SlotKey) (p : Place) : Option ReadCopy :=
  match p with
  | .mem pa =>
    match tfind (cellAt s (cellOf g)).copies (pa / 128), tfind (slotAt s g).renew (pa / 128) with
    | some k, some r =>
      let ts := max ((slotAt s g).lclk + 1) k.wts
      if s.copies = true ∧ ts ≤ k.rts ∧ ts < r then some k else none
    | _, _ => none
  | _ => none

/-- After a renewal, the cell keeps the line with its lease, and the renewal point (R309). Only lines homed at slices have
copies (R311). -/
def keepCopy (g : SlotKey) (p : Place) (s : State) : State :=
  match p with
  | .mem pa =>
    let line := pa / 128
    if s.copies = false ∨ ((holdersOf s line).any fun h => h.2.2.2) then s
    else
      let st := stamps s pa
      modSlot g (fun x => { x with renew := tput x.renew line (x.lclk + leaseOf s x.ctl.asid) })
        (modCell (cellOf g) (fun c => { c with
          copies := tput c.copies line { bytes := readMem s (128 * line) 128, wts := st.1, rts := st.2 } }) s)
  | _ => s

/-- An acquire of a slot (R306, R317): it gives up its renewal points, so that its next load of any line is made at the line's home. -/
def acquire (g : SlotKey) (s : State) : State := modSlot g (fun x => { x with renew := [] }) s

/-- A load of a slot performed at its home (R309), past any copy: a full/empty word's, a reservation's. -/
def loadHomeAt (g : SlotKey) (p : Place) (n : Nat) (s : State) : List Byte × State :=
  let s := slotStamped g p stampLoad (noteRemote g p s)
  fetchBytes (slotAt s g).ctl.asid p n s

/-- A load of a slot performed at its place in the single order: from a read copy, or at its home (R305, R309, R311). -/
def loadAt (g : SlotKey) (p : Place) (n : Nat) (s : State) : List Byte × State :=
  match copyFor s g p, p.loc with
  | some k, some l =>
    ((List.range n).map fun i => (k.bytes[l % 128 + i]?).getD 0,
      modSlot g (fun x => { x with lclk := max (x.lclk + 1) k.wts }) (noteRemote g p s))
  | _, _ =>
    let r := loadHomeAt g p n s
    (r.1, keepCopy g p r.2)

/-- The line in which bytes stored at a place stand, by the number it has in the list of poisoned lines (R408). -/
def Place.poisonLine (p : Place) (key : Nat) : Nat := match p with | .cached c _ off _ => stashLoc c off / 128 | _ => key / 128

/-- Bytes stored in a poisoned line are noted, by the key of the first; once all 128 of a line are, its poison is cleared (R408). -/
def wipe (p : Place) (key n : Nat) (seen : List Nat) (s : State) : List Nat × State :=
  let line := key / 128
  let poison := p.poisonLine key
  if s.mem.poison.contains poison then
    let seen := (List.range n).foldl (fun l i => sadd l (key + i)) seen
    if (List.range 128).all fun i => seen.contains (128 * line + i) then
      (seen.filter fun a => a / 128 != line, { s with mem := { s.mem with poison := sdel s.mem.poison poison } })
    else (seen, s)
  else (seen, s)

/-- A store of a slot performed at its place in the single order (R305, R310). -/
def storeAt (g : SlotKey) (p : Place) (bs : List Byte) (s : State) : State :=
  let s := slotStamped g p stampStore (noteRemote g p s)
  storeBytes (slotAt s g).ctl.asid p bs s

end Sys2Proof.Machine
end

