-- ==== Sys2Proof/Machine/Inbox.lean ====
section
/-! DEFINITION. The inbox of a spilled slot (R369, R371) and the delivery of an arrival (R141, R371, R373). -/

namespace Sys2Proof.Machine

/-! ### Where a save area stands (R368) -/

/-- The physical address of a slot's save area in its context (R368, log entry 32, DEDUCED). -/
def saveArea (s : State) (a : Nat) (g : SlotKey) : Nat :=
  match ctxAt s a with
  | some c => c.rcd.savebase + 53248 * (64 * (hilbert (cellOf g) - c.part.curBase) + 16 * coreNo g + slotNo g)
  | none => 0

/-- A field of an image: offset, bytes, value. -/
abbrev Piece := Nat × Nat × Nat

/-! ### The entries (R369) -/

/-- One register write of a result as an inbox entry: KIND, VALUE and the payload it needs (R369). -/
def writeEntry (w : RegWrite) : Nat × Nat × Option Nat :=
  match w with
  | .s _ v => (1, v.toNat, none)
  | .p _ v => (1, v.toNat, none)
  | .v _ x => (2, 0, some x.toNat)
  | .m _ x => (2, 0, some x.toNat)
  | .acc _ => (1, 0, none)

/-- An inbox entry as the entries of R369: KIND, DESIG, VALUE, EXP, CLOCK and payload. -/
def entryRows (e : InboxEntry) : List (Nat × Nat × Nat × Nat × Nat × Option Nat) :=
  match e with
  | .result r =>
    match r.writes with
    | [] => [(1, 0, 0, 0, r.clock, none)]
    | ws => ws.map fun w => ((writeEntry w).1, w.desig.code, (writeEntry w).2.1, 0, r.clock, (writeEntry w).2.2)
  | .rput k v c => [(3, k.code, v.toNat, 0, c, none)]
  | .bsum n m e c => [(4, (Desig.s n).code, wrap 64 m, wrap 64 e, c, none)]

/-- How many entries an inbox has (R369): a result has one for each register it writes. -/
def inboxCount (l : List InboxEntry) : Nat := (l.flatMap entryRows).length

/-- The inbox part of an image from entry `n` on: the entries, and the payload of vector and mask results in their order (R368, R369). -/
def inboxPieces (x : Slot) (n : Nat) : List Piece :=
  let rows := x.inbox.flatMap entryRows
  let pay := fun (l : List (Nat × Nat × Nat × Nat × Nat × Option Nat)) => l.filterMap fun r => r.2.2.2.2.2
  [(0x00A, 2, rows.length)] ++
  ((rows.zipIdx.drop n).flatMap fun (r, k) =>
    let o := 0x4C00 + 32 * k
    [(o, 1, r.1), (o + 1, 1, r.2.1), (o + 2, 1, if r.2.2.2.2.2.isSome then (pay (rows.take k)).length else 0),
     (o + 8, 8, r.2.2.1), (o + 16, 8, r.2.2.2.1), (o + 24, 8, r.2.2.2.2.1)]) ++
  (((pay rows).take 40).zipIdx.drop (pay (rows.take n)).length).map fun (v, k) => (0x2400 + 256 * k, 256, v)

/-! ### Writing it -/

/-- Where a physical address leads: memory of this device by its local address, which its own peer window names too (R392). -/
def homePa (s : State) (pa : Nat) : Nat := (ownOff s pa).getD pa

/-- Whether a physical address lies outside this device's memory, in a peer's or the host's. -/
def beyond (s : State) (pa : Nat) : Bool := match regionOf (homePa s pa) with | .peer _ _ | .host => true | _ => false

/-- The lines of a range that stashes hold are recalled (R259). -/
def recallRange (a n : Nat) (s : State) : State :=
  let p := homePa s a
  (List.range (n / 128 + 1)).foldl (fun s k => recallLine none (p / 128 + k) s) s

/-- Bytes of a save area, in whichever memory it stands (R368, R398). -/
def peekPhys (s : State) (pa n : Nat) : List Byte :=
  if beyond s pa then getExts s.mem.ext pa n else (List.range n).flatMap fun k => readMem s (homePa s pa + k) 1

/-- Bytes of a save area written. -/
def pokePhys (pa : Nat) (bs : List Byte) (s : State) : State :=
  if beyond s pa then { s with mem := { s.mem with ext := putExts s.mem.ext pa bs } }
  else { s with mem := { s.mem with bytes := putBytes s.mem.bytes (homePa s pa) bs } }

/-- Bytes listed outside a range of addresses. -/
def dropRange (l : List Host.Cell) (a n : Nat) : List Host.Cell := l.filter fun c => decide (c.1 < a) || decide (a + n ≤ c.1)

/-- A range of a save area set to zeros. -/
def zeroPhys (pa n : Nat) (s : State) : State :=
  if beyond s pa then { s with mem := { s.mem with ext := putExts s.mem.ext pa (List.replicate n 0) } }
  else { s with mem := { s.mem with bytes := dropRange s.mem.bytes (homePa s pa) n } }

/-- Fields written from an address. -/
def putPieces (a : Nat) (ps : List Piece) (s : State) : State := ps.foldl (fun s p => pokePhys (a + p.1) (leBytes p.2.1 p.2.2) s) s

/-- The inbox of a spilled slot written to its save area (R369). -/
def writeInbox (a : Nat) (x : Slot) (s : State) : State :=
  let s := recallRange a 53248 s
  putPieces a (inboxPieces x 0) (zeroPhys (a + 0x2400) 0xA800 s)

/-- The entries of an inbox from number `n` on written to the save area as they come: those that the cell has no room for (R369). -/
def writeTail (a : Nat) (x : Slot) (n : Nat) (s : State) : State :=
  if inboxCount x.inbox ≤ n then s else putPieces a (inboxPieces x n) (recallRange a 53248 s)

/-! ### An arrival (R141, R371, R373) -/

/-- An entry at the end of a slot's inbox. -/
def addInbox (e : InboxEntry) (x : Slot) : Slot := { x with inbox := x.inbox ++ [e] }

/-- An entry put into the inbox of a spilled slot; the first 64 may stay in the cell (R369). -/
def putInbox (g : SlotKey) (e : InboxEntry) (s : State) : State :=
  let x := slotAt s g
  let s := setSlot g (addInbox e x) s
  if x.ctl.req.spill then s else writeTail (saveArea s x.ctl.asid g) (addInbox e x) (max 64 (inboxCount x.inbox)) s

/-- An entry put into the inbox of a slot that is switched out, which stands in its save area (R369, R373). A slot of a cell that has left
the partition has no save area any more (log entry 67, DESIGN CHOICE). -/
def putSaved (k : Nat) (e : InboxEntry) (x : Slot) (s : State) : State :=
  let t := { s with saves := tput s.saves k (addInbox e x) }
  if inPart s (k / 16384) (cellOf (k % 16384)) then writeTail (saveArea s (k / 16384) (k % 16384)) (addInbox e x) (inboxCount x.inbox) t
  else t

/-- A reply reaches its slot: its registers, its inbox, or that of a slot whose context is switched out (R141, R371, R373). -/
def deliver (r : Reply) (s : State) : State :=
  let x := slotAt s r.gid
  if x.ctl.epoch = r.epoch ∧ x.ctl.gone = false then
    if x.ctl.st = .spilled then putInbox r.gid (.result r) s else applyReply r s
  else match savedSlot s r.gid r.epoch with
    | some q => if q.2.ctl.gone then discardReply r s else putSaved q.1 (.result r) q.2 s
    | none => discardReply r s

end Sys2Proof.Machine
end

