-- ==== Sys2Proof/Machine/Fetch.lean ====
section
/-! DEFINITION. Fetching the granules of an internal word (R28, R37, R39 to R41, R137, R138, R207). -/

namespace Sys2Proof.Machine

/-- The number a place has in tables of lines, reservations and joins. -/
def placeKey : Place → Nat
  | .mem pa | .cached _ _ _ pa | .view pa | .peer pa | .own pa | .host pa | .dev pa => pa
  | .stash c off => stashLoc c off
  | .ctl c off => 2 ^ 61 + stashLoc c off
  | .vf f off => 2 ^ 62 + f * 0x10000 + off

/-- What fetching one granule gives. -/
inductive Granule where
  | ok (g : BitVec 16)
  | trap (t : TrapInfo)
  | page (va : Word64)
  /-- The line is not in the core's instruction cache (R137). -/
  | miss (line : Nat)
deriving DecidableEq, Repr

/-- Whether an address lies in the residual store of a context on a unit that no live residual holds (R207). -/
def inFreed (s : State) (a : Nat) (va : Nat) : Bool :=
  match ctxAt s a with
  | none => false
  | some c =>
    decide (c.rcd.rva ≤ va) && decide (va < c.rcd.rva + 64 * c.rcd.rsize) &&
    !(c.resids.any fun r =>
      decide (c.rcd.rva + 64 * r.off ≤ va) && decide (va < c.rcd.rva + 64 * (r.off + r.units)))

/-- One granule at an address, for a slot: from its fetch buffer, else from a line of its core's cache (R137). Executing
needs an even address, which every transfer checks (R181). -/
def granuleAt (s : State) (g : SlotKey) (va : Word64) : Granule :=
  match (slotAt s g).ctl.buf.find? (fun b => b.addr == va.toNat) with
  | some b => .ok b.val
  | none =>
    match resolve s (whoIs s g) .exec va with
    | .trap t => .trap { t with fetch := true, addr := va }
    | .page => .page va
    | .away _ => .miss (va.toNat / 128)
    | .go p =>
      if inFreed s (slotAt s g).ctl.asid va.toNat then .trap { fHandle 3 va with fetch := true }
      else if poisoned s p 2 then .trap { fPage 2 va with fetch := true }
      else
        let line := placeKey p / 128
        if (coreAt s (coreOf g)).lines.contains line then
          .ok (BitVec.ofNat 16 (leNat (fetchBytes (slotAt s g).ctl.asid p 2 s).1))
        else .miss line

/-- What fetching a word gives. -/
inductive Fetched where
  | word (gs : List (BitVec 16))
  | stop (r : Granule)
deriving DecidableEq, Repr

/-- The granules of the word at an address, one after another until the word is whole; at most `fuel` of them. -/
def fetchFrom (s : State) (g : SlotKey) (va : Word64) (got : List (BitVec 16)) (fuel : Nat) : Fetched :=
  match fuel with
  | 0 => .word got
  | k + 1 =>
    if got ≠ [] ∧ wordNeed got ≤ got.length then .word got
    else match granuleAt s g (va + n64 (2 * got.length)) with
      | .ok x => fetchFrom s g va (got ++ [x]) k
      | r => .stop r

/-- The word at an address: at most six granules (R37). -/
def fetchWord (s : State) (g : SlotKey) (va : Word64) : Fetched := fetchFrom s g va [] 6

/-- R137: a line filled into a core's instruction cache of 512 lines. Where all are in use, one leaves: which, the manual leaves
open (log entry 57, DESIGN CHOICE). -/
def fillCache (c : CoreKey) (line : Nat) (s : State) : State :=
  let s := recallDirty line s
  let l := (coreAt s c).lines
  if l.contains line then s
  else if l.length < 512 then modCore c (fun x => { x with lines := sadd x.lines line }) s
  else
    let out := (l[Config.evicted s.fresh % 512]?).getD 0
    modCore c (fun x => { x with lines := sadd (sdel x.lines out) line }) { s with fresh := s.fresh + 1 }

/-- R39: the internal word of an address as a slot's core holds it in its instruction cache. -/
def cachedWord (s : State) (g : SlotKey) (va : Word64) : Option (BitVec 96) :=
  match fetchWord (modCtl g (fun c => { c with buf := [] }) s) g va with
  | .word gs => some (expandWord gs)
  | .stop _ => none

/-- Whether granules at hand tell the length of the word that they begin (R29, R37). -/
def lengthKnown (gs : List (BitVec 16)) : Bool :=
  let body := if classOf (gs.headD 0) = .g16 then gs.drop 1 else gs
  match body with
  | [] => false
  | g :: rest => if classOf g = .s32 ∧ field g.toNat 14 1 = 1 then decide (2 ≤ rest.length) else true

/-- The granules at an address that tell the length of the word there, and no more of them (R184): at most four. -/
def lengthFrom (s : State) (g : SlotKey) (va : Word64) (got : List (BitVec 16)) (fuel : Nat) : Fetched :=
  match fuel with
  | 0 => .word got
  | k + 1 =>
    if lengthKnown got then .word got
    else match granuleAt s g (va + n64 (2 * got.length)) with
      | .ok x => lengthFrom s g va (got ++ [x]) k
      | r => .stop r

/-- What tells the length of the word at an address. -/
def fetchLength (s : State) (g : SlotKey) (va : Word64) : Fetched := lengthFrom s g va [] 4

/-- A word has left the fetch buffer: what the buffer holds may serve for one word less (R138). -/
def ageBuffer (g : SlotKey) (s : State) : State :=
  modCtl g (fun c => { c with buf := (c.buf.map fun b => { b with left := b.left - 1 }).filter fun b => 0 < b.left }) s

end Sys2Proof.Machine
end

