-- ==== Sys2Proof/Machine/Control.lean ====
section
/-! DEFINITION. Control flow (R180 to R186), fork, join and idle (R187 to R197), traps (R364 to R366), and calling by handle
and specialisation as the slot sees them (R198 to R209). -/

namespace Sys2Proof.Machine

/-- The issuing slot's pc: W (R180). -/
def pcOf (s : State) : Word64 := (slotAt s s.issue.gid).ctl.pc

/-- R181: a transfer to T with its link. -/
def jump (link : Option SReg) (t : Word64) (s : State) : State :=
  if bit t 0 then fault (fAlign t) s
  else
    let g := s.issue.gid
    let n := (slotAt s g).ctl.npc
    transfer g t (match link with | some d => modSlot g (sSet d n) s | none => s)

/-- W + 2 · disp (R180). -/
def dispTarget (s : State) (j : BitVec 24) : Word64 := pcOf s + (j.signExtend 64 <<< 1)

def execBr (j : BitVec 24) (s : State) : Res := word (.br j) (fun _ s => jump none (dispTarget s j) s) s
def execCall (j : BitVec 24) (s : State) : Res := word (.call j) (fun _ s => jump (some 31) (dispTarget s j) s) s
def execJr (a : SReg) (s : State) : Res := word (.jr a) (fun x s => jump none (sGet x a) s) s
def execCallr (d a : SReg) (s : State) : Res := word (.callr d a) (fun x s => jump (some d) (sGet x a) s) s
def execRet (s : State) : Res := word .ret (fun x s => jump none (sGet x 31) s) s

/-- R42 step 1, R184: the words at which no loop may start, whatever their operands hold: its end before its start, two live
records, or an end word. -/
def loopFault (i : BitVec 14) (s : State) : Option TrapInfo :=
  let c := (slotAt s s.issue.gid).ctl
  if (c.pc + n64 (2 * i.toNat)).toNat < c.npc.toNat ∨ 2 ≤ c.loops.length ∨ c.loops.any (fun r => r.stop == c.pc) then some fIll else none

/-- R184: the slot goes on as if the word at `e` had issued, `n` bytes long; records that end within the body are gone. -/
def skipLoop (e : Word64) (n : Nat) (c : Ctl) : Ctl :=
  let live := c.loops.filter fun r => !(decide (c.pc.toNat < r.stop.toNat) && decide (r.stop.toNat < e.toNat))
  let r := endCheck e (e + n64 n) live
  { c with loops := r.1, pc := r.2 }

/-- R184: a hardware loop with its end word `i` granules on. A count of zero goes on as if the end word had issued, whose length is
read only where the slot goes on after it; where its granules cannot be fetched, this word traps or waits and issues again (log entry 76,
DESIGN CHOICE). -/
def startLoop (count : Word64) (i : BitVec 14) (s : State) : State :=
  let g := s.issue.gid
  let c := (slotAt s g).ctl
  let e := c.pc + n64 (2 * i.toNat)
  if count = 0 then
    if (skipLoop e 0 c).pc = (skipLoop e 2 c).pc then issued g (modCtl g (skipLoop e 0) s)
    else match fetchLength s g e with
      | .word gs => issued g (modCtl g (skipLoop e (2 * wordNeed gs)) s)
      | .stop (.trap t) => fault t s
      | .stop (.page va) => codePark va s
      | .stop (.miss line) => park g (.fetch line) s
      | .stop (.ok _) => s
  else
    issued g (modCtl g (fun c => { c with loops := { start := c.npc, stop := e, count := count } :: c.loops, pc := c.npc }) s)

def execLoop (a : SReg) (i : BitVec 14) (s : State) : Res :=
  guardedWord (.loop a i) (loopFault i) (fun x s => startLoop (sGet x a) i s) s
def execLoopi (c : BitVec 10) (i : BitVec 14) (s : State) : Res :=
  guardedWord (.loopi c i) (loopFault i) (fun _ s => startLoop (n64 c.toNat) i s) s

/-! ### Deques (R187, R190 to R194) -/

/-- The capacity DEQBASE names (R194). -/
def deqCap (c : Core) : Nat := bits c.deqbase 32 13

/-- R193: a push, or nothing where the deque is full. The deque lists its tasks oldest first; a spill into an empty area begins at entry
`start` (log entry 20, DESIGN CHOICE). -/
def pushDeque (start : Nat) (t : Task) (c : Core) : Option Core :=
  let hard := c.deque.length - c.area
  if hard < 64 then some { c with deque := c.deque ++ [t] }
  else if c.area + 32 ≤ deqCap c then
    some { c with deque := c.deque ++ [t], area := c.area + 32, areaAt := if c.area = 0 then start % deqCap c else c.areaAt }
  else none

/-- R193: an area entry of 64 bytes. -/
def taskBytes (t : Task) : List Byte :=
  leBytes 8 t.pc.toNat ++ leBytes 8 t.ctr.toNat ++ t.args.toList.flatMap (fun w => leBytes 8 w.toNat) ++ List.replicate 16 0

/-- R193: the 32 tasks that core `q` has just moved to its spill area are written there, after the push. -/
def writeSpill (q : CoreKey) (clock : Nat) (s : State) : State :=
  let c := coreAt s q
  (List.range 32).foldl (fun s i =>
    match c.deque[c.area - 32 + i]? with
    | some t =>
      let off := bits c.deqbase 6 13 * 64 + 64 * ((c.areaAt + (c.area - 32 + i)) % deqCap c)
      modCell (q / 4) (fun x => { x with stash := putBytes x.stash off (taskBytes t) })
        ((List.range 8).foldl (fun s k => stampLine clock (stashLoc (q / 4) (off + 8 * k)) s) s)
    | none => s) s

/-- R193: the newest task, for a slot of the core. -/
def popNewest (c : Core) : Option (Task × Core) :=
  match c.deque.reverse with
  | [] => none
  | t :: r =>
    let hard := c.deque.length - c.area - 1
    some (t, { c with deque := r.reverse, area := if hard = 0 then c.area - min 32 c.area else c.area })

/-- R193: the oldest task, for a thief. -/
def popOldest (c : Core) : Option (Task × Core) :=
  match c.deque with
  | [] => none
  | t :: r => some (t, { c with deque := r, area := c.area - 1, areaAt := if c.area = 0 then c.areaAt else (c.areaAt + 1) % deqCap c })

/-- The distance of two cells along the curve (R190). -/
def hDist (a b : CellKey) : Nat := let x := hilbert a; let y := hilbert b; if x ≤ y then y - x else x - y

/-- A cell put into a list ordered by distance, then by Hilbert index (R190). -/
def insertCell (own c : CellKey) (l : List CellKey) : List CellKey :=
  match l with
  | [] => [c]
  | d :: r =>
    if hDist own c < hDist own d ∨ (hDist own c = hDist own d ∧ hilbert c < hilbert d) then c :: d :: r
    else d :: insertCell own c r

/-- R190: the other cells of a sector, nearest first. -/
def sectorCells (own : CellKey) : List CellKey :=
  (((List.range 256).filter fun c => sectorOf c == sectorOf own && c != own)).foldl (fun l c => insertCell own c l) []

/-- R190: the cores in search order seen from a core: its own, those of its cell, those of its sector. -/
def searchOrder (c : CoreKey) : List CoreKey :=
  [c] ++ ([1, 2, 3].map fun k => c / 4 * 4 + (c + k) % 4) ++
  (sectorCells (c / 4)).flatMap fun d => [4 * d, 4 * d + 1, 4 * d + 2, 4 * d + 3]

/-- R190: whether a slot of core `c` may take tasks of core `d`: one grid, and a cell of the partition. -/
def mayTake (s : State) (c d : CoreKey) : Bool :=
  match (coreAt s c).block, (coreAt s d).block with
  | some b, some e => b.grid == e.grid && b.asid == e.asid && (c / 4 == d / 4 || inPart s b.asid (d / 4))
  | _, _ => false

/-- R191: a slot takes a task. -/
def startTask (g : SlotKey) (t : Task) (s : State) : State :=
  raiseClock g t.clock (modSlot g (fun x =>
    let x := [(3, t.ctr), (4, t.args[0]), (5, t.args[1]), (6, t.args[2]), (7, t.args[3])].foldl
      (fun x (q : Nat × Word64) => sSet ⟨q.1 % 32, Nat.mod_lt _ (by decide)⟩ q.2 x) x
    { x with ctl := { x.ctl with st := .running, wait := .none, loops := [], pc := t.pc } }) s)

/-- R190: an idle slot takes the first task it finds. -/
def lookForTask (g : SlotKey) (s : State) : State :=
  let c := coreOf g
  match (searchOrder c).find? fun d => mayTake s c d && !(coreAt s d).deque.isEmpty with
  | none => s
  | some d =>
    match (if d = c then popNewest (coreAt s d) else popOldest (coreAt s d)) with
    | some (t, k) => startTask g t { s with cores := tput s.cores d k }
    | none => s

/-- A slot that has become idle looks for a task (R189, R190). -/
def seekTask (g : SlotKey) (s : State) : State := if (slotAt s g).ctl.st = .idle then lookForTask g s else s

/-- R190: after a push onto a core, the first idle slot that may take a task looks. -/
def wakeIdle (c : CoreKey) (s : State) : State :=
  let cands := ((searchOrder c).filter fun d => mayTake s d c).flatMap slotsOfCore
  match cands.find? fun g => (slotAt s g).ctl.st == .idle with
  | some g => lookForTask g s
  | none => s

/-- R187: FORK's push of the task at W + 2 · disp. -/
def forkTask (x : Slot) (a : SReg) (i : BitVec 14) (s : State) : State :=
  let g := s.issue.gid
  let t : Task :=
    { pc := x.ctl.pc + (i.signExtend 64 <<< 1), ctr := sGet x a,
      args := #v[sGet x 4, sGet x 5, sGet x 6, sGet x 7], asid := x.ctl.asid,
      grid := (match (coreAt s (coreOf g)).block with | some b => b.grid | none => 0), clock := x.lclk }
  let old := coreAt s (coreOf g)
  match pushDeque (Config.areaStart s.fresh) t old with
  | none => fault (fQueue 1) s
  | some c =>
    let s := { s with cores := tput s.cores (coreOf g) c, fresh := s.fresh + 1 }
    wakeIdle (coreOf g) (complete g (if old.area < c.area then writeSpill (coreOf g) x.lclk s else s))

def execFork (a : SReg) (i : BitVec 14) (s : State) : Res :=
  word (.fork a i) (fun x s => afterVmem (.fork a i) (forkTask x a i) s) s

/-- R189: a slot becomes idle and looks for a task. -/
def goIdle (g : SlotKey) (s : State) : State :=
  lookForTask g (modCtl g (fun c => { c with st := .idle, wait := .none, loops := [], pc := c.npc }) s)

/-- R189: a keeper never idles. -/
def execIdle (s : State) : Res :=
  .next (if isKeeper s.issue.gid then fault (fPriv 0) s else goIdle s.issue.gid (issued s.issue.gid s))

/-! ### The checks of atomics (R325) -/

/-- The faults that the place of an atomic gives (R325). -/
def placeFault (va : Word64) (p : Place) : Option TrapInfo :=
  match p with
  | .host _ => some (fPage 5 va)
  | .view _ => some (fFormat 1 va)
  | _ => none

/-- The same, and POISON where the line is poisoned when it is taken (R339). -/
def atomicFault (s : State) (va : Word64) (p : Place) : Option TrapInfo :=
  match placeFault va p with
  | some t => some t
  | none => if poisoned s p 1 then some (fSlice 2 va) else none

/-! ### DONE, the keeper's reap and retirement (R130, R195 to R197) -/

/-- A failure record passed to the block when its slot is freed (R334). -/
def passFail (g : SlotKey) (s : State) : State :=
  match (slotAt s g).pfail with
  | some f => modCore (coreOf g) (fun c => { c with passed := c.passed ++ [f] }) s
  | none => s

/-- An ended slot becomes free (R130). -/
def freeSlot (g : SlotKey) (s : State) : State :=
  modSlot g (fun x => { x with
    ctl := { x.ctl with st := .free, wait := .none, epoch := x.ctl.epoch + 1 }, pfail := none, posted := 0, bsaccs := [],
    win := { base := 0, size := 0 } }) (passFail g s)

/-- The other started slots of a core. -/
def started (s : State) (c : CoreKey) : List SlotKey :=
  (slotsOfCore c).filter fun g => !isKeeper g && (slotAt s g).ctl.st != .free

/-- R130: what a keeper's SREAP waits for: every started slot, or one. -/
def reapTargets (s : State) (c : CoreKey) (sel : Nat) : List SlotKey :=
  if sel = 0 then started s c else [16 * c + sel]

/-- R130: whether a keeper's SREAP may go on. -/
def reapReady (s : State) (c : CoreKey) (sel : Nat) : Bool :=
  (reapTargets s c sel).all fun g => (slotAt s g).ctl.st == .ended

/-- R130: the value of an SREAP that may go on, and its slots freed. -/
def reap (c : CoreKey) (sel : Nat) (s : State) : Word64 × State :=
  let ts := reapTargets s c sel
  let v := if sel = 0 then n64 ts.length else sGet (slotAt s (16 * c + sel)) 4
  (v, ts.foldl (fun s g => freeSlot g s) s)

/-- A keeper that waits in SREAP goes on once its slots have ended (R130, R195); one that is spilled looks when it is restored
(R372). -/
def reapCheck (c : CoreKey) (s : State) : State :=
  let k := 16 * c
  match (slotAt s k).ctl.wait with
  | .reap d sel =>
    if (slotAt s k).ctl.st ≠ .spilled ∧ reapReady s c sel = true then
      let (v, s) := reap c sel s
      finish k (modSlot k (sSet d v) s)
    else s
  | _ => s

/-- R196, R366: a slot ends; its s4 stays for SREAP, its shadow goes. -/
def endSlot (g : SlotKey) (s : State) : State :=
  let s := leaveResv g s
  reapCheck (coreOf g) (modSlot g (fun x => { x with
    trap := { x.trap with cause := x.trap.cause &&& ~~~(0x800 : Word64) }
    ctl := { x.ctl with st := .ended, wait := .none, loops := [] } }) s)

/-- Whether a message is a posted operation whose requester meets a condition. -/
def isPosted (m : Msg) (p : Req → Bool) : Bool :=
  match m with
  | .atomic q none _ _ => p q
  | _ => false

/-- R197, R213: nothing of the block is still to be performed: posted operations, copies, and work of the wide unit. -/
def blockDrained (s : State) (c : CoreKey) : Bool :=
  !(s.net.any fun m => isPosted m.2 fun q => coreOf q.gid == c && (coreAt s c).block.any (·.id == q.blk)) &&
  !((coreAt s c).chans.any fun q => q.2.cur.isSome) &&
  (coreAt s c).queue.isEmpty &&
  !(s.net.any fun m => match m.2 with | .reply r => r.op.isSome && coreOf r.gid == c | _ => false) &&
  !((cellAt s (c / 4)).mx.any fun m => coreOf m.gid == c && m.remote.isNone)

/-- R334: one failure report of the keeper's own record and those passed to its block. -/
def blockFailure (s : State) (g : SlotKey) : Option PostedFail :=
  match (slotAt s g).pfail.toList ++ (coreAt s (coreOf g)).passed with
  | [] => none
  | f :: r => some { f with count := min 0xFFFFFFFF (r.foldl (fun n q => n + q.count) f.count) }

/-- A recorded failure of posted operations as a deferred trap (R334). -/
def failTrap (f : PostedFail) : TrapInfo := { code := f.code, status := f.status, addr := f.addr, deferred := true }

/-- R197: the keeper's DONE once the drain is over: a recorded failure traps, otherwise the block retires. -/
def retire (g : SlotKey) (s : State) : State :=
  let c := coreOf g
  let s := noteBegun c s
  match blockFailure s g with
  | some f =>
    takeTrap g (failTrap f) (slotAt s g).ctl.pc
      (modCore c (fun x => { x with passed := [] }) (modSlot g (fun x => { x with pfail := none }) s))
  | none =>
    let grid := (coreAt s c).block.map (·.grid)
    let s := releaseCore c (leaveResv g s)
    let s := modSlot g (fun x => { x with
      trap := { x.trap with cause := x.trap.cause &&& ~~~(0x800 : Word64) }
      ctl := { x.ctl with st := .free, wait := .none, loops := [], epoch := x.ctl.epoch + 1 }
      win := { base := 0, size := 0 }, bsaccs := [] }) s
    match grid with
    | some k => modGrid k (fun y => { y with finished := y.finished + 1 }) s
    | none => s

/-- R196, R197. -/
def execDone (s : State) : Res :=
  let g := s.issue.gid
  .next (
    if isKeeper g = false then endSlot g (issued g s)
    else if (started s (coreOf g)).isEmpty = false then fault (fPriv 0) s
    else if blockDrained s (coreOf g) then retire g (issued g s)
    else parkIssued g (.drain .done) s)

/-! ### Instruction fence, posted operations, traps -/

/-- Whether a store of the slot is still on its way to its home. -/
def storesFly (s : State) (g : SlotKey) : Bool :=
  s.net.any fun m => match m.2 with | .store q _ _ => q.gid == g | .remoteStore h _ _ => h == g | _ => false

/-- Whether a store of the slot to the host (true) or to a peer (false) is still on its way (R318). -/
def remoteFly (s : State) (g : SlotKey) (host : Bool) : Bool :=
  s.net.any fun m => match m.2 with | .remoteStore h pa _ => h == g && (regionOf pa == .host) == host | _ => false

/-- R139: the fetch buffer is discarded. -/
def dropBuffer (g : SlotKey) (s : State) : State := modCtl g (fun c => { c with buf := [] }) s

/-- R139. -/
def execIfence (s : State) : Res :=
  let g := s.issue.gid
  .next (if storesFly s g ∨ vmemPending s g then parkIssued g .ifence s else complete g (dropBuffer g s))

/-- R333, R334: AMOW once the count is 0. -/
def amowEnd (g : SlotKey) (fin : State → State) (s : State) : State :=
  match (slotAt s g).pfail with
  | some f => takeTrap g (failTrap f) (slotAt s g).ctl.pc (modSlot g (fun x => { x with pfail := none }) s)
  | none => fin s

/-- R333. -/
def execAmow (s : State) : Res :=
  let g := s.issue.gid
  .next (if (slotAt s g).posted = 0 then amowEnd g (complete g) s else parkIssued g (.drain .amow) s)

/-- R364: a trap that the program asks for. TRAPPC is N, with R185 applied (R362). -/
def askedTrap (t : TrapInfo) (s : State) : State :=
  let g := s.issue.gid
  let s := complete g s
  takeTrap g t (slotAt s g).ctl.pc s

def execTrap (c : BitVec 14) (s : State) : Res := .next (askedTrap { code := 14, detail := c.toNat } s)

/-- R364. Its F.ILL comes after the guard: outside a handler a TRET whose guard is false has no effect (R42; log entry 75, DEDUCED). -/
def execTret (s : State) : Res :=
  let g := s.issue.gid
  .next (if inTrap (slotAt s g) then issued g (modSlot g trapReturn s) else fault fIll s)

/-- R365. -/
def execBrk (s : State) : Res :=
  let g := s.issue.gid
  .next (match ctxOf s g with
    | some c =>
      if c.attached then modCtl g (fun c => { c with st := .halted, under := .running }) (complete g s)
      else askedTrap { code := 15 } s
    | none => askedTrap { code := 15 } s)

/-! ### Handles (R198, R207, R208) -/

/-- Where a handle leads: the entry of the code it names, with the bytes RINFO reports (R198, R208). -/
def handleEntry (s : State) (a : Nat) (h : Word64) : Option (Word64 × Word64) :=
  match ctxAt s a with
  | none => none
  | some c =>
    if bit h 63 ∨ hAsid h ≠ a then none
    else if hTmpl h then
      (c.tmpls.find? fun t => t.off == hOff h && t.gen == hGen h).map fun t =>
        (n64 (c.rcd.cstore + 64 * t.off), n64 (t.bytes % 2 ^ 32 + 2 ^ 62))
    else
      (c.resids.find? fun r => r.off == hOff h && r.gen == hGen h).map fun r =>
        (n64 (c.rcd.rva + 64 * r.off), n64 (r.bytes % 2 ^ 32 + r.info % 2 ^ 16 * 2 ^ 32))

/-- The number of the block a slot belongs to; 0 for none. -/
def blkOf (s : State) (g : SlotKey) : Nat := match (coreAt s (coreOf g)).block with | some b => b.id | none => 0

/-- A slot as a requester. -/
def reqFor (s : State) (g : SlotKey) (va : Word64) : Req :=
  let x := slotAt s g
  { gid := g, epoch := x.ctl.epoch, blk := blkOf s g, asid := x.ctl.asid, priv := privileged s g, va := va, clock := x.lclk }

/-- The issuing slot as a requester. -/
def reqOf (s : State) (va : Word64) : Req := reqFor s s.issue.gid va

/-- A word whose work is done by a unit elsewhere: at once, or once it has got there, with the slot parked until then (R198, R207, R208,
R258, R260; log entry 4, DESIGN CHOICE). -/
def onVisit (i : Instr) (k : State → State) (s : State) : State :=
  if s.fly = true ∧ (slotAt s s.issue.gid).ctl.caught = none then parkAccess i .visit (send (.visit (reqOf s 0)) s) else k s

/-- The work of a slot's word has not got to its unit. -/
def visiting (s : State) (g : SlotKey) : Bool :=
  s.net.any fun m => match m.2 with | .visit q => q.gid == g && q.epoch == (slotAt s g).ctl.epoch | _ => false

/-- R198. -/
def execCallh (a : SReg) (s : State) : Res :=
  word (.callh a) (fun x => onVisit (.callh a) fun s =>
    match handleEntry s x.ctl.asid (sGet x a) with
    | some (t, _) => jump (some 31) t s
    | none => fault (fHandle 1 (sGet x a)) s) s

/-- R207. -/
def execRfree (a : SReg) (s : State) : Res :=
  word (.rfree a) (fun x => onVisit (.rfree a) fun s =>
    let h := sGet x a
    match handleEntry s x.ctl.asid h, residualOf s h with
    | some _, some r => if hTmpl h then fault (fHandle 2 h) s else skip (freeResidual x.ctl.asid r s)
    | _, _ => fault (fHandle 2 h) s) s

/-- R208. -/
def execRinfo (d a : SReg) (s : State) : Res :=
  word (.rinfo d a) (fun x => onVisit (.rinfo d a) fun s =>
    putS d (match handleEntry s x.ctl.asid (sGet x a) with | some (_, i) => i | none => w64 (-1)) s) s

/-- R199: SPEC captures its operands and SPECLIM, owes sD, and goes on. -/
def execSpec (d a b : SReg) (s : State) : Res :=
  word (.spec d a b) (fun x s => afterVmem (.spec d a b) (fun s =>
    let lim := match ctxAt s x.ctl.asid with | some c => c.speclim | none => 0
    skip (setPres s.issue.gid (.s d) .owed (send (.spec (reqOf s 0) d (sGet x a) (sGet x b) lim) s))) s) s

end Sys2Proof.Machine
end

