-- ==== Sys2Proof/Machine/Creg.lean ====
section
/-! DEFINITION. Control registers (R155 to R157, R125, R127, R194, R203, R308), presence (R153, R154), vector windows (R150,
R423) and format-window registers (R271, R272, R275). -/

namespace Sys2Proof.Machine

/-! ### Presence -/

/-- R153: a designator outside the window, or a tile the slot does not hold, raises F.WINDOW. -/
def desigFault (i : Instr) (s : State) : Option TrapInfo :=
  let g := s.issue.gid
  if (vfields i).any (fun n => decide ((slotAt s g).win.size ≤ n)) ∨
     (tileFields i).any (fun n => !holds (cellAt s (cellOf g)).thold n g) then some fWindow
  else none

/-- R153. -/
def execPres (p : GReg) (k : Desig) (s : State) : Res :=
  guardedWord (.pres p k) (desigFault (.pres p k)) (fun _ s => putP p (presOf s s.issue.gid k == .full) s) s

/-- R154, R212: DROP waits while the register is owed or a queued operation still reads it. -/
def execDrop (k : Desig) (s : State) : Res :=
  match desigFault (.drop k) s with
  | some t => .next (fault t s)
  | none => .next (whenReady [] [k] (fun s => skip (setPres s.issue.gid k .empty s)) s)

/-! ### Reading (R155 to R157) -/

/-- The cells of a context's partition in force (R124). -/
def partCells (s : State) (a : Nat) : List CellKey := (List.range 256).filter fun c => inPart s a c

/-- The weight of a cell (R126). -/
def weight (s : State) (c : CellKey) : Nat := 124 + (cellAt s c).live

/-- CELLXY (R157). -/
def cellXY (c : CellKey) : Nat :=
  cellX c + cellY c * 2 ^ 4 + hilbert c * 2 ^ 8 + sectorOf c * 2 ^ 16 + dieOf c * 2 ^ 19 + sliceOf c * 2 ^ 21

/-- VWIN (R157). -/
def vwinWord (w : Window) : Nat := w.base + w.size * 2 ^ 16

/-- SPEEDTAB (R127). -/
def speedTab (s : State) (g : SlotKey) : Nat :=
  let c := cellAt s (cellOf g)
  let a := (slotAt s g).ctl.asid
  let cs := partCells s a
  c.live + c.tested * 2 ^ 8 + (cs.map (weight s)).sum * 2 ^ 16 + cs.length * 2 ^ 32

/-- SPECLIM at reset (R203). -/
def speclimReset : Word64 := n64 (4096 + 4194304 * 2 ^ 16 + 4096 * 2 ^ 40)

/-- A field of the slot's context, or its reset value where the slot runs in none. -/
def ctxField (s : State) (g : SlotKey) (f : Ctx → Nat) (d : Nat) : Nat :=
  match ctxOf s g with
  | some c => f c
  | none => d

/-- The value CGET reads (R155, R156). -/
def cregValue (s : State) (g : SlotKey) (n : Nat) : Word64 :=
  let x := slotAt s g
  match n with
  | 0x000 => 4
  | 0x001 => n64 (slotNo g + coreNo g * 2 ^ 4)
  | 0x002 => n64 (cellXY (cellOf g))
  | 0x003 => n64 x.ctl.asid
  | 0x004 => n64 (vwinWord x.win)
  | 0x010 => n64 x.lclk
  | 0x011 => n64 (ctxField s g (·.llease) 256)
  | 0x012 => x.waitlim
  | 0x013 => n64 (speedTab s g)
  | 0x014 => (coreAt s (coreOf g)).deqbase
  | 0x015 => n64 (ctxField s g (·.speclim.toNat) speclimReset.toNat)
  | 0x020 => x.trap.vec
  | 0x021 => x.trap.cause
  | 0x022 => x.trap.addr
  | 0x023 => x.trap.pc
  | 0x030 => n64 (ctxField s g (·.part.base) 0)
  | 0x031 => n64 (ctxField s g (·.part.len) 256)
  | m => if m % 8 = 5 then 0 else (tfind s.fwin (128 * sectorOf (cellOf g) + (m - 0x100))).getD 0

/-- Whether a control register is RW-priv (R156). -/
def cregPriv (n : Nat) : Bool := n == 0x011 || n == 0x030 || n == 0x031 || decide (0x100 ≤ n)

/-- R10, R155: an unlisted number is F.ILL; an RW-priv register is closed to unprivileged code. -/
def cregFault (n : Nat) (s : State) : Option TrapInfo :=
  if cregListed n = false then some fIll
  else if cregPriv n && !privileged s s.issue.gid then some (fPriv 0)
  else none

def execCget (d : SReg) (n : BitVec 14) (s : State) : Res :=
  guardedWord (.cget d n) (cregFault n.toNat) (fun _ s => putS d (cregValue s s.issue.gid n.toNat) s) s

/-! ### Writing -/

/-- The slot-scope registers that CSET writes (R348, R360); every other number here is read-only, and the write is ignored
(R10). -/
def writeCreg (n : Nat) (v : Word64) (x : Slot) : Slot :=
  match n with
  | 0x012 => { x with waitlim := v &&& 0xFFFFFFFF }
  | 0x020 => { x with trap := { x.trap with vec := v &&& ~~~(1 : Word64) } }
  | 0x023 => { x with trap := { x.trap with pc := v &&& ~~~(1 : Word64) } }
  | _ => x

def execCset (a : SReg) (n : BitVec 14) (s : State) : Res :=
  guardedWord (.cset a n) (cregFault n.toNat)
    (fun x s => skip (modSlot s.issue.gid (writeCreg n.toNat (sGet x a)) s)) s

/-- R308: the lease length, saturated to 16 to 4,096. -/
def execCsetLlease (a : SReg) (s : State) : Res :=
  guardedWord (.csetLlease a) (cregFault 0x011)
    (fun x s => skip (modCtx x.ctl.asid (fun c => { c with llease := min 4096 (max 16 (bits (sGet x a) 0 13)) }) s)) s

/-- SPECLIM with each field saturated (R203). -/
def satSpeclim (v : Word64) : Word64 :=
  n64 (min 4096 (max 1 (bits v 0 13)) + min 4194304 (max 1 (bits v 16 23)) * 2 ^ 16 + min 4096 (bits v 40 13) * 2 ^ 40)

def execCsetSpeclim (a : SReg) (s : State) : Res :=
  guardedWord (.csetSpeclim a) (cregFault 0x015)
    (fun x s => skip (modCtx x.ctl.asid (fun c => { c with speclim := satSpeclim (sGet x a) }) s)) s

/-- DEQBASE written (R194). -/
def setDeqbase (g : SlotKey) (v : Word64) (s : State) : State :=
  modCore (coreOf g) (fun c => { c with deqbase := v &&& n64 (0x1FFF * 2 ^ 6 + 0x1FFF * 2 ^ 32) }) s

/-- R194. -/
def execCsetDeqbase (a : SReg) (s : State) : Res :=
  guardedWord (.csetDeqbase a) (cregFault 0x014) (fun x s =>
    let g := s.issue.gid
    let v := sGet x a
    if tenantStash s (cellOf g) < bits v 6 13 * 64 + bits v 32 13 * 64 then fault (fPage 6 v) s
    else if 0 < (coreAt s (coreOf g)).area then fault (fQueue 2) s
    else skip (setDeqbase g v s)) s

/-! ### Vector windows (R150, R423) -/

/-- The pool ranges of a cell in use or reserved: base and size. -/
def poolTaken (s : State) (c : CellKey) : List (Nat × Nat) :=
  ((List.range 64).filterMap fun k =>
    let x := slotAt s (64 * c + k)
    if x.ctl.st = .free ∨ (x.ctl.st = .spilled ∧ x.ctl.req.spill = false) ∨ x.win.size = 0 then none else some (x.win.base, x.win.size)) ++
  (List.range 4).flatMap fun k =>
    match (coreAt s (4 * c + k)).block with
    | some b => if b.vwin = 0 then [] else b.resv.map fun r => (r, b.vwin)
    | none => []

/-- The lowest aligned base of a window that meets no taken range (R423). -/
def freeBase (taken : List (Nat × Nat)) (size : Nat) : Option Nat :=
  ((List.range (1024 / size)).map (· * size)).find? fun b =>
    taken.all fun t => decide (b + size ≤ t.1) || decide (t.1 + t.2 ≤ b)

/-- The window a resize takes: the reservation for the block's own size, else a free one (R423). -/
def windowFor (s : State) (g : SlotKey) (size : Nat) : Option Nat :=
  if size = 0 then some 0
  else match (coreAt s (coreOf g)).block with
    | some b => if b.vwin = size then b.resv[slotNo g]? else freeBase (poolTaken s (cellOf g)) size
    | none => freeBase (poolTaken s (cellOf g)) size

/-- Whether a slot has operations that have not completed: queued, or with a result on its way (R150). -/
def opsPending (s : State) (g : SlotKey) : Bool :=
  (coreAt s (coreOf g)).queue.any (·.gid == g) ||
  s.net.any (fun m => match m.2 with | .reply r => r.op.isSome && r.gid == g | _ => false) ||
  (cellAt s (cellOf g)).mx.any fun m => m.gid == g && m.remote.isNone

/-- Whether a bank of a slot's cell is awake (R378). -/
def bankAwake (s : State) (c : CellKey) (base : Nat) : Bool :=
  !(cellAt s c).retained.contains (base / 32) && !(cellAt s c).waking.contains (base / 32)

/-- R150: the slot moves to a window: v0 to v(m − 1) keep their values and presence, the others are zero and full. -/
def moveWindow (g : SlotKey) (base size : Nat) (s : State) : State :=
  let old := (slotAt s g).win
  let m := min old.size size
  let vals := (List.range size).map fun k => if k < m then vGet s g k else 0
  let s := modSlot g (fun x => { x with
    win := { base := base, size := size }
    regs := { x.regs with vp := Vector.ofFn fun k => if k.val < m then x.regs.vp[k.val] else .full } }) s
  (List.range size).foldl (fun s k => vPut g k ((vals[k]?).getD 0) s) s

/-- R150: a resize that can take effect now. -/
def tryResize (g : SlotKey) (size : Nat) (s : State) : Option State :=
  if opsPending s g then none
  else match windowFor s g size with
    | some b => if size = 0 ∨ bankAwake s (cellOf g) b then some (moveWindow g b size s) else none
    | none => none

/-- R150: CSET of VWIN. An unchanged size has no effect; a valid request completes when its window is there. -/
def execCsetVwin (a : SReg) (s : State) : Res :=
  guardedWord (.csetVwin a) (cregFault 0x004) (fun x s =>
    let size := bits (sGet x a) 16 6
    if size ≠ 0 ∧ size ≠ 8 ∧ size ≠ 16 ∧ size ≠ 32 then fault fWindow s
    else if size = x.win.size then skip s
    else match tryResize s.issue.gid size s with
      | some s => skip s
      | none => parkIssued s.issue.gid (.resize size) s) s

/-! ### Format windows (R271, R272, R275) -/

/-- The bits of each window word that a write keeps (R271). -/
def fwinMask (k : Nat) : Word64 :=
  match k with
  | 0 => 0xFF
  | 1 => n64 ((2 ^ 45 - 1) * 2 ^ 7)
  | 2 => n64 (2 ^ 24 - 1 + (2 ^ 24 - 1) * 2 ^ 32)
  | 3 => n64 ((2 ^ 48 - 1) * 2 ^ 4)
  | 4 => n64 (2 ^ 52 - 1)
  | _ => 0

/-- A word of window `n` of a sector. -/
def fwinWord (s : State) (sec n k : Nat) : Word64 := (tfind s.fwin (128 * sec + 8 * n + k)).getD 0

/-- The view's size in bytes (R271). -/
def viewLen (s : State) (sec n : Nat) : Nat := bits (fwinWord s sec n 2) 0 24 * bits (fwinWord s sec n 2) 32 24

/-- R272: the conditions of enabling window `n` with word 0 = `v`. -/
def windowOk (s : State) (sec n : Nat) (v : Word64) : Bool :=
  let fmt := bits v 1 3
  let blk := bits v 6 2
  let out := bits v 5 1
  let bl := if blk = 0 then 32 else 64
  let rows := bits (fwinWord s sec n 2) 0 24
  let cols := bits (fwinWord s sec n 2) 32 24
  let base := bits (fwinWord s sec n 1) 7 45 * 128
  let len := rows * cols
  let bb := match fmt with | 0 => 16 | 2 => bl | _ => bl / 2
  let store := bits (fwinWord s sec n 3) 4 48 * 16
  let slen := len / bl * bb
  decide (fmt < 4) && decide (blk < 2) && (fmt != 0 || blk == 1) && (fmt != 2 || out == 0) &&
  decide (1 ≤ rows) && decide (1 ≤ cols) && decide (len % 128 = 0) &&
  (if bit v 4 then decide (rows % bl = 0) else decide (cols % bl = 0)) &&
  decide (0x020000000000 + sec * 0x1000000000 ≤ base) &&
  decide (base + len ≤ 0x020000000000 + (sec + 1) * 0x1000000000) &&
  ((List.range 16).all fun m =>
    m == n || !bit (fwinWord s sec m 0) 0 ||
    let b := bits (fwinWord s sec m 1) 7 45 * 128
    decide (base + len ≤ b) || decide (b + viewLen s sec m ≤ base)) &&
  decide (sec * 0xC00000000 ≤ store) && decide (store + slen ≤ (sec + 1) * 0xC00000000)

/-- A window word stored. -/
def setFwin (sec n k : Nat) (v : Word64) (s : State) : State :=
  { s with fwin := tput s.fwin (128 * sec + 8 * n + k) (v &&& fwinMask k) }

/-- A window word written from outside under the same conditions: a refused enabling leaves EN = 0, another refused
write changes nothing. -/
def writeFwin (sec n k : Nat) (v : Word64) (s : State) : State :=
  if k = 0 then (if bit v 0 ∧ windowOk s sec n v = false then setFwin sec n 0 (fwinWord s sec n 0 &&& ~~~(1 : Word64)) s
    else setFwin sec n 0 v s)
  else if 5 ≤ k ∨ bit (fwinWord s sec n 0) 0 then s
  else setFwin sec n k v s

/-- R272: word 0: enabling checks the whole configuration; a refused one leaves EN = 0. -/
def execFwinWord0Write (a : SReg) (n : Fin 16) (s : State) : Res :=
  guardedWord (.fwinWord0Write a n) (cregFault (0x100 + 8 * n.val)) (fun x s =>
    let sec := sectorOf (cellOf s.issue.gid)
    let v := sGet x a
    if bit v 0 ∧ windowOk s sec n.val v = false then
      fault (fFormat 2 0) (setFwin sec n.val 0 (fwinWord s sec n.val 0 &&& ~~~(1 : Word64)) s)
    else skip (setFwin sec n.val 0 v s)) s

/-- R272: words 1 to 4 are closed while EN = 1; words 6 and 7 are reserved, and the write is ignored (R11). -/
def execFwinConfigWrite (a : SReg) (n : Fin 16) (k : Fin 8) (s : State) : Res :=
  guardedWord (.fwinConfigWrite a n k) (cregFault (0x100 + 8 * n.val + k.val)) (fun x s =>
    let sec := sectorOf (cellOf s.issue.gid)
    if k.val ≤ 4 ∧ bit (fwinWord s sec n.val 0) 0 then fault (fFormat 2 0) s
    else skip (if k.val ≤ 4 then setFwin sec n.val k.val (sGet x a) s else s)) s

/-- R275: a write of word 5 starts the invalidation of the view's lines; the slot goes on. -/
def execInval (a : SReg) (n : Fin 16) (s : State) : Res :=
  guardedWord (.inval a n) (cregFault (0x105 + 8 * n.val))
    (fun _ s => skip (send (.inval s.issue.gid (sectorOf (cellOf s.issue.gid)) n.val) s)) s

end Sys2Proof.Machine
end

