-- ==== Sys2Proof/Machine/Slots.lean ====
section
/-! DEFINITION. Starting, reaping and reading slots (R129 to R131), dealer queues (R132 to R136), and launching, cancelling and
polling grids as the slot sees it (R99, R110, R113). -/

namespace Sys2Proof.Machine

/-! ### Slots of a core (R129 to R131) -/

/-- R42 step 4: a rule on the issuing slot itself: only the keeper may. -/
def keeperOnly (s : State) : Option TrapInfo := if isKeeper s.issue.gid then none else some (fPriv 0)

/-- The registers of a slot that starts (R102, R129): zeros, full, with s4 to s7 and s8 as given. -/
def startRegs (a : Vector Word64 4) (s8 : Word64) : Regs :=
  { Regs.reset with s := ((((Regs.reset.s.set 4 a[0]).set 5 a[1]).set 6 a[2]).set 7 a[3]).set 8 s8 }

/-- A bank is woken: a window starts in it (R150, R378). -/
def wakeBank (c : CellKey) (bank : Nat) (s : State) : State :=
  modCell c (fun x => { x with retained := sdel x.retained bank, waking := sdel x.waking bank }) s

/-- A slot takes a window of zeros (R129, R423). -/
def zeroWindow (g : SlotKey) (base size : Nat) (s : State) : State :=
  let s := modSlot g (fun x => { x with win := { base := base, size := size } }) s
  (List.range size).foldl (fun s k => vPut g k 0 s) (if size = 0 then s else wakeBank (cellOf g) (base / 32) s)

/-- A slot starts at an entry, in its reserved window (R102, R129). -/
def startSlot (g : SlotKey) (pc : Word64) (r : Regs) (a : Nat) (size : Nat) (clock : Nat) (s : State) : State :=
  let base := match (coreAt s (coreOf g)).block with | some b => (b.resv[slotNo g]?).getD 0 | none => 0
  zeroWindow g base size (modSlot g (fun x => { x with
    ctl := { Slot.reset.ctl with st := .running, pc := pc, npc := pc, epoch := 2 * s.nextId + 2, asid := a }
    regs := r, lclk := max x.lclk clock, posted := 0, pfail := none, bsaccs := [], inbox := [], renew := [] })
    { s with nextId := s.nextId + 1 })

/-- R129: SSTART with its operands. -/
def sstart (x : Slot) (av bv : Word64) (s : State) : State :=
  let g := s.issue.gid
  let n := bits av 0 4
  let k := coreOf g * 16 + n
  match (coreAt s (coreOf g)).block with
  | none => fault (fPriv 0) s
  | some b =>
    if bits av 4 60 ≠ 0 ∨ n = 0 ∨ b.slots ≤ n ∨ (slotAt s k).ctl.st ≠ .free then fault (fPriv 0) s
    else if bit bv 0 then fault (fAlign bv) s
    else
      let r := startRegs #v[sGet x 4, sGet x 5, sGet x 6, sGet x 7] (n64 n)
      skip (modSlot k (fun y => { y with trap := { y.trap with vec := x.trap.vec }, waitlim := x.waitlim })
        (startSlot k bv r x.ctl.asid b.vwin x.lclk s))

def execSstart (a b : SReg) (s : State) : Res :=
  guardedWord (.sstart a b) keeperOnly (fun x s => sstart x (sGet x a) (sGet x b) s) s

/-- R130. -/
def execSreap (d a : SReg) (s : State) : Res :=
  guardedWord (.sreap d a) keeperOnly (fun x s =>
    let g := s.issue.gid
    let c := coreOf g
    let n := (sGet x a).toNat
    if 15 < n then fault (fPriv 0) s
    else if n ≠ 0 ∧ (slotAt s (16 * c + n)).ctl.st = .free then putS d (w64 (-1)) s
    else if reapReady s c n then
      let r := reap c n s
      putS d r.1 r.2
    else parkIssued g (.reap d n) s) s

/-- The code of a slot state (R142). -/
def SlotSt.code : SlotSt → Nat
  | .free => 0 | .running => 1 | .parked => 2 | .idle => 3 | .spilled => 4 | .halted => 5 | .ended => 6

/-- The code of a park reason (R143). -/
def Wait.code : Wait → Nat
  | .none => 0
  | .vmem | .posted _ | .visit | .away _ | .reply | .release _ _ | .ifence | .join _ => 1
  | .presence _ _ => 2
  | .queue => 3
  | .fetch _ => 4
  | .page _ | .codePage _ => 5
  | .bank _ _ | .resize _ => 6
  | .reap _ _ => 7
  | .channel .. => 8
  | .copy _ _ _ => 9
  | .fullempty _ => 10
  | .reserve _ _ => 11
  | .barrier _ _ _ => 12
  | .operand _ => 13
  | .sequencer _ _ _ _ => 14
  | .drain _ => 15

/-- The state that SSTAT reports: a slot that is stopped for a spill becomes SPILLED once it is saved (R370). -/
def Ctl.shown (c : Ctl) : SlotSt :=
  if c.st = .spilled ∧ c.req.spill = true then (if c.held then .halted else c.under) else c.st

/-- R131. -/
def execSstat (d a : SReg) (s : State) : Res :=
  word (.sstat d a) (fun x s =>
    let v := sGet x a
    if bits v 4 60 ≠ 0 then fault (fPriv 0) s
    else
      let y := slotAt s (coreOf s.issue.gid * 16 + bits v 0 4)
      putS d (n64 (y.ctl.shown.code + (if y.ctl.shown = .parked then y.ctl.wait.code * 256 else 0))) s) s

/-! ### Dealer queues (R132 to R136) -/

/-- The summed weight of a context's cells that take part: a cell that has not joined does not count (R126, R136, R374). -/
def partWeight (s : State) (a : Nat) : Nat :=
  (((partCells s a).filter fun c => (cellAt s c).joined).map (weight s)).sum

/-- The length of a range (R136): a quarter of the asker's share, at least the grain, at most what remains. -/
def rangeLen (r g w total : Nat) : Nat := min r (min 8388607 (max g (ceilDiv (r * w) (4 * total))))

/-- Whether a request's fields obey R132. -/
def dealerWellAsked (ask : Word64) : Bool :=
  match bits ask 6 2 with
  | 0 | 2 => bits ask 8 56 == 0
  | 1 => true
  | _ => false

/-- R133, R136: a queue serves a request from a cell of weight `w`; its answer and its state afterwards. -/
def dealerStep (q : DealQ) (ask : Word64) (w total : Nat) : Word64 × DealQ :=
  if dealerWellAsked ask = false then (w64 (-3), q)
  else match bits ask 6 2 with
    | 0 =>
      if q.set = false then (w64 (-2), q)
      else if q.r = 0 then (w64 (-1), q)
      else
        let l := rangeLen q.r q.g w total
        (n64 (q.b + l * 2 ^ 40), { q with b := q.b + l, r := q.r - l })
    | 1 =>
      if q.set ∧ q.r ≠ 0 then (w64 (-4), q)
      else (0, { set := true, b := 0, r := bits ask 8 40, g := max 1 (bits ask 48 16) })
    | _ => (if q.set then n64 q.r else w64 (-2), q)

/-- A queue that nobody has set (R133). -/
def DealQ.unset : DealQ := { set := false, b := 0, r := 0, g := 1 }

/-- The home dealer serves a request from a cell (R133, R136). -/
def dealerServe (a : Nat) (cell : CellKey) (ask : Word64) (s : State) : Word64 × State :=
  match ctxAt s a with
  | none => (w64 (-3), s)
  | some c =>
    let n := bits ask 0 6
    let r := dealerStep ((tfind c.dealq n).getD DealQ.unset) ask (weight s cell) (max 1 (partWeight s a))
    (r.1, modCtx a (fun c => { c with dealq := tput c.dealq n r.2 }) s)

/-- R132: TNEXT asks the home dealer. Where requests travel, the slot parks until the answer comes. -/
def execTnext (d a : SReg) (s : State) : Res :=
  word (.tnext d a) (fun x s =>
    let g := s.issue.gid
    if s.fly then
      parkIssued g .reply (setPres g (.s d) .owed (send (.dealer (reqOf s 0) d (sGet x a)) s))
    else
      let r := dealerServe x.ctl.asid (cellOf g) (sGet x a) s
      putS d r.1 r.2) s

/-! ### Grids (R99, R110, R113) -/

/-- The engine work of a slot that a release waits for (R99, R318): copies that have not completed. -/
def copiesPending (s : State) (g : SlotKey) : Bool :=
  (coreAt s (coreOf g)).chans.any fun c =>
    match c.2.cur with
    | some q => q.gid == g && q.epoch == (slotAt s g).ctl.epoch
    | none => false

/-- Whether LAUNCH's release can be made (R99), as a FENCE.pod drains (R318) but for format views: stores on their way to peers count, those
on their way to the host do not. -/
def releaseReady (s : State) (g : SlotKey) : Bool :=
  (slotAt s g).posted == 0 && !vmemPending s g && !copiesPending s g && !remoteFly s g false

/-- The request of LAUNCH goes to the root dispatcher and sD is owed (R99). -/
def sendLaunch (g : SlotKey) (d : SReg) (desc : Word64) (s : State) : State :=
  setPres g (.s d) .owed (send (.launch (reqFor s g desc) d desc) s)

/-- R99. -/
def execLaunch (d a : SReg) (s : State) : Res :=
  word (.launch d a) (fun x s =>
    let g := s.issue.gid
    let v := sGet x a
    if v.toNat % 64 ≠ 0 then fault (fAlign v) s
    else if releaseReady s g then skip (sendLaunch g d v s)
    else parkIssued g (.release d v) s) s

/-- The fields of a grid identifier (R101). -/
def gridGen (v : Word64) : Nat := bits v 32 16
def gridRoot (v : Word64) : Nat := bits v 23 9
def gridRec (v : Word64) : Nat := bits v 0 10

/-- Whether a value has the form of a grid identifier (R101). -/
def gridForm (v : Word64) : Bool := bits v 48 16 == 0 && bits v 10 13 == 0

/-- GCANCEL: the cancel sets out for the grid's root and the slot goes on (R110). -/
def gcancel (kill : Bool) (x : Slot) (v : Word64) (s : State) : State :=
  skip (if gridForm v ∧ gridRoot v = s.boot.device then
      send (.cancel x.ctl.asid (gridRec v) (gridGen v) kill) s
    else s)

def execGcancelDrain (a : SReg) (s : State) : Res :=
  word (.gcancelDrain a) (fun x s => gcancel false x (sGet x a) s) s
def execGcancelKill (a : SReg) (s : State) : Res :=
  word (.gcancelKill a) (fun x s => gcancel true x (sGet x a) s) s

/-- The answer of the root of this device (R113). -/
def gridState (s : State) (a : Nat) (v : Word64) : Word64 :=
  match tfind s.grids (gridRec v) with
  | some g =>
    if gridForm v ∧ g.gen = gridGen v ∧ g.asid = a then
      n64 (g.phase + min 0xFFFFFFFF (g.finished + g.killed) * 2 ^ 32)
    else 4
  | none => 4

/-- GSTAT's answer by the root. Of a grid whose root is another device it is a free value within the fields of R113 (log entry 12,
DESIGN CHOICE). -/
def askRoot (a : Nat) (v : Word64) (s : State) : Word64 × State :=
  if gridForm v ∧ gridRoot v ≠ s.boot.device then
    let r := Config.peerGrid s.fresh v
    (n64 (r % 5 + r / 5 % 2 ^ 32 * 2 ^ 32), { s with fresh := s.fresh + 1 })
  else (gridState s a v, s)

/-- R113. -/
def execGstat (d a : SReg) (s : State) : Res :=
  word (.gstat d a) (fun x s =>
    let v := sGet x a
    if s.fly then parkIssued s.issue.gid .reply (send (.gstat (reqOf s 0) d v) s)
    else
      let r := askRoot x.ctl.asid v s
      putS d r.1 r.2) s

end Sys2Proof.Machine
end

