-- ==== Sys2Proof/Machine/Channels.lean ====
section
/-! DEFINITION. Channel rings: CHSEND, CHRECV and CHCTL (R116 to R122). -/

namespace Sys2Proof.Machine

/-- The absolute coordinate address of a stash byte (R177, R244). -/
def stashAddr (c : CellKey) (off : Nat) : Word64 :=
  n64 (0xFF * 2 ^ 56 + cellX c * 2 ^ 40 + cellY c * 2 ^ 32 + off)

/-- The size of a ring. -/
def Ring.size (r : Ring) : Nat := 2 ^ r.log2

/-- A difference of two byte counters (R116). -/
def ringDiff (x y : Nat) : Nat := (x + 2 ^ 32 - y) % 2 ^ 32

/-- The stash offset of ring byte `k`. -/
def Ring.at (r : Ring) (k : Nat) : Nat := r.off + k % r.size

/-- The channel of a context. -/
def ringOf (s : State) (a ch : Nat) : Option Ring :=
  match ctxAt s a with
  | some c => tfind c.rings ch
  | none => none

/-- A channel changed. -/
def setRing (a ch : Nat) (r : Ring) (s : State) : State := modCtx a (fun c => { c with rings := tput c.rings ch r }) s

/-- Whether the full/empty tag of a stash word is full (R257). -/
def tagAt (s : State) (c : CellKey) (off : Nat) : Bool := (cellAt s c).tags.contains (off / 8)

/-- A tag set. -/
def setTag (c : CellKey) (off : Nat) (on : Bool) (s : State) : State :=
  modCell c (fun x => { x with tags := if on then sadd x.tags (off / 8) else sdel x.tags (off / 8) }) s

/-! ### The FIFOs of full/empty words (R346, R347) -/

/-- The two FIFOs of a word: full-waiters and empty-waiters. -/
def feqOf (s : State) (loc : Nat) : List FeReq × List FeReq := (tfind (cellAt s (locCell loc)).feq loc).getD ([], [])

/-- The FIFOs of a word set. -/
def setFeq (loc : Nat) (f : List FeReq × List FeReq) (s : State) : State :=
  modCell (locCell loc) (fun c => { c with feq := if f.1 = [] ∧ f.2 = [] then tdel c.feq loc else tput c.feq loc f }) s

/-- A waiter of a full/empty word served: its word completes. -/
def feGrant (r : FeReq) (ws : List RegWrite) (clock : Nat) (s : State) : State :=
  send (.reply { gid := r.gid, epoch := r.epoch, writes := ws, ends := true, clock := clock }) s

/-- One service: the head of a FIFO takes its turn, if the tag lets it (R347); a load of a poisoned word fails (R408). -/
def serveOne (loc : Nat) (s : State) : Option State :=
  let cell := locCell loc
  let off := locOff loc
  let f := feqOf s loc
  if tagAt s cell off then
    match f.1 with
    | [] => none
    | r :: rest =>
      let s := setFeq loc (rest, f.2) s
      if s.mem.poison.contains (loc / 128) then some (send (.reply { gid := r.gid, epoch := r.epoch, fault := some (fPage 2 r.v) }) s)
      else
        let ts := max (r.clock + 1) (stamps s loc).1
        let lease := match ownerOf s r.gid r.epoch with | some x => leaseOf s x.2.ctl.asid | none => 1
        let s := setStamps loc ((stamps s loc).1, max (stamps s loc).2 (ts + lease - 1)) s
        let s := if r.op = 0 then setTag cell off false s else s
        some (feGrant r [.s r.d (read64 s loc)] ts s)
  else
    match f.2 with
    | [] => none
    | r :: rest =>
      let ts := max r.clock (stamps s loc).2 + 1
      let s := setStamps loc (ts, ts) (write64 loc r.v s)
      some (feGrant r [] ts (setTag cell off true (setFeq loc (f.1, rest) s)))

/-- The FIFOs of a word served until nothing more is (R347). -/
def serveFeq (fuel loc : Nat) (s : State) : State :=
  match fuel with
  | 0 => s
  | k + 1 => match serveOne loc s with | some s => serveFeq k loc s | none => s

/-- A tag set and the FIFOs served (R347). -/
def retag (loc : Nat) (on : Bool) (s : State) : State :=
  let s := setTag (locCell loc) (locOff loc) on s
  serveFeq ((feqOf s loc).1.length + (feqOf s loc).2.length) loc s

/-! ### CHSEND, CHRECV and CHCTL -/

/-- The channel an operand names: bits [63:10] must be zero (R117). -/
def chanOf (s : State) (a : Nat) (v : Word64) : Option Ring :=
  if bits v 10 54 ≠ 0 then none else ringOf s a (bits v 0 10)

/-- A message header (R116). -/
def headerOf (s : State) (r : Ring) (q : Nat) : Nat := leNat (getBytes (cellAt s r.cell).stash (r.at q) 8)

/-- The tag of a ring position. -/
def ringTag (s : State) (r : Ring) (q : Nat) : Bool := tagAt s r.cell (r.at q)

/-- A pad's header written at a position, and its tag filled (R118). -/
def writePad (g : SlotKey) (r : Ring) (pos pad : Nat) (s : State) : State :=
  let off := r.at pos
  retag (stashLoc r.cell off) true (storeAt g (.stash r.cell off) (leBytes 8 (pad + 2 ^ 16)) s)

/-- A word that works on a ring waits while the context's state is not at the ring's cell (R373). -/
def ringHere (i : Instr) (a : Nat) (r : Ring) (k : State → State) (s : State) : State :=
  if isAway s a r.cell then parkAccess i (.away r.cell) s else k s

/-- R118: where a CHSEND of `n` bytes stands in an ACTIVE ring: the ring, with both indices moved where an empty ring jumps, the
position, and the pad before the message. -/
def sendPlan (n : Nat) (r : Ring) : Ring × Nat × Nat :=
  let pos := r.widx % r.size
  if r.whole = true ∧ r.size < pos + n then
    if r.widx = r.ridx then
      let w := (r.widx + (r.size - pos)) % 2 ^ 32
      ({ r with widx := w, ridx := w }, 0, 0)
    else (r, pos, r.size - pos)
  else (r, pos, 0)

/-- R118: whether the message fits now. -/
def sendFits (n : Nat) (r : Ring) : Bool :=
  let p := sendPlan n r
  decide (ringDiff p.1.widx p.1.ridx + p.2.2 + n ≤ r.allow)

/-- R118: a reservation of `n` bytes in an ACTIVE ring. -/
def chsendAt (d : SReg) (a ch n : Nat) (r : Ring) (s : State) : State :=
  let g := s.issue.gid
  if sendFits n r then
    let (r, pos, pad) := sendPlan n r
    let s := if 0 < pad then writePad g r pos pad s else s
    let s := setRing a ch { r with widx := (r.widx + pad + n) % 2 ^ 32 } s
    putS d (stashAddr r.cell (r.at (pos + pad))) s
  else park g (.channel ch true n) s

/-- R118. -/
def execChsend (d a b : SReg) (s : State) : Res :=
  word (.chsend d a b) (fun x => afterVmem (.chsend d a b) fun s =>
    let v := sGet x a
    let n := (sGet x b).toNat
    match chanOf s x.ctl.asid v with
    | none => putS d (w64 (-4)) s
    | some r =>
      if n < 8 ∨ n % 8 ≠ 0 ∨ r.allow < n then fault fRing s
      else if r.st = 1 then putS d (w64 (-1)) s
      else if r.st = 2 then putS d (w64 (-2)) s
      else ringHere (.chsend d a b) x.ctl.asid r (chsendAt d x.ctl.asid (bits v 0 10) n r) s) s

/-- Whether a header gives a valid length at a position (R119). -/
def validLen (r : Ring) (q h : Nat) : Bool :=
  let l := field h 0 16
  decide (8 ≤ l) && decide (l % 8 = 0) && decide (l ≤ ringDiff r.widx q)

/-- R119: full pads skipped: the position after them, and how many headers that has read. -/
def skipPads (s : State) (r : Ring) (fuel q : Nat) : Nat × Nat :=
  match fuel with
  | 0 => (q, 0)
  | k + 1 =>
    let h := headerOf s r q
    if q ≠ r.widx ∧ ringTag s r q = true ∧ field h 16 1 = 1 ∧ validLen r q h = true then
      let p := skipPads s r k ((q + field h 0 16) % 2 ^ 32)
      (p.1, p.2 + 1)
    else (q, 0)

/-- R119: where a CHRECV after a message of `n` bytes looks for the next one, with the headers it reads on the way. -/
def recvFrom (s : State) (r : Ring) (n : Nat) : Nat × Nat := skipPads s r (r.size / 8 + 1) ((r.ridx + n) % 2 ^ 32)

/-- The tags of [from, to) emptied, and the words' FIFOs served (R347). -/
def emptyTags (r : Ring) (from' dest : Nat) (s : State) : State :=
  (List.range (ringDiff dest from' / 8)).foldl (fun s k => retag (stashLoc r.cell (r.at (from' + 8 * k))) false s) s

/-- RIDX moved, with the tags it passes emptied. -/
def moveRidx (a ch : Nat) (r : Ring) (q : Nat) (s : State) : State :=
  setRing a ch { r with ridx := q } (emptyTags r r.ridx q s)

/-- A ring moved to a state; its waiters look again (R121, `ringReady`). -/
def moveState (a ch : Nat) (r : Ring) (st : Nat) (s : State) : State := setRing a ch { r with st := st } s

/-- Headers of a ring read by a slot; remote ones are counted (R379). -/
def noteHeaders (g : SlotKey) (r : Ring) (n : Nat) (s : State) : State :=
  if r.cell = cellOf g then s else countUnit r.cell (slotAt s g).ctl.asid 5 n s

/-- R119: a receive of a ring that is not in ERROR, after the previous message of `n` bytes. -/
def chrecvAt (d : SReg) (a ch n : Nat) (r : Ring) (s : State) : State :=
  let g := s.issue.gid
  let (q, pads) := recvFrom s r n
  if q = r.widx ∧ r.st = 2 then putS d (w64 (-2)) (moveRidx a ch r q (noteHeaders g r pads s))
  else if q ≠ r.widx ∧ ringTag s r q = true then
    let s := moveRidx a ch r q (stampLoad g (stashLoc r.cell (r.at q)) (noteHeaders g r (pads + 1) s))
    if validLen r q (headerOf s r q) then putS d (stashAddr r.cell (r.at q)) s
    else putS d (w64 (-1)) (moveState a ch { r with ridx := q } 1 s)
  else park g (.channel ch false n) s

/-- Whether the wait of a CHSEND or CHRECV is over: the word, issued again, would not park (R118, R119). -/
def ringReady (s : State) (a ch : Nat) (send : Bool) (n : Nat) : Bool :=
  match ringOf s a ch with
  | none => true
  | some r =>
    !isAway s a r.cell &&
    if r.st = 1 then true
    else if send then r.st == 2 || sendFits n r
    else
      let q := (recvFrom s r n).1
      decide (ringDiff r.widx r.ridx < n) || (if q = r.widx then r.st == 2 else ringTag s r q)

/-- R119. -/
def execChrecv (d a b : SReg) (s : State) : Res :=
  word (.chrecv d a b) (fun x => afterVmem (.chrecv d a b) fun s =>
    let v := sGet x a
    let n := (sGet x b).toNat
    match chanOf s x.ctl.asid v with
    | none => putS d (w64 (-4)) s
    | some r =>
      if n % 8 ≠ 0 ∨ ringDiff r.widx r.ridx < n then putS d (w64 (-6)) s
      else if r.st = 1 then putS d (w64 (-1)) s
      else ringHere (.chrecv d a b) x.ctl.asid r (chrecvAt d x.ctl.asid (bits v 0 10) n r) s) s

/-- R121: whether a ring may go from one state to another. -/
def stateMove (old new : Nat) : Bool := new < 3 && (old == new || !(old == 2 && new == 0))

/-- R120: one operation of CHCTL on a channel: its result and what it changes. -/
def chctlOp (op a ch : Nat) (r : Ring) (v : Word64) (s : State) : Word64 × State :=
  match op with
  | 0 => (n64 (r.st + r.whole.toNat * 4 + r.log2 * 2 ^ 8 + r.allow * 2 ^ 32), s)
  | 1 =>
    let st := bits v 0 2
    if stateMove r.st st = false then (w64 (-3), s)
    else if st = r.st then (n64 r.st, s)
    else (n64 r.st, moveState a ch r st s)
  | 2 => (n64 r.widx, s)
  | 3 => (n64 r.ridx, s)
  | 4 =>
    let n := bits v 0 32
    if r.st ≠ 1 ∨ bits v 32 32 ≠ 0 ∨ n % 8 ≠ 0 ∨ ringDiff r.widx r.ridx < ringDiff n r.ridx then (w64 (-5), s)
    else (0, moveRidx a ch r n s)
  | _ => (stashAddr r.cell r.off, s)

/-- R120: CHCTL: the operation stands in sA[15:12]. -/
def chctl (i : Instr) (d : SReg) (v w : Word64) (a : Nat) (s : State) : State :=
  if bits v 10 2 ≠ 0 ∨ bits v 16 48 ≠ 0 then putS d (w64 (-3)) s
  else match ringOf s a (bits v 0 10) with
    | none => putS d (w64 (-4)) s
    | some r =>
      if 5 < bits v 12 4 then putS d (w64 (-3)) s
      else ringHere i a r (fun s =>
        let q := chctlOp (bits v 12 4) a (bits v 0 10) r w s
        putS d q.1 q.2) s

/-- The six rows of CHCTL share one word; its operation is in a register (R120). -/
def execGetstate (d a b : SReg) (s : State) : Res :=
  word (.getstate d a b) (fun x s => afterVmem (.getstate d a b) (chctl (.getstate d a b) d (sGet x a) (sGet x b) x.ctl.asid) s) s
def execSetstate (d a b : SReg) (s : State) : Res :=
  word (.setstate d a b) (fun x s => afterVmem (.setstate d a b) (chctl (.setstate d a b) d (sGet x a) (sGet x b) x.ctl.asid) s) s
def execGetwidx (d a b : SReg) (s : State) : Res :=
  word (.getwidx d a b) (fun x s => afterVmem (.getwidx d a b) (chctl (.getwidx d a b) d (sGet x a) (sGet x b) x.ctl.asid) s) s
def execGetridx (d a b : SReg) (s : State) : Res :=
  word (.getridx d a b) (fun x s => afterVmem (.getridx d a b) (chctl (.getridx d a b) d (sGet x a) (sGet x b) x.ctl.asid) s) s
def execSetridx (d a b : SReg) (s : State) : Res :=
  word (.setridx d a b) (fun x s => afterVmem (.setridx d a b) (chctl (.setridx d a b) d (sGet x a) (sGet x b) x.ctl.asid) s) s
def execGetbase (d a b : SReg) (s : State) : Res :=
  word (.getbase d a b) (fun x s => afterVmem (.getbase d a b) (chctl (.getbase d a b) d (sGet x a) (sGet x b) x.ctl.asid) s) s

end Sys2Proof.Machine
end

