-- ==== Sys2Proof/Machine/Float.lean ====
section
/-! DEFINITION. Number formats (R216, R217), rounding and overflow (R219, R220), the arithmetic functions on one element (R226,
R227, R231, R288, R289, R292) and conversions (R233). A finite value is exact: a sign, a natural number and a power of two. -/

namespace Sys2Proof.Machine

/-- A floating-point layout (R216). -/
structure Fmt where
  eb   : Nat
  fb   : Nat
  bias : Nat
  inf  : Bool
  nan  : Bool
deriving DecidableEq, Repr

/-- The layouts of R216. -/
def fmtOf : Ty → Fmt
  | .h16 => ⟨5, 10, 15, true, true⟩
  | .bf16 | .bf16x2 => ⟨8, 7, 127, true, true⟩
  | .f64 => ⟨11, 52, 1023, true, true⟩
  | .e4m3 => ⟨4, 3, 7, false, true⟩
  | .e5m2 => ⟨5, 2, 15, true, true⟩
  | .e2m1 => ⟨2, 1, 1, false, false⟩
  | _ => ⟨8, 23, 127, true, true⟩

/-- The width of a layout. -/
def Fmt.width (f : Fmt) : Nat := 1 + f.eb + f.fb

/-- A number that a floating-point pattern means. -/
inductive FV where
  | nan
  | inf (neg : Bool)
  /-- (−1)^neg · m · 2^e; m = 0 is a signed zero. -/
  | fin (neg : Bool) (m : Nat) (e : Int)
deriving DecidableEq, Repr

/-- The value of a pattern (R216). -/
def unpack (f : Fmt) (v : Nat) : FV :=
  let fr := field v 0 f.fb
  let ex := field v f.fb f.eb
  let neg := field v (f.fb + f.eb) 1 == 1
  if ex = 2 ^ f.eb - 1 ∧ f.inf then (if fr = 0 then .inf neg else .nan)
  else if f.inf = false ∧ f.nan ∧ ex = 2 ^ f.eb - 1 ∧ fr = 2 ^ f.fb - 1 then .nan
  else if ex = 0 then .fin neg fr (1 - (f.bias : Int) - f.fb)
  else .fin neg (2 ^ f.fb + fr) ((ex : Int) - f.bias - f.fb)

/-- The canonical NaN (R217); +0 in e2m1, which has none (R233). -/
def nanBits (f : Fmt) : Nat :=
  if f.nan = false then 0
  else if f.inf then (2 ^ f.eb - 1) * 2 ^ f.fb + 2 ^ (f.fb - 1)
  else (2 ^ f.eb - 1) * 2 ^ f.fb + (2 ^ f.fb - 1)

/-- The pattern of an infinity. -/
def infBits (f : Fmt) (neg : Bool) : Nat := neg.toNat * 2 ^ (f.fb + f.eb) + (2 ^ f.eb - 1) * 2 ^ f.fb

/-- The pattern of the largest finite value M (R216). -/
def maxBits (f : Fmt) (neg : Bool) : Nat :=
  neg.toNat * 2 ^ (f.fb + f.eb) +
    (if f.inf then (2 ^ f.eb - 1) * 2 ^ f.fb - 1 else if f.nan then 2 ^ (f.fb + f.eb) - 2 else 2 ^ (f.fb + f.eb) - 1)

/-- m · 2^−k rounded to an integer, for a magnitude with its sign (R219). -/
def roundShift (rm : Rm) (neg : Bool) (m k : Nat) : Nat :=
  let q := m / 2 ^ k
  let r := m % 2 ^ k
  let up : Bool :=
    match rm with
    | .rne => decide (2 ^ k < 2 * r) || (decide (2 * r = 2 ^ k) && q % 2 == 1)
    | .rtz => false
    | .rdn => neg && r != 0
    | .rup => !neg && r != 0
  if up ∧ r ≠ 0 then q + 1 else q

/-- R220: what lies beyond the largest finite value. -/
def overflow (f : Fmt) (rm : Rm) (sat neg : Bool) : Nat :=
  if sat ∨ f.inf = false then maxBits f neg
  else match rm with
    | .rne => infBits f neg
    | .rtz => maxBits f neg
    | .rdn => if neg then infBits f neg else maxBits f neg
    | .rup => if neg then maxBits f neg else infBits f neg

/-- A nonzero exact value rounded into a layout (R219, R220). -/
def roundFin (f : Fmt) (rm : Rm) (sat neg : Bool) (m : Nat) (e : Int) : Nat :=
  let sgnBit := neg.toNat * 2 ^ (f.fb + f.eb)
  let top := e + (bitLen m : Nat) - 1
  let q := max (top - f.fb) (1 - (f.bias : Int) - f.fb)
  let n := if q ≤ e then m * 2 ^ (e - q).toNat else roundShift rm neg m (q - e).toNat
  -- n ≤ 2^(fb + 1); the sum below carries into the exponent field where n reaches it
  let code := if n < 2 ^ f.fb then n else (q + f.bias + f.fb).toNat * 2 ^ f.fb + (n - 2 ^ f.fb)
  if maxBits f false < code then overflow f rm sat neg else sgnBit + code

/-- A value put into a layout: rnd(x, F), with NaNs canonical. -/
def pack (f : Fmt) (rm : Rm) (sat : Bool) : FV → Nat
  | .nan => nanBits f
  | .inf neg => if sat ∨ f.inf = false then maxBits f neg else infBits f neg
  | .fin neg m e => if m = 0 then neg.toNat * 2 ^ (f.fb + f.eb) else roundFin f rm sat neg m e

/-! ### Exact arithmetic (R219: IEEE 754-2019 zeros, infinities and NaNs) -/

/-- A signed integer of a finite value at a common power of two. -/
def scaled (neg : Bool) (m : Nat) (e lo : Int) : Int :=
  let v : Int := (m * 2 ^ (e - lo).toNat : Nat)
  if neg then -v else v

/-- An exact sum; an exact zero of opposite signs is +0, or −0 under roundDown. -/
def fvAdd (rm : Rm) (a b : FV) : FV :=
  match a, b with
  | .nan, _ | _, .nan => .nan
  | .inf x, .inf y => if x = y then .inf x else .nan
  | .inf x, _ | _, .inf x => .inf x
  | .fin x m e, .fin y n k =>
    let lo := min e k
    let t := scaled x m e lo + scaled y n k lo
    if t = 0 then .fin (if x = y then x else rm == .rdn) 0 lo
    else .fin (decide (t < 0)) t.natAbs lo

/-- The negated value. -/
def fvNeg : FV → FV
  | .nan => .nan
  | .inf x => .inf (!x)
  | .fin x m e => .fin (!x) m e

/-- An exact product. -/
def fvMul (a b : FV) : FV :=
  match a, b with
  | .nan, _ | _, .nan => .nan
  | .inf x, .inf y => .inf (x != y)
  | .inf x, .fin y m _ | .fin y m _, .inf x => if m = 0 then .nan else .inf (x != y)
  | .fin x m e, .fin y n k => .fin (x != y) (m * n) (e + k)

/-- A quotient, exact for every rounding of up to 64 bits: 130 more bits and a sticky one. -/
def fvDiv (a b : FV) : FV :=
  match a, b with
  | .nan, _ | _, .nan => .nan
  | .inf _, .inf _ => .nan
  | .inf x, .fin y _ _ => .inf (x != y)
  | .fin x _ _, .inf y => .fin (x != y) 0 0
  | .fin x m e, .fin y n k =>
    if n = 0 then (if m = 0 then .nan else .inf (x != y))
    else if m = 0 then .fin (x != y) 0 0
    else
      let sh := 130 + bitLen n
      let q := m * 2 ^ sh / n
      let r := if m * 2 ^ sh % n = 0 then 0 else 1
      .fin (x != y) (2 * q + r) (e - k - sh - 1)

/-- A square root, exact for every rounding of up to 64 bits. -/
def fvSqrt (a : FV) : FV :=
  match a with
  | .nan => .nan
  | .inf x => if x then .nan else .inf false
  | .fin x m e =>
    if m = 0 then .fin x 0 0
    else if x then .nan
    else
      let odd := (e % 2).toNat
      let w := m * 2 ^ (odd + 260)
      let r := isqrt w
      let st := if r * r = w then 0 else 1
      .fin false (2 * r + st) ((e - odd - 260) / 2 - 1)

/-- Less than, and less or equal, of numbers: false with a NaN. -/
def fvCmp (a b : FV) : Option Ordering :=
  match a, b with
  | .nan, _ | _, .nan => none
  | .inf x, .inf y => some (if x = y then .eq else if x then .lt else .gt)
  | .inf x, _ => some (if x then .lt else .gt)
  | _, .inf y => some (if y then .gt else .lt)
  | .fin x m e, .fin y n k => let lo := min e k; some (compare (scaled x m e lo) (scaled y n k lo))

/-- The sign of a value. -/
def fvNegative : FV → Bool
  | .nan => false
  | .inf x => x
  | .fin x _ _ => x

/-- IEEE 754-2019 minimumNumber on patterns of one layout: −0 below +0, a NaN gives way to a number (R226). -/
def minNumber (f : Fmt) (a b : Nat) : Nat :=
  let x := unpack f a
  let y := unpack f b
  match fvCmp x y with
  | none => if x = .nan then (if y = .nan then nanBits f else b) else a
  | some .lt => a
  | some .gt => b
  | some .eq => if fvNegative x then a else b

/-- IEEE 754-2019 maximumNumber (R226). -/
def maxNumber (f : Fmt) (a b : Nat) : Nat :=
  let x := unpack f a
  let y := unpack f b
  match fvCmp x y with
  | none => if x = .nan then (if y = .nan then nanBits f else b) else a
  | some .lt => b
  | some .gt => a
  | some .eq => if fvNegative x then b else a

/-- rnd(a + b), on patterns. -/
def fAdd (f : Fmt) (rm : Rm) (a b : Nat) : Nat := pack f rm false (fvAdd rm (unpack f a) (unpack f b))
/-- rnd(a − b), on patterns. -/
def fSub (f : Fmt) (rm : Rm) (a b : Nat) : Nat := pack f rm false (fvAdd rm (unpack f a) (fvNeg (unpack f b)))
/-- rnd(a × b), on patterns. -/
def fMul (f : Fmt) (rm : Rm) (a b : Nat) : Nat := pack f rm false (fvMul (unpack f a) (unpack f b))
/-- rnd(a / b), on patterns. -/
def fDiv (f : Fmt) (rm : Rm) (a b : Nat) : Nat := pack f rm false (fvDiv (unpack f a) (unpack f b))
/-- rnd(√a), on patterns. -/
def fSqrt (f : Fmt) (rm : Rm) (a : Nat) : Nat := pack f rm false (fvSqrt (unpack f a))
/-- rnd(±(a × b) ± c) with one rounding (R226). -/
def fFma (f : Fmt) (rm : Rm) (negP negC : Bool) (a b c : Nat) : Nat :=
  let p := fvMul (unpack f a) (unpack f b)
  let q := unpack f c
  pack f rm false (fvAdd rm (if negP then fvNeg p else p) (if negC then fvNeg q else q))

/-! ### Integers -/

/-- An element read as its integer type. -/
def intOf (t : Ty) (v : Nat) : Int := if t.isSigned then sgn t.width v else (v % 2 ^ t.width : Nat)

/-- saturateTo(x, T) as a pattern (R219). -/
def satInt (t : Ty) (x : Int) : Nat :=
  let lo : Int := if t.isSigned then -(2 ^ (t.width - 1) : Nat) else 0
  let hi : Int := if t.isSigned then (2 ^ (t.width - 1) : Nat) - 1 else (2 ^ t.width : Nat) - 1
  wrap t.width (max lo (min hi x))

/-- rnd(x) to an integer (R219). -/
def rndInt (rm : Rm) (neg : Bool) (m : Nat) (e : Int) : Int :=
  let n : Int := (if 0 ≤ e then m * 2 ^ e.toNat else roundShift rm neg m (-e).toNat : Nat)
  if neg then -n else n

/-! ### Conversion (R233) -/

/-- A float as an integer element: saturated; a NaN gives 0. -/
def floatToInt (td : Ty) (rm : Rm) : FV → Nat
  | .nan => 0
  | .inf neg => satInt td (if neg then -(2 ^ 80 : Nat) else (2 ^ 80 : Nat))
  | .fin neg m e => satInt td (rndInt rm neg m e)

/-- An integer as an exact value. -/
def fvOfInt (x : Int) : FV := .fin (decide (x < 0)) x.natAbs 0

/-- One element of type `ts` as an element of type `td` (R233). -/
def convert (td ts : Ty) (rm : Rm) (sat : Bool) (v : Nat) : Nat :=
  if ts.isInt then
    let x := intOf ts v
    if td.isInt then (if sat ∧ td.width < ts.width then satInt td x else wrap td.width x)
    else pack (fmtOf td) rm sat (fvOfInt x)
  else
    let x := unpack (fmtOf ts) v
    if td.isInt then floatToInt td rm x else pack (fmtOf td) rm sat x

/-! ### The approximations (R227) -/

/-- 2^(f / 2^128) in units of 2^−128, bit by bit of f from the highest on: `r` is 2^(2^−i), `acc` the product so far. -/
def exp2Bits (fuel f r acc : Nat) : Nat :=
  match fuel with
  | 0 => acc
  | k + 1 =>
    let r := isqrt (r * 2 ^ 128)
    exp2Bits k f r (if f.testBit k then acc * r / 2 ^ 128 else acc)

/-- log2 of t / 2^256, for 1 ≤ t / 2^256 < 2, in units of 2^−fuel beyond `acc`, bit by bit by squaring. -/
def log2Bits (fuel t acc : Nat) : Nat :=
  match fuel with
  | 0 => acc
  | k + 1 =>
    let t := t * t / 2 ^ 256
    if 2 ^ 257 ≤ t then log2Bits k (t / 2) (2 * acc + 1) else log2Bits k t (2 * acc)

/-- 2^x, with a relative error below 2^−110; a result far outside every format is cut off. -/
def fvExp2 (x : FV) : FV :=
  match x with
  | .fin n m e =>
    let v : Int := if -128 ≤ e then scaled n m e (-128) else Int.fdiv (if n then -(m : Int) else m) (2 ^ (-128 - e).toNat : Nat)
    let k := Int.fdiv v (2 ^ 128)
    .fin false (exp2Bits 128 (Int.fmod v (2 ^ 128)).toNat (2 ^ 129) (2 ^ 128)) (max (-5000) (min 5000 k) - 128)
  | x => x

/-- log2 x of a positive number, with an absolute error below 2^−100. -/
def fvLog2 (x : FV) : FV :=
  match x with
  | .fin _ m e =>
    let l := bitLen m
    let v : Int := (e + (l : Int) - 1) * 2 ^ 110 + (log2Bits 110 (m * 2 ^ 257 / 2 ^ l) 0 : Nat)
    .fin (decide (v < 0)) v.natAbs (-110)
  | x => x

/-- The functions of R227, to far more bits than its bounds. -/
def approxExact (op : Nat) (x : FV) : FV :=
  match op with
  | 0 => fvDiv (.fin false 1 0) x
  | 1 => fvDiv (.fin false 1 0) (fvSqrt x)
  | 2 => fvExp2 x
  | _ => fvLog2 x

/-- Whether a finite positive value is a power of two, and its exponent. -/
def pow2Of (x : FV) : Option Int :=
  match x with
  | .fin _ m e => if m ≠ 0 ∧ m = 2 ^ m.log2 then some (e + (m.log2 : Nat)) else none
  | _ => none

/-- The special inputs of R227, whose results are exact: the result for them. -/
def approxSpecial (op : Nat) (x : FV) : Option FV :=
  match op, x with
  | _, .nan => some .nan
  | 0, .inf n => some (.fin n 0 0)
  | 0, .fin n m _ =>
    if m = 0 then some (.inf n) else (pow2Of x).map fun k => .fin n 1 (-k)
  | 1, .inf n => some (if n then .nan else .fin false 0 0)
  | 1, .fin n m _ =>
    if m = 0 then some (.inf n) else if n then some .nan
    else match pow2Of x with
      | some k => if k % 2 = 0 then some (.fin false 1 (-(k / 2))) else none
      | none => none
  | 2, .inf n => some (if n then .fin false 0 0 else .inf false)
  | 2, .fin n m e =>
    if m = 0 then some (.fin false 1 0)
    else if 0 ≤ e ∨ m % 2 ^ (-e).toNat = 0 then
      -- an integer k; beyond 2^20 in magnitude the result no longer changes
      let a := if 0 ≤ e then m * 2 ^ (min e 40).toNat else m / 2 ^ (-e).toNat
      let a : Int := (min a (2 ^ 20) : Nat)
      some (.fin false 1 (if n then -a else a))
    else none
  | _, .inf n => some (if n then .nan else .inf false)
  | _, .fin n m _ =>
    if m = 0 then some (.inf true) else if n then some .nan else (pow2Of x).map fvOfInt

/-- Whether `y` lies within the bound of R227 of the exact value `x`: relative error below 2^−b. -/
def withinRel (b : Nat) (x y : FV) : Bool :=
  match x, y with
  | .fin n m e, .fin k p q =>
    let lo := min e q
    let d := (scaled n m e lo - scaled k p q lo).natAbs
    n == k && decide (d * 2 ^ b < (scaled n m e lo).natAbs)
  | _, _ => false

/-- Whether `y` lies less than the smallest positive subnormal away from `x` (R227, subnormal results). -/
def withinTiny (f : Fmt) (x y : FV) : Bool :=
  match x, y with
  | .fin n m e, .fin k p q =>
    let tiny := 1 - (f.bias : Int) - f.fb
    let lo := min tiny (min e q)
    decide ((scaled n m e lo - scaled k p q lo).natAbs < (scaled false 1 tiny lo).natAbs)
  | _, _ => false

/-- Whether `y` lies within the bound of R227 of the exact logarithm `x`: absolute error below 2^−b · max(1, |x|). -/
def withinLog (b : Nat) (x y : FV) : Bool :=
  match x, y with
  | .fin n m e, .fin k p q =>
    let lo := min 0 (min e q)
    let d := (scaled n m e lo - scaled k p q lo).natAbs
    decide (d * 2 ^ b < max (scaled n m e lo).natAbs (scaled false 1 0 lo).natAbs)
  | _, _ => false

/-- The power of two below an exact value. -/
def fvLevel (x : FV) : Int :=
  match x with
  | .fin _ m e => e + (bitLen m : Nat) - 1
  | _ => 0

/-- Whether a result `y` keeps the bound of R227 for the exact value `x`: where that is a normal number of the layout, where it is
subnormal, and nothing beyond the largest number, where the spec states no bound. -/
def keepsBound (op : Nat) (t : Ty) (x y : FV) : Bool :=
  let f := fmtOf t
  let b := if t = .f64 then 50 else 22
  if op = 3 then withinLog b x y
  else if fvLevel x < 1 - (f.bias : Int) then withinTiny f x y
  else if (f.bias : Int) < fvLevel x then true
  else withinRel b x y

/-- The native result of an approximation on f32 or f64: the special results exactly; otherwise a free value (log entry 8, DESIGN CHOICE),
as far as it keeps the bound of R227, and the rounded function where it does not. -/
def approxNative (op : Nat) (t : Ty) (v : Nat) : Nat :=
  let f := fmtOf t
  let x := unpack f v
  match approxSpecial op x with
  | some r => pack f .rne false r
  | none =>
    let c := Config.approx op f.width v % 2 ^ f.width
    let ex := approxExact op x
    if keepsBound op t ex (unpack f c) then c else pack f .rne false ex

/-- An approximation on one element: h16 and bf16 round the f32 result (R227). -/
def approxElem (op : Nat) (t : Ty) (v : Nat) : Nat :=
  match t with
  | .h16 | .bf16 => convert t .f32 .rne false (approxNative op .f32 (convert .f32 t .rne false v))
  | _ => approxNative op t v

/-! ### Block sums (R292) -/

/-- An integer divided by 2^k, to the nearest even (R219). -/
def shiftEven (x : Int) (k : Nat) : Int :=
  let n : Int := (roundShift .rne false x.natAbs k : Nat)
  if x < 0 then -n else n

/-- |x| brought below 2^47 by halving, at most `fuel` times (R292, R300). -/
def halve47 (x e : Int) (fuel : Nat) : Int × Int :=
  match fuel with
  | 0 => (x, e)
  | k + 1 => if 2 ^ 47 ≤ x.natAbs then halve47 (shiftEven x 1) (e + 1) k else (x, e)

/-- The largest pair, where an exponent passes 32,767. -/
def cap47 (x e : Int) : Int × Int := if 32767 < e then ((if x < 0 then -(2 ^ 47 - 1) else 2 ^ 47 - 1), 32767) else (x, e)

/-- R292: the one alignment rule. -/
def bsacc (p q : Int × Int) : Int × Int :=
  if q.1 = 0 then p
  else if p.1 = 0 then q
  else
    let ex := max p.2 q.2
    let x := shiftEven p.1 (ex - p.2).toNat + shiftEven q.1 (ex - q.2).toNat
    let r := halve47 x ex 64
    cap47 r.1 r.2

end Sys2Proof.Machine
end

