-- ==== Sys2Proof/Machine/Gecko.lean ====
section
/-! DEFINITION. What a home does with an atomic or a Gecko routine: the arithmetic of R327 and R336, routine images, the
built-in routines (R341), performing a request at its home (R324, R337) and the account of posted operations (R331, R334). -/

namespace Sys2Proof.Machine

/-! ### Arithmetic (R327, R336) -/

/-- The lane type of a packed type; any other type is its own lane. -/
def laneOf : Ty → Ty
  | .s32x2 => .s32
  | .f32x2 => .f32
  | .bf16x2 => .bf16
  | t => t

/-- The operations of AMO and of a routine's arithmetic. -/
inductive Arith where
  | add | sub | mul | min | max
deriving DecidableEq, Repr

/-- One lane of an integer type: wrapping arithmetic, signed or unsigned order. -/
def intLane (o : Arith) (t : Ty) (x y : Nat) : Nat :=
  let a := intOf t x
  let b := intOf t y
  wrap t.width (match o with
    | .add => a + b
    | .sub => a - b
    | .mul => a * b
    | .min => min a b
    | .max => max a b)

/-- One lane of a float type: rounded to nearest even; minimumNumber and maximumNumber (R226, R327). -/
def floatLane (o : Arith) (t : Ty) (x y : Nat) : Nat :=
  let f := fmtOf t
  match o with
  | .add => fAdd f .rne x y
  | .sub => fSub f .rne x y
  | .mul => fMul f .rne x y
  | .min => minNumber f x y
  | .max => maxNumber f x y

/-- An operation lane by lane (R327). -/
def arith (o : Arith) (t : Ty) (x y : Nat) : Nat :=
  let l := laneOf t
  let one := if l.isFloat then floatLane o l else intLane o l
  if t.isPacked then
    let w := l.width
    one (field x 0 w) (field y 0 w) + one (field x w w) (field y w w) * 2 ^ w
  else one (x % 2 ^ t.width) (y % 2 ^ t.width)

/-- R327: f(old, b) of an AMO. -/
def amoNew (o : AmoOp) (t : Ty) (old b : Nat) : Nat :=
  match o with
  | .add => arith .add t old b
  | .sub => arith .sub t old b
  | .min => arith .min t old b
  | .max => arith .max t old b
  | .and => old &&& b % 2 ^ t.width
  | .or => old ||| b % 2 ^ t.width
  | .xor => old ^^^ b % 2 ^ t.width
  | .swap => b % 2 ^ t.width

/-- R327: the old value as sD receives it. -/
def amoResult (t : Ty) (old : Nat) : Word64 :=
  match t with
  | .s32 | .s64 => sext64 t.width old
  | _ => n64 old

/-! ### Routine images (R336) -/

/-- The fields of a slice instruction. -/
def iOp (w : Nat) : Nat := field w 26 6
def iD (w : Nat) : Nat := field w 23 3
def iA (w : Nat) : Nat := field w 20 3
def iB (w : Nat) : Nat := field w 17 3
def iW (w : Nat) : Nat := field w 13 4
def iT (w : Nat) : Nat := field w 9 4
def iC (w : Nat) : Nat := field w 8 1
def iImm (w : Nat) : Nat := field w 0 8

/-- R336: a slice instruction is defined, and the fields its operation does not name are zero. -/
def sliceOk (w : Nat) : Bool :=
  let noA := iA w == 0
  let noB := iB w == 0
  let noW := iW w == 0
  let noT := iT w == 0
  let noC := iC w == 0
  let noI := iImm w == 0
  let cond := iC w == 1 || iD w == 0
  match iOp w with
  | 0x01 => noA && noB && noT && noC && noI
  | 0x02 => noB && noW && noT && noC && noI
  | 0x03 => noA && noT && cond && noI
  | 0x04 => noW && noT && cond && noI
  | 0x05 => noB && noW && decide (iT w ≤ 6) && noC
  | 0x06 => noW && decide (iT w ≤ 3) && cond
  | 0x07 => noA && noB
  | 0x08 => noB && noW && noT && noC && noI
  | 0x09 | 0x0A | 0x0B | 0x0C | 0x0D => noW && decide (iT w ≤ 9) && noC && noI
  | 0x0E | 0x0F | 0x10 | 0x11 | 0x12 => noW && noT && noC && noI
  | 0x13 => decide (iW w ≤ 3) && decide (iT w ≤ 7) && iT w != 4 && noC && noI
  | 0x14 => decide (iW w ≤ 7) && noT && noC && noI
  | _ => false

/-- The words of a routine image: little-endian, four bytes each. -/
def imageWords (bs : List Byte) (n : Nat) : List Nat :=
  (List.range n).map fun k => leNat ((List.range 4).map fun j => (bs[8 + 4 * k + j]?).getD 0)

/-- R336: whether an image is valid. -/
def imageOk (bs : List Byte) : Bool :=
  let n := (bs.head?.getD 0).toNat
  decide (1 ≤ n) && decide (n ≤ 32) && ((List.range 7).all fun k => (bs[1 + k]?).getD 0 == 0) &&
  (imageWords bs n).all sliceOk

/-- The eight routine registers and the sixteen line words, as one number of 1,024 bits (R335). -/
structure RoutineSt where
  g    : Vector Word64 8
  line : Nat
deriving DecidableEq, Repr

/-- A routine register by number. -/
def rGet (r : RoutineSt) (k : Nat) : Word64 := r.g[k % 8]'(Nat.mod_lt _ (by decide))
/-- A routine register set. -/
def rSet (r : RoutineSt) (k : Nat) (v : Word64) : RoutineSt := { r with g := r.g.set (k % 8) v (Nat.mod_lt _ (by decide)) }

/-- The type of T in arithmetic (R336). -/
def sliceTy : Nat → Ty
  | 0 => .s64 | 1 => .z64 | 2 => .s32 | 3 => .z32 | 4 => .s32x2 | 5 => .f64 | 6 => .f32 | 7 => .bf16
  | 8 => .f32x2 | _ => .bf16x2

/-- A result extended as R336 says: sign-extended for s32, zero-extended otherwise. -/
def sliceExt (t : Ty) (v : Nat) : Word64 := match t with | .s32 => sext64 32 v | _ => n64 v

/-- CMP of a routine (R336): a float compare with a NaN is false but for ne. -/
def sliceCmp (c : Nat) (t : Ty) (x y : Nat) : Bool :=
  let o : Option Ordering :=
    if t.isFloat then fvCmp (unpack (fmtOf t) (x % 2 ^ t.width)) (unpack (fmtOf t) (y % 2 ^ t.width))
    else some (compare (intOf t x) (intOf t y))
  match c with
  | 0 => o == some .eq
  | 1 => o != some .eq
  | 2 => o == some .lt
  | _ => o == some .lt || o == some .eq

/-- The lane width in bits and the signedness of LDL and STL (R336). -/
def laneWidth (t : Nat) : Nat := match t with | 0 | 4 => 8 | 1 | 5 => 16 | 2 | 6 => 32 | _ => 64

/-- The bit offset of the lane of LDL and STL (R336). -/
def laneAt (r : RoutineSt) (w : Nat) : Nat :=
  let o := wrap 7 ((rGet r (iA w)).toNat + sgn 8 (iImm w))
  let b := laneWidth (iT w) / 8
  o / b * b * 8

/-- One slice instruction (R336, R337). -/
def sliceStep (r : RoutineSt) (w : Nat) : RoutineSt :=
  let a := rGet r (iA w)
  let b := rGet r (iB w)
  let on := iC w == 0 || rGet r (iD w) != 0
  match iOp w with
  | 0x01 => rSet r (iD w) (n64 (field r.line (64 * iW w) 64))
  | 0x02 => rSet r (iD w) (n64 (field r.line (64 * bits a 0 4) 64))
  | 0x03 => if on then { r with line := setField r.line (64 * iW w) 64 b.toNat } else r
  | 0x04 => if on then { r with line := setField r.line (64 * bits a 0 4) 64 b.toNat } else r
  | 0x05 =>
    let n := laneWidth (iT w)
    let v := field r.line (laneAt r w) n
    rSet r (iD w) (if 4 ≤ iT w then sext64 n v else n64 v)
  | 0x06 => if on then { r with line := setField r.line (laneAt r w) (laneWidth (iT w)) b.toNat } else r
  | 0x07 => rSet r (iD w) (sext64 17 (field w 0 17))
  | 0x08 => rSet r (iD w) a
  | 0x09 => rSet r (iD w) (sliceExt (sliceTy (iT w)) (arith .add (sliceTy (iT w)) a.toNat b.toNat))
  | 0x0A => rSet r (iD w) (sliceExt (sliceTy (iT w)) (arith .sub (sliceTy (iT w)) a.toNat b.toNat))
  | 0x0B => rSet r (iD w) (sliceExt (sliceTy (iT w)) (arith .mul (sliceTy (iT w)) a.toNat b.toNat))
  | 0x0C => rSet r (iD w) (sliceExt (sliceTy (iT w)) (arith .min (sliceTy (iT w)) a.toNat b.toNat))
  | 0x0D => rSet r (iD w) (sliceExt (sliceTy (iT w)) (arith .max (sliceTy (iT w)) a.toNat b.toNat))
  | 0x0E => rSet r (iD w) (a &&& b)
  | 0x0F => rSet r (iD w) (a ||| b)
  | 0x10 => rSet r (iD w) (a ^^^ b)
  | 0x11 => rSet r (iD w) (a <<< bits b 0 6)
  | 0x12 => rSet r (iD w) (a >>> bits b 0 6)
  | 0x13 => rSet r (iD w) (n64 (sliceCmp (iW w) (sliceTy (iT w)) a.toNat b.toNat).toNat)
  | 0x14 => rSet r (iD w) (if rGet r (iW w) ≠ 0 then a else b)
  | _ => r

/-! ### Built-in routines (R341) -/

/-- What a built-in does with the lane it works on. -/
inductive Builtin where
  | rmw (o : AmoOp) (t : Ty)
  | cas (t : Ty)
  | cas2
deriving DecidableEq, Repr

/-- R341, by ID. -/
def builtinOf : Nat → Option Builtin
  | 0 => some (.rmw .add .z32) | 1 => some (.rmw .add .z64) | 2 => some (.rmw .add .s32x2)
  | 3 => some (.rmw .min .s32) | 4 => some (.rmw .max .s32) | 5 => some (.rmw .min .z32) | 6 => some (.rmw .max .z32)
  | 7 => some (.rmw .min .s64) | 8 => some (.rmw .max .s64) | 9 => some (.rmw .min .z64) | 10 => some (.rmw .max .z64)
  | 11 => some (.rmw .min .s32x2) | 12 => some (.rmw .max .s32x2)
  | 13 => some (.rmw .and .z32) | 14 => some (.rmw .or .z32) | 15 => some (.rmw .xor .z32)
  | 16 => some (.rmw .and .z64) | 17 => some (.rmw .or .z64) | 18 => some (.rmw .xor .z64)
  | 19 => some (.rmw .swap .b16) | 20 => some (.rmw .swap .z32) | 21 => some (.rmw .swap .z64)
  | 22 => some (.rmw .add .f32) | 23 => some (.rmw .min .f32) | 24 => some (.rmw .max .f32)
  | 25 => some (.rmw .add .f64) | 26 => some (.rmw .min .f64) | 27 => some (.rmw .max .f64)
  | 28 => some (.rmw .add .bf16) | 29 => some (.rmw .min .bf16) | 30 => some (.rmw .max .bf16)
  | 31 => some (.rmw .add .bf16x2) | 32 => some (.rmw .min .bf16x2) | 33 => some (.rmw .max .bf16x2)
  | 34 => some (.rmw .add .f32x2) | 35 => some (.rmw .min .f32x2) | 36 => some (.rmw .max .f32x2)
  | 37 => some (.cas .z32) | 38 => some (.cas .z64) | 39 => some .cas2
  | _ => none

/-! ### Performing a request at its home (R324, R325, R337) -/

/-- Who makes a request. -/
def reqWho (s : State) (q : Req) : Who := partyAt s q.asid q.priv (coreOf q.gid)

/-- A place with its byte offset aligned down to `n`, a power of two of at most 128. -/
def Place.down (n : Nat) : Place → Place
  | .mem pa => .mem (pa / n * n)
  | .stash c o => .stash c (o / n * n)
  | .cached c e o pa => .cached c e (o / n * n) (pa / n * n)
  | .ctl c o => .ctl c (o / n * n)
  | .view pa => .view (pa / n * n)
  | .vf f o => .vf f (o / n * n)
  | .peer pa => .peer (pa / n * n)
  | .own o => .own (o / n * n)
  | .host pa => .host (pa / n * n)
  | .dev pa => .dev (pa / n * n)

/-- The cell of this device whose slice unit performs a request (R324); a line of a peer or the host has no home slice here (R392). -/
def homeCell (p : Place) : Option CellKey :=
  match p with
  | .stash c _ | .cached c _ _ _ | .ctl c _ => some c
  | .peer _ | .host _ => none
  | _ => some (cellOfSlice (homeSlice (placeKey p)))

/-- A routine and the cycles it takes counted where it runs (R379). -/
def countRoutine (p : Place) (a n : Nat) (s : State) : State :=
  match homeCell p with
  | some c => countUnit c a 1 n (countUnit c a 0 1 s)
  | none => s

/-- The place of a store, an atomic or a routine in the single order, made over `n` bytes (R310): the stamp it takes. -/
def stampWrite (clock : Nat) (p : Place) (n : Nat) (s : State) : Nat × State :=
  match p.loc with
  | none => (clock, s)
  | some l =>
    let ls := if isStashLoc l then (List.range (ceilDiv (l % 8 + n) 8)).map fun k => l / 8 * 8 + 8 * k else [l]
    let ts := ls.foldl (fun t l => max t (stamps s l).2) (placeClock s p clock) + 1
    (ts, agentMoved p ts (ls.foldl (fun s l => setStamps l (ts, ts) s) s))

/-- The place of a load in the single order (R309): its stamp. -/
def stampRead (q : Req) (p : Place) (s : State) : Nat × State :=
  match p.loc with
  | none => (q.clock, s)
  | some l =>
    let w := stamps s l
    let ts := max (placeClock s p q.clock + 1) w.1
    (ts, agentMoved p ts (setStamps l (w.1, max w.2 (ts + leaseOf s q.asid - 1)) s))

/-- What a request answers: (g0, g1), its stamp, and the state afterwards; or its fault. -/
abbrev AtomAns := Except TrapInfo (Word64 × Word64 × Nat × State)

/-- A built-in on the lane at a place: the old value and the new one (R327, R329, R330, R341). -/
def builtinAt (q : Req) (p : Place) (b : Builtin) (g : Vector Word64 4) (s : State) : Word64 × Word64 × Nat × State :=
  let n := match b with | .rmw _ t | .cas t => t.width / 8 | .cas2 => 16
  let p := p.down n
  let (ts, s) := stampWrite q.clock p n s
  let (bs, s) := fetchBytes q.asid p n s
  let old := leNat bs
  let s := countRoutine p q.asid 7 s
  match b with
  | .rmw o t =>
    let new := amoNew o t old g[0].toNat
    (n64 old, n64 new, ts, storeBytes q.asid p (leBytes n new) s)
  | .cas t =>
    let new := if old = g[0].toNat % 2 ^ t.width then g[1].toNat % 2 ^ t.width else old
    (n64 old, n64 new, ts, storeBytes q.asid p (leBytes n new) s)
  | .cas2 =>
    let new := if old = g[0].toNat + g[1].toNat * 2 ^ 64 then g[2].toNat + g[3].toNat * 2 ^ 64 else old
    (n64 (field old 0 64), n64 (field old 64 64), ts, storeBytes q.asid p (leBytes n new) s)

/-- An installed routine on the line of a place (R335, R337). -/
def routineAt (q : Req) (p : Place) (img : List Byte) (g : Vector Word64 4) (s : State) : Word64 × Word64 × Nat × State :=
  let p := p.down 128
  let (ts, s) := stampWrite q.clock p 128 s
  let (bs, s) := fetchBytes q.asid p 128 s
  let n := (img.head?.getD 0).toNat
  let r0 : RoutineSt := { g := #v[g[0], g[1], g[2], g[3], n64 (bits q.va 0 7), 0, 0, 0], line := leNat bs }
  let r := (imageWords img n).foldl sliceStep r0
  let s := countRoutine p q.asid (n + 6) s
  (r.g[0], r.g[1], ts, storeBytes q.asid p (leBytes 128 r.line) s)

/-- A routine of another device on a line there: what it does is a free value (R325, log entry 10, DESIGN CHOICE). -/
def peerRoutineAt (q : Req) (p : Place) (s : State) : AtomAns :=
  let k := s.fresh
  let s := { s with fresh := k + 1 }
  if Config.peerRoutine k 0 = 0 then .error (fSlice 1 q.va)
  else
    let bs := (List.range 128).map fun i => BitVec.ofNat 8 (Config.peerRoutine k (3 + i))
    .ok (n64 (Config.peerRoutine k 1), n64 (Config.peerRoutine k 2), q.clock, storeBytes q.asid (p.down 128) bs s)

/-- Whether a place lies in the memory of another device (R325). -/
def foreign (p : Place) : Bool := match p with | .peer _ => true | _ => false

/-- What a request asks of the line it takes (R335): a built-in operation, an installed routine, or a routine of another device. -/
inductive LineOp where
  | builtin (b : Builtin) (g : Vector Word64 4)
  | image (img : List Byte) (g : Vector Word64 4)
  | elsewhere

/-- R335, R339: a routine is looked up before the line is taken; none where nothing is installed under its number. -/
def lineOp (s : State) (q : Req) (p : Place) (op : AtomOp) : Option LineOp :=
  match op with
  | .amo o t b => some (.builtin (.rmw o t) #v[b, 0, 0, 0])
  | .cas t e n => some (.builtin (.cas t) #v[e, n, 0, 0])
  | .cas2 lo hi nlo nhi => some (.builtin .cas2 #v[lo, hi, nlo, nhi])
  | .routine id g =>
    match builtinOf id with
    | some b => some (.builtin b g)
    | none =>
      if id < 48 then none
      else if foreign p then some .elsewhere
      else ((ctxAt s q.asid).bind fun c => tfind c.routines id).map fun img => .image img g

/-- The operation of a request at its home, the place already resolved (R324, R325, R335, R339). -/
def atomicAt (q : Req) (p : Place) (op : AtomOp) (s : State) : AtomAns :=
  match placeFault q.va p, lineOp s q p op with
  | some t, _ => .error t
  | none, none => .error (fSlice 1 q.va)
  | none, some l =>
    if poisoned s p 1 then .error (fSlice 2 q.va)
    else
      let s := noteRemoteBy (cellOf q.gid) q.asid p s
      match l with
      | .builtin b g => .ok (builtinAt q p b g s)
      | .image img g => .ok (routineAt q p img g s)
      | .elsewhere => peerRoutineAt q p s

/-- The register writes of a returning request's answer (R327, R329, R330, R338). -/
def atomicWrites (d : SReg) (op : AtomOp) (g0 g1 : Word64) : List RegWrite :=
  match op with
  | .amo _ t _ => [.s d (amoResult t g0.toNat)]
  | .cas _ _ _ => [.s d g0]
  | .cas2 .. | .routine _ _ => [.s d g0, .s (sreg d 1) g1]

/-! ### Posted operations (R319, R320, R331 to R334) -/

/-- A failure added to a record (R334). -/
def addFail (t : TrapInfo) (f : Option PostedFail) : PostedFail :=
  match f with
  | none => { code := t.code, status := t.status, addr := t.addr, count := 1 }
  | some f => { f with count := min 0xFFFFFFFF (f.count + 1) }

/-- A failure of a posted operation is recorded at its slot; at its block where the slot has been freed, also of a context that
is switched out; nowhere where the slot was killed (R334). -/
def recordFail (q : Req) (t : TrapInfo) (s : State) : State :=
  if owned s q.gid q.epoch then modOwner q.gid q.epoch (fun x => { x with pfail := some (addFail t x.pfail) }) s
  else if q.blk = 0 then s
  else if blkOf s q.gid = q.blk then
    modCore (coreOf q.gid) (fun c => { c with passed := c.passed ++ [addFail t none] }) s
  else
    let note := fun (c : Core) =>
      if (match c.block with | some b => b.id == q.blk | none => false) then { c with passed := c.passed ++ [addFail t none] } else c
    modCtx q.asid (fun x => { x with savedCores := x.savedCores.map fun k => (k.1, note k.2) }) s

/-- A posted operation is over: its slot's count falls (R331). -/
def postedOver (q : Req) (s : State) : State :=
  modOwner q.gid q.epoch (fun x => { x with posted := x.posted - 1 }) s

/-- The 128-byte line that a request of the way names, where it resolves. -/
def reqLine (s : State) (q : Req) : Option Nat :=
  match resolve s (reqWho s q) .read q.va with
  | .go p => some (placeKey p / 128)
  | _ => none

/-- What a slot has issued for one line before message `upto` and is not performed there, oldest first: posted operations (R320), and
stores on their way to a peer or the host (R322). -/
def postedTo (s : State) (g : SlotKey) (line upto : Nat) : List Nat :=
  (s.net.filter fun m =>
    decide (m.1 < upto) && match m.2 with
      | .atomic q none _ _ => q.gid == g && reqLine s q == some line
      | .remoteStore h pa _ => h == g && (ownOff s pa).getD pa / 128 == line
      | _ => false).map Prod.fst

/-- R255: a posted operation is held while a vector memory operation of its slot, enqueued before it, is not performed. -/
def vmemBefore (s : State) (g : SlotKey) (k : Nat) : Bool :=
  (coreAt s (coreOf g)).queue.any (fun e => e.gid == g && e.seq < k && isVmem e.instr) ||
  (cellAt s (cellOf g)).mx.any fun m =>
    m.gid == g && m.remote.isNone && decide (m.seq < k) &&
    match m.kind with
    | .vop i _ => isVmem i
    | .load _ _ _ t _ _ _ => decide (m.steps < loadReads t)
    | .store .. => true
    | _ => false

/-- A posted operation stands after every access that its slot has made before it (R319): with the slot's clock as it is now. -/
def Req.now (q : Req) (s : State) : Req := { q with clock := issuerClock s q.gid q.epoch q.clock }

/-- The address in the own peer window of memory of this device (R392). -/
def ownAddr (s : State) (off : Nat) : Nat := 0x4000000000000 + s.boot.device * 0x20000000000 + off

/-- A store that the local interface has accepted from a slot reaches its home (R322). One to this device's own memory is the link
agent's (R392), and the slot's later accesses come after it. -/
def landStore (g : SlotKey) (pa : Nat) (bs : List Byte) (s : State) : State :=
  match ownOff s pa with
  | some _ =>
    let s := writeOutside pa bs { s with linkClk := max s.linkClk (slotAt s g).lclk }
    raiseClock g s.linkClk s
  | none => writeOutside pa bs s

/-- Posted operation `k` is performed, fails, or is referred to the page service (R332, R334). -/
def performPosted (k : Nat) (q : Req) (op : AtomOp) (page : Option Nat) (s : State) : State :=
  let fail := fun t (s : State) => postedOver q (recordFail q t (took k s))
  match resolve s (reqWho s q) .write q.va with
  | .trap t => fail t s
  | .page =>
    if page.isSome then s
    else
      let id := s.nextId
      let s := askPage (pageReqOf q.asid q.va 4 q.gid q.epoch k .write) s
      { s with net := tput s.net k (.atomic q none op (some id)) }
  | .go p =>
    match atomicAt (q.now s) p op s with
    | .error t => fail t s
    | .ok (_, _, ts, s) =>
      let s := took k s
      postedOver q (raiseIssuer q.gid q.epoch ts s)
  | .away _ => s

/-- R320, R322: what a slot has issued for a line is performed before its access to that line. -/
def flushPosted (g : SlotKey) (line upto : Nat) (s : State) : State :=
  (postedTo s g line upto).foldl (fun s k =>
    match tfind s.net k with
    | some (.atomic q none op page) => performPosted k q op page s
    | some (.remoteStore h pa bs) => landStore h pa bs (took k s)
    | _ => s) s

/-- Whether a slot's access to a line has to wait for one of its posted operations (R320). -/
def postedBlocks (s : State) (g : SlotKey) (line : Nat) : Bool := !(postedTo s g line s.nextId).isEmpty

/-- R320: an access of the issuing slot at a place, once its own posted operations to the line are performed: here and now
where requests do not travel, otherwise the word, which has issued, waits. -/
def afterPosted (i : Instr) (p : Place) (k : State → State) (s : State) : State :=
  let g := s.issue.gid
  let line := placeKey p / 128
  let s := if s.fly then s else flushPosted g line s.nextId s
  if postedBlocks s g line then parkAccess i (.posted line) s else k s

end Sys2Proof.Machine
end

