-- ==== Sys2Proof/Machine/MemWords.lean ====
section
/-! DEFINITION. Scalar loads and stores (R248, R249), wake registers (R95, R96), full/empty words (R346, R347), prefetch (R256)
and stash mappings (R258, R260). -/

namespace Sys2Proof.Machine

/-! ### Wake registers (R95 to R97) -/

/-- The depth of a virtual function's token bucket: that of its context's record (R96, R398). -/
def bucketDepth (s : State) (f : Nat) : Nat :=
  match s.ctxs.find? (fun c => c.2.rcd.vf == f) with
  | some c => c.2.rcd.bdepth
  | none => 32

/-- The tokens of a virtual function: a bucket starts full (R96). -/
def tokensOf (s : State) (f : Nat) : Nat := (tfind s.tokens f).getD (bucketDepth s f)

/-- The context that has queue `q` of virtual function `f` registered. -/
def queueOwner (s : State) (f q : Nat) : Option Nat :=
  (s.ctxs.find? fun c => c.2.rcd.vf == f && (tfind c.2.queues q).isSome).map Prod.fst

/-- A queue changed. -/
def modQueue (a q : Nat) (f : Queue → Queue) (s : State) : State :=
  modCtx a (fun c => match tfind c.queues q with | some x => { c with queues := tput c.queues q (f x) } | none => c) s

/-- R96: a wake of a registered queue: with a token it causes a scan, without one it sets the wake-again flag. While firmware
is being handed over it sets the flag (R405). -/
def wakeQueue (a f q : Nat) (s : State) : State :=
  if s.boot.handover = false ∧ 0 < tokensOf s f then
    modQueue a q (fun x => { x with scans := x.scans + 1 }) { s with tokens := tput s.tokens f (tokensOf s f - 1) }
  else modQueue a q (fun x => { x with wake := true }) s

/-! ### Loads and stores (R248, R249) -/

/-- The size of a load in bytes. -/
def ldBytes : LdWidth → Nat
  | .s8 | .z8 => 1 | .s16 | .z16 => 2 | .s32 | .z32 => 4 | .b64 => 8

/-- A loaded value extended to 64 bits (R249). -/
def ldExtend (w : LdWidth) (v : Nat) : Word64 :=
  match w with
  | .s8 | .s16 | .s32 => sext64 (8 * ldBytes w) v
  | _ => n64 v

/-- The size of a store in bytes. -/
def stBytes : StWidth → Nat
  | .b8 => 1 | .b16 => 2 | .b32 => 4 | .b64 => 8

/-- A load of `n` bytes by a slot at its place: the bytes, or the fault (R249, R408). -/
def loadBytes (g : SlotKey) (va : Word64) (p : Place) (n : Nat) (s : State) : Except TrapInfo (List Byte × State) :=
  if poisoned s p n then .error (fPage 2 va) else .ok (loadAt g p n s)

/-- A store by a slot at its place (R249, R95, R274, R322): a store to a wake register rings the queue, one to the memory of
another device or the host travels on where requests travel. -/
def storePlace (g : SlotKey) (va : Word64) (p : Place) (bs : List Byte) (s : State) : Except TrapInfo State :=
  match p with
  | .view _ => .error (fFormat 1 va)
  | .vf f off =>
    if off < 0x200 then
      let a := (slotAt s g).ctl.asid
      if queueOwner s f (off / 8) = some a then .ok (wakeQueue a f (off / 8) s) else .error (fQueue 4)
    else .ok s
  | .peer pa | .host pa => .ok (if s.fly then send (.remoteStore g pa bs) s else storeAt g p bs s)
  | .own off => .ok (if s.fly then send (.remoteStore g (ownAddr s off) bs) s else storeAt g p bs s)
  | _ => .ok (storeAt g p bs s)

/-- R320: whether an access of the issuing slot has to travel: requests do, or one of its posted operations to the line is
held back. -/
def travels (s : State) (p : Place) : Bool := s.fly || postedBlocks s s.issue.gid (placeKey p / 128)

/-- The slot's own posted operations to the line of an access are performed first where requests do not travel (R320). -/
def ownFirst (p : Place) (s : State) : State :=
  if s.fly then s else flushPosted s.issue.gid (placeKey p / 128) s.nextId s

/-- LD once its address is checked for alignment (R249). -/
def loadFrom (i : Instr) (d : SReg) (w : LdWidth) (va : Word64) (s : State) : State :=
  withPlace i .read va (fun p s =>
    let g := s.issue.gid
    let s := ownFirst p s
    if travels s p then parkIssued g .reply (send (.load (reqOf s va) d w) s)
    else match loadBytes g va p (ldBytes w) s with
      | .error t => fault t s
      | .ok (bs, s) => putS d (ldExtend w (leNat bs)) s) s

/-- ST once its address is checked for alignment (R249). -/
def storeTo (i : Instr) (w : StWidth) (va v : Word64) (s : State) : State :=
  withPlace i .write va (fun p s =>
    let g := s.issue.gid
    let s := ownFirst p s
    if travels s p then parkIssued g .reply (send (.store (reqOf s va) w v) s)
    else match storePlace g va p (leBytes (stBytes w) v.toNat) s with
      | .error t => fault t s
      | .ok s => skip s) s

/-- A load (R249). -/
def loadEA (i : Instr) (d : SReg) (w : LdWidth) (va : Word64) (s : State) : State :=
  if va.toNat % ldBytes w ≠ 0 then fault (fAlign va) s else afterVmem i (loadFrom i d w va) s

/-- A store (R249). -/
def storeEA (i : Instr) (w : StWidth) (va v : Word64) (s : State) : State :=
  if va.toNat % stBytes w ≠ 0 then fault (fAlign va) s else afterVmem i (storeTo i w va v) s

/-- EA of the two forms (R249). -/
def eaOff (base : Word64) (o : BitVec 11) : Word64 := base + o.signExtend 64
def eaIdx (base idx : Word64) (h : BitVec 3) : Word64 := base + (idx <<< h.toNat)

def execLdOff (d a : SReg) (w : LdWidth) (o : BitVec 11) (s : State) : Res :=
  word (.ldOff d a w o) (fun x s => loadEA (.ldOff d a w o) d w (eaOff (sGet x a) o) s) s
def execLdIdx (d a b : SReg) (w : LdWidth) (h : BitVec 3) (s : State) : Res :=
  word (.ldIdx d a b w h) (fun x s => loadEA (.ldIdx d a b w h) d w (eaIdx (sGet x a) (sGet x b) h) s) s
def execStOff (d a : SReg) (w : StWidth) (o : BitVec 11) (s : State) : Res :=
  word (.stOff d a w o) (fun x s => storeEA (.stOff d a w o) w (eaOff (sGet x a) o) (sGet x d) s) s
def execStIdx (d a b : SReg) (w : StWidth) (h : BitVec 3) (s : State) : Res :=
  word (.stIdx d a b w h) (fun x s => storeEA (.stIdx d a b w h) w (eaIdx (sGet x a) (sGet x b) h) (sGet x d) s) s

/-! ### Full/empty words (R346, R347) -/

/-- R257, R346: the address of a full/empty word: an unmapped stash word. -/
def feAccess (i : Instr) (va : Word64) (k : Nat → State → State) (s : State) : State :=
  if va.toNat % 8 ≠ 0 then fault (fAlign va) s
  else afterVmem i (fun s =>
    let w := whoIs s s.issue.gid
    if bits va 56 8 = 0xFF then
      match coordinate s w va with
      | .trap t => fault t s
      | .go (.stash c off) =>
        if isAway s w.asid c then parkAccess i (.away c) s
        else if (mapAt s w.asid c off).isSome then fault (fPage 6 va) s
        else afterPosted i (.stash c off) (k (stashLoc c off)) s
      | _ => fault (fPage 6 va) s
    else fault (fPage 6 va) s) s

/-- A load, or a store, of a stash word takes its place in the single order; remote ones are counted. -/
def feLoad (loc : Nat) (s : State) : State :=
  stampLoad s.issue.gid loc (noteRemote s.issue.gid (.stash (locCell loc) (locOff loc)) s)
def feStore (loc : Nat) (s : State) : State :=
  stampStore s.issue.gid loc (noteRemote s.issue.gid (.stash (locCell loc) (locOff loc)) s)

/-- The word of a location written. -/
def fePut (loc : Nat) (v : Word64) (s : State) : State := write64 loc v (damageTasks (locCell loc) (locOff loc) s)

/-- A request joins its FIFO and its slot parks (R347). -/
def feWait (loc op : Nat) (d : SReg) (v : Word64) (s : State) : State :=
  let g := s.issue.gid
  let f := feqOf s loc
  let r : FeReq := { gid := g, epoch := (slotAt s g).ctl.epoch, op := op, d := d, v := v, clock := (slotAt s g).lclk }
  parkIssued g (.fullempty loc) (setFeq loc (if op = 2 then (f.1, f.2 ++ [r]) else (f.1 ++ [r], f.2)) s)

/-- LDF and LDFK (R346): `keep` leaves the tag full. A poisoned word is not read (R408). -/
def feTake (keep : Bool) (d : SReg) (va : Word64) (loc : Nat) (s : State) : State :=
  if tagAt s (locCell loc) (locOff loc) = true ∧ (feqOf s loc).1 = [] then
    if s.mem.poison.contains (loc / 128) then fault (fPage 2 va) s
    else
      let s := feLoad loc s
      let v := read64 s loc
      putS d v (if keep then s else retag loc false s)
  else feWait loc (if keep then 1 else 0) d va s

/-- STE (R346). -/
def feFill (v : Word64) (loc : Nat) (s : State) : State :=
  if tagAt s (locCell loc) (locOff loc) = false ∧ (feqOf s loc).2 = [] then
    skip (retag loc true (fePut loc v (feStore loc s)))
  else feWait loc 2 0 v s

def execLdf (d a : SReg) (o : BitVec 11) (s : State) : Res :=
  word (.ldf d a o) (fun x s => feAccess (.ldf d a o) (eaOff (sGet x a) o) (feTake false d (eaOff (sGet x a) o)) s) s
def execLdfk (d a : SReg) (o : BitVec 11) (s : State) : Res :=
  word (.ldfk d a o) (fun x s => feAccess (.ldfk d a o) (eaOff (sGet x a) o) (feTake true d (eaOff (sGet x a) o)) s) s
def execSte (d a : SReg) (o : BitVec 11) (s : State) : Res :=
  word (.ste d a o) (fun x s => feAccess (.ste d a o) (eaOff (sGet x a) o) (feFill (sGet x d)) s) s
def execStff (d a : SReg) (o : BitVec 11) (s : State) : Res :=
  word (.stff d a o) (fun x s =>
    feAccess (.stff d a o) (eaOff (sGet x a) o) (fun l s => skip (retag l true (fePut l (sGet x d) (feStore l s)))) s) s
def execFclr (a : SReg) (o : BitVec 11) (s : State) : Res :=
  word (.fclr a o) (fun x s => feAccess (.fclr a o) (eaOff (sGet x a) o) (fun l s => skip (retag l false (feStore l s))) s) s
def execFeq (d a : SReg) (o : BitVec 11) (s : State) : Res :=
  word (.feq d a o) (fun x s =>
    feAccess (.feq d a o) (eaOff (sGet x a) o) (fun l s => putS d (n64 (tagAt s (locCell l) (locOff l)).toNat) (feLoad l s)) s) s

/-! ### Prefetch (R256) -/

/-- R256: what a prefetch brings nearer. It changes no register and no value in memory, and never fails. -/
def prefetch (h : PrefHint) (va : Word64) (s : State) : State :=
  let g := s.issue.gid
  let w := whoIs s g
  match h with
  | .slc =>
    match resolve s w .read va with
    | .go (.view pa) =>
      if poisoned s (.view (pa / 128 * 128)) 128 then s
      else { s with mem := { s.mem with views := tput s.mem.views (pa / 128) (readView s (pa / 128 * 128) 128) } }
    | _ => s
  | .stash =>
    match resolve s w .read va with
    | .go (.cached c e off pa) => if c = cellOf g then fillLine c w.asid e off pa s else s
    | .go (.mem pa) =>
      match (cellAt s (cellOf g)).maps.find?
        (fun m => m.asid == w.asid && decide (m.va ≤ va.toNat) && decide (va.toNat < m.va + m.len)) with
      | some m => fillLine (cellOf g) w.asid m.entry (m.off + (va.toNat - m.va)) pa s
      | none => s
    | _ => s
  | .code =>
    match resolve s w .exec va with
    | .go p => fillCache (coreOf g) (placeKey p / 128) s
    | _ => s

def execPref (a : SReg) (h : PrefHint) (o : BitVec 12) (s : State) : Res :=
  word (.pref a h o) (fun x s => skip (prefetch h (sGet x a + o.signExtend 64) s)) s

/-! ### Stash mappings (R258 to R260) -/

/-- The mappings of a context on a cell. -/
def mapsOf (s : State) (a c : Nat) : List StMap := (cellAt s c).maps.filter (·.asid == a)

/-- R258: the status of an STMAP that binds nothing, in the order of the checks; log entry 14, DEDUCED. -/
def stmapStatus (s : State) (a c : Nat) (av bv : Word64) : Option Int :=
  let off := bits bv 0 19
  let len := bits bv 20 20
  if av.toNat % 128 ≠ 0 ∨ off % 128 ≠ 0 ∨ len % 128 ≠ 0 ∨ len < 128 ∨ 0x80000 < len ∨ bit bv 19 ∨ bits bv 40 24 ≠ 0 ∨
     tenantStash s c < off + len then some (-3)
  else if bits av 57 7 ≠ 0 ∨ 2 ^ 57 < av.toNat + len then some (-4)
  else if (mapsOf s a c).any (fun m => decide (m.off < off + len) && decide (off < m.off + m.len)) then some (-2)
  else if 16 ≤ (mapsOf s a c).length then some (-1)
  else none

/-- The locations of the words of a stash range, and those of the lines of a global range that a mapping holds. -/
def rangeWords (c off len : Nat) : List Nat := (List.range (len / 8)).map fun k => stashLoc c (off + 8 * k)
def mapLines (m : StMap) : List Nat := m.present.map fun q => 128 * q.2

/-- A place in the single order for a slot's word past every access of a list of locations (R304): its stamp. -/
def placeAfter (g : SlotKey) (ls : List Nat) (s : State) : Nat :=
  (ls.foldl (fun t l => max t (max (stamps s l).1 (stamps s l).2)) (slotAt s g).lclk) + 1

/-- R258: the lowest free entry binds the range (log entry 14, DEDUCED): its tags are empty and no line is present, so that the bytes
it held are out of reach. It stands in the single order after what was done to the stash range. -/
def bindMap (a c : Nat) (av : Word64) (off len place : Nat) (s : State) : Nat × State :=
  let used := (mapsOf s a c).map (·.entry)
  let e := ((List.range 16).find? fun k => !used.contains k).getD 0
  (e, modCell c (fun x => { x with
    tags := x.tags.filter fun t => decide (8 * t < off) || decide (off + len ≤ 8 * t)
    maps := x.maps ++ [{ asid := a, entry := e, va := av.toNat, off := off, len := len, present := [], dirty := [], place := place }] }) s)

def execStmap (d a b : SReg) (s : State) : Res :=
  word (.stmap d a b) (fun x s => afterVmem (.stmap d a b) (onVisit (.stmap d a b) fun s =>
    let c := cellOf s.issue.gid
    let av := sGet x a
    let bv := sGet x b
    match stmapStatus s x.ctl.asid c av bv with
    | some n => putS d (w64 n) s
    | none =>
      let ts := placeAfter s.issue.gid (rangeWords c (bits bv 0 19) (bits bv 20 20)) s
      let r := bindMap x.ctl.asid c av (bits bv 0 19) (bits bv 20 20) ts s
      putS d (n64 r.1) (raiseClock s.issue.gid ts r.2)) s) s

/-- Every written line of a mapping written back (R260). -/
def flushMap (c : CellKey) (m : StMap) (s : State) : State := m.dirty.foldl (fun s k => writeBack c m k s) s

/-- The mapping that STUNMAP and STFLUSH name (R260). -/
def mapNamed (s : State) (a c : Nat) (v : Word64) : Option StMap :=
  if bits v 4 60 ≠ 0 then none else (mapsOf s a c).find? (·.entry == bits v 0 4)

/-- The bytes of a mapping's lines that are not present, which STMAP discarded: free values (log entry 15, DESIGN CHOICE). -/
def scratchBytes (c : CellKey) (m : StMap) (s : State) : State :=
  let k := s.fresh
  ((List.range (m.len / 128)).filter fun l => (tfind m.present l).isNone).foldl (fun s l =>
    modCell c (fun x => { x with
      stash := putBytes x.stash (m.off + 128 * l) ((List.range 128).map fun i => Config.discarded k (128 * l + i)) }) s)
    { s with fresh := k + 1 }

/-- STUNMAP of a mapping (R260): written lines go back, the mapping goes, and its bytes are plain stash bytes, for accesses that stand in
the single order after it. -/
def unbind (c : CellKey) (m : StMap) (ts : Nat) (s : State) : State :=
  let s := modCell c (fun y => { y with maps := y.maps.filter fun n => n.asid != m.asid || n.entry != m.entry })
    (scratchBytes c m (flushMap c m s))
  (rangeWords c m.off m.len).foldl (fun s l => setStamps l (max ts (stamps s l).1, max ts (stamps s l).2) s) s

/-- R260. -/
def execStunmap (d a : SReg) (s : State) : Res :=
  word (.stunmap d a) (fun x s => afterVmem (.stunmap d a) (onVisit (.stunmap d a) fun s =>
    let c := cellOf s.issue.gid
    match mapNamed s x.ctl.asid c (sGet x a) with
    | none => putS d (w64 (-1)) s
    | some m =>
      let ts := placeAfter s.issue.gid (mapLines m) s
      putS d 0 (raiseClock s.issue.gid ts (unbind c m ts s))) s) s

/-- R260. -/
def execStflush (d a : SReg) (s : State) : Res :=
  word (.stflush d a) (fun x s => afterVmem (.stflush d a) (onVisit (.stflush d a) fun s =>
    let c := cellOf s.issue.gid
    match mapNamed s x.ctl.asid c (sGet x a) with
    | none => putS d (w64 (-1)) s
    | some m => putS d 0 (raiseClock s.issue.gid (placeAfter s.issue.gid (mapLines m) s) (flushMap c m s))) s) s

end Sys2Proof.Machine
end

