-- ==== Sys2Proof/Machine/Parts.lean ====
section
/-! DEFINITION. Partitions (R124, R125) and what a context leaves in a cell (R257, R279, R297). -/

namespace Sys2Proof.Machine

/-! ### The parts of a cell that are a context's -/

/-- The bytes of a stash below `t`, and those from `t` on. -/
def stashBelow (t : Nat) (x : Cell) : List Host.Cell := x.stash.filter fun b => decide (b.1 < t)
def stashFrom (t : Nat) (x : Cell) : List Host.Cell := x.stash.filter fun b => decide (t ≤ b.1)

/-- What is saved of a cell for a context. -/
def savedPart (a t : Nat) (x : Cell) : Cell :=
  { Cell.reset with
    stash := stashBelow t x, tags := x.tags.filter fun o => decide (8 * o < t)
    opnd := x.opnd, ohold := x.ohold, tile := x.tile, tpres := x.tpres, thold := x.thold, claims := x.claims, lastMma := x.lastMma
    maps := x.maps.filter fun m => m.asid == a
    feq := x.feq, mx := x.mx, mxLast := x.mxLast, mxgen := x.mxgen.filter fun q => q.1 == a, held := x.held
    units := x.units.filter fun q => q.1 / 8 == a }

/-- What stays in the cell. -/
def leftPart (a t : Nat) (x : Cell) : Cell :=
  { x with
    stash := stashFrom t x, tags := x.tags.filter fun o => decide (t ≤ 8 * o)
    opnd := [], ohold := [], tile := [], tpres := [], thold := [], claims := [], lastMma := []
    maps := x.maps.filter fun m => m.asid != a
    feq := [], mx := [], mxLast := 4, mxgen := x.mxgen.filter fun q => q.1 != a, held := []
    units := x.units.filter fun q => q.1 / 8 != a }

/-- The mapped lines of a context in a cell are written back and dropped (R261). -/
def dropLines (a : Nat) (c : CellKey) (s : State) : State :=
  (mapsOf s a c).foldl (fun s m => modMap c a m.entry (fun m => { m with present := [], dirty := [] }) (flushMap c m s)) s

/-- What a cell holds of a context goes: its mapped lines are written back, its stash is zero with empty tags (R125, R257), its operand
memory is zero (R279), and its channels have carried nothing (R262, R269). The generations of capabilities stay while the context lives
(R297). -/
def clearCell (a : Nat) (s : State) (c : CellKey) : State :=
  let s := dropLines a c s
  let t := tenantStash s c
  let s := modCell c (fun x => { leftPart a t x with joined := true, mxgen := x.mxgen }) s
  let s := ([4 * c, 4 * c + 1, 4 * c + 2, 4 * c + 3].filter fun k => !(fwCores s).contains k).foldl (fun s k =>
    if (coreAt s k).chans = [] then s else modCore k (fun x => { x with chans := [] }) s) s
  { s with mem := { s.mem with poison := s.mem.poison.filter fun k => decide (k < stashLoc c 0 / 128) || decide (stashLoc c t / 128 ≤ k) } }

/-! ### Partitions (R124, R125) -/

/-- The partitions of the other contexts, committed and in force (R124, R125). -/
def otherParts (s : State) (a : Nat) : List (Nat × Nat) :=
  (s.ctxs.filter fun c => c.1 != a).flatMap fun c => [(c.2.part.base, c.2.part.len), (c.2.part.curBase, c.2.part.curLen)]

/-- Whether a partition may stand beside others: it equals one or meets none, and at most 32 are distinct (R124, R125). -/
def partFits (others : List (Nat × Nat)) (b l : Nat) : Bool :=
  decide (1 ≤ l) && decide (b + l ≤ 256) &&
  others.all (fun o => o == (b, l) || decide (b + l ≤ o.1) || decide (o.1 + o.2 ≤ b)) &&
  decide (((b, l) :: others).eraseDups.length ≤ 32)

/-- A live grid or stage graph of a context (R125). -/
def hasLiveGrid (s : State) (a : Nat) : Bool := s.grids.any fun g => g.2.live && g.2.asid == a

/-- A committed partition is not in force yet. -/
def partPending (c : Ctx) : Bool := c.part.base != c.part.curBase || c.part.len != c.part.curLen

/-- Launches that are accepted now wait for a committed partition to take effect (R125). -/
def launchesWait (c : Ctx) : Bool := partPending c && c.rcd.tick == 0

/-- A launch or packet with number `k` waits: it came after the commit (R125). -/
def launchHeld (c : Ctx) (k : Nat) : Bool := launchesWait c && decide (c.part.since ≤ k)

/-- The cells of a range of Hilbert indices. -/
def cellRange (base len : Nat) : List CellKey := (List.range 256).filter fun k => decide (base ≤ hilbert k) && decide (hilbert k < base + len)

/-- Whether another context runs on a partition. -/
def runsElse (s : State) (a base len : Nat) : Bool :=
  s.ctxs.any fun c => c.1 != a && !c.2.out && c.2.part.curBase == base && c.2.part.curLen == len

/-- R125: a committed partition takes effect: cells that leave or join are cleared. A partition on which another context runs stays that
context's, and this one is switched out there (log entry 72, DESIGN CHOICE). -/
def applyPart (a : Nat) (s : State) : State :=
  match ctxAt s a with
  | none => s
  | some c =>
    let busy := runsElse s a c.part.base c.part.len
    let old := if c.out then [] else cellRange c.part.curBase c.part.curLen
    let new := if busy then [] else cellRange c.part.base c.part.len
    let moved := (old.filter fun k => !new.contains k) ++ (new.filter fun k => !old.contains k)
    modCtx a (fun c => { c with
      part := { c.part with curBase := c.part.base, curLen := c.part.len }
      out := busy, away := if busy then cellRange c.part.base c.part.len else []
      saved := if c.out || busy then [] else c.saved, savedCores := if c.out || busy then [] else c.savedCores })
      (moved.foldl (clearCell a) s)

/-- R125: CSET of PBASE stages a base. -/
def execCsetPbase (a : SReg) (s : State) : Res :=
  guardedWord (.csetPbase a) (cregFault 0x030)
    (fun x s => skip (modCtx x.ctl.asid (fun c => { c with part := { c.part with staged := some (bits (sGet x a) 0 8) } }) s)) s

/-- R125: CSET of PLEN checks and commits; with no ticks and no live grid the change takes effect at once. With no staged PBASE the committed
base stays, and a context without ticks may commit a partition that another context has (log entry 72, DESIGN CHOICE). -/
def commitPart (a : Nat) (len : Nat) (s : State) : State :=
  match ctxAt s a with
  | none => s
  | some c =>
    let b := c.part.staged.getD c.part.base
    if partFits (otherParts s a) b len then
      let s := modCtx a (fun c => { c with part := { c.part with base := b, len := len, staged := none, since := s.nextId } }) s
      if c.rcd.tick = 0 ∧ hasLiveGrid s a = false then applyPart a s else s
    else modCtx a (fun c => { c with part := { c.part with staged := none } }) s

def execCsetPlen (a : SReg) (s : State) : Res :=
  guardedWord (.csetPlen a) (cregFault 0x031)
    (fun x s => skip (commitPart x.ctl.asid (bits (sGet x a) 0 9) s)) s

/-- R125: a committed partition of a context without ticks takes effect once nothing of the context is live. -/
def applyDue (a : Nat) (s : State) : State :=
  match ctxAt s a with
  | some c => if partPending c = true ∧ c.rcd.tick = 0 ∧ hasLiveGrid s a = false then applyPart a s else s
  | none => s

end Sys2Proof.Machine
end

