-- ==== Sys2Proof/Machine/Atomics.lean ====
section
/-! DEFINITION. The words of atomics and Gecko routines (R326 to R331, R338 to R340), queued reservations (R343 to R345) and
JOIN (R188). -/

namespace Sys2Proof.Machine

/-! ### Returning operations -/

/-- A word's own register writes (R327, R329, R330, R338). -/
def applyWrites (ws : List RegWrite) (x : Slot) : Slot :=
  ws.foldl (fun x w => match w with | .s n v => sSet n v x | .p n v => pSet n v x | _ => x) x

/-- A returning operation: at its home now, or on its way there with the slot parked (R324, R327). -/
def returning (i : Instr) (d : SReg) (va : Word64) (op : AtomOp) (s : State) : State :=
  afterVmem i (withPlace i .write va fun p s =>
    let g := s.issue.gid
    let s := ownFirst p s
    if travels s p then parkIssued g .reply (send (.atomic (reqOf s va) (some d) op none) s)
    else match atomicAt (reqOf s va) p op s with
      | .error t => fault t s
      | .ok (g0, g1, ts, s) =>
        complete g (raiseClock g ts (modSlot g (applyWrites (atomicWrites d op g0 g1)) s))) s

/-- R327. -/
def execAmo (d a b : SReg) (o : AmoOp) (t : Ty) (s : State) : Res :=
  word (.amo d a b o t) (fun x s =>
    let va := sGet x a
    if va.toNat % (t.width / 8) ≠ 0 then fault (fAlign va) s else returning (.amo d a b o t) d va (.amo o t (sGet x b)) s) s

/-- R329. -/
def execCas (d a b : SReg) (t : Ty) (s : State) : Res :=
  word (.cas d a b t) (fun x s =>
    let va := sGet x a
    if va.toNat % (t.width / 8) ≠ 0 then fault (fAlign va) s else returning (.cas d a b t) d va (.cas t (sGet x d) (sGet x b)) s) s

/-- R330. -/
def execCas2 (d a b : SReg) (s : State) : Res :=
  word (.cas2 d a b) (fun x s =>
    let va := sGet x a
    if va.toNat % 16 ≠ 0 then fault (fAlign va) s
    else returning (.cas2 d a b) d va (.cas2 (sGet x d) (sGet x (sreg d 1)) (sGet x b) (sGet x (sreg b 1))) s) s

/-- The four operands of a routine (R335). -/
def routineArgs (x : Slot) (b : SReg) : Vector Word64 4 :=
  #v[sGet x b, sGet x (sreg b 1), sGet x (sreg b 2), sGet x (sreg b 3)]

/-- R338. -/
def execSlr (d a b : SReg) (i : BitVec 6) (s : State) : Res :=
  word (.slr d a b i) (fun x s => returning (.slr d a b i) d (sGet x a) (.routine i.toNat (routineArgs x b)) s) s

/-! ### Posted operations -/

/-- R331: the count is at its limit. -/
def postedFull (s : State) : Option TrapInfo := if 1024 ≤ (slotAt s s.issue.gid).posted then some fAmofull else none

/-- R332: the checks of R243 and R244 are made at issue; translation comes later. -/
def addressFault (s : State) (va : Word64) : Option TrapInfo :=
  if bits va 56 8 = 0xFF then
    match coordinate s (whoIs s s.issue.gid) va with
    | .trap t => some t
    | _ => none
  else if bits va 57 7 = 0 then none
  else some (fPage 3 va)

/-- A posted operation leaves its slot (R331). -/
def posting (va : Word64) (op : AtomOp) (s : State) : State :=
  match addressFault s va with
  | some t => fault t s
  | none =>
    let g := s.issue.gid
    skip (modSlot g (fun x => count 7 1 { x with posted := x.posted + 1 }) (send (.atomic (reqOf s va) none op none) s))

/-- R327, R331. -/
def execAmon (a b : SReg) (o : AmoOp) (t : Ty) (s : State) : Res :=
  guardedWord (.amon a b o t) postedFull (fun x s =>
    let va := sGet x a
    if va.toNat % (t.width / 8) ≠ 0 then fault (fAlign va) s else posting va (.amo o t (sGet x b)) s) s

/-- R338. -/
def execSlrn (a b : SReg) (i : BitVec 6) (s : State) : Res :=
  guardedWord (.slrn a b i) postedFull
    (fun x s => posting (sGet x a) (.routine i.toNat (routineArgs x b)) s) s

/-! ### Installing a routine (R340, R342) -/

/-- What the reads of an image give: bytes, the request with its clock, and the state; a fault; a page to serve; or a wait for one of the
slot's posted operations or for a cell. -/
inductive ImageRead where
  | ok (bs : List Byte) (q : Req) (s : State)
  | trap (t : TrapInfo)
  | page (va : Word64)
  | held (w : Wait)

/-- The image read as `n` 64-bit loads from an address, placed after what the slot has issued before (R320, R340). -/
def readImage (q : Req) (upto : Nat) (va : Word64) (n : Nat) (s : State) : ImageRead :=
  match n with
  | 0 => .ok [] q s
  | k + 1 =>
    match resolve s (reqWho s q) .read va with
    | .trap t => .trap t
    | .page => .page va
    | .away c => .held (.away c)
    | .go p =>
      let line := placeKey p / 128
      if poisoned s p 8 then .trap (fPage 2 va)
      else if (postedTo s q.gid line upto).isEmpty = false then .held (.posted line)
      else
        let r := stampRead q p (noteRemoteBy (cellOf q.gid) q.asid p s)
        let b := fetchBytes q.asid p 8 r.2
        match readImage { q with clock := r.1 } upto (va + 8) k b.2 with
        | .ok bs q s => .ok (b.1 ++ bs) q s
        | r => r

/-- R340: the image that an SLRINST names, read whole and checked; its bytes. -/
def imageAt (q : Req) (upto : Nat) (s : State) : ImageRead :=
  match readImage q upto q.va 1 s with
  | .ok h q1 s1 =>
    let n := (h.head?.getD 0).toNat
    if n = 0 ∨ 32 < n then .trap (fSlice 3 q.va)
    else
      match readImage q1 upto (q.va + 8) (ceilDiv n 2) s1 with
      | .ok bs q2 s2 => if imageOk (h ++ bs) then .ok ((h ++ bs).take (8 + 4 * n)) q2 s2 else .trap (fSlice 3 q.va)
      | r => r
  | r => r

/-- An image or its removal takes its place in a context's table (R335, R342). -/
def setRoutine (a id : Nat) (img : Option (List Byte)) (s : State) : State :=
  modCtx a (fun c => { c with
    routines := match img with | some b => tput c.routines id b | none => tdel c.routines id }) s

/-- The image or the removal of an SLRINST, once read (R340). -/
def install (q : Req) (upto id : Nat) (s : State) : ImageRead :=
  if q.va = 0 then .ok [] q (setRoutine q.asid id none s)
  else match imageAt q upto s with
    | .ok img q s => .ok img q (setRoutine q.asid id (some img) s)
    | r => r

/-- R340: an SLRINST at once: the slot's own posted operations are performed first. -/
def installNow (i : Instr) (id : Nat) (va : Word64) (s : State) : State :=
  let g := s.issue.gid
  let mine := s.net.filterMap fun m => match m.2 with | .atomic q none _ _ => if q.gid = g then reqLine s q else none | _ => none
  let s := mine.foldl (fun s l => flushPosted g l s.nextId s) s
  match install (reqOf s va) s.nextId id s with
  | .trap t => fault t s
  | .page v => pagePark i v .read s
  | .held w => parkAccess i w s
  | .ok _ q s => skip (raiseClock g q.clock s)

/-- R340. -/
def execSlrinst (a : SReg) (i : BitVec 6) (s : State) : Res :=
  word (.slrinst a i) (fun x s =>
    let va := sGet x a
    if va.toNat % 8 ≠ 0 then fault (fAlign va) s
    else afterVmem (.slrinst a i) (fun s =>
      if s.fly then parkIssued s.issue.gid .reply (send (.slrinst (reqOf s va) i.toNat) s)
      else installNow (.slrinst a i) i.toNat va s) s) s

/-! ### Queued reservations (R343 to R345) -/

/-- A word of reservations or joins at its address (R188, R343): aligned, after the slot's vector memory operations and its posted
operations to the line. -/
def resvAt (i : Instr) (va : Word64) (k : Place → State → State) (s : State) : State :=
  if va.toNat % 8 ≠ 0 then fault (fAlign va) s
  else afterVmem i (withPlace i .write va fun p s => afterPosted i p (k p) s) s

/-- The holder of a word, and who waits. -/
def resvOf (s : State) (key : Nat) : Resv := (tfind s.mem.resv key).getD { holder := none, fifo := [] }

/-- Whether an LRW has to wait: the word has a holder, here or, where its queue is kept on another device, perhaps there (R343, log entry 10,
DESIGN CHOICE); one that slots of this device wait for already has one. -/
def resvTaken (s : State) (key : Nat) : Bool :=
  let r := resvOf s key
  r.holder.isSome || (queueAway key && (!r.fifo.isEmpty || Config.peerFirst s.fresh))

/-- R344: LRW at the home of its word, for the slot that queues know as `name`: its fault; the value and the place in the single order of
the load that takes the free word; or nothing, and the slot is last in the FIFO. -/
def lrwStep (q : Req) (name : Nat) (p : Place) (s : State) : Except TrapInfo (Option (Word64 × Nat) × State) :=
  match atomicFault s q.va p with
  | some t => .error t
  | none =>
    let key := placeKey p
    let r := resvOf s key
    if r.holder = some name then .error (fPriv 0)
    else
      let wait := resvTaken s key
      let s := noteRemoteBy (cellOf q.gid) q.asid p { s with fresh := s.fresh + (queueAway key).toNat }
      if wait then .ok (none, putResv key { r with fifo := r.fifo ++ [name] } s)
      else
        let t := stampRead q p s
        let b := fetchBytes q.asid p 8 t.2
        .ok (some (n64 (leNat b.1), t.1), putResv key { r with holder := some name } b.2)

/-- R344: LRW where requests do not travel. -/
def takeResv (d : SReg) (va : Word64) (p : Place) (s : State) : State :=
  let g := s.issue.gid
  match lrwStep (reqOf s va) g p s with
  | .error t => fault t s
  | .ok (some v, s) => putS d v.1 (raiseClock g v.2 s)
  | .ok (none, s) => parkIssued g (.reserve d (placeKey p)) s

def execLrw (d a : SReg) (s : State) : Res :=
  word (.lrw d a) (fun x s =>
    if s.fly ∧ (sGet x a).toNat % 8 = 0 then
      afterVmem (.lrw d a) (fun s => parkIssued s.issue.gid .reply (send (.lrw (reqOf s (sGet x a)) d) s)) s
    else resvAt (.lrw d a) (sGet x a) (takeResv d (sGet x a)) s) s

/-- R344: SCH and SCHX: the holder passes the word on, with the value it stores or the one that stands there. -/
def passResv (va : Word64) (store : Option Word64) (p : Place) (s : State) : State :=
  let g := s.issue.gid
  let key := placeKey p
  match atomicFault s va p with
  | some t => fault t s
  | none =>
    if (resvOf s key).holder ≠ some g then fault (fPriv va) s
    else match store with
      | some v =>
        let s := storeAt g p (leBytes 8 v.toNat) s
        skip (handOver key v (slotAt s g).lclk s)
      | none =>
        let r := loadHomeAt g p 8 s
        skip (handOver key (n64 (leNat r.1)) (slotAt r.2 g).lclk r.2)

def execSch (a b : SReg) (s : State) : Res :=
  word (.sch a b) (fun x s => resvAt (.sch a b) (sGet x a) (passResv (sGet x a) (some (sGet x b))) s) s
def execSchx (a : SReg) (s : State) : Res :=
  word (.schx a) (fun x s => resvAt (.schx a) (sGet x a) (passResv (sGet x a) none) s) s

/-! ### JOIN (R188) -/

/-- What JOIN comes to at the home of its counter (R188). -/
inductive JoinEnd where
  /-- The slot goes on to N. -/
  | on
  /-- The slot goes idle. -/
  | idle
  /-- The slot is a keeper, and waits for the counter. -/
  | wait

/-- R188: JOIN at the home of its counter, for the slot that queues know as `name`: its fault, or what becomes of the slot, its place in
the single order, and the state with a waiting keeper woken. -/
def joinStep (q : Req) (name : Nat) (p : Place) (s : State) : Except TrapInfo (JoinEnd × Nat × State) :=
  match atomicFault s q.va p with
  | some t => .error t
  | none =>
    let key := placeKey p
    let waiter := tfind s.mem.joins key
    if isKeeper q.gid ∧ waiter.isSome then .error (fQueue 6)
    else
      let t := stampWrite q.clock p 8 (noteRemoteBy (cellOf q.gid) q.asid p s)
      let b := fetchBytes q.asid p 8 t.2
      let v : Word64 := n64 (leNat b.1) - 1
      let s := storeBytes q.asid p (leBytes 8 v.toNat) b.2
      if v ≠ 0 then
        if isKeeper q.gid then .ok (.wait, t.1, { s with mem := { s.mem with joins := tput s.mem.joins key name } })
        else .ok (.idle, t.1, s)
      else
        match waiter with
        | some w => .ok (.idle, t.1, grant w [] t.1 { s with mem := { s.mem with joins := tdel s.mem.joins key } })
        | none => .ok (.on, t.1, s)

/-- JOIN where requests do not travel (R188). -/
def joinAt (va : Word64) (p : Place) (s : State) : State :=
  let g := s.issue.gid
  match joinStep (reqOf s va) g p s with
  | .error t => fault t s
  | .ok (.on, ts, s) => complete g (raiseClock g ts s)
  | .ok (.idle, ts, s) => goIdle g (issued g (raiseClock g ts s))
  | .ok (.wait, ts, s) => parkIssued g (.join (placeKey p)) (raiseClock g ts s)

def execJoin (a : SReg) (s : State) : Res :=
  word (.join a) (fun x s =>
    if s.fly ∧ (sGet x a).toNat % 8 = 0 then
      afterVmem (.join a) (fun s => parkIssued s.issue.gid .reply (send (.join (reqOf s (sGet x a))) s)) s
    else resvAt (.join a) (sGet x a) (joinAt (sGet x a)) s) s

end Sys2Proof.Machine
end

