-- ==== Sys2Proof/Machine/Barriers.lean ====
section
/-! DEFINITION. Hardware barriers (R350 to R354), FENCE (R318) and the words of the copy channels (R262, R265, R268, R269). -/

namespace Sys2Proof.Machine

/-! ### Barriers -/

/-- A barrier that nobody has set (R350). -/
def Barrier.unset : Barrier := { c := 0, arr := [], g := 0, last := none, clock := 0 }

/-- A barrier of a context. -/
def barOf (s : State) (a n : Nat) : Barrier :=
  match ctxAt s a with
  | some c => (tfind c.bars n).getD Barrier.unset
  | none => Barrier.unset

/-- A barrier set. -/
def setBar (a n : Nat) (b : Barrier) (s : State) : State := modCtx a (fun c => { c with bars := tput c.bars n b }) s

/-- Whether a wait for generation `g` is over when the barrier stands at `now` (R352). -/
def barPassed (now g : Nat) : Bool :=
  let d := (now + 2 ^ 32 - g) % 2 ^ 32
  decide (1 ≤ d) && decide (d ≤ 2 ^ 31)

/-- R352: a barrier completes once it is set and has its arrivals: record and generation. The waiters look at the generation
(`barWaitOver`). -/
def barComplete (a n : Nat) (b : Barrier) (s : State) : State :=
  if b.c ≠ 0 ∧ b.c ≤ b.arr.length then
    setBar a n { b with arr := [], g := (b.g + 1) % 2 ^ 32, last := some { g := b.g, c := b.c, arr := b.arr } } s
  else setBar a n b s

/-- The place in the single order that a slot with clock `c` takes at a barrier (R304; its number by log entry 73, DESIGN CHOICE). -/
def barPlace (b : Barrier) (c : Nat) : Nat := max b.clock c + 1

/-- R352: BARI at the barrier unit, for a slot with clock `clk`: its place in the single order. -/
def barSet (a n c clk : Nat) (s : State) : Nat × State :=
  let b := barOf s a n
  let ts := barPlace b clk
  (ts, barComplete a n { b with c := c, clock := ts } s)

/-- R352: BARA at the barrier unit: the value for sD, the place in the single order, and the barrier with the arrival, whose time is read
on the device timer (log entry 11, DESIGN CHOICE). -/
def barArrive (a n : Nat) (g : SlotKey) (clk : Nat) (s : State) : Word64 × Nat × State :=
  let b := barOf s a n
  let ts := barPlace b clk
  if b.c = 0 then (w64 (-1), ts, setBar a n { b with clock := ts } s)
  else
    let r := readTimer s
    (n64 b.g, ts, barComplete a n { b with arr := b.arr ++ [{ gid := g, time := r.1 }], clock := ts } r.2)

/-- A BARW that waited is over: it stands in the single order after every arrival (R353). -/
def barWaitOver (g : SlotKey) (d : SReg) (b : Barrier) (s : State) : State :=
  finish g (raiseClock g (b.clock + 1) (modSlot g (sSet d 0) s))

def execBari (a : SReg) (n : Fin 64) (s : State) : Res :=
  word (.bari a n) (fun x => afterVmem (.bari a n) fun s =>
    let g := s.issue.gid
    let v := sGet x a
    if s.fly then parkIssued g .reply (send (.barInit (reqOf s 0) n.val v) s)
    else
      let r := barSet x.ctl.asid n.val (bits v 0 24) (slotAt s g).lclk s
      skip (raiseClock g r.1 r.2)) s

def execBara (d : SReg) (n : Fin 64) (s : State) : Res :=
  word (.bara d n) (fun x => afterVmem (.bara d n) fun s =>
    let g := s.issue.gid
    if s.fly then parkIssued g .reply (send (.barArrive (reqOf s 0) n.val d) s)
    else
      let r := barArrive x.ctl.asid n.val g (slotAt s g).lclk s
      putS d r.1 (raiseClock g r.2.1 r.2.2)) s

def execBarw (d a : SReg) (n : Fin 64) (s : State) : Res :=
  word (.barw d a n) (fun x => afterVmem (.barw d a n) fun s =>
    let gen := bits (sGet x a) 0 32
    let b := barOf s x.ctl.asid n.val
    if barPassed b.g gen then putS d 0 (raiseClock s.issue.gid (barPlace b (slotAt s s.issue.gid).lclk) s)
    else parkIssued s.issue.gid (.barrier d n.val gen) s) s

/-- The entry of a straggler record for a late arriver (R354). -/
def stragglerWord (a : Arrival) (first : Nat) : Word64 :=
  n64 (cellX (cellOf a.gid) + cellY (cellOf a.gid) * 2 ^ 4 + coreNo a.gid * 2 ^ 8 + slotNo a.gid * 2 ^ 10 +
    min 0xFFFFFFFF (a.time - first) * 2 ^ 16)

/-- R354: what BARQ reads of a record. -/
def barQuery (b : Barrier) (v : Word64) : Word64 :=
  match b.last with
  | none => w64 (-1)
  | some r =>
    match r.arr, r.arr.reverse with
    | f :: _, l :: ls =>
      if v = 0 then n64 (min 0xFFFFFFFF (l.time - f.time) + r.g * 2 ^ 32)
      else if v.toNat ≤ 4 ∧ v.toNat ≤ r.c then
        match (l :: ls)[v.toNat - 1]? with
        | some q => stragglerWord q f.time
        | none => w64 (-1)
      else w64 (-1)
    | _, _ => w64 (-1)

def execBarq (d a : SReg) (n : Fin 64) (s : State) : Res :=
  word (.barq d a n) (fun x s =>
    if s.fly then parkIssued s.issue.gid .reply (send (.barQuery (reqOf s 0) n.val d (sGet x a)) s)
    else putS d (barQuery (barOf s x.ctl.asid n.val) (sGet x a)) s) s

/-! ### FENCE (R318) -/

/-- Whether what a FENCE waits for is done (R318). -/
def fenceReady (s : State) (g : SlotKey) (sc : Scope) : Bool :=
  (slotAt s g).posted == 0 && !vmemPending s g && !copiesPending s g &&
  (decide (sc.code < 2) || !(s.net.any fun m => match m.2 with | .inval h _ _ => h == g | _ => false)) &&
  (decide (sc.code < 3) || !remoteFly s g false) && (decide (sc.code < 4) || !remoteFly s g true)

/-- R317, R318, R334. Every access before it is at its home by then, which is the release; the acquire gives up the slot's renewal
points. -/
def execFence (sc : Scope) (s : State) : Res :=
  let g := s.issue.gid
  .next (if fenceReady s g sc then amowEnd g (fun s => complete g (acquire g s)) s else parkIssued g (.drain (.fence sc)) s)

/-! ### Copy channels -/

/-- A channel of a core. -/
def chanAt (s : State) (c : CoreKey) (n : Nat) : Chan := (tfind (coreAt s c).chans n).getD Chan.reset

/-- A channel set. -/
def setChan (c : CoreKey) (n : Nat) (x : Chan) (s : State) : State := modCore c (fun k => { k with chans := tput k.chans n x }) s

/-- R265: CPY and CPYX at issue: the copy starts and sD is owed. -/
def startCopy (i : Instr) (d : SReg) (desc : Word64) (indexed acq rel : Bool) (sc : Scope) (ch : Nat) (s : State) : State :=
  let g := s.issue.gid
  let c := coreOf g
  let x := slotAt s g
  let k := chanAt s c ch
  if desc.toNat % 64 ≠ 0 then fault (fAlign desc) s
  else if k.cur.isSome then fault (fQueue 3) s
  else afterVmem i (fun s =>
    let q : Copy :=
      { gid := g, epoch := x.ctl.epoch, blk := blkOf s g, asid := x.ctl.asid, priv := privileged s g, d := d, desc := desc,
        indexed := indexed, acq := acq, rel := rel, scope := sc, clock := x.lclk, read := none, row := 0, col := 0, idx := none,
        page := none, outcome := none, undo := [] }
    skip (setPres g (.s d) .owed (setChan c ch { k with w0 := k.wp, status := 0, cur := some q } s))) s

def execCpy (d a : SReg) (acq rel : Bool) (sc : Scope) (ch : Fin 128) (s : State) : Res :=
  word (.cpy d a acq rel sc ch) (fun x s => startCopy (.cpy d a acq rel sc ch) d (sGet x a) false acq rel sc ch.val s) s
def execCpyx (d a : SReg) (acq rel : Bool) (sc : Scope) (ch : Fin 128) (s : State) : Res :=
  word (.cpyx d a acq rel sc ch) (fun x s => startCopy (.cpyx d a acq rel sc ch) d (sGet x a) true acq rel sc ch.val s) s

/-- The value of a CPYW whose wait is over (R268). -/
def cpywValue (k : Chan) (want : Nat) : Word64 :=
  if want ≤ k.w0 then 0
  else if 0 ≤ k.status then 0
  else if want ≤ k.failAt then 0
  else w64 k.status

/-- R268. -/
def execCpyw (d a b : SReg) (s : State) : Res :=
  word (.cpyw d a b) (fun x => afterVmem (.cpyw d a b) fun s =>
    let v := sGet x a
    if bits v 7 57 ≠ 0 then putS d (w64 (-2)) s
    else
      let k := chanAt s (coreOf s.issue.gid) (bits v 0 7)
      if (sGet x b).toNat ≤ k.wp then putS d (cpywValue k (sGet x b).toNat) (raiseClock s.issue.gid k.clock s)
      else parkIssued s.issue.gid (.copy d (bits v 0 7) (sGet x b)) s) s

/-- R269. -/
def execCpyq (d a : SReg) (s : State) : Res :=
  word (.cpyq d a) (fun x s =>
    let v := sGet x a
    putS d (if bits v 7 57 ≠ 0 then w64 (-2) else n64 (chanAt s (coreOf s.issue.gid) (bits v 0 7)).wp) s) s

end Sys2Proof.Machine
end

