-- ==== Sys2Proof/Machine/MatrixWords.lean ====
section
/-! DEFINITION. The scalar side of the matrix unit: claims (R279, R280), MXWAIT (R296), capabilities (R297, R298), remote
register writes (R151) and block sums (R300, R301). -/

namespace Sys2Proof.Machine

/-! ### Claims (R280) -/

/-- The fields of the operand of OCLAIM and OREL (R280). -/
def clCount (v : Word64) : Nat := bits v 0 6
def clFirst (v : Word64) : Nat := bits v 8 5
def clAcc (v : Word64) : Bool := bit v 16
def clSlot (v : Word64) : Nat := bits v 20 4
/-- The items it names. -/
def clItems (v : Word64) : List Nat := (List.range (clCount v)).map (clFirst v + ·)

/-- Whether the operand obeys R280, for a block of `slots` slots. -/
def clOk (v : Word64) (slots : Nat) : Bool :=
  bits v 6 2 == 0 && bits v 13 3 == 0 && bits v 17 3 == 0 && bits v 24 40 == 0 && decide (1 ≤ clCount v) &&
  decide (clFirst v + clCount v ≤ if clAcc v then 8 else 32) &&
  (if clAcc v then decide (clSlot v < slots) else clSlot v == 0)

/-- The slots of the block a slot belongs to. -/
def blockSlots (s : State) (g : SlotKey) : Nat :=
  match (coreAt s (coreOf g)).block with
  | some b => b.slots
  | none => 0

/-- The tables of holders of a cell: operand slots or tiles. -/
def holders (x : Cell) (tiles : Bool) : Tab Holder := if tiles then x.thold else x.ohold

/-- A table of holders of a cell set. -/
def setHolders (tiles : Bool) (t : Tab Holder) (x : Cell) : Cell :=
  if tiles then { x with thold := t } else { x with ohold := t }

/-- Whether an operation of the cell, queued or started, has not finished with an item (R280). -/
def itemUsed (s : State) (c : CellKey) (tiles : Bool) (n : Nat) : Bool :=
  ((List.range 4).any fun k => (coreAt s (4 * c + k)).queue.any fun e =>
    (if tiles then tileFields e.instr else osFields e.instr).contains n) ||
  (cellAt s c).mx.any fun m => (if tiles then mxTiles m else mxSlots m).contains n

/-- An item freed: a tile of which nothing is owed is full (R279). -/
def freeItem (c : CellKey) (tiles : Bool) (n : Nat) (s : State) : State :=
  modCell c (fun x =>
    let x := setHolders tiles (tdel (holders x tiles) n) x
    if tiles then { x with tpres := tdel x.tpres n, lastMma := tdel x.lastMma n } else x) s

/-- Released items that no operation uses any more are freed (R280). -/
def settleItems (c : CellKey) (s : State) : State :=
  [true, false].foldl (fun s tiles => (holders (cellAt s c) tiles).foldl (fun s h =>
    if h.2.left ∧ itemUsed s c tiles h.1 = false then freeItem c tiles h.1 s else s) s) s

/-- Whether a claim for items may be granted: each is free or held by the receiver (R280). -/
def itemsFree (x : Cell) (tiles : Bool) (items : List Nat) (dest : SlotKey) : Bool :=
  items.all fun n => (tfind (holders x tiles) n).isNone || holds (holders x tiles) n dest

/-- The items a slot holds, as a mask (R280). -/
def heldMask (x : Cell) (tiles : Bool) (dest : SlotKey) : Nat :=
  (List.range 32).foldl (fun m n => if holds (holders x tiles) n dest then m + 2 ^ n else m) 0

/-- The receiver takes the items (R280); a tile newly taken has had no TMMA (R296). -/
def takeItems (s : State) (dest : SlotKey) (tiles : Bool) (items : List Nat) (x : Cell) : Cell :=
  items.foldl (fun x n =>
    if holds (holders x tiles) n dest then x
    else
      let h : Holder := { asid := (slotAt s dest).ctl.asid, core := coreOf dest, slot := dest, left := false }
      let x := setHolders tiles (tput (holders x tiles) n h) x
      if tiles then { x with lastMma := tdel x.lastMma n } else x) x

/-- A keeper assigns tiles on behalf of a slot of its context: the holder is of the keeper's context. -/
def holderAsid (a : Nat) (dest : SlotKey) (x : Cell) : Cell :=
  let f := fun (h : Nat × Holder) => if h.2.slot = dest then (h.1, { h.2 with asid := a }) else h
  { x with ohold := x.ohold.map f, thold := x.thold.map f }

/-- R280: OCLAIM with its operand. -/
def oclaim (d : SReg) (v : Word64) (s : State) : State :=
  let g := s.issue.gid
  let c := cellOf g
  if clOk v (blockSlots s g) = false ∨ (clAcc v = true ∧ isKeeper g = false) then fault fWindow s
  else
    let dest := if clAcc v then 16 * coreOf g + clSlot v else g
    let x := cellAt s c
    if itemsFree x (clAcc v) (clItems v) dest then
      let s := modCell c (fun x => holderAsid (slotAt s g).ctl.asid dest (takeItems s dest (clAcc v) (clItems v) x)) s
      putS d (n64 (heldMask (cellAt s c) (clAcc v) dest)) s
    else
      let q : Claim :=
        { gid := g, epoch := (slotAt s g).ctl.epoch, d := d, tiles := clAcc v, start := clFirst v, count := clCount v, dest := dest }
      parkIssued g (.operand d) (modCell c (fun x => { x with claims := x.claims ++ [q] }) s)

def execOclaim (d a : SReg) (s : State) : Res := word (.oclaim d a) (fun x s => oclaim d (sGet x a) s) s

/-- R280: OREL with its operand. -/
def orel (v : Word64) (s : State) : State :=
  let g := s.issue.gid
  let c := cellOf g
  let dest := if clAcc v then 16 * coreOf g + clSlot v else g
  let t := holders (cellAt s c) (clAcc v)
  if clOk v (blockSlots s g) = false ∨ (isKeeper g = false ∧ dest ≠ g) ∨ (clItems v).all (holds t · dest) = false then
    fault fWindow s
  else
    let given := (clItems v).filter (holds t · dest)
    let mark := given.foldl (fun t n => match tfind t n with | some h => tput t n { h with left := true } | none => t) t
    skip (settleItems c (modCell c (fun x => loseItems (clAcc v) given (setHolders (clAcc v) mark x)) s))

def execOrel (a : SReg) (s : State) : Res := word (.orel a) (fun x s => orel (sGet x a) s) s

/-! ### MXWAIT (R296) -/

/-- The steps that a TMMA, by number and length, has completed: none while it is queued, all once it is gone. -/
def stepsDone (s : State) (g : SlotKey) (seq total : Nat) : Nat :=
  if (coreAt s (coreOf g)).queue.any (·.seq == seq) then 0
  else match (cellAt s (cellOf g)).mx.find? (·.seq == seq) with
    | some m => m.steps
    | none => total

/-- What MXWAIT waits for: the steps done of a TMMA, and whether that is enough (R296). -/
def mxProgress (s : State) (g : SlotKey) (seq total want : Nat) : Nat × Bool :=
  let n := stepsDone s g seq total
  (n, decide (min want total ≤ n))

def execMxwait (d a b : SReg) (s : State) : Res :=
  word (.mxwait d a b) (fun x s =>
    let g := s.issue.gid
    let v := sGet x a
    let n := bits v 0 3
    if bits v 3 61 ≠ 0 ∨ holds (cellAt s (cellOf g)).thold n g = false then fault fWindow s
    else match tfind (cellAt s (cellOf g)).lastMma n with
      | none => putS d 0 s
      | some (seq, total) =>
        let want := (sGet x b).toNat
        let r := mxProgress s g seq total want
        if r.2 then putS d (n64 r.1) s else parkIssued g (.sequencer d seq total want) s) s

/-! ### Capabilities (R297, R298) -/

/-- A cell's capability generation for a context (R297). -/
def capGen (x : Cell) (a : Nat) : Nat := (tfind x.mxgen a).getD 0

/-- R297. -/
def mxcap (d : SReg) (v : Word64) (s : State) : State :=
  let g := s.issue.gid
  let c := cellOf g
  let a := (slotAt s g).ctl.asid
  let old := capGen (cellAt s c) a
  if v.toNat &&& 0x103 ≠ v.toNat ∨ (bit v 8 = true ∧ old = 0xFFFF) then fault fCap s
  else
    let gen := if bit v 8 then old + 1 else old
    let s := if bit v 8 then modCell c (fun x => { x with mxgen := tput x.mxgen a gen }) s else s
    putS d (n64 (gen * 2 ^ 48 + a * 2 ^ 32 + (bit v 1).toNat * 2 ^ 25 + (bit v 0).toNat * 2 ^ 24 +
      cellY c * 2 ^ 4 + cellX c)) s

def execMxcap (d a : SReg) (s : State) : Res :=
  guardedWord (.mxcap d a) keeperOnly (fun x s => mxcap d (sGet x a) s) s

/-- R298: TMMAR's checks, and the command on its way. -/
def execTmmar (d a : SReg) (c : TmmarCmd) (s : State) : Res :=
  word (.tmmar d a c) (fun x s =>
    let k := sGet x a
    let cell := 16 * bits k 4 4 + bits k 0 4
    if bits k 26 6 ≠ 0 ∨ bits k 8 16 ≠ 0 ∨ bits k 32 16 ≠ x.ctl.asid then fault fCap s
    else if inPart s x.ctl.asid cell = false then fault (fPage 4 0) s
    else skip (setPres s.issue.gid (.s d) .owed (send (.tmmar (reqOf s 0) cell d k c) s))) s

/-! ### Remote register writes (R50, R151) and block sums (R300, R301) -/

/-- The cell of a target, absolute or relative (R50). -/
def targetCell (own : CellKey) (t : Target) : Option CellKey :=
  let x : Int := if t.rel then (cellX own : Nat) + t.x.toInt else (t.x.toNat : Nat)
  let y : Int := if t.rel then (cellY own : Nat) + t.y.toInt else (t.y.toNat : Nat)
  if x < 0 ∨ 15 < x ∨ y < 0 ∨ 15 < y then none else some (16 * y.toNat + x.toNat)

/-- R151: the checks of a target: its cell, or the fault. -/
def targetAt (s : State) (g : SlotKey) (t : Target) : Except TrapInfo CellKey :=
  match targetCell (cellOf g) t with
  | none => .error (fPage 3 0)
  | some c =>
    let w := whoIs s g
    if inPart s w.asid c = false then .error (fPage 4 0)
    else if w.fw = false ∧ s.boot.columns.contains (cellX c) ∧ t.core.val = 3 then .error (fPriv 0)
    else .ok c

/-- R42 step 4, R151: the faults that the target in imm32 gives, which no operand decides. -/
def targetFault (t : Target) (s : State) : Option TrapInfo :=
  match targetAt s s.issue.gid t with
  | .error f => some f
  | .ok _ => none

/-- R151. -/
def execRput (a : SReg) (t : Target) (s : State) : Res :=
  guardedWord (.rput a t) (targetFault t) (fun x s =>
    match targetAt s s.issue.gid t with
    | .error f => fault f s
    | .ok c => afterVmem (.rput a t) (fun s => skip (send (.rput (reqOf s 0) c t.core.val t.slot.val t.reg (sGet x a)) s)) s) s

/-- A block sum normalised before it is sent (R300). -/
def normSum (a f : Int) : Int × Int :=
  let r := halve47 a f 64
  cap47 r.1 r.2

/-- R300. -/
def execBsum (d a b : SReg) (s : State) : Res :=
  word (.bsum d a b) (fun x s =>
    let v := sGet x d
    match Target.ofCode (bits v 0 32) with
    | none => fault fIll s
    | some t =>
      match t.reg with
      | .s r =>
        if bits v 32 32 ≠ 0 ∨ bits v 0 7 ≠ 0 ∨ pairReg r = false ∨ t.wf = false then fault fIll s
        else match targetAt s s.issue.gid t with
          | .error f => fault f s
          | .ok c =>
            let p := normSum (sGet x a).toInt (sgn 16 (bits (sGet x b) 0 16))
            afterVmem (.bsum d a b) (fun s => skip (send (.bsum (reqOf s 0) c t.core.val t.slot.val r p.1 p.2) s)) s
      | _ => fault fIll s) s

/-- R301. -/
def execBsacc (d a : SReg) (s : State) : Res :=
  word (.bsacc d a) (fun x s =>
    let g := s.issue.gid
    let n := bits (sGet x a) 0 16
    if n = 0 then complete g (modSlot g (fun x => sSet (sreg d 1) 0 (sSet d 0 x)) s)
    else if 4 ≤ x.bsaccs.length then fault (fQueue 5) s
    else skip (setPresAll g [.s d, .s (sreg d 1)] .owed
      (modSlot g (fun x => { x with bsaccs := x.bsaccs ++ [{ reg := d, left := n, m := 0, e := 0 }] }) s))) s

end Sys2Proof.Machine
end

