-- ==== Sys2Proof/Machine/VectorWords.lean ====
section
/-! DEFINITION. The words of the vector class at issue: the checks of R42, the faults of R252, R282 and R295 that are taken
precisely, and the dispatch queue (R149, R150, R210). What the operations compute is in Vector.lean and Matrix.lean. -/

namespace Sys2Proof.Machine

/-- R42 step 4: a vector field outside the window (R150), or a matrix item the slot does not hold (R279). -/
def vectorFault (i : Instr) (s : State) : Option TrapInfo :=
  let g := s.issue.gid
  let c := cellAt s (cellOf g)
  if (vfields i).any (fun n => decide ((slotAt s g).win.size ≤ n)) ∨
     (osFields i).any (fun n => !holds c.ohold n g) ∨ (tileFields i).any (fun n => !holds c.thold n g) then some fWindow
  else none

/-- The bank of a slot's window is woken for a word that uses its registers, which waits for it (R143, R378). -/
def parkBank (s : State) : State :=
  let g := s.issue.gid
  let c := cellOf g
  let b := (slotAt s g).win.base / 32
  park g (.bank c b) (modCell c (fun x => { x with retained := sdel x.retained b, waking := sadd x.waking b }) s)

/-- A word enters its core's dispatch queue (R210): scalars captured, destinations owed. -/
def enqueue (i : Instr) (s : State) : State :=
  let g := s.issue.gid
  let x := slotAt s g
  let q : QEntry := { seq := s.nextId, gid := g, epoch := x.ctl.epoch, instr := i, scal := (scalars i).map (sGet x) }
  let s := modCore (coreOf g) (fun c => { c with queue := c.queue ++ [q] }) { s with nextId := s.nextId + 1 }
  let s := match i with
    | .tmma _ _ _ _ _ _ _ _ n =>
      modCell (cellOf g) (fun c => { c with
        lastMma := (tileFields i).foldl (fun t k => tput t k (q.seq, 64 * (n.toNat + 1))) c.lastMma }) s
    | _ => s
  complete g (setPresAll g (owes i) .owed (modSlot g (count 8 1) s))

/-- The capacity of a dispatch queue (R210). -/
def queueCap : Nat := 16

/-- A vector-class word (R42): window, presence, operand faults, bank, queue. -/
def queueWord (i : Instr) (faults : Slot → State → Option TrapInfo) (s : State) : Res :=
  let g := s.issue.gid
  .next (match vectorFault i s with
    | some t => fault t s
    | none =>
      if blocked s g (reads i) [] then park g (.presence (reads i) []) s
      else match faults (slotAt s g) s with
        | some t => fault t s
        | none =>
          if vfields i ≠ [] ∧ bankAwake s (cellOf g) (slotAt s g).win.base = false then parkBank s
          else if queueCap ≤ (coreAt s (coreOf g)).queue.length then park g .queue s
          else enqueue i s)

/-- A word with no fault that its operands decide (R213). -/
def plainVector (i : Instr) (s : State) : Res := queueWord i (fun _ _ => none) s

/-! ### Arithmetic, comparison, logic, movement and masks (R226 to R241) -/

def execVadd (d a b : VRegNo) (m : MReg) (t : Ty) (rm : Rm) (s : State) : Res := plainVector (.vadd d a b m t rm) s
def execVsub (d a b : VRegNo) (m : MReg) (t : Ty) (rm : Rm) (s : State) : Res := plainVector (.vsub d a b m t rm) s
def execVmul (d a b : VRegNo) (m : MReg) (t : Ty) (rm : Rm) (s : State) : Res := plainVector (.vmul d a b m t rm) s
def execVfma (d a b c : VRegNo) (m : MReg) (t : Ty) (rm : Rm) (s : State) : Res := plainVector (.vfma d a b c m t rm) s
def execVfms (d a b c : VRegNo) (m : MReg) (t : Ty) (rm : Rm) (s : State) : Res := plainVector (.vfms d a b c m t rm) s
def execVfnma (d a b c : VRegNo) (m : MReg) (t : Ty) (rm : Rm) (s : State) : Res := plainVector (.vfnma d a b c m t rm) s
def execVmin (d a b : VRegNo) (m : MReg) (t : Ty) (s : State) : Res := plainVector (.vmin d a b m t) s
def execVmax (d a b : VRegNo) (m : MReg) (t : Ty) (s : State) : Res := plainVector (.vmax d a b m t) s
def execVabs (d a : VRegNo) (m : MReg) (t : Ty) (s : State) : Res := plainVector (.vabs d a m t) s
def execVneg (d a : VRegNo) (m : MReg) (t : Ty) (s : State) : Res := plainVector (.vneg d a m t) s
def execVdiv (d a b : VRegNo) (m : MReg) (t : Ty) (rm : Rm) (s : State) : Res := plainVector (.vdiv d a b m t rm) s
def execVsqrt (d a : VRegNo) (m : MReg) (t : Ty) (rm : Rm) (s : State) : Res := plainVector (.vsqrt d a m t rm) s
def execVrcpa (d a : VRegNo) (m : MReg) (t : Ty) (s : State) : Res := plainVector (.vrcpa d a m t) s
def execVrsqa (d a : VRegNo) (m : MReg) (t : Ty) (s : State) : Res := plainVector (.vrsqa d a m t) s
def execVexpa (d a : VRegNo) (m : MReg) (t : Ty) (s : State) : Res := plainVector (.vexpa d a m t) s
def execVloga (d a : VRegNo) (m : MReg) (t : Ty) (s : State) : Res := plainVector (.vloga d a m t) s
def execVcmp (d : MReg) (a b : VRegNo) (m : MReg) (t : Ty) (c : VCond) (s : State) : Res :=
  plainVector (.vcmp d a b m t c) s
def execVsel (d a b : VRegNo) (m : MReg) (t : Ty) (s : State) : Res := plainVector (.vsel d a b m t) s
def execVand (d a b : VRegNo) (m : MReg) (t : Ty) (s : State) : Res := plainVector (.vand d a b m t) s
def execVor (d a b : VRegNo) (m : MReg) (t : Ty) (s : State) : Res := plainVector (.vor d a b m t) s
def execVxor (d a b : VRegNo) (m : MReg) (t : Ty) (s : State) : Res := plainVector (.vxor d a b m t) s
def execVnot (d a : VRegNo) (m : MReg) (t : Ty) (s : State) : Res := plainVector (.vnot d a m t) s
def execVshl (d a : VRegNo) (n : ShCount) (m : MReg) (t : Ty) (s : State) : Res := plainVector (.vshl d a n m t) s
def execVshrz (d a : VRegNo) (n : ShCount) (m : MReg) (t : Ty) (s : State) : Res := plainVector (.vshrz d a n m t) s
def execVshrs (d a : VRegNo) (n : ShCount) (m : MReg) (t : Ty) (s : State) : Res := plainVector (.vshrs d a n m t) s
def execVadds (d a b : VRegNo) (m : MReg) (t : Ty) (s : State) : Res := plainVector (.vadds d a b m t) s
def execVsubs (d a b : VRegNo) (m : MReg) (t : Ty) (s : State) : Res := plainVector (.vsubs d a b m t) s
def execVmulh (d a b : VRegNo) (m : MReg) (t : Ty) (s : State) : Res := plainVector (.vmulh d a b m t) s
def execVdot4 (d a b : VRegNo) (m : MReg) (t : Ty) (sat : Bool) (s : State) : Res := plainVector (.vdot4 d a b m t sat) s
def execVcvt (d a : VRegNo) (m : MReg) (td ts : Ty) (rm : Rm) (part : BitVec 3) (sat : Bool) (s : State) : Res :=
  plainVector (.vcvt d a m td ts rm part sat) s
def execVbcast (d : VRegNo) (c : SReg) (m : MReg) (t : Ty) (s : State) : Res := plainVector (.vbcast d c m t) s
def execVidx (d : VRegNo) (c : SReg) (m : MReg) (t : Ty) (s : State) : Res := plainVector (.vidx d c m t) s
def execVperm (d a b : VRegNo) (m : MReg) (t : Ty) (s : State) : Res := plainVector (.vperm d a b m t) s
def execVslide (d a b : VRegNo) (m : MReg) (t : Ty) (k : BitVec 8) (s : State) : Res := plainVector (.vslide d a b m t k) s
def execVredadd (d : SReg) (a : VRegNo) (c : SReg) (m : MReg) (t : Ty) (rm : Rm) (s : State) : Res :=
  plainVector (.vredadd d a c m t rm) s
def execVredmin (d : SReg) (a : VRegNo) (c : SReg) (m : MReg) (t : Ty) (s : State) : Res := plainVector (.vredmin d a c m t) s
def execVredmax (d : SReg) (a : VRegNo) (c : SReg) (m : MReg) (t : Ty) (s : State) : Res := plainVector (.vredmax d a c m t) s
def execVscan (d a : VRegNo) (m : MReg) (t : Ty) (rm : Rm) (o : ScanOp) (s : State) : Res :=
  plainVector (.vscan d a m t rm o) s
def execVcomp (d a : VRegNo) (m : MReg) (t : Ty) (s : State) : Res := plainVector (.vcomp d a m t) s
def execVxpnd (d a : VRegNo) (m : MReg) (t : Ty) (s : State) : Res := plainVector (.vxpnd d a m t) s
def execVpack (d a b : VRegNo) (m : MReg) (t : Ty) (sat : Bool) (s : State) : Res := plainVector (.vpack d a b m t sat) s
def execVunpk (d a : VRegNo) (m : MReg) (t : Ty) (hi : Bool) (s : State) : Res := plainVector (.vunpk d a m t hi) s
def execVmov (d a : VRegNo) (m : MReg) (t : Ty) (s : State) : Res := plainVector (.vmov d a m t) s
def execVext (d : SReg) (a : VRegNo) (t : Ty) (k : BitVec 8) (s : State) : Res := plainVector (.vext d a t k) s
def execVins (d : VRegNo) (c : SReg) (t : Ty) (k : BitVec 8) (s : State) : Res := plainVector (.vins d c t k) s
def execMand (d a b : MReg) (s : State) : Res := plainVector (.mand d a b) s
def execMor (d a b : MReg) (s : State) : Res := plainVector (.mor d a b) s
def execMxor (d a b : MReg) (s : State) : Res := plainVector (.mxor d a b) s
def execMnot (d a : MReg) (s : State) : Res := plainVector (.mnot d a) s
def execMpopc (d : SReg) (a : MReg) (t : Ty) (s : State) : Res := plainVector (.mpopc d a t) s
def execMfirst (d : SReg) (a : MReg) (t : Ty) (s : State) : Res := plainVector (.mfirst d a t) s

/-! ### Vector memory (R250 to R252) -/

/-- The address of element `e` (R251), from the captured scalars and the index register. -/
def vmemAddr (i : Instr) (scal : List Word64) (idx : Nat) (e : Nat) : Word64 :=
  let base := (scal[0]?).getD 0
  let stride := (scal[1]?).getD 0
  match i with
  | .vld _ _ _ t o | .vst _ _ _ t o => base + (o.signExtend 64 <<< 3) + n64 (e * (t.width / 8))
  | .vlds .. | .vsts .. => base + n64 e * stride
  | .vgath _ _ _ _ t k | .vscat _ _ _ _ t k => base + (n64 (elem idx t.width e) <<< k.toNat)
  | _ => base

/-- The type of a vector memory operation. -/
def vmemTy : Instr → Ty
  | .vld _ _ _ t _ | .vst _ _ _ t _ | .vlds _ _ _ _ t | .vsts _ _ _ _ t | .vgath _ _ _ _ t _ | .vscat _ _ _ _ t _ => t
  | _ => .b64

/-- Whether element `e` of width `w` is active (R215). -/
def active (m : MVal) (w e : Nat) : Bool := m.getLsbD (w * e / 8)

/-- The active elements of a type under a mask. -/
def actives (m : MVal) (t : Ty) : List Nat := (List.range t.count).filter (active m t.width)

/-- The precise checks of one element address: alignment, and those of R243 and R244 (R252). -/
def elemFault (s : State) (w : Who) (n : Nat) (va : Word64) : Option TrapInfo :=
  if va.toNat % n ≠ 0 then some (fAlign va)
  else if bits va 56 8 = 0xFF then
    match coordinate s w va with
    | .trap t => some t
    | _ => none
  else if bits va 57 7 = 0 then none
  else some (fPage 3 va)

/-- R252: the faults of VLD, VST, VLDS and VSTS taken at issue, where the mask is known. -/
def vmemFault (i : Instr) (m : MReg) (x : Slot) (s : State) : Option TrapInfo :=
  let g := s.issue.gid
  if presOf s g (.m m) ≠ .full then none
  else
    let t := vmemTy i
    (actives (mGet x m) t).findSome? fun e =>
      elemFault s (whoIs s g) (t.width / 8) (vmemAddr i ((scalars i).map (sGet x)) 0 e)

def execVld (d : VRegNo) (c : SReg) (m : MReg) (t : Ty) (o : BitVec 10) (s : State) : Res :=
  queueWord (.vld d c m t o) (vmemFault (.vld d c m t o) m) s
def execVst (a : VRegNo) (c : SReg) (m : MReg) (t : Ty) (o : BitVec 10) (s : State) : Res :=
  queueWord (.vst a c m t o) (vmemFault (.vst a c m t o) m) s
def execVlds (d : VRegNo) (b c : SReg) (m : MReg) (t : Ty) (s : State) : Res :=
  queueWord (.vlds d b c m t) (vmemFault (.vlds d b c m t) m) s
def execVsts (a : VRegNo) (b c : SReg) (m : MReg) (t : Ty) (s : State) : Res :=
  queueWord (.vsts a b c m t) (vmemFault (.vsts a b c m t) m) s
def execVgath (d a : VRegNo) (c : SReg) (m : MReg) (t : Ty) (k : BitVec 3) (s : State) : Res :=
  plainVector (.vgath d a c m t k) s
def execVscat (a b : VRegNo) (c : SReg) (m : MReg) (t : Ty) (k : BitVec 3) (s : State) : Res :=
  plainVector (.vscat a b c m t k) s

/-! ### Matrix words (R282 to R295) -/

/-- R282, R295: base and stride must be multiples of the element size. -/
def strideFault (n : Nat) (base stride : Word64) : Option TrapInfo :=
  if base.toNat % n ≠ 0 ∨ stride.toNat % n ≠ 0 then some (fAlign base) else none

def execOload (o : OSlot) (b c : SReg) (t : Ty) (shapeB tr : Bool) (acq : Option Scope) (s : State) : Res :=
  queueWord (.oload o b c t shapeB tr acq) (fun x _ => strideFault (t.width / 8) (sGet x c) (sGet x b)) s
def execOfill (o : OSlot) (a : VRegNo) (seg k : BitVec 5) (s : State) : Res := plainVector (.ofill o a seg k) s
def execTmma (acc : AccNo) (oa ob : OSlot) (c : Option SReg) (t : Ty) (rm : Rm) (z xb : Bool) (n : BitVec 5)
    (s : State) : Res := plainVector (.tmma acc oa ob c t rm z xb n) s
def execAzero (acc : AccNo) (s : State) : Res := plainVector (.azero acc) s
def execAstore (st : SReg) (acc : AccNo) (vb : Option VRegNo) (c : SReg) (t : Ty) (rm : Rm) (sat : Bool) (src : AccSrc)
    (s : State) : Res :=
  queueWord (.astore st acc vb c t rm sat src) (fun x _ => strideFault (t.width / 8) (sGet x c) (sGet x st)) s
def execAvec (d : VRegNo) (acc : AccNo) (row : BitVec 6) (s : State) : Res := plainVector (.avec d acc row) s

end Sys2Proof.Machine
end

