-- ==== Sys2Proof/Machine/Vector.lean ====
section
/-! DEFINITION. What the operations of the wide unit compute from their sources (R214, R215, R226 to R241). -/

namespace Sys2Proof.Machine

/-- The sources of an operation when it starts: the vector and mask registers it reads, and the captured scalars (R210, R211). -/
structure Srcs where
  regs : List RegWrite
  s    : List Word64
deriving DecidableEq, Repr

/-- A vector source. -/
def Srcs.v (r : Srcs) (n : Nat) : VVal :=
  (r.regs.findSome? fun w => match w with | .v k x => if k.val = n then some x else none | _ => none).getD 0

/-- A mask source; m0 reads all ones (R146). -/
def Srcs.m (r : Srcs) (n : MReg) : MVal :=
  if n = 0 then BitVec.allOnes 256
  else (r.regs.findSome? fun w => match w with | .m k x => if k = n then some x else none | _ => none).getD 0

/-- The captured scalar. -/
def Srcs.sca (r : Srcs) : Nat := ((r.s[0]?).getD 0).toNat

/-- Element `i` of a vector source. -/
def Srcs.el (r : Srcs) (t : Ty) (a : VRegNo) (i : Nat) : Nat := elem (r.v a.val).toNat t.width i

/-- A register of elements of width `w`, given by its function. -/
def buildV (w : Nat) (f : Nat → Nat) : VVal := BitVec.ofNat 2048 (ofElems w ((List.range (2048 / w)).map f))

/-- A merging result (R215): active elements by a function, the others kept. -/
def merge (r : Srcs) (d : VRegNo) (m : MReg) (w : Nat) (f : Nat → Nat) : List RegWrite :=
  let old := (r.v d.val).toNat
  let k := r.m m
  [.v d (buildV w fun i => if active k w i then f i else elem old w i)]

/-- A merging result on two sources. -/
def merge2 (r : Srcs) (d a b : VRegNo) (m : MReg) (t : Ty) (f : Nat → Nat → Nat) : List RegWrite :=
  merge r d m t.width fun i => f (r.el t a i) (r.el t b i)

/-- A merging result on one source. -/
def merge1 (r : Srcs) (d a : VRegNo) (m : MReg) (t : Ty) (f : Nat → Nat) : List RegWrite :=
  merge r d m t.width fun i => f (r.el t a i)

/-! ### Functions of one element -/

/-- Addition, subtraction, multiplication, minimum and maximum of a type (R226). -/
def elemArith (o : Arith) (t : Ty) (rm : Rm) (x y : Nat) : Nat :=
  if t.isFloat then
    match o with
    | .add => fAdd (fmtOf t) rm x y
    | .sub => fSub (fmtOf t) rm x y
    | .mul => fMul (fmtOf t) rm x y
    | .min => minNumber (fmtOf t) x y
    | .max => maxNumber (fmtOf t) x y
  else intLane o t x y

/-- VABS (R226). -/
def elemAbs (t : Ty) (x : Nat) : Nat :=
  if t.isFloat then x % 2 ^ (t.width - 1) else wrap t.width (intOf t x).natAbs

/-- VNEG (R226). -/
def elemNeg (t : Ty) (x : Nat) : Nat :=
  if t.isFloat then x ^^^ 2 ^ (t.width - 1) else wrap t.width (-(intOf t x))

/-- The comparison of VCMP (R228). -/
def elemCmp (c : VCond) (t : Ty) (x y : Nat) : Bool :=
  let o : Option Ordering :=
    if t.isFloat then fvCmp (unpack (fmtOf t) x) (unpack (fmtOf t) y) else some (compare (intOf t x) (intOf t y))
  match c with
  | .eq => o == some .eq
  | .ne => o != some .eq
  | .lt => o == some .lt
  | .le => o == some .lt || o == some .eq
  | .un => o == none

/-- Shifts of one element of `w` bits (R230). -/
def elemShl (w x c : Nat) : Nat := x * 2 ^ (c % w) % 2 ^ w
def elemShrz (w x c : Nat) : Nat := x / 2 ^ (c % w)
def elemShrs (w x c : Nat) : Nat := wrap w (sgn w x / (2 ^ (c % w) : Nat))

/-- The count of a vector shift for element `i` (R230). -/
def shCount (r : Srcs) (t : Ty) (n : ShCount) (i : Nat) : Nat :=
  match n with
  | .vec b => r.el t b i
  | .sca _ => r.sca

/-- The upper half of a product (R231). -/
def elemMulh (t : Ty) (x y : Nat) : Nat := wrap t.width (intOf t x * intOf t y / (2 ^ t.width : Nat))

/-- VDOT4 of one 32-bit element (R232): accumulator and the two groups of four bytes. -/
def dot4 (t : Ty) (sat : Bool) (acc x y : Nat) : Nat :=
  let wide : Ty := if t = .s8 then .s32 else .z32
  let s := (List.range 4).foldl (fun z k => z + intOf t (elem x 8 k) * intOf t (elem y 8 k)) (intOf wide acc)
  if sat then satInt wide s else wrap 32 s

/-- A value of `w` bits as a 64-bit scalar: sign-extended for s types (R238, R239). -/
def extendTo64 (t : Ty) (v : Nat) : Word64 := if t.isSigned then sext64 t.width v else n64 v

/-- The half-width type of a type of R237. -/
def halfTy : Ty → Ty
  | .s16 => .s8 | .s32 => .s16 | .s64 => .s32 | .z16 => .z8 | .z32 => .z16 | .z64 => .z32
  | .b16 => .b8 | .b32 => .b16 | _ => .b32

/-! ### Reductions and scans (R239, R240) -/

/-- comb with an absent side (R239). -/
def combine (f : Nat → Nat → Nat) (x y : Option Nat) : Option Nat :=
  match x, y with
  | some a, some b => some (f a b)
  | some a, none => some a
  | none, y => y

/-- One level of the tree (R239). -/
def pairUp (f : Nat → Nat → Nat) : List (Option Nat) → List (Option Nat)
  | x :: y :: r => combine f x y :: pairUp f r
  | l => l

/-- The tree of R239 over `levels` levels. -/
def redTree (f : Nat → Nat → Nat) (levels : Nat) (l : List (Option Nat)) : Option Nat :=
  match levels with
  | 0 => l.head?.join
  | k + 1 => redTree f k (pairUp f l)

/-- A reduction (R239). -/
def reduce (r : Srcs) (d : SReg) (a : VRegNo) (m : MReg) (t : Ty) (f : Nat → Nat → Nat) : List RegWrite :=
  let l := (List.range t.count).map fun i => if active (r.m m) t.width i then some (r.el t a i) else none
  let x := r.sca % 2 ^ t.width
  [.s d (extendTo64 t (match redTree f t.count.log2 l with | some y => f x y | none => x))]

/-- The function of a scan (R240). -/
def scanArith : ScanOp → Arith
  | .add => .add
  | .min => .min
  | .max => .max

/-- The values of a scan, in element order: none for an inactive element (R240). -/
def scanList (f : Nat → Nat → Nat) (acc : Option Nat) : List (Option Nat) → List (Option Nat)
  | [] => []
  | none :: r => none :: scanList f acc r
  | some x :: r => combine f acc (some x) :: scanList f (combine f acc (some x)) r

/-! ### Conversion (R233) -/

/-- VCVT (R233). -/
def vcvt (r : Srcs) (d a : VRegNo) (m : MReg) (td ts : Ty) (rm : Rm) (part : Nat) (sat : Bool) : List RegWrite :=
  let n := 2048 / max ts.width td.width
  let old := (r.v d.val).toNat
  let k := r.m m
  [.v d (buildV td.width fun i =>
    if td.width < ts.width then
      if part * n ≤ i ∧ i < part * n + n ∧ active k td.width i = true then convert td ts rm sat (r.el ts a (i - part * n))
      else elem old td.width i
    else if active k td.width i then convert td ts rm sat (r.el ts a (part * n + i)) else elem old td.width i)]

/-! ### Every operation of chapter 9 -/

/-- What an operation writes, from its sources (R226 to R241). -/
def vecResult (r : Srcs) : Instr → List RegWrite
  | .vadd d a b m t rm => merge2 r d a b m t (elemArith .add t rm)
  | .vsub d a b m t rm => merge2 r d a b m t (elemArith .sub t rm)
  | .vmul d a b m t rm => merge2 r d a b m t (elemArith .mul t rm)
  | .vdiv d a b m t rm => merge2 r d a b m t (fDiv (fmtOf t) rm)
  | .vfma d a b c m t rm =>
    merge r d m t.width fun i => fFma (fmtOf t) rm false false (r.el t a i) (r.el t b i) (r.el t c i)
  | .vfms d a b c m t rm =>
    merge r d m t.width fun i => fFma (fmtOf t) rm false true (r.el t a i) (r.el t b i) (r.el t c i)
  | .vfnma d a b c m t rm =>
    merge r d m t.width fun i => fFma (fmtOf t) rm true false (r.el t a i) (r.el t b i) (r.el t c i)
  | .vmin d a b m t => merge2 r d a b m t (elemArith .min t .rne)
  | .vmax d a b m t => merge2 r d a b m t (elemArith .max t .rne)
  | .vabs d a m t => merge1 r d a m t (elemAbs t)
  | .vneg d a m t => merge1 r d a m t (elemNeg t)
  | .vsqrt d a m t rm => merge1 r d a m t (fSqrt (fmtOf t) rm)
  | .vrcpa d a m t => merge1 r d a m t (approxElem 0 t)
  | .vrsqa d a m t => merge1 r d a m t (approxElem 1 t)
  | .vexpa d a m t => merge1 r d a m t (approxElem 2 t)
  | .vloga d a m t => merge1 r d a m t (approxElem 3 t)
  | .vcmp d a b m t c =>
    let old := (r.m d).toNat
    let k := r.m m
    let w := t.width / 8
    [.m d (BitVec.ofNat 256 (ofElems w ((List.range t.count).map fun i =>
      if active k t.width i then (if elemCmp c t (r.el t a i) (r.el t b i) then 2 ^ w - 1 else 0) else elem old w i)))]
  | .vsel d a b m t => [.v d (buildV t.width fun i => if active (r.m m) t.width i then r.el t a i else r.el t b i)]
  | .vand d a b m t => merge2 r d a b m t (fun x y => x &&& y)
  | .vor d a b m t => merge2 r d a b m t (fun x y => x ||| y)
  | .vxor d a b m t => merge2 r d a b m t (fun x y => x ^^^ y)
  | .vnot d a m t => merge1 r d a m t (fun x => 2 ^ t.width - 1 - x)
  | .vshl d a n m t => merge r d m t.width fun i => elemShl t.width (r.el t a i) (shCount r t n i)
  | .vshrz d a n m t => merge r d m t.width fun i => elemShrz t.width (r.el t a i) (shCount r t n i)
  | .vshrs d a n m t => merge r d m t.width fun i => elemShrs t.width (r.el t a i) (shCount r t n i)
  | .vadds d a b m t => merge2 r d a b m t (fun x y => satInt t (intOf t x + intOf t y))
  | .vsubs d a b m t => merge2 r d a b m t (fun x y => satInt t (intOf t x - intOf t y))
  | .vmulh d a b m t => merge2 r d a b m t (elemMulh t)
  | .vdot4 d a b m t sat =>
    merge r d m 32 fun i => dot4 t sat (r.el .b32 d i) (r.el .b32 a i) (r.el .b32 b i)
  | .vcvt d a m td ts rm part sat => vcvt r d a m td ts rm part.toNat sat
  | .vbcast d _ m t => merge r d m t.width fun _ => r.sca % 2 ^ t.width
  | .vidx d _ m t => merge r d m t.width fun i => (r.sca + i) % 2 ^ t.width
  | .vperm d a b m t =>
    merge r d m t.width fun i => if r.el t b i < t.count then r.el t a (r.el t b i) else 0
  | .vslide d a b m t k =>
    merge r d m t.width fun i =>
      if i + k.toNat < t.count then r.el t a (i + k.toNat) else r.el t b (i + k.toNat - t.count)
  | .vredadd d a _ m t rm => reduce r d a m t (elemArith .add t rm)
  | .vredmin d a _ m t => reduce r d a m t (elemArith .min t .rne)
  | .vredmax d a _ m t => reduce r d a m t (elemArith .max t .rne)
  | .vscan d a m t rm o =>
    let l := (List.range t.count).map fun i => if active (r.m m) t.width i then some (r.el t a i) else none
    let p := scanList (elemArith (scanArith o) t rm) none l
    merge r d m t.width fun i => ((p[i]?).join).getD 0
  | .vcomp d a m t =>
    let l := (actives (r.m m) t).map (r.el t a)
    [.v d (buildV t.width fun i => (l[i]?).getD 0)]
  | .vxpnd d a m t =>
    merge r d m t.width fun i => r.el t a (((List.range i).filter (active (r.m m) t.width)).length)
  | .vpack d a b m t sat =>
    let h := halfTy t
    merge r d m h.width fun i =>
      let x := if i < t.count then r.el t a i else r.el t b (i - t.count)
      if sat then satInt h (intOf t x) else x % 2 ^ h.width
  | .vunpk d a m t hi =>
    let h := halfTy t
    merge r d m t.width fun i =>
      let x := r.el h a (hi.toNat * t.count + i)
      if t.isSigned then wrap t.width (sgn h.width x) else x
  | .vmov d a m t => merge1 r d a m t (fun x => x)
  | .vext d a t k => [.s d (extendTo64 t (r.el t a k.toNat))]
  | .vins d _ t k =>
    [.v d (buildV t.width fun i => if i = k.toNat then r.sca % 2 ^ t.width else r.el t d i)]
  | .mand d a b => [.m d (r.m a &&& r.m b)]
  | .mor d a b => [.m d (r.m a ||| r.m b)]
  | .mxor d a b => [.m d (r.m a ^^^ r.m b)]
  | .mnot d a => [.m d (~~~(r.m a))]
  | .mpopc d a t => [.s d (n64 (actives (r.m a) t).length)]
  | .mfirst d a t => [.s d (match actives (r.m a) t with | e :: _ => n64 e | [] => w64 (-1))]
  | _ => []

end Sys2Proof.Machine
end

