-- ==== Sys2Proof/Machine/Matrix.lean ====
section
/-! DEFINITION. The arithmetic of the matrix unit (R281, R286 to R295): operand tiles, one engine step, and the conversion of
ASTORE. -/

namespace Sys2Proof.Machine

/-- Kt of a matrix or OLOAD type: a tile of 8 KiB with 64 rows, or 64 columns (R281). -/
def kOf (t : Ty) : Nat := 1024 / t.width

/-- Row `i` of an A tile: Kt elements (R281). -/
def rowA (t : Ty) (x : OperandVal) (i : Nat) : List Nat := (List.range (kOf t)).map fun k => elem x.toNat t.width (i * kOf t + k)

/-- Column `j` of a B tile: Kt elements (R281). -/
def colB (t : Ty) (x : OperandVal) (j : Nat) : List Nat := (List.range (kOf t)).map fun k => elem x.toNat t.width (k * 64 + j)

/-- The type of the B elements: the other 8-bit format with XB (R288). -/
def typeB (t : Ty) (xb : Bool) : Ty := if xb then (if t = .e4m3 then .e5m2 else .e4m3) else t

/-- R288: the sums of a float type over K: groups of 32 products, one rounding per group. -/
def macGroups (rm : Rm) (groups : Nat) (c : Nat) (ps : List FV) : Nat :=
  match groups with
  | 0 => c
  | k + 1 =>
    macGroups rm k (pack (fmtOf .f32) rm false ((ps.take 32).foldl (fvAdd rm) (unpack (fmtOf .f32) c))) (ps.drop 32)

/-- R288: an element of a float type after one tile pair. -/
def macFloat (t : Ty) (rm : Rm) (xb : Bool) (c : Nat) (a b : List Nat) : Nat :=
  macGroups rm (kOf t / 32) c
    (List.zipWith (fun x y => fvMul (unpack (fmtOf t) x) (unpack (fmtOf (typeB t xb)) y)) a b)

/-- R289: an element of f64 after one tile pair. -/
def macF64 (rm : Rm) (c : Nat) (a b : List Nat) : Nat :=
  (a.zip b).foldl (fun c q => fFma (fmtOf .f64) rm false false q.1 q.2 c) c

/-- An exact block sum of s8 elements (R290). -/
def blockSum (a b : List Nat) : Int := (a.zip b).foldl (fun z q => z + sgn 8 q.1 * sgn 8 q.2) 0

/-- The pair of a BX element from its two words, and back (R291). -/
def bxOf (lo hi : Nat) : Int × Int := (sgn 48 (lo + field hi 0 16 * 2 ^ 32), sgn 16 (field hi 16 16))
def bxWords (p : Int × Int) : Nat × Nat :=
  let m := wrap 48 p.1
  (field m 0 32, field m 32 16 + wrap 16 p.2 * 2 ^ 16)

/-- R290 with BX: an element after one tile pair whose exponent is `e`. -/
def macBx (e : Int) (c : Int × Int) (a b : List Nat) : Int × Int :=
  let c := bsacc c (blockSum (a.take 64) (b.take 64), e)
  bsacc c (blockSum (a.drop 64) (b.drop 64), e)

/-- Element `j` of a row after one tile pair: the words of the tile and of the pair's second tile (R286 to R291). -/
def macElem (t : Ty) (rm : Rm) (xb : Bool) (bx : Option Int) (lo hi : Nat) (a b : List Nat) : Nat × Nat :=
  match bx with
  | some e => bxWords (macBx e (bxOf lo hi) a b)
  | none =>
    match t with
    | .s8 => (wrap 32 (lo + blockSum a b), hi)
    | .f64 =>
      let c := macF64 rm (lo + hi * 2 ^ 32) a b
      (field c 0 32, field c 32 32)
    | _ => (macFloat t rm xb lo a b, hi)

/-! ### Tiles -/

/-- A tile and an operand slot of a cell; what nothing has written is zero (R279). -/
def tileAt (x : Cell) (n : Nat) : TileVal := (tfind x.tile n).getD 0
def opndAt (x : Cell) (n : Nat) : OperandVal := (tfind x.opnd n).getD 0

/-- Row `i` of a tile: 64 words. -/
def tileRow (v : TileVal) (i : Nat) : List Nat := elems (field v.toNat (2048 * i) 2048) 32 64

/-- A tile with row `i` replaced. -/
def setTileRow (v : TileVal) (i : Nat) (ws : List Nat) : TileVal :=
  BitVec.ofNat 131072 (setField v.toNat (2048 * i) 2048 (ofElems 32 ws))

/-- Whether an operation works on a pair of tiles (R286). -/
def onPair (t : Ty) (bx : Bool) : Bool := t == .f64 || bx

/-- R287: engine step `q` of a TMMA: row q mod 64 of the result over tile pair q div 64. -/
def engineStep (acc : AccNo) (oa ob : OSlot) (bx : Option Word64) (t : Ty) (rm : Rm) (z xb : Bool) (q : Nat) (x : Cell) : Cell :=
  let p := q / 64
  let i := q % 64
  let fresh := z && p == 0
  let row := fun n => if fresh then List.replicate 64 0 else tileRow (tileAt x n) i
  let lo := row acc.val
  let hi := row (acc.val + 1)
  let a := rowA t (opndAt x (oa.val + p)) i
  let e := bx.map fun w => sgn 8 (bits w (8 * p) 8)
  let out := (List.range 64).map fun j =>
    macElem t rm xb e ((lo[j]?).getD 0) ((hi[j]?).getD 0) a (colB t (opndAt x (ob.val + p)) j)
  let x := { x with tile := tput x.tile acc.val (setTileRow (tileAt x acc.val) i (out.map Prod.fst)) }
  if onPair t bx.isSome then
    { x with tile := tput x.tile (acc.val + 1) (setTileRow (tileAt x (acc.val + 1)) i (out.map Prod.snd)) }
  else x

/-! ### ASTORE (R295) -/

/-- An element of a tile, read exactly by SRC. -/
def srcValue (src : AccSrc) (lo hi : Nat) : FV :=
  match src with
  | .s32 => fvOfInt (sgn 32 lo)
  | .f32 => unpack (fmtOf .f32) lo
  | .f64 => unpack (fmtOf .f64) (lo + hi * 2 ^ 32)
  | .bx => let p := bxOf lo hi; .fin (decide (p.1 < 0)) p.1.natAbs p.2

/-- An element converted to the type that is stored. -/
def storeConvert (t : Ty) (rm : Rm) (sat : Bool) (x : FV) : Nat :=
  if t.isInt then
    match x with
    | .nan => 0
    | .inf _ => floatToInt t rm x
    | .fin neg m e => if sat then floatToInt t rm x else wrap t.width (rndInt rm neg m e)
  else pack (fmtOf t) rm sat x

/-- The value ASTORE stores for element (i, j). -/
def storeElem (x : Cell) (acc : AccNo) (scale : Option VVal) (t : Ty) (rm : Rm) (sat : Bool) (src : AccSrc) (i j : Nat) : Nat :=
  let w := fun n => elem (field (tileAt x n).toNat (2048 * i) 2048) 32 j
  let v := srcValue src (w acc.val) (w (acc.val + 1))
  storeConvert t rm sat (match scale with
    | some c => fvMul v (unpack (fmtOf .f32) (elem c.toNat 32 j))
    | none => v)

/-! ### OLOAD (R282) -/

/-- The rows and columns of a tile by its shape (R281). -/
def loadShape (t : Ty) (shapeB : Bool) : Nat × Nat := if shapeB then (kOf t, 64) else (64, kOf t)

/-- The address of tile element `e` (R282). -/
def loadAddr (base stride : Word64) (t : Ty) (shapeB tr : Bool) (e : Nat) : Word64 :=
  let cols := (loadShape t shapeB).2
  let i := e / cols
  let k := e % cols
  let es := t.width / 8
  if tr then base + n64 k * stride + n64 (i * es) else base + n64 i * stride + n64 (k * es)

end Sys2Proof.Machine
end

