-- ==== Sys2Proof/Machine/Wide.lean ====
section
/-! DEFINITION. The wide unit of a cell: operations from their start to their end (R211, R213), their element accesses (R250 to
R254, R282, R283, R295), the operand path and the sequencer (R284 to R287, R299, R302). -/

namespace Sys2Proof.Machine

/-! ### Sources (R211, R212) -/

/-- The vector and mask registers that a started operation reads; m0 is a constant (R146). -/
def mxReads (m : MxOp) : List Desig :=
  let rs : List Desig :=
    match m.kind with
    | .vop i _ => reads i
    | .fill _ a _ k => (vregs a k).filterMap fun n => if h : n < 32 then some (.v ⟨n, h⟩) else none
    | .store _ vb _ _ _ _ _ _ => match vb with | some r => [.v r] | none => []
    | _ => []
  rs.filter fun k => match k with | .v _ => true | .m n => n != 0 | _ => false

/-- A register as it stands. -/
def regNow (s : State) (g : SlotKey) (k : Desig) : RegWrite :=
  match k with
  | .s n => .s n (sGet (slotAt s g) n)
  | .p n => .p n (pGet (slotAt s g) n)
  | .v n => .v n (vGet s g n.val)
  | .m n => .m n (mGet (slotAt s g) n)
  | .acc n => .acc n

/-- The last operation of a slot before number `bound` that has started, owes a register, and has no result yet. -/
def owedBy (s : State) (g : SlotKey) (ep bound : Nat) (k : Desig) : Option Nat :=
  (cellAt s (cellOf g)).mx.foldl (fun r m =>
    if m.gid = g ∧ m.epoch = ep ∧ m.remote = none ∧ m.seq < bound ∧ (mxOwes m).contains k = true then
      some (max m.seq (r.getD 0)) else r) none

/-- The results that have not reached a slot's registers: in its inbox, or on their way. -/
def repliesTo (s : State) (g : SlotKey) : List Reply :=
  ((slotAt s g).inbox.filterMap fun e => match e with | .result r => some r | _ => none) ++
  s.net.filterMap fun m => match m.2 with | .reply r => if r.gid = g then some r else none | _ => none

/-- The last result on its way to a register, of an operation of a slot before number `bound`. -/
def resultFor (s : State) (g : SlotKey) (ep bound : Nat) (k : Desig) : Option (Nat × RegWrite) :=
  (repliesTo s g).foldl (fun r q =>
    match q.op, q.writes.find? (fun w => w.desig == k) with
    | some n, some w =>
      if q.epoch = ep ∧ n < bound ∧ (match r with | some x => decide (x.1 < n) | none => true) = true then some (n, w) else r
    | _, _ => r) none

/-- A source of operation `bound` of a slot: forwarded from the operation that owes it, or the register as it stands; none while
the owing operation has no result (R211). -/
def sourceVal (s : State) (g : SlotKey) (ep bound : Nat) (k : Desig) : Option RegWrite :=
  match owedBy s g ep bound k, resultFor s g ep bound k with
  | none, none => some (regNow s g k)
  | none, some r => some r.2
  | some _, none => none
  | some n, some r => if n < r.1 then some r.2 else none

/-- Whether a started operation has read a register. -/
def hasRead (m : MxOp) (k : Desig) : Bool := m.srcs.any fun w => w.desig == k

/-- An operation that reads what it can. -/
def readSources (s : State) (m : MxOp) : MxOp :=
  { m with srcs := m.srcs ++ ((mxReads m).filter (fun k => !hasRead m k)).filterMap (sourceVal s m.gid m.epoch m.seq) }

/-- Whether every source is there. -/
def sourced (m : MxOp) : Bool := (mxReads m).all (hasRead m)

/-! ### The list of started operations -/

/-- An operation of a cell by number. -/
def mxAt (s : State) (c : CellKey) (seq : Nat) : Option MxOp := (cellAt s c).mx.find? (·.seq == seq)

/-- An operation replaced, and removed. -/
def putMx (c : CellKey) (m : MxOp) (s : State) : State :=
  modCell c (fun x => { x with mx := x.mx.map fun q => if q.seq = m.seq then m else q }) s
def dropMx (c : CellKey) (seq : Nat) (s : State) : State := modCell c (fun x => { x with mx := x.mx.filter (·.seq != seq) }) s

/-- A use of an operand slot (false) or tile (true): its number, and whether it is written (R285). -/
structure Use where
  tile  : Bool
  n     : Nat
  write : Bool
deriving DecidableEq, Repr

/-- What the rest of an operation uses (R285). -/
def usesLeft (m : MxOp) : List Use :=
  match m.kind with
  | .load o .. | .fill o .. => [⟨false, o.val, true⟩]
  | .mma .. => (mxSlots m).map (⟨false, ·, false⟩) ++ (mxTiles m).map (⟨true, ·, true⟩)
  | .zero acc => [⟨true, acc.val, true⟩]
  | .vec .. | .store .. => (mxTiles m).map (⟨true, ·, false⟩)
  | .vop .. => []

/-- What the next action of an operation uses: a TMMA, the operand slots of one tile pair (R285). -/
def usesNext (m : MxOp) : List Use :=
  match m.kind with
  | .mma _ oa ob .. =>
    let p := m.steps / 64
    ⟨false, oa.val + p, false⟩ :: ⟨false, ob.val + p, false⟩ :: (mxTiles m).map (⟨true, ·, true⟩)
  | _ => usesLeft m

/-- Two uses that keep their order. -/
def usesMeet (a b : Use) : Bool := a.tile == b.tile && a.n == b.n && (a.write || b.write)

/-- The operations that started before one. -/
def startedBefore (x : Cell) (seq : Nat) : List MxOp := x.mx.takeWhile (·.seq != seq)

/-- R285: no operation that started earlier still has to use what the next action uses. -/
def inOrder (x : Cell) (m : MxOp) : Bool :=
  (startedBefore x m.seq).all fun e => (usesLeft e).all fun a => (usesNext m).all fun b => !usesMeet a b

/-- R253: an earlier vector memory operation of the same slot is not performed yet. -/
def memBehind (x : Cell) (m : MxOp) : Bool :=
  (startedBefore x m.seq).any fun e =>
    e.gid == m.gid && e.remote.isNone &&
    match e.kind with
    | .vop i _ => isVmem i
    | .load _ _ _ t _ _ _ => decide (e.steps < loadReads t)
    | .store .. => true
    | _ => false

/-! ### Results -/

/-- The results of an operation set out for the registers of its slot (R149). -/
def result (m : MxOp) (ws : List RegWrite) (s : State) : State :=
  send (.reply { gid := m.gid, epoch := m.epoch, writes := ws, op := some m.seq }) s

/-- A tile that an operation has finished with: owed while another operation of its holder writes it, empty under a command of
another cell, else full (R279, R286, R299). -/
def tileDone (c : CellKey) (n : AccNo) (s : State) : State :=
  let x := cellAt s c
  let owed := (x.mx.any fun m => m.remote.isNone && (mxOwes m).contains (.acc n)) ||
    (List.range 4).any fun k => (coreAt s (4 * c + k)).queue.any fun e => (owes e.instr).contains (.acc n)
  let taken := x.mx.any fun m => m.remote.isSome && (mxTiles m).contains n.val
  let pres := fun (t : Tab Pres) =>
    if owed then tput t n.val .owed else if taken then tput t n.val .empty else tdel t n.val
  modCell c (fun x => { x with tpres := pres x.tpres }) s

/-- The tiles that an operation writes. -/
def tilesWritten (m : MxOp) : List AccNo :=
  match m.kind with
  | .mma acc _ _ bx t .. => if onPair t bx.isSome then [acc, areg acc 1] else [acc]
  | .zero acc => [acc]
  | _ => []

/-- An operation is over: its tiles are done, and a command answers its sender (R299). -/
def mxOver (c : CellKey) (m : MxOp) (status : Int) (s : State) : State :=
  let s := (tilesWritten m).foldl (fun s n => tileDone c n s) (dropMx c m.seq s)
  match m.remote with
  | some d => send (.reply { gid := m.gid, epoch := m.epoch, writes := [.s d (w64 status)] }) s
  | none => s

/-- Whether a slot still lives the life in which it issued something. -/
def alive (s : State) (g : SlotKey) (ep : Nat) : Bool :=
  (slotAt s g).ctl.epoch == ep && !(slotAt s g).ctl.gone

/-- A deferred fault comes to its slot, which keeps the first (R252). -/
def deferTrap (g : SlotKey) (ep : Nat) (t : TrapInfo) (s : State) : State :=
  if alive s g ep then
    modCtl g (fun c => { c with deferred := match c.deferred with | some q => some q | none => some { t with deferred := true } }) s
  else s

/-- The unrecoverable failures of an operation are reported (R252). -/
def reportFail (m : MxOp) (s : State) : State :=
  match m.fail with
  | some t => deferTrap m.gid m.epoch t s
  | none => s

/-! ### Element accesses (R251 to R253, R282, R283, R295) -/

/-- On whose behalf an operation reads and writes. -/
def mxWho (s : State) (m : MxOp) : Who := partyAt s m.asid m.priv (coreOf m.gid)

/-- The value of a vector source as a number. -/
def srcV (m : MxOp) (n : VRegNo) : Nat := ((⟨m.srcs, []⟩ : Srcs).v n.val).toNat

/-- The mask of a vector memory operation. -/
def srcMask (m : MxOp) (i : Instr) : MVal := match maskOf i with | some n => (⟨m.srcs, []⟩ : Srcs).m n | none => 0

/-- The element accesses an operation makes in all. -/
def memTotal (m : MxOp) : Nat :=
  match m.kind with
  | .vop i _ => if isVmem i then (actives (srcMask m i) (vmemTy i)).length else 0
  | .load _ _ _ t _ _ _ => loadReads t
  | .store .. => 4096
  | _ => 0

/-- One element access: its address, its bytes, where it stands in what is loaded, and what is stored. -/
structure Elem where
  va   : Word64
  n    : Nat
  at'  : Nat
  data : Option (List Byte)
deriving DecidableEq, Repr

/-- The next element access of an operation, if any is left. -/
def memJob (x : Cell) (m : MxOp) : Option Elem :=
  match m.kind with
  | .vop i scal =>
    let t := vmemTy i
    let n := t.width / 8
    ((actives (srcMask m i) t)[m.steps]?).map fun e =>
      let store := fun (a : VRegNo) => some (leBytes n (elem (srcV m a) t.width e))
      match i with
      | .vst a .. | .vsts a .. => ⟨vmemAddr i scal 0 e, n, e, store a⟩
      | .vscat a b .. => ⟨vmemAddr i scal (srcV m b) e, n, e, store a⟩
      | .vgath _ a .. => ⟨vmemAddr i scal (srcV m a) e, n, e, none⟩
      | _ => ⟨vmemAddr i scal 0 e, n, e, none⟩
  | .load _ base stride t shapeB tr _ =>
    if m.steps < loadReads t then
      some ⟨loadAddr base stride t shapeB tr m.steps, t.width / 8, m.steps, none⟩
    else none
  | .store acc vb base stride t rm sat src =>
    if m.steps < 4096 then
      let i := m.steps / 64
      let j := m.steps % 64
      let n := t.width / 8
      let v := storeElem x acc (vb.map fun r => BitVec.ofNat 2048 (srcV m r)) t rm sat src i j
      some ⟨base + n64 i * stride + n64 (j * n), n, m.steps, some (leBytes n v)⟩
    else none
  | _ => none

/-- What an element access comes to. -/
inductive Reach where
  | ok (bs : List Byte) (wiped : List Nat) (s : State)
  | fail (t : TrapInfo)
  | page (need : Need)
  /-- One of the slot's posted operations to the line is held back (R320). -/
  | held

/-- The operation as a party to the single order, with the clock that its slot has now (R253, R304). -/
def elemReq (s : State) (m : MxOp) (va : Word64) : Req :=
  { gid := m.gid, epoch := m.epoch, blk := 0, asid := m.asid, priv := m.priv, va := va, clock := issuerClock s m.gid m.epoch m.clock }

/-- An OLOAD's read: it is not in the single order, but a store that comes later is placed after the OLOAD (R283). -/
def plainRead (m : MxOp) (p : Place) (s : State) : State :=
  match p.loc with
  | none => s
  | some l => setStamps l ((stamps s l).1, max (stamps s l).2 (issuerClock s m.gid m.epoch m.clock)) s

/-- A load element performed (R251, R283), of a slot that has ended or is switched out too (R213). -/
def elemLoad (m : MxOp) (p : Place) (n : Nat) (s : State) : List Byte × State :=
  let far := noteRemoteBy (cellOf m.gid) m.asid p
  match m.kind with
  | .load .. => fetchBytes m.asid p n (plainRead m p (far s))
  | _ =>
    if (slotAt s m.gid).ctl.epoch = m.epoch then loadAt m.gid p n s
    else
      let r := stampRead (elemReq s m 0) p (far s)
      fetchBytes m.asid p n (raiseIssuer m.gid m.epoch r.1 r.2)

/-- A store element performed (R251, R274). -/
def elemStore (m : MxOp) (va : Word64) (p : Place) (bs : List Byte) (s : State) : Except TrapInfo State :=
  if (slotAt s m.gid).ctl.epoch = m.epoch then storePlace m.gid va p bs s
  else match p with
    | .view _ => .error (fFormat 1 va)
    | _ =>
      let q := elemReq s m va
      let r := stampWrite q.clock p bs.length (noteRemoteBy (cellOf m.gid) m.asid p s)
      .ok (raiseIssuer m.gid m.epoch r.1 (storeBytes m.asid p bs r.2))

/-- An element access at its place, after the slot's own posted operations to the line that were issued before it (R320). -/
def reach (m : MxOp) (e : Elem) (s : State) : Reach :=
  let w := mxWho s m
  match elemFault s w e.n e.va with
  | some t => .fail t
  | none =>
    let need : Need := if e.data.isSome then .write else .read
    match resolve s w need e.va with
    | .trap t => .fail t
    | .page => .page need
    | .away _ => .held
    | .go p =>
      let line := placeKey p / 128
      let s := if s.fly then s else flushPosted m.gid line m.seq s
      if (postedTo s m.gid line m.seq).isEmpty = false then .held
      else match e.data with
        | some bs =>
          match elemStore m e.va p bs s with
          | .ok s =>
            let r := wipe p (placeKey p) bs.length m.wiped s
            .ok [] r.1 r.2
          | .error t => .fail t
        | none =>
          if poisoned s p e.n then .fail (fPage 2 e.va)
          else let r := elemLoad m p e.n s; .ok r.1 m.wiped r.2

/-- A failing element added to those of an operation: the cause of the first, the lowest address (R252). -/
def addElemFail (t : TrapInfo) (va : Word64) (f : Option TrapInfo) : TrapInfo :=
  match f with
  | none => { t with addr := va }
  | some f => if va.toNat < f.addr.toNat then { f with addr := va } else f

/-- An element has failed unrecoverably: a load element receives 0, a store element is not written (R252). -/
def elemFailed (c : CellKey) (m : MxOp) (t : TrapInfo) (va : Word64) (s : State) : State :=
  putMx c { m with steps := m.steps + 1, page := none, fail := some (addElemFail t va m.fail) } s

/-- The page-service kind of an operation's accesses: a queued vector operation or an operand stream (R246). -/
def mxPageKind (m : MxOp) : Nat := match m.kind with | .load .. => 3 | _ => 2

/-- The next element access of an operation, where it can be made. -/
def memElem (c : CellKey) (m : MxOp) (s : State) : Option State :=
  if m.page.isSome ∨ sourced m = false ∨ memBehind (cellAt s c) m = true then none
  else match memJob (cellAt s c) m with
    | none => none
    | some e =>
      match reach m e s with
      | .held => none
      | .fail t => some (elemFailed c m t e.va s)
      | .page need =>
        let id := s.nextId
        some (putMx c { m with page := some id }
          (askPage (pageReqOf m.asid e.va (mxPageKind m) m.gid m.epoch m.seq need) s))
      | .ok bs w s =>
        let d := if e.data.isSome then m.data
          else BitVec.ofNat 65536 (m.data.toNat + leNat bs * 2 ^ (8 * e.n * e.at'))
        some (putMx c { m with steps := m.steps + 1, data := d, wiped := w } s)

/-- What a vector load writes: loaded elements where active, the kept ones elsewhere (R251). -/
def loadResult (m : MxOp) (i : Instr) (d : VRegNo) : List RegWrite :=
  let t := vmemTy i
  let k := srcMask m i
  [.v d (buildV t.width fun e => if active k t.width e then elem m.data.toNat t.width e else elem (srcV m d) t.width e)]

/-- An operation whose accesses are all made is over; an OLOAD still has to write its slot (R254, R283). -/
def memOver (c : CellKey) (m : MxOp) (s : State) : State :=
  if m.steps < memTotal m then s
  else match m.kind with
    | .vop i _ =>
      let s := dropMx c m.seq (reportFail m s)
      match i with
      | .vld d .. | .vlds d .. | .vgath d .. => result m (loadResult m i d) s
      | _ => s
    | .store .. => dropMx c m.seq (reportFail m s)
    | .load .. => putMx c { m with fail := none } (reportFail m s)
    | _ => s

/-- Up to `fuel` element accesses of an operation, and its end. -/
def runMem (fuel : Nat) (c : CellKey) (seq : Nat) (s : State) : State :=
  match mxAt s c seq with
  | none => s
  | some m =>
    match fuel with
    | 0 => memOver c m s
    | k + 1 =>
      match memElem c m s with
      | some s => runMem k c seq s
      | none => if sourced m = true ∧ memBehind (cellAt s c) m = false then memOver c m s else s

/-! ### What happens by itself once it can: sources, results, operand slots -/

/-- An operand slot written (R281). -/
def setOpnd (c : CellKey) (n : Nat) (v : OperandVal) (s : State) : State := modCell c (fun x => { x with opnd := tput x.opnd n v }) s

/-- OFILL's bytes in a slot (R284). -/
def fillValue (m : MxOp) (old : OperandVal) (a : VRegNo) (seg k : Nat) : OperandVal :=
  BitVec.ofNat 65536 ((List.range k).foldl (fun x j =>
    setField x (2048 * (seg + j)) 2048 ((⟨m.srcs, []⟩ : Srcs).v (a.val + j)).toNat) old.toNat)

/-- One started operation goes as far as it can without the units' own steps. -/
def settleOp (c : CellKey) (seq : Nat) (s : State) : State :=
  match mxAt s c seq with
  | none => s
  | some m0 =>
    let m := readSources s m0
    let s := putMx c m s
    if sourced m = false then s
    else match m.kind with
      | .vop i scal =>
        if isVmem i then (if s.fly then s else runMem 256 c seq s)
        else result m (vecResult ⟨m.srcs, scal⟩ i) (dropMx c seq s)
      | .fill o a seg k =>
        if inOrder (cellAt s c) m then dropMx c seq (setOpnd c o.val (fillValue m (opndAt (cellAt s c) o.val) a seg k) s) else s
      | .load o _ _ t _ _ _ =>
        if m.steps = loadReads t ∧ inOrder (cellAt s c) m = true then dropMx c seq (setOpnd c o.val m.data s) else s
      | _ => s

/-- Every started operation of a cell, in the order of their starts. -/
def settleOps (c : CellKey) (s : State) : State := ((cellAt s c).mx.map (·.seq)).foldl (fun s q => settleOp c q s) s

/-! ### Starting (R211) -/

/-- The queue that the wide unit serves next (R211). -/
def nextQueue (s : State) (c : CellKey) : Option Nat :=
  ([1, 2, 3, 4].map fun k => ((cellAt s c).wide + k) % 4).find? fun k => !(coreAt s (4 * c + k)).queue.isEmpty

/-- What an entry does once it has started. -/
def kindOf (e : QEntry) : MxKind :=
  let s0 := (e.scal[0]?).getD 0
  let s1 := (e.scal[1]?).getD 0
  match e.instr with
  | .oload o _ _ t shapeB tr acq => .load o s0 s1 t shapeB tr acq
  | .ofill o a seg k => .fill o a seg.toNat (k.toNat + 1)
  | .tmma acc oa ob c t rm z xb n => .mma acc oa ob (c.map fun _ => s0) t rm z xb (n.toNat + 1)
  | .azero acc => .zero acc
  | .astore _ acc vb _ t rm sat src => .store acc vb s0 s1 t rm sat src
  | .avec d acc row => .vec d acc row.toNat
  | i => .vop i e.scal

/-- The oldest entry of a queue starts. -/
def startEntry (c : CellKey) (k : Nat) (e : QEntry) (s : State) : State :=
  let x := slotAt s e.gid
  let m : MxOp :=
    { seq := e.seq, gid := e.gid, epoch := e.epoch, asid := x.ctl.asid, priv := privileged s e.gid, clock := x.lclk,
      remote := none, kind := kindOf e, srcs := [], steps := 0, page := none, data := 0, fail := none }
  let s := modCore (4 * c + k) (fun q => { q with queue := q.queue.tail }) s
  let s := if vfields e.instr = [] then s else touchBank e.gid s
  countUnit c x.ctl.asid 2 1 (modCell c (fun y => { y with wide := k, mx := y.mx ++ [m] }) s)

/-- A bank in retention starts to wake (R378). -/
def rouse (c : CellKey) (b : Nat) (s : State) : State :=
  if (cellAt s c).retained.contains b then
    modCell c (fun x => { x with retained := sdel x.retained b, waking := sadd x.waking b }) s
  else s

/-- The wide unit starts its next operation; one that uses a bank in retention wakes the bank first (R211, R378). -/
def wideStart (c : CellKey) (s : State) : State :=
  match nextQueue s c with
  | none => s
  | some k =>
    match (coreAt s (4 * c + k)).queue with
    | [] => s
    | e :: _ =>
      let b := (slotAt s e.gid).win.base
      if vfields e.instr ≠ [] ∧ bankAwake s c b = false then rouse c (b / 32) s
      else settleOps c (startEntry c k e s)

/-! ### The sequencer (R287, R299) -/

/-- The source of a matrix operation: its core, or 4 for a command of another cell. -/
def mxSource (m : MxOp) : Nat := if m.remote.isSome then 4 else coreNo m.gid

/-- Whether an operation is a TMMA. -/
def isMma (m : MxOp) : Bool := match m.kind with | .mma .. => true | _ => false

/-- An operation that runs between tile pairs and can run now (R287). -/
def betweenReady (x : Cell) (m : MxOp) : Bool :=
  match m.kind with
  | .zero _ | .vec .. => inOrder x m
  | .store .. => inOrder x m && sourced m && m.page.isNone && !memBehind x m
  | _ => false

/-- The operation that takes the sequencer's next step (R287). -/
def seqPick (x : Cell) : Option MxOp :=
  match x.mx.find? fun m => isMma m && m.steps % 64 != 0 with
  | some m => some m
  | none =>
    match x.mx.find? (betweenReady x) with
    | some m => some m
    | none =>
      ([1, 2, 3, 4, 5].map fun k => (x.mxLast + k) % 5).findSome? fun k =>
        match x.mx.find? fun m => isMma m && mxSource m == k with
        | some m => if inOrder x m then some m else none
        | none => none

/-- R299: the items of a command are held by slots of its context, and not released. -/
def itemsHeld (x : Cell) (a : Nat) (tiles slots : List Nat) : Bool :=
  let ok := fun (t : Tab Holder) n => match tfind t n with | some h => h.asid == a && !h.left | none => false
  tiles.all (ok x.thold) && slots.all (ok x.ohold)

/-- A command whose items have been released stops at a tile-pair boundary (R299). -/
def released (m : MxOp) : Bool := m.remote.isSome && m.lost

/-- One step of the sequencer for an operation. -/
def seqStep (c : CellKey) (m : MxOp) (s : State) : State :=
  if m.steps % 64 = 0 ∧ released m = true then mxOver c m (-3) s
  else match m.kind with
    | .mma acc oa ob bx t rm z xb n =>
      let m := if m.steps % 64 = 0 then { m with before := (mxTiles m).map fun k => (k, tileAt (cellAt s c) k) } else m
      let s := modCell c (engineStep acc oa ob bx t rm z xb m.steps) s
      let s := countUnit c m.asid 3 1 (modCell c (fun x => { x with mxLast := mxSource m }) s)
      let m := { m with steps := m.steps + 1, before := if m.steps % 64 = 63 then [] else m.before }
      if m.steps = 64 * n then mxOver c m (if released m then -3 else 0) s else putMx c m s
    | .zero acc => mxOver c m 0 (modCell c (fun x => { x with tile := tdel x.tile acc.val }) s)
    | .vec d acc row =>
      result m [.v d (BitVec.ofNat 2048 (field (tileAt (cellAt s c) acc.val).toNat (2048 * row) 2048))] (dropMx c m.seq s)
    | .store .. => runMem (if s.fly then 1 else 64) c m.seq s
    | _ => s

/-- The sequencer runs one step. -/
def sequence (c : CellKey) (s : State) : State :=
  match seqPick (cellAt s c) with
  | some m => seqStep c m s
  | none => s

/-- R302: the sequencer stops at a tile-pair boundary: what is left of the running pair. -/
def toBoundary (fuel : Nat) (c : CellKey) (s : State) : State :=
  match fuel with
  | 0 => s
  | k + 1 =>
    match (cellAt s c).mx.find? fun m => isMma m && m.steps % 64 != 0 with
    | some m => toBoundary k c (seqStep c m s)
    | none => s

/-! ### The operand loader (R283) -/

/-- The OLOAD whose reads come next: the oldest that can read. -/
def loaderPick (x : Cell) : Option MxOp :=
  x.mx.find? fun m =>
    match m.kind with
    | .load _ _ _ t _ _ _ => decide (m.steps < loadReads t) && m.page.isNone && !memBehind x m
    | _ => false

/-- Reads of the oldest OLOAD that can read: all of them, or one element where requests travel. -/
def loaderStep (c : CellKey) (s : State) : State :=
  match loaderPick (cellAt s c) with
  | some m => runMem (if s.fly then 1 else 8192) c m.seq s
  | none => s

end Sys2Proof.Machine
end

