-- ==== Sys2Proof/Machine/Settle.lean ====
section
/-! DEFINITION. What ends by itself once its condition holds (R143, R144): the waits that watch the machine, released items
(R280), and operations whose sources have come (R211). Every step of a unit ends with `settle`. -/

namespace Sys2Proof.Machine

/-- A precise fault comes to the word in which a slot is parked; at a halted slot it is held until the slot resumes (R339). -/
def wordFails (g : SlotKey) (t : TrapInfo) (s : State) : State :=
  if (slotAt s g).ctl.st = .halted then
    modCtl g (fun c => { c with deferred := some t, under := .running, wait := .none, caught := none }) s
  else takeTrap g t (slotAt s g).ctl.pc (unpark g .running s)

/-- A request that ends the park of its slot's word. -/
def endsPark : Msg → Option Req
  | .load q _ _ | .store q _ _ | .atomic q (some _) _ _ | .join q | .lrw q _ | .slrinst q _ => some q
  | _ => none

/-- The request in which a slot's word waits taken back. -/
def dropRequests (g : SlotKey) (ep : Nat) (s : State) : State :=
  { s with net := s.net.filter fun m => match endsPark m.2 with | some q => q.gid != g || q.epoch != ep | none => true }

/-- The end of a wait that watches the machine, where its condition holds; a slot in retirement may trap instead (R334). A word that
waits to make its access makes it in its slot's turn. -/
def endWait (g : SlotKey) (x : Slot) (s : State) : State :=
  let c := coreOf g
  match x.ctl.wait with
  | .ifence => if storesFly s g ∨ vmemPending s g then s else finish g (dropBuffer g s)
  | .release d a => if releaseReady s g then finish g (sendLaunch g d a s) else s
  | .presence _ _ => wakePresence g s
  | .queue => if (coreAt s c).queue.length < queueCap then reissue g s else s
  | .channel ch send n => if ringReady s x.ctl.asid ch send n then reissue g s else s
  | .barrier d n gen =>
    let b := barOf s x.ctl.asid n
    if barPassed b.g gen then barWaitOver g d b s else s
  | .bank cell b => if bankAwake s cell (32 * b) then reissue g s else s
  | .reap _ _ => reapCheck c s
  | .copy d ch want =>
    let k := chanAt s c ch
    if want.toNat ≤ k.wp then finish g (raiseClock g k.clock (modSlot g (sSet d (cpywValue k want.toNat)) s)) else s
  | .sequencer d seq total want =>
    let r := mxProgress s g seq total want
    if r.2 then finish g (modSlot g (sSet d (n64 r.1)) s) else s
  | .page id =>
    match (tfind s.pages id).bind (fun r => r.done.map fun ok => (r.va, ok)) with
    | some (va, false) => wordFails g (fPage 1 va) (modSlot g uncount (dropRequests g x.ctl.epoch { s with pages := tdel s.pages id }))
    | some (_, true) =>
      if x.ctl.caught.isSome then s
      else modCtl g (fun c => { c with wait := .reply }) { s with pages := tdel s.pages id }
    | none => s
  | .codePage id =>
    match (tfind s.pages id).map (fun r => (r.va, r.done)) with
    | some (va, some false) => wordFails g { (fPage 1 va) with fetch := true } { s with pages := tdel s.pages id }
    | some (_, none) => s
    | _ => reissue g { s with pages := tdel s.pages id }
  | .drain k =>
    if x.ctl.st ≠ .parked then s
    else match k with
      | .amow => if x.posted = 0 then amowEnd g (finish g) s else s
      | .fence sc => if fenceReady s g sc then amowEnd g (fun s => finish g (acquire g s)) s else s
      | .done => if blockDrained s c then retire g s else s
  | _ => s

/-- A slot that waits looks at its condition; a spilled one does so once it is restored (R142, R372). -/
def settleSlot (g : SlotKey) (s : State) : State :=
  let x := slotAt s g
  if x.ctl.wait = .none ∨ x.ctl.st = .spilled then s else endWait g x s

/-- Everything that ends by itself. -/
def settle (s : State) : State :=
  let s := (tkeys s.cells).foldl (fun s c => settleItems c (settleOps c s)) s
  (tkeys s.slots).foldl (fun s g => settleSlot g s) s

/-- A step of the machine itself, with what it brings to an end. -/
def event (k : State → State) (s : State) : Res := .next (settle (k s))

end Sys2Proof.Machine
end

