-- ==== Sys2Proof/Machine/Arrivals.lean ====
section
/-! DEFINITION. What comes to slots and cells from outside their words: results (R141, R211), remote register writes and block
sums (R151, R300, R301), matrix commands (R299), claims (R280), the ends of waits (R150, R195, R349, R378) and fills (R137,
R275). -/

namespace Sys2Proof.Machine

/-! ### Results (R141, R146, R211) -/

/-- Whether a designator is a register whose results keep the order of a slot's operations (R211). -/
def ordered (k : Desig) : Bool := match k with | .acc _ => false | _ => true

/-- An earlier operation of the slot still has a result to write (R211). -/
def earlierResult (s : State) (r : Reply) (n : Nat) : Bool :=
  ((cellAt s (cellOf r.gid)).mx.any fun m =>
    m.gid == r.gid && m.epoch == r.epoch && m.remote.isNone && decide (m.seq < n) && (mxOwes m).any ordered) ||
  ((coreAt s (coreOf r.gid)).queue.any fun e =>
    e.gid == r.gid && e.epoch == r.epoch && decide (e.seq < n) && (owes e.instr).any ordered) ||
  s.net.any fun m =>
    match m.2 with
    | .reply q => q.gid == r.gid && q.epoch == r.epoch && (match q.op with | some k => decide (k < n) | none => false)
    | _ => false

/-- Whether a reply may reach its slot now: in the order of R211. -/
def replyReady (s : State) (r : Reply) : Bool :=
  match r.op with
  | some n => !earlierResult s r n
  | none => true

/-- The vector registers that arrivals write. -/
def writesVector (ws : List RegWrite) : Bool := ws.any fun w => match w with | .v _ _ => true | _ => false

/-- Whether the bank of a slot's window is awake for an arrival (R378). -/
def windowAwake (s : State) (g : SlotKey) : Bool :=
  let x := slotAt s g
  x.ctl.st == .spilled || x.win.size == 0 || bankAwake s (cellOf g) x.win.base

/-- Arrival `k` at a slot: one for a vector register of a bank in retention waits until the bank is awake, and those that come after it
wait for it (R378). -/
def whenAwake (g : SlotKey) (k : Nat) (vec : Bool) (f : State → State) (s : State) : State :=
  let w := (slotAt s g).arrs
  let come := fun (s : State) => if w.contains k then s else modSlot g (fun x => { x with arrs := x.arrs ++ [k] }) s
  if w.head?.getD k ≠ k then come s
  else if vec = true ∧ windowAwake s g = false then come (rouse (cellOf g) ((slotAt s g).win.base / 32) s)
  else f (if w.contains k then modSlot g (fun x => { x with arrs := x.arrs.filter (· != k) }) s else s)

/-- R141: reply `k` reaches its slot. -/
def execResultArrival (k : Nat) (s : State) : Res :=
  event (fun s =>
    match tfind s.net k with
    | some (.reply r) =>
      if replyReady s r then whenAwake r.gid k (writesVector r.writes) (fun s => seekTask r.gid (deliver r (took k s))) s else s
    | _ => s) s

/-! ### Remote register writes (R151) and block sums (R300, R301) -/

/-- The slot that a remote write names. -/
def targetSlot (cell core slot : Nat) : SlotKey := 64 * cell + 16 * core + slot

/-- Whose register a remote message names. -/
def remoteTarget : Msg → Option (SlotKey × SlotKey)
  | .rput q cell core slot _ _ => some (q.gid, targetSlot cell core slot)
  | .bsum q cell core slot _ _ _ => some (q.gid, targetSlot cell core slot)
  | _ => none

/-- R152: two messages from one slot to one slot arrive in issue order. -/
def remoteFirst (s : State) (k : Nat) (m : Msg) : Bool :=
  !(s.net.any fun q => decide (q.1 < k) && remoteTarget q.2 == remoteTarget m && (remoteTarget m).isSome)

/-- A remote write that finds no register is counted for its sender (R151, R379). -/
def lostWrite (q : Req) (s : State) : State :=
  modOwner q.gid q.epoch (count 6 1) s

/-- The registers still promised to a slot that is switched out: key and slot. -/
def promisedOut (s : State) (k : Nat) (x : Slot) : List Desig :=
  let g := k % 16384
  let mine := fun (m : MxOp) => m.gid == g && m.epoch == x.ctl.epoch
  let saved := match ctxAt s (k / 16384) with
    | some c =>
      (c.saved.flatMap fun q => (q.2.mx.filter mine).flatMap mxOwes) ++
      c.savedCores.flatMap fun q => q.2.chans.flatMap fun h =>
        match h.2.cur with | some p => if p.gid = g ∧ p.epoch = x.ctl.epoch then [.s p.d] else [] | none => []
    | none => []
  saved ++ s.net.flatMap (fun m => msgOwes g x.ctl.epoch m.2) ++
  s.cells.flatMap (fun c => (c.2.mx.filter mine).flatMap mxOwes) ++ x.bsaccs.flatMap fun b => [.s b.reg, .s (sreg b.reg 1)]

/-- The entries that a message in flight will bring to the word in which a slot is parked, beyond those of registers that are owed (R371). -/
def msgReserve (g : SlotKey) (ep : Nat) : Msg → Nat
  | .store q .. | .barInit q .. | .join q | .slrinst q _ => if q.gid = g ∧ q.epoch = ep then 1 else 0
  | .reply r => if r.gid = g ∧ r.epoch = ep ∧ r.writes = [] then 1 else 0
  | _ => 0

/-- A word that waits in a queue for a reply that nobody has sent yet. -/
def Wait.inQueue : Wait → Bool
  | .join _ | .fullempty _ | .reserve .. | .operand _ => true
  | _ => false

/-- Whether a reply that ends the park of a slot is on its way. -/
def endComing (s : State) (g : SlotKey) (ep : Nat) : Bool :=
  s.net.any fun m => match m.2 with | .reply r => r.gid == g && r.epoch == ep && r.ends | _ => false

/-- R371: the inbox of slot `g` has room that no owed result needs: one entry for each register that is owed, and that of the reply to the
word in which the slot is parked. -/
def inboxRoom (s : State) (g : SlotKey) (owed : List Desig) (x : Slot) : Bool :=
  decide (inboxCount x.inbox + (owed.filter ordered).eraseDups.length + (s.net.map fun m => msgReserve g x.ctl.epoch m.2).sum +
    (if x.ctl.wait.inQueue = true ∧ endComing s g x.ctl.epoch = false then 1 else 0) < 1024)

/-- A remote message for a slot of a context: to the slot, to its inbox, to the inbox of a slot switched out, or lost. -/
def toTarget (q : Req) (t : SlotKey) (outside : Slot → Bool) (e : InboxEntry) (k : State → State) (s : State) : State :=
  let x := slotAt s t
  if x.ctl.asid = q.asid ∧ x.ctl.gone = false then
    if outside x then lostWrite q s
    else if x.ctl.st = .spilled then (if inboxRoom s t (promised s t) x then putInbox t e s else lostWrite q s)
    else k s
  else match tfind s.saves (saveKey q.asid t) with
    | some y =>
      let k := saveKey q.asid t
      if y.ctl.gone = true ∨ outside y = true ∨ inboxRoom s t (promisedOut s k y) y = false then lostWrite q s
      else putSaved k e y s
    | none => lostWrite q s

/-- R151: a register written from outside; every 8-byte group of a vector register. -/
def applyRput (t : SlotKey) (r : Desig) (v : Word64) (clock : Nat) (s : State) : State :=
  let w : List RegWrite :=
    match r with
    | .s n => [.s n v]
    | .v n => [.v n (buildV 64 fun _ => v.toNat)]
    | _ => []
  wakePresence t (raiseClock t clock (arriveAll false t w s))

/-- Whether a designator names a vector register beyond a slot's window (R151). -/
def beyondWindow (r : Desig) (x : Slot) : Bool := match r with | .v n => decide (x.win.size ≤ n.val) | _ => false

/-- R151: remote write `k` reaches its slot. -/
def execRputArrival (k : Nat) (s : State) : Res :=
  event (fun s =>
    match tfind s.net k with
    | some (.rput q cell core slot r v) =>
      let t := targetSlot cell core slot
      if remoteFirst s k (.rput q cell core slot r v) = false then s
      else whenAwake t k (vnum r).isSome (fun s =>
        toTarget q t (beyondWindow r) (.rput r v q.clock) (applyRput t r v q.clock) (took k s)) s
    | _ => s) s

/-- R300, R301: a block sum combines into an armed pair, or fills the two registers. -/
def applyBsum (t : SlotKey) (r : SReg) (m e : Int) (clock : Nat) (s : State) : State :=
  let x := slotAt s t
  let s := match x.bsaccs.find? (·.reg == r) with
    | none => arriveAll false t [.s r (w64 m), .s (sreg r 1) (w64 e)] s
    | some b =>
      let p := bsacc (b.m, b.e) (m, e)
      if b.left ≤ 1 then
        arriveAll false t [.s r (w64 p.1), .s (sreg r 1) (w64 p.2)]
          (modSlot t (fun x => { x with bsaccs := x.bsaccs.filter (·.reg != r) }) s)
      else
        let upd := fun (q : BsaccRec) => if q.reg = r then { q with left := q.left - 1, m := p.1, e := p.2 } else q
        modSlot t (fun x => { x with bsaccs := x.bsaccs.map upd }) s
  wakePresence t (raiseClock t clock s)

/-- R300: block sum `k` reaches its slot. -/
def execBsumArrival (k : Nat) (s : State) : Res :=
  event (fun s =>
    match tfind s.net k with
    | some (.bsum q cell core slot r m e) =>
      let t := targetSlot cell core slot
      if remoteFirst s k (.bsum q cell core slot r m e) = false then s
      else whenAwake t k false (fun s =>
        toTarget q t (fun _ => false) (.bsum r m e q.clock) (applyBsum t r m e q.clock) (took k s)) s
    | _ => s) s

/-! ### Matrix commands (R299) -/

/-- Whether a context's dealer queues and barriers, which stand at the cell of PBASE, are switched out (R373). -/
def isOut (s : State) (a : Nat) : Bool :=
  match ctxAt s a with | some c => c.away.any fun k => hilbert k == c.part.curBase | none => false

/-- What a command does in its cell. -/
def commandKind : TmmarCmd → MxKind
  | .mma acc oa ob n t rm z xb => .mma acc oa ob none t rm z xb (n.toNat + 1)
  | .zero acc => .zero acc

/-- The right a command needs: bit 24 MMA, bit 25 ZERO of the capability (R297). -/
def rightBit : TmmarCmd → Nat
  | .mma .. => 24
  | .zero _ => 25

/-- The checks of a command on arrival: its operation, or the status that rejects it (R299). -/
def commandStatus (s : State) (c : CellKey) (cap : Word64) (k : TmmarCmd) (m : MxOp) : Int :=
  let x := cellAt s c
  if bits cap 48 16 ≠ capGen x m.asid ∨ 16 * bits cap 4 4 + bits cap 0 4 ≠ c then -1
  else if bit cap (rightBit k) = false then -2
  else if itemsHeld x m.asid (mxTiles m) (mxSlots m) = false then -3
  else 0

/-- R299: command `k` reaches its cell, after those its sender sent there before. -/
def execTmmarCommandArrival (k : Nat) (s : State) : Res :=
  event (fun s =>
    match tfind s.net k with
    | some (.tmmar q c d cap cmd) =>
      let before := s.net.any fun m => decide (m.1 < k) &&
        match m.2 with | .tmmar p c' _ _ _ => p.gid == q.gid && c' == c | _ => false
      if before = true ∨ isAway s q.asid c = true then s
      else
        let m : MxOp :=
          { seq := k, gid := q.gid, epoch := q.epoch, asid := q.asid, priv := q.priv, clock := q.clock, remote := some d,
            kind := commandKind cmd, srcs := [], steps := 0, page := none, data := 0, fail := none }
        let st := commandStatus s c cap cmd m
        let s := took k s
        if st ≠ 0 then send (.reply { gid := q.gid, epoch := q.epoch, writes := [.s d (w64 st)] }) s
        else
          let s := countUnit c q.asid 2 1 (modCell c (fun x => { x with mx := x.mx ++ [m] }) s)
          (tilesWritten m).foldl (fun s n => tileDone c n s) s
    | _ => s) s

/-! ### The units of a cell -/

/-- R211: the wide unit of a cell starts its next operation. -/
def execWideUnitStart (c : CellKey) (s : State) : Res := event (wideStart c) s

/-- R287: the sequencer of a cell runs one step. -/
def execSequencerStep (c : CellKey) (s : State) : Res := event (sequence c) s

/-- R283: the operand loader of a cell reads. -/
def execOperandLoaderFill (c : CellKey) (s : State) : Res := event (loaderStep c) s

/-- The first claim of a cell, in the order of issue, whose items are all free (R280; log entry 80, DEDUCED). -/
def claimPick (x : Cell) : Option Claim :=
  x.claims.find? fun q => itemsFree x q.tiles ((List.range q.count).map (q.start + ·)) q.dest

/-- R280: a waiting claim of a cell receives its items. -/
def execOperandClaimGrant (c : CellKey) (s : State) : Res :=
  event (fun s =>
    match claimPick (cellAt s c) with
    | none => s
    | some q =>
      let items := (List.range q.count).map (q.start + ·)
      let s := modCell c (fun x => { x with claims := x.claims.filter (· != q) }) s
      let s := modCell c (fun x => holderAsid (slotAt s q.gid).ctl.asid q.dest (takeItems s q.dest q.tiles items x)) s
      grant q.gid [.s q.d (n64 (heldMask (cellAt s c) q.tiles q.dest))] 0 s) s

/-! ### Waits -/

/-- The LIMIT of R349 is exceeded: the slot is PARKED in a limited wait, and what it waits for has not come. -/
def limitPassed (s : State) (g : SlotKey) : Bool :=
  let x := slotAt s g
  x.ctl.st == .parked && x.parkLim != 0 && decide (x.parkLim < x.parkCnt) &&
  match x.ctl.wait with
  | .channel .. | .copy _ _ _ | .barrier _ _ _ => true
  | .fullempty loc => feWaits s x.ctl.asid g x.ctl.epoch loc
  | .reserve _ _ => s.mem.resv.any fun q => q.2.fifo.contains g
  | _ => false

/-- Whether the word of a wait had issued, and so counts once more when it issues again. -/
def waitIssued : Wait → Bool
  | .channel .. => false
  | _ => true

/-- R349: a slot whose LIMIT is exceeded leaves its wait and raises F.WAITLIM at the word. -/
def expireWait (g : SlotKey) (s : State) : State :=
  if limitPassed s g then
    let w := (slotAt s g).ctl.wait
    let s := leaveWait g s
    let s := if waitIssued w then modSlot g uncount s else s
    takeTrap g (fWaitlim w.code) (slotAt s g).ctl.pc (unpark g .running s)
  else s

/-- R349: F.WAITLIM of a slot, after the cycle in which its LIMIT was exceeded; it enters before the next cycle at the latest. -/
def execWaitlimExpiry (g : SlotKey) (s : State) : Res := event (expireWait g) s

/-- R150: a window resize takes effect; a bank in retention is woken first. -/
def execVwinResizeGrant (g : SlotKey) (s : State) : Res :=
  event (fun s =>
    match (slotAt s g).ctl.wait with
    | .resize size =>
      if (slotAt s g).ctl.st = .spilled then s
      else match tryResize g size s with
        | some s => finish g s
        | none =>
          match windowFor s g size with
          | some b => if size = 0 then s else rouse (cellOf g) (b / 32) s
          | none => s
    | _ => s) s

/-- R378: a bank that nobody has used for 8,192 core cycles may enter retention. -/
def execBankRetention (c : CellKey) (b : Fin 32) (s : State) : Res :=
  event (fun s =>
    let x := cellAt s c
    if x.retained.contains b.val = false ∧ x.waking.contains b.val = false ∧
       (poolTaken s c).any (fun t => t.1 / 32 == b.val) = true ∧ (tfind x.lastUse b.val).getD 0 + 8192 ≤ cellCycle s c then
      modCell c (fun x => { x with retained := sadd x.retained b.val }) s
    else s) s

/-- R378: a bank that was waking is awake. -/
def execBankWake (c : CellKey) (b : Fin 32) (s : State) : Res :=
  event (fun s =>
    if (cellAt s c).waking.contains b.val then
      let t := cellCycle s c
      modCell c (fun x => { x with waking := sdel x.waking b.val, lastUse := tput x.lastUse b.val t }) s
    else s) s

/-- R195: whether the idle slots of a core's block end. -/
def idleEnds (s : State) (c : CoreKey) : Bool :=
  (match (slotAt s (16 * c)).ctl.wait with | .reap _ sel => sel == 0 | _ => false) &&
  (slotAt s (16 * c)).ctl.st == .parked &&
  (started s c).all (fun g => (slotAt s g).ctl.st == .idle || (slotAt s g).ctl.st == .ended) &&
  (started s c).any fun g => (slotAt s g).ctl.st == .idle

/-- R195: every idle slot of the block ends as if it had issued DONE. -/
def execIdleSlotsEnd (c : CoreKey) (s : State) : Res :=
  event (fun s =>
    if idleEnds s c then ((started s c).filter fun g => (slotAt s g).ctl.st == .idle).foldl (fun s g => endSlot g s) s else s) s

/-! ### Fills -/

/-- R137: a line of code is filled, and slots that wait for it go on. -/
def execInstructionCacheFill (c : CoreKey) (line : Nat) (s : State) : Res :=
  event (fun s =>
    (slotsOfCore c).foldl (fun s g =>
      if (slotAt s g).ctl.wait = .fetch line ∧ (slotAt s g).ctl.st ≠ .spilled then reissue g s else s)
      (fillCache c line s)) s

/-- R275: the view lines of a window are dropped from every slice, for each request on its way. -/
def execViewLinesDropped (sec : Fin 8) (n : Fin 16) (s : State) : Res :=
  event (fun s =>
    let mine := fun (m : Msg) => match m with | .inval _ a b => a == sec.val && b == n.val | _ => false
    if s.net.any fun m => mine m.2 then
      let base := bits (fwinWord s sec.val n.val 1) 7 45
      let last := base + viewLen s sec.val n.val / 128
      { s with
        net := s.net.filter fun m => !mine m.2
        mem := { s.mem with views := s.mem.views.filter fun v => decide (v.1 < base) || decide (last ≤ v.1) } }
    else s) s

end Sys2Proof.Machine
end

