-- ==== Sys2Proof/Machine/Copies.lean ====
section
/-! DEFINITION. The copy engine (R263 to R267, R312, R321): reading the descriptor, moving segments, and completing. -/

namespace Sys2Proof.Machine

/-! ### Where a channel stands: at its core, or with its context switched out (R373) -/

/-- The running copy of a channel: at the core, or of a context that is switched out. -/
def copyAt (s : State) (c : CoreKey) (ch : Nat) : Option (Option Nat × Copy) :=
  match (chanAt s c ch).cur with
  | some q => some (none, q)
  | none => s.ctxs.findSome? fun x =>
    (tfind x.2.savedCores c).bind fun k => ((tfind k.chans ch).bind (·.cur)).map fun q => (some x.1, q)

/-- A channel changed where it stands. -/
def modChan (o : Option Nat) (c : CoreKey) (ch : Nat) (f : Chan → Chan) (s : State) : State :=
  match o with
  | none => setChan c ch (f (chanAt s c ch)) s
  | some a =>
    let g := fun (k : Core) => { k with chans := tput k.chans ch (f ((tfind k.chans ch).getD Chan.reset)) }
    modCtx a (fun x =>
      match tfind x.savedCores c with
      | some k => { x with savedCores := tput x.savedCores c (g k) }
      | none => x) s

/-- A running copy replaced. -/
def putCopy (o : Option Nat) (c : CoreKey) (ch : Nat) (q : Copy) (s : State) : State :=
  modChan o c ch (fun k => { k with cur := some q }) s

/-! ### The descriptor (R263) -/

/-- A field of a descriptor: `n` bytes from byte `lo`. -/
def dField (d lo n : Nat) : Nat := field d (8 * lo) (8 * n)

def dSrc (d : Nat) : Nat := dField d 0 8
def dDst (d : Nat) : Nat := dField d 8 8
def dRowLen (d : Nat) : Nat := dField d 16 4
def dRows (d : Nat) : Nat := dField d 20 4
def dSStride (d : Nat) : Int := sgn 32 (dField d 24 4)
def dDStride (d : Nat) : Int := sgn 32 (dField d 28 4)
def dEw (d : Nat) : Nat := dField d 32 1
def dDir (d : Nat) : Nat := dField d 33 1
def dIdxw (d : Nat) : Nat := dField d 34 1
def dIdx (d : Nat) : Nat := dField d 40 8

/-- The bytes a copy moves in all. -/
def dTotal (d : Nat) : Nat := dRows d * dRowLen d

/-- A global address, or a coordinate address (R243). -/
def classOk (v : Nat) : Bool := field v 56 8 == 0xFF || field v 57 7 == 0

/-- Whether a descriptor obeys R263: the index vector lies in a stash, not in a control page. -/
def descOk (indexed : Bool) (d : Nat) : Bool :=
  let es := 2 ^ dEw d
  let is := if dIdxw d = 0 then 4 else 8
  decide (dEw d ≤ 3) && decide (1 ≤ dRowLen d) && decide (dRowLen d ≤ 2 ^ 24) && decide (dRowLen d % es = 0) &&
  decide (1 ≤ dRows d) && decide (dRows d ≤ 2 ^ 24) &&
  decide (dSrc d % es = 0) && decide (dDst d % es = 0) && decide (dSStride d % es = 0) && decide (dDStride d % es = 0) &&
  decide (dField d 35 5 = 0) && decide (dField d 48 16 = 0) && classOk (dSrc d) &&
  (if indexed then
    decide (dDir d ≤ 1) && decide (dIdxw d ≤ 1) && decide (dIdx d / 2 ^ 56 = 0xFF) && decide (field (dIdx d) 30 2 = 0) &&
    decide (dIdx d % is = 0)
  else decide (dDir d = 0) && decide (dIdxw d = 0) && decide (dIdx d = 0))

/-! ### Reads and writes of the engine -/

/-- On whose behalf a copy is made. -/
def copyWho (s : State) (q : Copy) : Who := partyAt s q.asid q.priv (coreOf q.gid)

/-- What an access of the engine comes to: done, a translation being served, or the status that stops the copy. -/
inductive CopyRes (α : Type) where
  | ok (x : α)
  | page (va : Word64) (need : Need)
  | stop (status : Int)
  /-- The context's state is not at the cell (R373): the channel is passed over. -/
  | wait

/-- The status of a fault of a copy (R266). -/
def copyStatus (t : TrapInfo) : Int := if t.code = 2 then -4 else -1

/-- A place the engine reads. -/
def copyPlace (s : State) (q : Copy) (need : Need) (va : Word64) (n : Nat) : CopyRes Place :=
  match resolve s (copyWho s q) need va with
  | .trap t => .stop (copyStatus t)
  | .page => .page va need
  | .away _ => .wait
  | .go p => if need = .read ∧ poisoned s p n = true then .stop (-1) else .ok p

/-- `n` bytes read by the engine, outside the single order (R306). -/
def copyRead (q : Copy) (va : Word64) (n : Nat) (s : State) : CopyRes (List Byte × State) :=
  match copyPlace s q .read va (min n 64) with
  | .ok p => .ok (fetchBytes q.asid p n (noteRemoteBy (cellOf q.gid) q.asid p s))
  | .page v need => .page v need
  | .stop st => .stop st
  | .wait => .wait

/-- The number a byte of a place has in `undo`. -/
def byteKey (p : Place) (i : Nat) : Nat := placeKey p + i

/-- R264: source bytes that the copy itself has written may be read as they were before it, or as an earlier row left them
(log entry 21, DESIGN CHOICE). -/
def copySource (q : Copy) (k : Nat) (p : Place) (bs : List Byte) : List Byte :=
  bs.mapIdx fun i b =>
    match tfind q.undo (byteKey p i) with
    | none => b
    | some u => if Config.copyReadsOld k (byteKey p i) then u.old else if u.row = q.row then u.left else b

/-- The bytes about to be written noted (R264). -/
def noteUndo (q : Copy) (p : Place) (held : List Byte) : Copy :=
  { q with undo := (held.mapIdx fun i b => (i, b)).foldl (fun t e =>
      match tfind t (byteKey p e.1) with
      | none => tput t (byteKey p e.1) { old := e.2, left := e.2, row := q.row }
      | some u => tput t (byteKey p e.1) { u with left := if u.row = q.row then u.left else e.2, row := q.row }) q.undo }

/-- A copy that has written all 128 bytes of a poisoned line clears its poison (R408). -/
def copyWipe (q : Copy) (p : Place) (s : State) : State :=
  let line := placeKey p / 128
  let poison := p.poisonLine (placeKey p)
  if s.mem.poison.contains poison = true ∧ ((List.range 128).all fun i => (tfind q.undo (128 * line + i)).isSome) = true then
    { s with mem := { s.mem with poison := sdel s.mem.poison poison } }
  else s

/-- A write of the engine, performed at its home (R265, R274, R321). -/
def copyWrite (q : Copy) (p : Place) (bs : List Byte) (s : State) : CopyRes (Copy × State) :=
  match p with
  | .view _ => .stop (-3)
  | .vf f off =>
    if 0x200 ≤ off then .ok (q, s)
    else if queueOwner s f (off / 8) = some q.asid then .ok (q, wakeQueue q.asid f (off / 8) s)
    else .stop (-1)
  | _ =>
    let held := fetchBytes q.asid p bs.length s
    let q := noteUndo q p held.1
    let r := stampWrite q.clock p bs.length (noteRemoteBy (cellOf q.gid) q.asid p held.2)
    .ok ({ q with clock := r.1 }, copyWipe q p (storeBytes q.asid p bs r.2))

/-! ### Rows, segments and elements (R264, R265) -/

/-- The index of row `q.row`, read once for the row (R264); 0 for a copy without indices. -/
def copyIndex (q : Copy) (d : Nat) (s : State) : CopyRes (Nat × State) :=
  match q.indexed, q.idx with
  | false, _ => .ok (0, s)
  | true, some x => .ok (x, s)
  | true, none =>
    let n := if dIdxw d = 0 then 4 else 8
    match copyRead q (n64 (dIdx d + q.row * n)) n s with
    | .ok (bs, s) => .ok (leNat bs, s)
    | .page v need => .page v need
    | .stop st => .stop st
    | .wait => .wait

/-- The source and the destination of row `q.row` (R264). -/
def rowBases (q : Copy) (d idx : Nat) : Word64 × Word64 :=
  let r : Int := (q.row : Nat)
  let x : Int := (idx : Nat)
  let gather := q.indexed && dDir d == 0
  let scatter := q.indexed && dDir d == 1
  (w64 ((dSrc d : Nat) + (if gather then x else r) * dSStride d), w64 ((dDst d : Nat) + (if scatter then x else r) * dDStride d))

/-- One element moved: read and written as one access each. -/
def copyElem (q : Copy) (src dst : Word64) (n : Nat) (s : State) : CopyRes (Copy × State) :=
  match copyPlace s q .read src n with
  | .page v need => .page v need
  | .stop st => .stop st
  | .wait => .wait
  | .ok p =>
    let r := fetchBytes q.asid p n (noteRemoteBy (cellOf q.gid) q.asid p s)
    let bs := copySource q r.2.fresh p r.1
    let s := { r.2 with fresh := r.2.fresh + 1 }
    match copyPlace s q .write dst n with
    | .page v need => .page v need
    | .stop st => .stop st
    | .wait => .wait
    | .ok p => copyWrite q p bs s

/-- A channel's progress after an element: bytes counted, and the clock (R262, R312). -/
def counted (o : Option Nat) (c : CoreKey) (ch n : Nat) (q : Copy) (s : State) : State :=
  modChan o c ch (fun k => { k with wp := k.wp + n, clock := max k.clock q.clock, cur := some q })
    (countUnit (cellOf q.gid) q.asid 4 n s)

/-- A copy that waits for the page service (R246). -/
def copyPage (o : Option Nat) (c : CoreKey) (ch : Nat) (q : Copy) (va : Word64) (need : Need) (s : State) : State :=
  let id := s.nextId
  putCopy o c ch { q with page := some id } (askPage (pageReqOf q.asid va 1 (16 * c) 0 ch need) s)

/-- Up to `fuel` elements of one segment, from the column that the copy has reached. -/
def copyElems (fuel : Nat) (o : Option Nat) (c : CoreKey) (ch : Nat) (q : Copy) (d : Nat) (base : Word64 × Word64)
    (s : State) : State :=
  match fuel with
  | 0 => putCopy o c ch q s
  | k + 1 =>
    let n := 2 ^ dEw d
    match copyElem q (base.1 + n64 q.col) (base.2 + n64 q.col) n s with
    | .page v need => copyPage o c ch q v need s
    | .stop st => putCopy o c ch { q with outcome := some st } s
    | .wait => putCopy o c ch q s
    | .ok (q, s) =>
      let q := if q.col + n = dRowLen d then { q with row := q.row + 1, col := 0, idx := none } else { q with col := q.col + n }
      let q := if q.row = dRows d then { q with outcome := some (0 : Int) } else q
      copyElems k o c ch q d base (counted o c ch n q s)

/-- One segment: the bytes of a row within one 128-byte line of the destination (R265). -/
def copySegmentAt (o : Option Nat) (c : CoreKey) (ch : Nat) (q : Copy) (d : Nat) (s : State) : State :=
  match copyIndex q d s with
  | .page v need => copyPage o c ch q v need s
  | .stop st => putCopy o c ch { q with outcome := some st } s
  | .wait => s
  | .ok (idx, s) =>
    let q := { q with idx := some idx }
    let b := rowBases q d idx
    let room := 128 - (b.2 + n64 q.col).toNat % 128
    copyElems (min room (dRowLen d - q.col) / 2 ^ dEw d) o c ch q d b s

/-- The copy's start: the descriptor is read once (R263). -/
def copyStart (o : Option Nat) (c : CoreKey) (ch : Nat) (q : Copy) (s : State) : State :=
  match copyRead q q.desc 64 s with
  | .page v need => copyPage o c ch q v need s
  | .stop _ => putCopy o c ch { q with outcome := some (-2) } s
  | .wait => s
  | .ok (bs, s) =>
    let d := leNat bs
    putCopy o c ch (if descOk q.indexed d then { q with read := some d } else { q with outcome := some (-2) }) s

/-- The busy channels of a cell whose next segment can be moved: those at its cores, and those of contexts that are switched out. -/
def busyChans (s : State) (cell : CellKey) : List Nat :=
  [0, 1, 2, 3].flatMap fun k =>
    let c := 4 * cell + k
    let listed := tkeys (coreAt s c).chans ++ s.ctxs.flatMap fun x => match tfind x.2.savedCores c with | some y => tkeys y.chans | none => []
    (listed.filter fun ch =>
      match copyAt s c ch with
      | some (_, q) => q.read.isSome && q.outcome.isNone && q.page.isNone
      | none => false).map (128 * k + ·)

/-- R265: the channel whose turn it is: the next busy one in the round after the one served last (log entry 64, DESIGN CHOICE). -/
def copyTurn (s : State) (cell : CellKey) : Option Nat :=
  let l := busyChans s cell
  match (l.filter fun n => decide ((cellAt s cell).cpyLast < n)).min? with
  | some n => some n
  | none => l.min?

/-- R265: the copy engine moves one segment of a channel's copy, when it is the channel's turn, or reads its descriptor. -/
def execCopySegment (c : CoreKey) (ch : Fin 128) (s : State) : Res :=
  event (fun s =>
    match copyAt s c ch.val with
    | none => s
    | some (o, q) =>
      if q.outcome.isSome ∨ q.page.isSome then s
      else match q.read with
        | none => copyStart o c ch.val q s
        | some d =>
          let n := 128 * (c % 4) + ch.val
          if copyTurn s (c / 4) = some n then copySegmentAt o c ch.val q d (modCell (c / 4) (fun x => { x with cpyLast := n }) s)
          else s) s

/-- R266: the channel of a copy that is over, and what sD receives. -/
def copyEnd (q : Copy) (st : Int) (k : Chan) : Chan × Int :=
  let total := match q.read with | some d => dTotal d | none => 0
  if st = 0 then ({ k with status := 0, cur := none }, ((k.w0 + total : Nat) : Int))
  else if st = -2 then ({ k with failAt := k.w0, status := st, cur := none }, st)
  else ({ k with failAt := k.wp, wp := k.w0 + total, status := st, cur := none }, st)

/-- R266: a copy that is over completes, and sD is filled. -/
def execCopyComplete (c : CoreKey) (ch : Fin 128) (s : State) : Res :=
  event (fun s =>
    match copyAt s c ch.val with
    | none => s
    | some (o, q) =>
      match q.outcome with
      | none => s
      | some st =>
        let k := match o with
          | none => chanAt s c ch.val
          | some a => ((ctxAt s a).bind fun x => (tfind x.savedCores c).bind fun y => tfind y.chans ch.val).getD Chan.reset
        let r := copyEnd q st k
        send (.reply { gid := q.gid, epoch := q.epoch, writes := [.s q.d (w64 r.2)], clock := q.clock })
          (modChan o c ch.val (fun _ => r.1) s)) s

end Sys2Proof.Machine
end

