-- ==== Sys2Proof/Machine/Homes.lean ====
section
/-! DEFINITION. Requests performed at their homes (R309, R310, R322, R324, R337), at the home dealer (R133) and the barrier unit
(R352), and the page service (R246). -/

namespace Sys2Proof.Machine

/-! ### Loads and stores at their homes (R309, R310) -/

/-- An answer that ends the park of the request's word. -/
def answer (q : Req) (ws : List RegWrite) (clock : Nat) (s : State) : State :=
  send (.reply { gid := q.gid, epoch := q.epoch, writes := ws, ends := true, clock := clock }) s

/-- A precise fault returned for the request's word (R339). -/
def answerFault (q : Req) (t : TrapInfo) (s : State) : State :=
  send (.reply { gid := q.gid, epoch := q.epoch, fault := some t }) s

/-- A request that met a translation failure: its word waits with reason page, and the request, which stays on its way, replays once the
entry is repaired (R143, R246). -/
def requestPage (q : Req) (need : Need) (s : State) : State :=
  let id := s.nextId
  modOwner q.gid q.epoch (fun x => { x with ctl := { x.ctl with wait := .page id } })
    (askPage (pageReqOf q.asid q.va 0 q.gid q.epoch 0 need) s)

/-- Whether the word of a request waits for the page service. -/
def pageHeld (s : State) (q : Req) : Bool :=
  match ownerOf s q.gid q.epoch with
  | some x => (match x.2.ctl.wait with | .page _ => true | _ => false)
  | none => false

/-- A load request performed (R249, R309). -/
def loadHome (k : Nat) (q : Req) (d : SReg) (w : LdWidth) (p : Place) (s : State) : State :=
  let s := took k s
  if poisoned s p (ldBytes w) then answerFault q (fPage 2 q.va) s
  else
    let r := stampRead q p (noteRemoteBy (cellOf q.gid) q.asid p s)
    let b := fetchBytes q.asid p (ldBytes w) r.2
    answer q [.s d (ldExtend w (leNat b.1))] r.1 b.2

/-- A store request performed (R249, R310, R95, R274, R322). -/
def storeHome (k : Nat) (q : Req) (w : StWidth) (v : Word64) (p : Place) (s : State) : State :=
  let s := took k s
  let bs := leBytes (stBytes w) v.toNat
  match p with
  | .view _ => answerFault q (fFormat 1 q.va) s
  | .vf f off =>
    if 0x200 ≤ off then answer q [] 0 s
    else if queueOwner s f (off / 8) = some q.asid then answer q [] 0 (wakeQueue q.asid f (off / 8) s)
    else answerFault q (fQueue 4) s
  | .peer pa | .host pa => answer q [] 0 (send (.remoteStore q.gid pa bs) s)
  | .own off => answer q [] 0 (send (.remoteStore q.gid (ownAddr s off) bs) s)
  | _ =>
    let r := stampWrite q.clock p bs.length (noteRemoteBy (cellOf q.gid) q.asid p s)
    answer q [] r.1 (storeBytes q.asid p bs r.2)

/-- A request at its place: it waits for the page service, for a cell where its context's state is not (R373), and for what its slot has
issued for the line before it (R320, R322). -/
def atHome (k : Nat) (q : Req) (need : Need) (f : Place → State → State) (s : State) : State :=
  if pageHeld s q then s
  else match resolve s (reqWho s q) need q.va with
    | .trap t => answerFault q t (took k s)
    | .page => if owned s q.gid q.epoch then requestPage q need s else took k s
    | .away _ => s
    | .go p => if (postedTo s q.gid (placeKey p / 128) k).isEmpty then f p s else s

/-- The cell in which operation `k` makes element accesses. -/
def accessCell (s : State) (k : Nat) : Option CellKey :=
  (s.cells.find? fun c => c.2.mx.any fun m => m.seq == k && match m.kind with | .vop i _ => isVmem i | _ => false).map Prod.fst

/-- LRW performed at the home of its word (R344). -/
def lrwHome (k : Nat) (q : Req) (d : SReg) (p : Place) (s : State) : State :=
  let s := took k s
  match ownerOf s q.gid q.epoch with
  | none => s
  | some x =>
    match lrwStep q x.1 p s with
    | .error t => answerFault q t s
    | .ok (some v, s) => answer q [.s d v.1] v.2 s
    | .ok (none, s) =>
      modOwner q.gid q.epoch (fun y => { y with
        ctl := { y.ctl with wait := .reserve d (placeKey p) }, parkCnt := 0, parkLim := bits y.waitlim 0 32 }) s

/-- JOIN performed at the home of its counter (R188). -/
def joinHome (k : Nat) (q : Req) (p : Place) (s : State) : State :=
  let s := took k s
  match ownerOf s q.gid q.epoch with
  | none => s
  | some x =>
    match joinStep q x.1 p s with
    | .error t => answerFault q t s
    | .ok (.on, ts, s) => answer q [] ts s
    | .ok (.idle, ts, s) => send (.reply { gid := q.gid, epoch := q.epoch, ends := true, idle := true, clock := ts }) s
    | .ok (.wait, ts, s) =>
      modOwner q.gid q.epoch (fun y => { y with lclk := max y.lclk ts, ctl := { y.ctl with wait := .join (placeKey p) } }) s

/-- SLRINST: the image read and applied on every slice (R340, R342). -/
def slrinstHome (k : Nat) (q : Req) (id : Nat) (s : State) : State :=
  if pageHeld s q then s
  else match install q k id s with
    | .trap t => answerFault q t (took k s)
    | .page v => requestPage { q with va := v } .read s
    | .held _ => s
    | .ok _ q s => answer q [] q.clock (took k s)

/-- R310: the home performs load or store request `k`, or the next element access of vector operation `k` (R253); the root answers a
GSTAT (R113). -/
def execHomeAccess (k : Nat) (s : State) : Res :=
  event (fun s =>
    match tfind s.net k with
    | some (.load q d w) => atHome k q .read (loadHome k q d w) s
    | some (.store q w v) => atHome k q .write (storeHome k q w v) s
    | some (.remoteStore g pa bs) => if (postedTo s g ((ownOff s pa).getD pa / 128) k).isEmpty then landStore g pa bs (took k s) else s
    | some (.lrw q d) => atHome k q .write (lrwHome k q d) s
    | some (.visit _) => took k s
    | some (.gstat q d h) =>
      let r := askRoot q.asid h (took k s)
      answer q [.s d r.1] 0 r.2
    | some _ => s
    | none =>
      match accessCell s k with
      | some c => runMem 1 c k s
      | none => s) s

/-! ### Atomics and routines (R324, R337) -/

/-- A returning request performed (R327, R329, R330, R338). -/
def atomicHome (k : Nat) (q : Req) (d : SReg) (op : AtomOp) (p : Place) (s : State) : State :=
  let s := took k s
  match atomicAt q p op s with
  | .error t => answerFault q t s
  | .ok (g0, g1, ts, s) => answer q (atomicWrites d op g0 g1) ts s

/-- R337: the home performs atomic request `k` (also a JOIN's, R188, and an SLRINST's, R340): a posted one after the vector memory operations and the posted operations to the
same line that its slot issued before it (R255, R320). -/
def execSliceRoutine (k : Nat) (s : State) : Res :=
  event (fun s =>
    match tfind s.net k with
    | some (.atomic q (some d) op _) => atHome k q .write (atomicHome k q d op) s
    | some (.join q) => atHome k q .write (joinHome k q) s
    | some (.slrinst q id) => slrinstHome k q id s
    | some (.atomic q none op page) =>
      let first := match reqLine s q with | some l => (postedTo s q.gid l k).isEmpty | none => true
      if first = true ∧ vmemBefore s q.gid k = false then performPosted k q op page s else s
    | _ => s) s

/-! ### The home dealer (R133, R136) -/

/-- The dealer serves request `k`, where its operation is one of those given. -/
def dealerServeAt (k : Nat) (ops : List Nat) (s : State) : State :=
  match tfind s.net k with
  | some (.dealer q d ask) =>
    if ops.contains (bits ask 6 2) = true ∧ isOut s q.asid = false then
      let r := dealerServe q.asid (cellOf q.gid) ask (took k s)
      answer q [.s d r.1] 0 r.2
    else s
  | _ => s

/-- R136: a NEXT request; an operation code that R132 does not give is answered here too. -/
def execDealerNext (k : Nat) (s : State) : Res := event (dealerServeAt k [0, 3]) s
/-- R133: a SET request. -/
def execDealerSet (k : Nat) (s : State) : Res := event (dealerServeAt k [1]) s
/-- R133: a QUERY request. -/
def execDealerQuery (k : Nat) (s : State) : Res := event (dealerServeAt k [2]) s

/-! ### The barrier unit (R352) -/

/-- R352, R354: the barrier unit applies request `k`; a slot that has been killed arrives no more (R355). -/
def execBarrierUnitRequest (k : Nat) (s : State) : Res :=
  event (fun s =>
    match tfind s.net k with
    | some (.barInit q n v) =>
      if isOut s q.asid then s
      else
        let r := barSet q.asid n (bits v 0 24) q.clock (took k s)
        answer q [] r.1 r.2
    | some (.barArrive q n d) =>
      if owned s q.gid q.epoch = false then took k s
      else if isOut s q.asid then s
      else
        let r := barArrive q.asid n q.gid q.clock (took k s)
        answer q [.s d r.1] r.2.1 r.2.2
    | some (.barQuery q n d v) =>
      if isOut s q.asid then s else answer q [.s d (barQuery (barOf s q.asid n) v)] 0 (took k s)
    | _ => s) s

/-! ### The page service (R246) -/

/-- The global address that failed: of an access to a mapped stash byte, the one behind it (R246, R259). -/
def failedVa (s : State) (r : PageReq) : Word64 :=
  if bits r.va 56 8 = 0xFF then
    match coordinate s (partyAt s r.asid true (coreOf r.gid)) r.va with
    | .go (.stash c off) => match mapAt s r.asid c off with | some m => n64 (m.va + (off - m.off)) | none => r.va
    | _ => r.va
  else r.va

/-- A leaf that names no place: an address outside every range, or a view address that no enabled window covers. The service declares the
failure unrecoverable (R270, R391). -/
def leafHole (s : State) (r : PageReq) : Bool :=
  let va := failedVa s r
  match leafOf s (partyAt s r.asid true (coreOf r.gid)) va.toNat with
  | some (sh, e) => physical s true va (bits e 12 40 * 2 ^ 12 + va.toNat % 2 ^ sh) == .page
  | none => false

/-- The page-table entries of a repair written, and what a TLB holds of the page dropped. -/
def repairPages (r : PageReq) (es : List (Nat × Word64)) (s : State) : State :=
  let s := es.foldl (fun s e => writeMem (e.1 / 8 * 8) (leBytes 8 e.2.toNat) s) s
  modCtx r.asid (fun c => { c with tlb := c.tlb.filter fun e => e.key != tlbKey (e.key % 64) (failedVa s r).toNat }) s

/-- A copy goes on after a repair, or fails: its descriptor cannot be read, or FAULT (R246, R266). -/
def copyVerdict (id : Nat) (r : PageReq) (ok : Bool) (s : State) : State :=
  let c := coreOf r.gid
  match copyAt s c r.item with
  | some (o, q) =>
    if q.page ≠ some id then s
    else putCopy o c r.item { q with page := none, outcome := if ok then none else some (if q.read.isNone then -2 else -1) } s
  | none => s

/-- An element access goes on after a repair, or has failed (R252, R283). -/
def elemVerdict (id : Nat) (r : PageReq) (ok : Bool) (s : State) : State :=
  let c := cellOf r.gid
  match mxAt s c r.item with
  | some m =>
    if m.page ≠ some id then s
    else if ok then putMx c { m with page := none } s
    else elemFailed c m (fPage 1 r.va) r.va s
  | none => s

/-- A posted operation goes on after a repair, or has failed (R332, R334). -/
def postedVerdict (r : PageReq) (ok : Bool) (s : State) : State :=
  match tfind s.net r.item with
  | some (.atomic q none op _) =>
    if ok then { s with net := tput s.net r.item (.atomic q none op none) }
    else postedOver q (recordFail q (fPage 1 r.va) (took r.item s))
  | _ => s

/-- The verdict on a failure reaches the access stream that met it; a word's own verdict waits for its slot. -/
def giveVerdict (id : Nat) (r : PageReq) (ok : Bool) (s : State) : State :=
  match r.kind with
  | 0 => { s with pages := tput s.pages id { r with done := some ok } }
  | 1 => copyVerdict id r ok { s with pages := tdel s.pages id }
  | 4 => postedVerdict r ok { s with pages := tdel s.pages id }
  | 5 => if ok then { s with pages := tdel s.pages id } else { s with pages := tput s.pages id { r with done := some false } }
  | _ => elemVerdict id r ok { s with pages := tdel s.pages id }

/-- R246, R89: a PAGE SERVICE core settles failure `id`. -/
def execPageService (id : Nat) (v : PageVerdict) (s : State) : Res :=
  event (fun s =>
    match tfind s.pages id with
    | none => s
    | some r =>
      if r.done.isSome ∨ (workCore s 1).isNone = true then s
      else match v with
        | .unrecoverable => giveVerdict id r false s
        | .repaired es =>
          if leafHole s r then giveVerdict id r false s
          else
            let s := repairPages r es s
            giveVerdict id r (!leafHole s r) s) s

end Sys2Proof.Machine
end

