-- ==== Sys2Proof/Machine/Skink.lean ====
section
/-! DEFINITION. The Skink engine (R368 to R372): the save area of a slot, its spill and its restore. -/

namespace Sys2Proof.Machine

/-! ### The save area (R368) -/

/-- The code of a presence state (R368). -/
def Pres.num : Pres → Nat
  | .empty => 0
  | .full => 1
  | .owed => 2

/-- The presence state of a code. -/
def presOfNum (n : Nat) : Pres := match n with | 0 => .empty | 1 => .full | _ => .owed

/-- Presence states, two bits each. -/
def packPres (l : List Pres) : Nat := ofElems 2 (l.map Pres.num)

/-- The loop records and the address of the next word to issue, as the save area has them (R368). -/
def nextWord (x : Slot) : List LoopRec × Word64 :=
  if x.ctl.wait.restarts then (x.ctl.loops, x.ctl.pc) else endCheck x.ctl.pc x.ctl.npc x.ctl.loops

/-- Two loop records from an offset, innermost first. -/
def loopPieces (o : Nat) (l : List LoopRec) : List Piece :=
  ((l.take 2).zipIdx).flatMap fun (r, k) =>
    [(o + 24 * k, 8, r.start.toNat), (o + 24 * k + 8, 8, r.stop.toNat), (o + 24 * k + 16, 8, r.count.toNat)]

/-- The word of pending posted operations and their first failure (R368). -/
def postedWord (x : Slot) : Nat :=
  x.posted % 2 ^ 11 +
  match x.pfail with
  | some f => f.code * 2 ^ 16 + f.status % 256 * 2 ^ 24 + min 0xFFFFFFFF f.count * 2 ^ 32
  | none => 0

/-- The state a slot was spilled from (R368). -/
def spilledFrom (x : Slot) : SlotSt := if x.ctl.held then .halted else x.ctl.under

/-- The armed block-sum records (R368). -/
def bsaccPieces (l : List BsaccRec) : List Piece :=
  ((l.take 4).zipIdx).flatMap fun (b, k) =>
    [(0x340 + 24 * k, 8, b.reg.val), (0x348 + 24 * k, 8, b.left), (0x350 + 24 * k, 4, wrap 32 b.m), (0x354 + 24 * k, 2, wrap 16 b.e)]

/-- The image of a slot, but for its inbox (R368). -/
def slotPieces (s : State) (g : SlotKey) (x : Slot) : List Piece :=
  [(0x000, 8, (nextWord x).2.toNat), (0x008, 1, (spilledFrom x).code), (0x009, 1, x.ctl.wait.code),
   (0x00A, 2, inboxCount x.inbox), (0x010, 8, x.lclk), (0x018, 8, x.parkCnt), (0x020, 8, x.waitlim.toNat),
   (0x028, 8, x.trap.vec.toNat), (0x030, 8, x.trap.cause.toNat), (0x038, 8, x.trap.addr.toNat),
   (0x040, 8, x.trap.pc.toNat), (0x048, 8, vwinWord x.win), (0x050, 8, postedWord x),
   (0x058, 8, (match x.pfail with | some f => f.addr.toNat | none => 0))] ++
  loopPieces 0x060 (nextWord x).1 ++
  [(0x100, 256, ofElems 64 (0 :: (x.regs.s.toList.drop 1).map (·.toNat))), (0x200, 8, packPres x.regs.sp.toList),
   (0x208, 1, ofElems 1 (x.regs.p.toList.map Bool.toNat)), (0x209, 2, packPres x.regs.pp.toList),
   (0x210, 2, packPres x.regs.mp.toList), (0x218, 8, packPres x.regs.vp.toList),
   (0x240, 256, ofElems 256 (x.regs.m.toList.map (·.toNat)))] ++
  bsaccPieces x.bsaccs ++
  [(0x3A0, 24, ofElems 64 (x.shadow.s.toList.map (·.toNat))),
   (0x3B8, 1, packPres (x.shadow.sp.toList ++ [x.shadow.pp1])), (0x3B9, 1, x.shadow.p1.toNat)] ++
  loopPieces 0x3C0 x.shadow.loops ++
  ((List.range x.win.size).map fun k => (0x400 + 256 * k, 256, (vGet s g k).toNat)) ++
  [(0xCC00, 128, ofElems 64 x.ctr.toList)]

/-- A whole save area written: the fields, and zeros elsewhere. -/
def writeImage (a : Nat) (ps : List Piece) (s : State) : State :=
  putPieces a ps (zeroPhys a 53248 (recallRange a 53248 s))

/-- `n` bytes of a save area as a number. -/
def areaNat (s : State) (a o n : Nat) : Nat := leNat (peekPhys s (a + o) n)

/-- Two loop records read back. -/
def areaLoops (s : State) (a o : Nat) : List LoopRec :=
  ([0, 1].map fun k =>
    ({ start := n64 (areaNat s a (o + 24 * k) 8), stop := n64 (areaNat s a (o + 24 * k + 8) 8),
       count := n64 (areaNat s a (o + 24 * k + 16) 8) } : LoopRec)).filter fun r => r.count != 0

/-- The registers read back. -/
def areaRegs (s : State) (a : Nat) : Regs :=
  let sv := areaNat s a 0x100 256
  let sp := areaNat s a 0x200 8
  let gv := areaNat s a 0x208 3
  let mv := areaNat s a 0x240 256
  let mp := areaNat s a 0x210 2
  let vp := areaNat s a 0x218 8
  { s := Vector.ofFn fun k => n64 (elem sv 64 k.val), sp := Vector.ofFn fun k => presOfNum (elem sp 2 k.val)
    p := Vector.ofFn fun k => elem gv 1 k.val == 1, pp := Vector.ofFn fun k => presOfNum (elem (gv / 256) 2 k.val)
    m := Vector.ofFn fun k => BitVec.ofNat 256 (elem mv 256 k.val), mp := Vector.ofFn fun k => presOfNum (elem mp 2 k.val)
    vp := Vector.ofFn fun k => presOfNum (elem vp 2 k.val) }

/-- The shadow read back. -/
def areaShadow (s : State) (a : Nat) : Shadow :=
  let v := areaNat s a 0x3A0 24
  let p := areaNat s a 0x3B8 1
  { s := Vector.ofFn fun k => n64 (elem v 64 k.val), sp := Vector.ofFn fun k => presOfNum (elem p 2 k.val)
    p1 := areaNat s a 0x3B9 1 % 2 == 1, pp1 := presOfNum (elem p 2 3), loops := areaLoops s a 0x3C0 }

/-- The armed records read back, for as many as are armed. -/
def areaBsaccs (s : State) (a n : Nat) : List BsaccRec :=
  (List.range n).map fun k =>
    { reg := sreg 0 (areaNat s a (0x340 + 24 * k) 8 % 32), left := areaNat s a (0x348 + 24 * k) 8
      m := sgn 32 (areaNat s a (0x350 + 24 * k) 4), e := sgn 16 (areaNat s a (0x354 + 24 * k) 2) }

/-- The window size that a save area asks for. -/
def areaWindow (s : State) (a : Nat) (x : Slot) : Nat :=
  let n := field (areaNat s a 0x48 8) 16 6
  if n = 0 ∨ n = 8 ∨ n = 16 ∨ n = 32 then n else x.win.size

/-- A spilled slot with what its save area holds (R372 step 2); reserved bits of a register stay 0 (R11). What moves on while it is spilled, its pending count, failure
record and LOSTRW counter among it, stands in the state. -/
def areaSlot (s : State) (a : Nat) (x : Slot) : Slot :=
  { x with
    ctl := if x.ctl.wait.restarts then { x.ctl with pc := n64 (areaNat s a 0 8), loops := areaLoops s a 0x60 } else x.ctl
    regs := areaRegs s a, parkCnt := areaNat s a 0x18 8, waitlim := n64 (areaNat s a 0x20 4)
    lclk := max x.lclk (areaNat s a 0x10 8)
    trap := { vec := n64 (areaNat s a 0x28 8) &&& ~~~(1 : Word64), cause := n64 (areaNat s a 0x30 8) &&& causeMask,
              addr := n64 (areaNat s a 0x38 8), pc := n64 (areaNat s a 0x40 8) &&& ~~~(1 : Word64) }
    shadow := areaShadow s a, bsaccs := areaBsaccs s a x.bsaccs.length }

/-! ### Spilling (R370) -/

/-- Step 1: at its turn a slot stops; from now on arrivals go to its inbox. -/
def stopForSpill (g : SlotKey) (s : State) : State :=
  modCtl g (fun c => { c with
    st := .spilled, under := if c.st = .halted then c.under else c.st, held := c.st == .halted, buf := []
    req := { c.req with spill := true } }) s

/-- Step 2: every operation of the slot has started and read its sources, and its bank can be read (R378). -/
def drainedForSpill (s : State) (g : SlotKey) : Bool :=
  !((coreAt s (coreOf g)).queue.any fun e => e.gid == g) &&
  (cellAt s (cellOf g)).mx.all fun m => m.gid != g || m.remote.isSome || sourced m

/-- Step 3: the image is written and the window goes back to the pool. -/
def saveSlot (g : SlotKey) (s : State) : State :=
  let x := count 9 1 (slotAt s g)
  let a := saveArea s x.ctl.asid g
  writeTail a x 64 <| writeImage a (slotPieces s g x)
    (setSlot g { x with ctl := { x.ctl with req := { x.ctl.req with spill := false } } } s)

/-- R370: a stopped slot is saved once its queue has drained. -/
def execSkinkSpill (g : SlotKey) (s : State) : Res :=
  event (fun s =>
    let x := slotAt s g
    if x.ctl.st = .spilled ∧ x.ctl.req.spill = true ∧ drainedForSpill s g = true then
      if x.win.size ≠ 0 ∧ bankAwake s (cellOf g) x.win.base = false then rouse (cellOf g) (x.win.base / 32) s
      else saveSlot g s
    else s) s

/-! ### Restoring (R372) -/

/-- One inbox entry replayed (R372 step 3). -/
def replay (g : SlotKey) (s : State) (e : InboxEntry) : State :=
  match e with
  | .result r => applyReply r s
  | .rput r v c => applyRput g r v c s
  | .bsum r m e c => applyBsum g r m e c s

/-- The window's registers written back. -/
def fillWindow (g : SlotKey) (a size : Nat) (s : State) : State :=
  (List.range size).foldl (fun t k => vPut g k (BitVec.ofNat 2048 (areaNat s a (0x400 + 256 * k) 256)) t) s

/-- R372: a slot restored into a window at `b`. -/
def restoreInto (g : SlotKey) (a b size : Nat) (s : State) : State :=
  let x := slotAt s g
  let y := areaSlot s a x
  let box := x.inbox
  let s := setSlot g (count 10 (inboxCount box) { y with
    win := { base := b, size := size }, inbox := []
    ctl := { y.ctl with
      st := if x.ctl.held then .halted else x.ctl.under
      req := { x.ctl.req with spill := false, restore := false } } }) s
  let s := fillWindow g a size (if size = 0 then s else wakeBank (cellOf g) (b / 32) s)
  let s := box.foldl (replay g) s
  if (slotAt s g).ctl.st = .idle then lookForTask g s else s

/-- R372: a spilled slot restored, or left as it is while the pool has no window for it. -/
def restoreSlot (g : SlotKey) (s : State) : State :=
  let x := slotAt s g
  let a := saveArea s x.ctl.asid g
  let size := areaWindow s a x
  match windowFor s g size with
  | some b => restoreInto g a b size s
  | none => s

/-- R372: a requested restore of a saved slot. -/
def execSkinkRestore (g : SlotKey) (s : State) : Res :=
  event (fun s =>
    let x := slotAt s g
    if x.ctl.st = .spilled ∧ x.ctl.req.spill = false ∧ x.ctl.req.restore = true then restoreSlot g s else s) s

end Sys2Proof.Machine
end

