-- ==== Sys2Proof/Machine/Gang.lean ====
section
/-! DEFINITION. Gang switch ticks and the save deadline (R373 to R376, R401), a committed partition (R125), migration (R379,
R397), and the rebase of clocks (R313). -/

namespace Sys2Proof.Machine

/-! ### The Anole log (R406) -/

/-- An entry in the Anole core's log of 65,536 entries: the time, a class and 24 bytes of detail. -/
def logEvent (cls detail : Nat) (s : State) : State :=
  let r := readTimer s
  let s := r.2
  let l := s.boot.log ++ [{ time := r.1, cls := cls, detail := detail % 2 ^ 192 }]
  { s with boot := { s.boot with log := l.drop (l.length - 65536) } }

/-! ### The order of turns (R401) -/

/-- Contexts in the order in which they were created. -/
def insertBorn (a : Nat × Ctx) (l : List (Nat × Ctx)) : List (Nat × Ctx) :=
  match l with
  | [] => [a]
  | b :: r => if a.2.born < b.2.born then a :: b :: r else b :: insertBorn a r

/-- The contexts on a partition, in turn order. -/
def sharers (s : State) (base len : Nat) : List Nat :=
  ((s.ctxs.filter fun c => c.2.part.curBase == base && c.2.part.curLen == len).foldl (fun l c => insertBorn c l) []).map Prod.fst

/-- The next in a round after `a`. -/
def nextOf (a : Nat) (l : List Nat) : Option Nat :=
  match (l.dropWhile (· != a)).drop 1 with
  | b :: _ => some b
  | [] => l.head?

/-- The one before `a` in a round. -/
def beforeOf (a : Nat) (l : List Nat) : Option Nat := nextOf a l.reverse

/-! ### Quiet cells (R373 steps 1 to 3) -/

/-- The slots of a context on a cell, but those that are FREE. -/
def ctxSlots (s : State) (a : Nat) (c : CellKey) : List SlotKey :=
  ((List.range 64).map (64 * c + ·)).filter fun g => (slotAt s g).ctl.st != .free && (slotAt s g).ctl.asid == a

/-- Every cell of a partition. -/
def partOf (base len : Nat) : List CellKey :=
  (List.range 256).filter fun c => decide (base ≤ hilbert c) && decide (hilbert c < base + len)

/-- Whether an address of a copy names a byte of a cell's stash. -/
def namesCell (s : State) (q : Copy) (c : CellKey) (va : Word64) : Bool :=
  bits va 56 8 == 0xFF && match coordinate s (copyWho s q) va with | .go (.stash k _) => k == c | _ => false

/-- Whether a copy touches a cell's stash: its descriptor stands there and is not read yet, or one of the rows that are left does, or
its index vector. The row that an index will pick may stand on any cell. -/
def touchesStash (s : State) (q : Copy) (c : CellKey) : Bool :=
  match q.read with
  | none => namesCell s q c q.desc
  | some d =>
    (q.indexed && (field (if dDir d = 0 then dSrc d else dDst d) 56 8 == 0xFF)) ||
    (List.range (dRows d - q.row)).any fun k =>
      let b := rowBases { q with row := q.row + k } d 0
      (!(q.indexed && dDir d == 0) && namesCell s q c b.1) || (!(q.indexed && dDir d == 1) && namesCell s q c b.2) ||
      (q.indexed && namesCell s q c (n64 (dIdx d + (q.row + k) * if dIdxw d = 0 then 4 else 8)))

/-- The running copies of a context, at its cores and where they are switched out. -/
def copiesOf (s : State) (a : Nat) : List Copy :=
  let cur := fun (k : Core) => (k.chans.filterMap fun q => q.2.cur).filter fun p => p.asid == a
  s.cores.flatMap (fun k => cur k.2) ++ match ctxAt s a with | some c => c.savedCores.flatMap fun k => cur k.2 | none => []

/-- A cell is ready to be saved: its slots are saved, what they had started on the wide unit is complete, and no copy touches
its stash. -/
def cellQuiet (s : State) (a : Nat) (c : CellKey) : Bool :=
  (ctxSlots s a c).all (fun g => (slotAt s g).ctl.st == .spilled && !(slotAt s g).ctl.req.spill && (slotAt s g).arrs.isEmpty) &&
  ((cellAt s c).mx.all fun m => match m.kind with | .vop .. => false | _ => true) &&
  !((copiesOf s a).any fun q => q.outcome.isNone && touchesStash s q c)

/-- Every slot of the outgoing context is asked to spill. -/
def askSpills (a : Nat) (cs : List CellKey) (s : State) : State :=
  (cs.flatMap (ctxSlots s a)).foldl (fun s g =>
    if (slotAt s g).ctl.st = .spilled then s else modCtl g (fun c => { c with req := { c.req with spill := true } }) s) s

/-! ### Saving and restoring cells and cores (R373 steps 4 to 6) -/

/-- The entries of one table put into another. -/
def putAll {α : Type} (t u : Tab α) : Tab α := u.foldl (fun t q => tput t q.1 q.2) t

/-- Bytes of one list put over another. -/
def overlay (l m : List Host.Cell) : List Host.Cell := m.foldl (fun l b => putByte l b.1 b.2) l

/-- The counts of one table added to those of another (R379). -/
def addAll (t u : Tab Nat) : Tab Nat := u.foldl (fun t q => tput t q.1 ((tfind t q.1).getD 0 + q.2)) t

/-- A cell with what was saved of it for a context. -/
def joinPart (sv x : Cell) : Cell :=
  { x with
    stash := overlay x.stash sv.stash, tags := sv.tags ++ x.tags
    opnd := sv.opnd, ohold := sv.ohold, tile := sv.tile, tpres := sv.tpres, thold := sv.thold, claims := sv.claims
    lastMma := sv.lastMma, maps := x.maps ++ sv.maps, feq := sv.feq, mx := sv.mx, mxLast := sv.mxLast
    mxgen := putAll x.mxgen sv.mxgen, held := sv.held, units := addAll x.units sv.units }

/-- What is saved of a core: its block, deque and channels. -/
def savedCore (x : Core) : Core := { x with cycle := 0, lines := [], queue := [] }

/-- What stays: the cycle count and the instruction cache. -/
def leftCore (x : Core) : Core := { Core.reset with cycle := x.cycle, lines := x.lines }

/-- A core with what was saved of it. -/
def joinCore (sv x : Core) : Core := { sv with cycle := x.cycle, lines := x.lines }

/-- Slot names in the queues of memory renamed (R345). -/
def renameQueues (f : Nat → Nat) (s : State) : State :=
  { s with mem := { s.mem with
    resv := s.mem.resv.map fun q => (q.1, { holder := q.2.holder.map f, fifo := q.2.fifo.map f })
    joins := s.mem.joins.map fun q => (q.1, f q.2) } }

/-! ### What memory keeps of a stash while its cell is switched out (R307, R344, R408) -/

/-- The values of a table under other keys. -/
def rekey {α : Type} (f : Nat → Nat) (t : Tab α) : Tab α := t.foldl (fun u q => tput u (f q.1) q.2) []

/-- Reservations, keeper-waiters, stamps and poison of memory renamed: `f d` renames a location that is given in units of `d` bytes. -/
def rekeyMem (f : Nat → Nat → Nat) (s : State) : State :=
  { s with mem := { s.mem with
    resv := rekey (f 1) s.mem.resv, joins := rekey (f 1) s.mem.joins, stamps := rekey (f 8) s.mem.stamps
    poison := s.mem.poison.foldl (fun l k => sadd l (f 128 k)) [] } }

/-- The number of a location in a cell's tenant stash, once the cell is switched out. -/
def outKey (a c t d k : Nat) : Nat :=
  if stashLoc c 0 / d ≤ k ∧ k < stashLoc c t / d then k + (a + 1) * (2 ^ 64 / d) else k

/-- The number of a location of a cell that comes back. -/
def inKey (a c d k : Nat) : Nat :=
  if k / (2 ^ 64 / d) = a + 1 ∧ locCell (k % (2 ^ 64 / d) * d) = c then k % (2 ^ 64 / d) else k

/-- What memory keeps of the stashes of a context that are switched out and that `p` names is dropped. -/
def dropOut (a : Nat) (p : CellKey → Bool) (s : State) : State :=
  let keep := fun (d k : Nat) => !(k / (2 ^ 64 / d) == a + 1 && p (locCell (k % (2 ^ 64 / d) * d)))
  { s with mem := { s.mem with
    resv := s.mem.resv.filter fun q => keep 1 q.1, joins := s.mem.joins.filter fun q => keep 1 q.1
    stamps := s.mem.stamps.filter fun q => keep 8 q.1, poison := s.mem.poison.filter (keep 128) } }

/-! ### A cell leaves a context, and comes back (R373) -/

/-- The bytes of an image, zeros left out. -/
def imageCells (k a n : Nat) : List Host.Cell :=
  (List.range n).filterMap fun i => if Config.cellImage k i = 0 then none else some (a + i, Config.cellImage k i)

/-- The cell's state is written to the context's cell save area, 1 MiB at CELLSAVE + 1 MiB · (H − PBASE): the spec gives no layout of it, so
that its bytes are free values, and what is restored stands in the state (R398, log entry 63, DESIGN CHOICE). -/
def writeCellImage (a h : Nat) (s : State) : State :=
  match ctxAt s a with
  | none => s
  | some c =>
    let pa := c.rcd.cellsave + 2 ^ 20 * (h - c.part.curBase)
    let s := recallRange pa (2 ^ 20) s
    let f := s.fresh
    if beyond s pa then pokePhys pa ((List.range (2 ^ 20)).map (Config.cellImage f)) { s with fresh := f + 1 }
    else
      let p := homePa s pa
      let l := s.mem.bytes
      { s with
        fresh := f + 1
        mem := { s.mem with bytes := (l.filter fun b => decide (b.1 < p)) ++ imageCells f p (2 ^ 20) ++ l.filter fun b => decide (p + 2 ^ 20 ≤ b.1) } }

/-- The cores of a cell that run tenants (R27). -/
def cellCores (s : State) (c : CellKey) : List CoreKey := [4 * c, 4 * c + 1, 4 * c + 2, 4 * c + 3].filter fun k => !(fwCores s).contains k

/-- The slots of a context saved, their inboxes with them (R369). -/
def saveSlots (a : Nat) (gs : List SlotKey) (s : State) : State :=
  let s := gs.foldl (fun s g =>
    let x := slotAt s g
    let s := writeInbox (saveArea s a g) x s
    { s with saves := tput s.saves (saveKey a g) x, slots := tput s.slots g { Slot.reset with lclk := x.lclk } }) s
  renameQueues (fun g => if gs.contains g then saveKey a g else g) s

/-- One cell saved, its slots with it: the context's state does not stand there any more. -/
def leaveCell (a : Nat) (s : State) (c : CellKey) : State :=
  let s := dropLines a c (toBoundary 64 c (saveSlots a (ctxSlots s a c) s))
  let t := tenantStash s c
  let x := cellAt s c
  let ks := cellCores s c
  let s := modCtx a (fun z => { z with
    away := sadd z.away c
    saved := tput z.saved (hilbert c - z.part.curBase) (savedPart a t x)
    savedCores := ks.foldl (fun l k => tput l k (savedCore (coreAt s k))) z.savedCores }) s
  let s := ks.foldl (fun s k => modCore k leftCore s) (modCell c (leftPart a t) s)
  writeCellImage a (hilbert c) (rekeyMem (outKey a c t) s)

/-- The saved slots of a cell put back, and restored (R372), windows in decreasing order of size (R423). -/
def loadSlots (a : Nat) (c : CellKey) (s : State) : State :=
  let mine := s.saves.filter fun q => q.1 / 16384 == a && cellOf (q.1 % 16384) == c
  let s := mine.foldl (fun s q =>
    { s with saves := tdel s.saves q.1
             slots := tput s.slots (q.1 % 16384)
               { q.2 with ctl := { q.2.ctl with req := { q.2.ctl.req with restore := true } } } }) s
  let s := renameQueues (fun k => if (mine.map Prod.fst).contains k then k % 16384 else k) s
  let sized := fun n => mine.filter fun q => q.2.win.size == n
  (sized 32 ++ sized 16 ++ sized 8 ++ sized 0).foldl (fun s q => restoreSlot (q.1 % 16384) s) s

/-- One cell restored, then its slots; it has not joined the incoming context yet (R374). -/
def enterCell (a : Nat) (s : State) (c : CellKey) : State :=
  match ctxAt s a with
  | none => s
  | some z =>
    let h := hilbert c - z.part.curBase
    let s := modCell c (fun x => { joinPart ((tfind z.saved h).getD Cell.reset) x with joined := false }) (rekeyMem (inKey a c) s)
    let ks := cellCores s c
    let s := ks.foldl (fun s q => modCore q (joinCore ((tfind z.savedCores q).getD Core.reset)) s) s
    loadSlots a c (modCtx a (fun z => { z with
      away := sdel z.away c, saved := tdel z.saved h, savedCores := ks.foldl (fun l k => tdel l k) z.savedCores }) s)

/-- The cells of the partition that a context has in force. -/
def ownCells (s : State) (a : Nat) : List CellKey :=
  match ctxAt s a with
  | some c => partOf c.part.curBase c.part.curLen
  | none => []

/-- A context leaves all its cells at once. -/
def switchOut (a : Nat) (s : State) : State := modCtx a (fun z => { z with out := true }) ((ownCells s a).foldl (leaveCell a) s)

/-- A context takes all its cells at once. -/
def switchIn (a : Nat) (s : State) : State := (ownCells s a).foldl (enterCell a) (modCtx a (fun z => { z with out := false }) s)

/-! ### A committed partition takes effect (R125) -/

/-- R125: without ticks, once nothing of the context is live. -/
def execPartitionChange (a : Nat) (s : State) : Res := event (applyDue a) s

/-- Save areas that stand elsewhere once the partition has changed: read, then written. -/
def moveImages (l : List (Nat × Nat)) (s : State) : State :=
  let images := l.map fun q => (q.2, peekPhys s q.1 53248)
  images.foldl (fun s q => pokePhys q.1 q.2 (zeroPhys q.1 53248 (recallRange q.1 53248 s))) s

/-- The generations that a context has saved of cells that leave its partition go back to those cells (R297). -/
def keepGens (c : Ctx) (new : List CellKey) (s : State) : State :=
  (partOf c.part.curBase c.part.curLen).foldl (fun s k =>
    match tfind c.saved (hilbert k - c.part.curBase) with
    | some x => if new.contains k = true ∨ x.mxgen = [] then s else modCell k (fun y => { y with mxgen := putAll y.mxgen x.mxgen }) s
    | none => s) s

/-- A committed partition takes effect for a context that is switched out: cells that leave lose their saved stash, cells that
join have none; the generations of capabilities stay with their cells (R297). Slots on cells that leave stay saved (log entry 67, DESIGN
CHOICE). -/
def movePart (a : Nat) (s : State) : State :=
  match ctxAt s a with
  | none => s
  | some c =>
    let new := partOf c.part.base c.part.len
    let kept := c.saved.filterMap fun q =>
      let h := c.part.curBase + q.1
      if c.part.base ≤ h ∧ h < c.part.base + c.part.len then some (h - c.part.base, q.2) else none
    let gs := ((s.saves.filter fun q => q.1 / 16384 == a).map fun q => q.1 % 16384).filter fun g =>
      (partOf c.part.curBase c.part.curLen).contains (cellOf g) && new.contains (cellOf g)
    let s' := modCtx a (fun z => { z with
      saved := kept, away := new, part := { z.part with curBase := c.part.base, curLen := c.part.len } })
      (keepGens c new (dropOut a (fun k => !new.contains k) s))
    moveImages (gs.map fun g => (saveArea s a g, saveArea s' a g)) s'

/-! ### Ticks (R373), the deadline and the switch log (R374, R375) -/

/-- The context that runs on a partition. -/
def runner (s : State) (base len : Nat) : Option Nat :=
  (sharers s base len).find? fun a => match ctxAt s a with | some c => !c.out | none => false

/-- A switch is under way from or to a context. -/
def switching (s : State) (a : Nat) : Bool := s.switches.any fun w => w.2.out == a || w.2.inn == a

/-- A switch record (R375). -/
def switchRecord (tick die nlate late out inn : Nat) : Nat :=
  tick % 2 ^ 32 + die * 2 ^ 32 + nlate % 256 * 2 ^ 40 + min late 0xFFFFFFFF * 2 ^ 64 + out % 65536 * 2 ^ 96 + inn % 65536 * 2 ^ 112

/-- A record appended to the switch log of a context: dropped beyond its capacity, counted in SWCNT (R398). -/
def appendSwitch (c : Ctx) (r : Nat) (s : State) : State :=
  let n := leNat ((readPhys s (c.rcd.addr + 84) 4).getD [])
  let s := if n < c.rcd.swcap then writePhys 0 (c.rcd.swlog + 16 * n) (leBytes 16 r) s else s
  logEvent 4 r (writePhys 0 (c.rcd.addr + 84) (leBytes 4 (min 0xFFFFFFFF (n + 1))) s)

/-- A cell joins the incoming context (R374). -/
def joinCell (s : State) (k : CellKey) : State := modCell k (fun x => { x with joined := true }) s

/-- A late cell joins; with the last of its die, the die's record is written (R375). -/
def joinLate (base : Nat) (w : Switch) (k : CellKey) (s : State) : State :=
  match w.deadline with
  | none => s
  | some t =>
    let s := joinCell s k
    if w.late.contains k = false ∨ (w.left.any fun q => dieOf q == dieOf k) = true then s
    else match ctxAt s w.inn with
      | none => s
      | some c =>
        let r := readTimer s
        let n := (w.late.filter fun q => dieOf q == dieOf k).length
        appendSwitch c (switchRecord ((tfind s.tickNo base).getD 0) (dieOf k) n (r.1 - t) w.out w.inn) r.2

/-- One cell of a switch saved and restored (R373 steps 4 to 6), each cell on its own. -/
def passCell (base : Nat) (s : State) (k : CellKey) : State :=
  match tfind s.switches base with
  | none => s
  | some w =>
    let w := { w with left := w.left.filter (· != k) }
    joinLate base w k (enterCell w.inn (leaveCell w.out { s with switches := tput s.switches base w } k) k)

/-- The outgoing context of a switch takes its new partition, and its turn there where nobody runs (R125). -/
def passPart (w : Switch) (s : State) : State :=
  let s := movePart w.out (modCtx w.out (fun z => { z with out := true }) s)
  match ctxAt s w.out with
  | some c => if (runner s c.part.base c.part.len).isNone then switchIn w.out s else s
  | none => s

/-- The end of a switch: every cell is saved, and the deadline has passed or no cell is restored. -/
def endSwitch (base : Nat) (s : State) : State :=
  match tfind s.switches base with
  | none => s
  | some w =>
    if w.left ≠ [] ∨ (w.deadline = none ∧ (ctxAt s w.inn).isSome = true) then s
    else
      let s := { s with switches := tdel s.switches base }
      if w.part then passPart w s else s

/-- A tick begins: the slots of the outgoing context are asked to spill. From now on nothing starts in its cells (R374). -/
def beginSwitch (a : Nat) (c : Ctx) (s : State) : State :=
  let base := c.part.curBase
  let cs := partOf base c.part.curLen
  let part := partPending c
  let next := (nextOf a (sharers s base c.part.curLen)).getD a
  let inn := if part ∧ next = a then 0 else next
  let s := { s with
    tickNo := tput s.tickNo base ((tfind s.tickNo base).getD 0 + 1)
    switches := tput s.switches base { out := a, inn := inn, left := cs, late := [], deadline := none, part := part } }
  let s := modCtx inn (fun z => { z with out := false }) (modCtx a (fun z => { z with out := inn != a && inn != 0 }) s)
  askSpills a cs (cs.foldl (fun s k => modCell k (fun x => { x with joined := false }) s) s)

/-- R373: a tick for the context that runs on its partition begins a switch; while one is under way, each cell that is quiet passes to
the incoming context. -/
def execGangSwitchTick (a : Nat) (s : State) : Res :=
  event (fun s =>
    match ctxAt s a with
    | none => s
    | some c =>
      match tfind s.switches c.part.curBase with
      | some w => endSwitch c.part.curBase ((w.left.filter (cellQuiet s w.out)).foldl (passCell c.part.curBase) s)
      | none => if c.out = true ∨ c.rcd.tick = 0 then s else beginSwitch a c s) s

/-- R374: the save deadline passes for the incoming context `a`, `elapsed` ns after the last reading of the device timer: its cells join,
but for those that are not saved yet, which are late. -/
def execSaveDeadline (a elapsed : Nat) (s : State) : Res :=
  event (fun s =>
    match ctxAt s a with
    | none => s
    | some c =>
      let base := c.part.curBase
      let cs := partOf base c.part.curLen
      match tfind s.switches base with
      | some w =>
        if w.inn ≠ a ∨ w.deadline.isSome = true then s
        else
          let t := s.time + elapsed
          let s := { s with time := t, fresh := s.fresh + 1, switches := tput s.switches base { w with deadline := some t, late := w.left } }
          endSwitch base ((cs.filter fun k => !w.left.contains k).foldl joinCell s)
      | none => if c.out then s else cs.foldl joinCell s) s

/-! ### Moving a context (R379, R397) -/

/-- The cell at the same offset from another PBASE. -/
def cellMoved (old new : Nat) (c : CellKey) : CellKey :=
  ((List.range 256).find? fun k => hilbert k == hilbert c - old + new).getD c

/-- The slot at the same place of the moved cell. -/
def slotMoved (old new : Nat) (g : SlotKey) : SlotKey := 64 * cellMoved old new (cellOf g) + g % 64

/-- A location whose cell has moved. -/
def locMoved (f : CellKey → CellKey) (l : Nat) : Nat := if isStashLoc l then stashLoc (f (locCell l)) (locOff l) else l

/-- The number of a location of a moved context's stash that is switched out. -/
def outMoved (a : Nat) (f : CellKey → CellKey) (d k : Nat) : Nat :=
  if k / (2 ^ 64 / d) = a + 1 then locMoved f (k % (2 ^ 64 / d) * d) / d + (a + 1) * (2 ^ 64 / d) else k

/-- The slots and locations that a saved cell names. -/
def renameCell (f : SlotKey → SlotKey) (fc : CellKey → CellKey) (x : Cell) : Cell :=
  let hold := fun (q : Nat × Holder) => (q.1, { q.2 with core := coreOf (f (16 * q.2.core)), slot := f q.2.slot })
  let req := fun (r : FeReq) => { r with gid := f r.gid }
  { x with
    ohold := x.ohold.map hold, thold := x.thold.map hold
    claims := x.claims.map fun q => { q with gid := f q.gid, dest := f q.dest }
    feq := rekey (locMoved fc) (x.feq.map fun q => (q.1, (q.2.1.map req, q.2.2.map req)))
    mx := x.mx.map fun m => { m with gid := f m.gid } }

/-- The slots that a saved core names. -/
def renameCore (f : SlotKey → SlotKey) (x : Core) : Core :=
  { x with chans := x.chans.map fun q => (q.1, { q.2 with cur := q.2.cur.map fun p => { p with gid := f p.gid } }) }

/-- Arrivals at a barrier renamed. -/
def renameBar (f : SlotKey → SlotKey) (b : Barrier) : Barrier :=
  let m := fun (r : Arrival) => { r with gid := f r.gid }
  { b with arr := b.arr.map m, last := b.last.map fun r => { r with arr := r.arr.map m } }

/-- The location of a saved slot's wait, where it lies in the stash of a moved cell. -/
def waitMoved (f : CellKey → CellKey) (w : Wait) : Wait :=
  match w with
  | .fullempty l => .fullempty (locMoved f l)
  | .join l => .join (locMoved f l)
  | .reserve d l => .reserve d (locMoved f l)
  | .away c => .away (f c)
  | w => w

/-- A saved slot with its wait moved. -/
def slotWaitMoved (f : CellKey → CellKey) (x : Slot) : Slot := { x with ctl := { x.ctl with wait := waitMoved f x.ctl.wait } }

/-- The context that a message concerns. -/
def msgAsid (s : State) (m : Msg) : Nat :=
  match m with
  | .reply r => (match savedSlot s r.gid r.epoch with | some q => q.1 / 16384 | none => 0)
  | .load q .. | .store q .. | .atomic q .. | .dealer q .. | .barInit q .. | .barArrive q .. | .barQuery q .. | .rput q .. | .bsum q ..
  | .tmmar q .. | .spec q .. | .launch q .. | .join q | .lrw q _ | .slrinst q _ | .gstat q .. | .visit q => q.asid
  | .cancel a _ _ _ => a
  | .gfault k _ => (match tfind s.grids k with | some g => g.asid | none => 0)
  | .remoteStore _ _ _ | .inval _ _ _ => 0

/-- The cores that the stages of a graph are bound to, renamed. -/
def moveBound (f : CoreKey → CoreKey) (g : Grid) : Grid :=
  let stage := fun (x : Stage) => { x with bound := x.bound.map f }
  let graph := fun (t : Graph) => { t with stages := t.stages.map stage }
  { g with graph := g.graph.map graph }

/-- A context that is switched out moves to the cells at the same offsets from a new PBASE. -/
def moveContext (a new : Nat) (c : Ctx) (s : State) : State :=
  let old := c.part.curBase
  let fc := cellMoved old new
  let f := slotMoved old new
  let ring := fun (r : Ring) => { r with cell := fc r.cell }
  let s := modCtx a (fun z => { z with
    part := { z.part with base := new, curBase := new, staged := none }
    away := z.away.foldl (fun l k => sadd l (fc k)) []
    saved := z.saved.map fun q => (q.1, renameCell f fc q.2)
    savedCores := z.savedCores.foldl (fun t q => tput t (coreOf (f (16 * q.1))) (renameCore f q.2)) []
    bars := z.bars.map fun q => (q.1, renameBar f q.2)
    rings := z.rings.map fun q => (q.1, ring q.2) }) s
  let mine := s.saves.filter fun q => q.1 / 16384 == a
  let s := mine.foldl (fun s q => { s with saves := tdel s.saves q.1 }) s
  let s := mine.foldl (fun s q =>
    let k := saveKey a (f (q.1 % 16384))
    { s with saves := tput s.saves k (slotWaitMoved fc q.2) }) s
  let s := rekeyMem (outMoved a fc) (renameQueues (fun k => if 16384 ≤ k ∧ k / 16384 = a then saveKey a (f (k % 16384)) else k) s)
  { s with grids := s.grids.map fun q => if q.2.asid = a then (q.1, moveBound (fun k => coreOf (f (16 * k))) q.2) else q }

/-- Whether a context can be moved now: its cells are quiet, or it is switched out, and nothing of it is on its way. -/
def movable (s : State) (a : Nat) (c : Ctx) : Bool :=
  !switching s a && (c.out || (partOf c.part.curBase c.part.curLen).all (cellQuiet s a)) &&
  (c.savedCores.all fun k => k.2.chans.all fun q => q.2.cur.isNone) &&
  ((partOf c.part.curBase c.part.curLen).all fun k => [0, 1, 2, 3].all fun i => (coreAt s (4 * k + i)).chans.all fun q => q.2.cur.isNone) &&
  !(s.net.any fun m => msgAsid s m.2 == a) && !(s.pages.any fun p => p.2.asid == a)

/-! ### The rebase of clocks (R313) -/

/-- An access that is on its way to a home. -/
def sentAccess : Msg → Bool
  | .load .. | .store .. | .atomic .. | .join _ | .lrw .. | .slrinst .. => true
  | _ => false

/-- Whether a clock or stamp has passed 2^62. -/
def clocksHigh (s : State) : Bool :=
  let high := fun (n : Nat) => decide (2 ^ 62 < n)
  (s.slots.any fun q => high q.2.lclk) || (s.saves.any fun q => high q.2.lclk) ||
  (s.mem.stamps.any fun q => high q.2.1 || high q.2.2) || high s.linkClk

/-- An inbox entry without its clock. -/
def InboxEntry.unclocked : InboxEntry → InboxEntry
  | .result r => .result { r with clock := 0 }
  | .rput k v _ => .rput k v 0
  | .bsum n m e _ => .bsum n m e 0

/-- A message without its clock. -/
def Msg.unclocked (m : Msg) : Msg :=
  let q0 := fun (q : Req) => { q with clock := 0 }
  match m with
  | .reply r => .reply { r with clock := 0 }
  | .load q d w => .load (q0 q) d w
  | .store q w v => .store (q0 q) w v
  | .atomic q d o p => .atomic (q0 q) d o p
  | .dealer q d v => .dealer (q0 q) d v
  | .barInit q n v => .barInit (q0 q) n v
  | .barArrive q n d => .barArrive (q0 q) n d
  | .rput q a b c r v => .rput (q0 q) a b c r v
  | .bsum q a b c r m e => .bsum (q0 q) a b c r m e
  | .tmmar q c d w k => .tmmar (q0 q) c d w k
  | .spec q d a b l => .spec (q0 q) d a b l
  | .launch q d v => .launch (q0 q) d v
  | .barQuery q n d v => .barQuery (q0 q) n d v
  | .join q => .join (q0 q)
  | .lrw q d => .lrw (q0 q) d
  | .slrinst q n => .slrinst (q0 q) n
  | .gstat q d h => .gstat (q0 q) d h
  | .visit q => .visit (q0 q)
  | m => m

/-- A slot without clocks and renewal points. -/
def Slot.unclocked (x : Slot) : Slot := { x with lclk := 0, renew := [], inbox := x.inbox.map InboxEntry.unclocked }

/-- A core without clocks: its tasks, copies and channels. -/
def Core.unclocked (x : Core) : Core :=
  { x with
    deque := x.deque.map fun t => { t with clock := 0 }
    chans := x.chans.map fun q => (q.1, { q.2 with clock := 0, cur := q.2.cur.map fun p => { p with clock := 0 } }) }

/-- A cell without clocks and read copies. -/
def Cell.unclocked (x : Cell) : Cell :=
  let req := fun (r : FeReq) => { r with clock := 0 }
  { x with
    copies := [], mx := x.mx.map fun m => { m with clock := 0 }, maps := x.maps.map fun m => { m with place := 0 }
    feq := x.feq.map fun q => (q.1, (q.2.1.map req, q.2.2.map req)) }

/-- A grid without its clock. -/
def Grid.unclocked (x : Grid) : Grid := { x with clock := 0 }

/-- The values of a table changed. -/
def tmap {α : Type} (f : α → α) (t : Tab α) : Tab α := t.map fun q => (q.1, f q.2)

/-- The clock in the save area of a slot that is spilled, and those in its saved inbox, set to 0. -/
def unclockArea (a : Nat) (g : SlotKey) (x : Slot) (s : State) : State :=
  let p := saveArea s a g
  writeInbox p x (putPieces p [(0x10, 8, 0)] (recallRange p 0x18 s))

/-- R313: once no access is on its way, every clock, stamp, lease and renewal point is 0. -/
def rebase (s : State) : State :=
  let t := { s with
    slots := tmap Slot.unclocked s.slots, saves := tmap Slot.unclocked s.saves, cores := tmap Core.unclocked s.cores
    cells := tmap Cell.unclocked s.cells, grids := tmap Grid.unclocked s.grids, net := tmap Msg.unclocked s.net
    ctxs := tmap (fun c => { c with
      bars := tmap (fun b => { b with clock := 0 }) c.bars
      saved := tmap Cell.unclocked c.saved, savedCores := tmap Core.unclocked c.savedCores }) s.ctxs
    mem := { s.mem with stamps := [] }
    linkClk := 0 }
  let t := t.slots.foldl (fun t q =>
    if q.2.ctl.st = .spilled ∧ q.2.ctl.req.spill = false then unclockArea q.2.ctl.asid q.1 q.2 t else t) t
  t.saves.foldl (fun t q => unclockArea (q.1 / 16384) (q.1 % 16384) q.2 t) t

def execClockRebase (s : State) : Res :=
  event (fun s => if clocksHigh s ∧ !(s.net.any fun m => sentAccess m.2) then logEvent 8 0 (rebase s) else s) s

end Sys2Proof.Machine
end

