-- ==== Sys2Proof/Machine/Debug.lean ====
section
/-! DEFINITION. The debug port (R377), attaching a debugger (R365), and the steps it takes at a slot's turn. -/

namespace Sys2Proof.Machine

/-- Whether a debugger is attached to the context of a slot. -/
def debugged (s : State) (g : SlotKey) : Bool := match ctxOf s g with | some c => c.attached | none => false

/-- R365: a debugger attaches to a context created with DEBUG (R398), or detaches. -/
def execDebuggerAttach (a : Nat) (on : Bool) (s : State) : Res :=
  event (modCtx a (fun c => { c with attached := on && c.rcd.debug })) s

/-! ### Running and stopping -/

/-- A slot's requests changed. -/
def modReq (g : SlotKey) (f : SlotReq → SlotReq) (s : State) : State := modCtl g (fun c => { c with req := f c.req }) s

/-- R377 HALT: the slot halts at its next turn; one that is free or has ended has none. -/
def execHalt (g : SlotKey) (s : State) : Res :=
  event (fun s =>
    let st := (slotAt s g).ctl.st
    if debugged s g = false ∨ st = .free ∨ st = .ended ∨ st = .halted then s else modReq g (fun r => { r with halt := true }) s) s

/-- A slot halts in the state it is in. -/
def haltSlot (g : SlotKey) (s : State) : State := modCtl g (fun c => { c with st := .halted, under := c.st }) s

/-- A halted slot returns to the state it was halted from; one that was idle, or became so by a JOIN's reply (R188), has no loop records
and looks for a task. -/
def resumeSlot (g : SlotKey) (s : State) : State :=
  let s := modCtl g (fun c => { c with st := c.under, loops := if c.under = .idle then [] else c.loops }) s
  if (slotAt s g).ctl.st = .idle then lookForTask g s else s

/-- R377 RESUME. -/
def execResume (g : SlotKey) (s : State) : Res :=
  event (fun s => if debugged s g = true ∧ (slotAt s g).ctl.st = .halted then resumeSlot g s else s) s

/-- R377 STEP: a halted slot is resumed for one word; while a step is pending, another waits. -/
def execStep (g : SlotKey) (s : State) : Res :=
  event (fun s =>
    if debugged s g = false then s
    else if (slotAt s g).ctl.req.step ≠ 0 then modReq g (fun r => { r with more := r.more + 1 }) s
    else if (slotAt s g).ctl.st = .halted then modReq g (fun r => { r with step := 1 }) (resumeSlot g s)
    else s) s

/-- A step is over at a halted slot, or at one that has ended: the next that waits for it begins. -/
def endStep (g : SlotKey) (s : State) : State :=
  let c := (slotAt s g).ctl
  if c.st = .halted ∧ 0 < c.req.more then modReq g (fun r => { r with step := 1, more := r.more - 1 }) (resumeSlot g s)
  else modReq g (fun r => { r with step := 0, more := 0 }) s

/-- After a word: a step that has issued its word halts before the next one; while the word is parked, the step stays pending. -/
def stepAfter (g : SlotKey) (s : State) : State :=
  let c := (slotAt s g).ctl
  if c.req.step = 0 then s
  else if c.st = .free ∨ c.st = .ended ∨ c.st = .halted then endStep g s
  else if s.issue.done = true ∨ c.req.step = 2 then
    if c.st = .running then endStep g (haltSlot g s) else modReq g (fun r => { r with step := 2 }) s
  else s

/-! ### Reading registers -/

/-- A presence state as the probe sees it. -/
def presNum (s : State) (g : SlotKey) (k : Desig) : Nat := Pres.num (presOf s g k)

/-- R377 RDREG: what an item holds: a register's value and presence, a pc, records, a control register, or an internal word of the
instruction cache (R39). -/
def readItem (s : State) (g : SlotKey) (i : DebugItem) : List Nat :=
  let x := slotAt s g
  let loops := fun (l : List LoopRec) => l.flatMap fun r => [r.start.toNat, r.stop.toNat, r.count.toNat]
  match i with
  | .reg (.s n) => [(sGet x n).toNat, presNum s g (.s n)]
  | .reg (.p n) => [(pGet x n).toNat, presNum s g (.p n)]
  | .reg (.m n) => [(mGet x n).toNat, presNum s g (.m n)]
  | .reg (.v n) => if n.val < x.win.size then [(vGet s g n.val).toNat, presNum s g (.v n)] else []
  | .reg (.acc n) =>
    if holds (cellAt s (cellOf g)).thold n.val g then [(tileAt (cellAt s (cellOf g)) n.val).toNat, presNum s g (.acc n)] else []
  | .pc => [(nextWord x).2.toNat]
  | .loops => loops (nextWord x).1
  | .shadow =>
    [x.shadow.s[0].toNat, x.shadow.s[1].toNat, x.shadow.s[2].toNat, x.shadow.p1.toNat,
     packPres (x.shadow.sp.toList ++ [x.shadow.pp1])] ++ loops x.shadow.loops
  | .creg n => if cregListed n then [(cregValue s g n).toNat] else []
  | .cached va => match cachedWord s g va with | some w => [w.toNat] | none => []

/-- R377 RDREG of a halted slot. -/
def execRdreg (g : SlotKey) (i : DebugItem) (s : State) : Res :=
  event (fun s =>
    if debugged s g = true ∧ (slotAt s g).ctl.st = .halted then { s with port := readItem s g i } else s) s

/-! ### Writing registers -/

/-- The values of a register set from outside, its presence left alone. -/
def pokeReg (g : SlotKey) (k : Desig) (v : Nat) (s : State) : State :=
  match k with
  | .s n => if n = 0 then s else modSlot g (fun x => { x with regs := { x.regs with s := x.regs.s.set n.val (n64 v) } }) s
  | .p n => if n = 0 then s else modSlot g (fun x => { x with regs := { x.regs with p := x.regs.p.set n.val (v % 2 == 1) } }) s
  | .m n =>
    if n = 0 then s
    else modSlot g (fun x => { x with regs := { x.regs with m := x.regs.m.set n.val (BitVec.ofNat 256 v) } }) s
  | .v n => vPut g n.val (BitVec.ofNat 2048 v) s
  | .acc n => modCell (cellOf g) (fun c => { c with tile := tput c.tile n.val (BitVec.ofNat 131072 v) }) s

/-- A register that the slot has: a vector register in its window, a tile that it holds. -/
def hasReg (s : State) (g : SlotKey) (k : Desig) : Bool :=
  match k with
  | .v n => decide (n.val < (slotAt s g).win.size)
  | .acc n => holds (cellAt s (cellOf g)).thold n.val g
  | _ => true

/-- A register written: its value if one is given, and its presence as written, else full. -/
def writeReg (g : SlotKey) (k : Desig) (vals : List Nat) (pres : Option Pres) (s : State) : State :=
  if hasReg s g k = false then s
  else
    let s := match vals with | v :: _ => pokeReg g k v s | [] => s
    setPres g k (pres.getD .full) s

/-- Loop records from triples of values, at most two, those with COUNT 0 left out. -/
def loopsOf (v : List Nat) : List LoopRec :=
  match v with
  | a :: b :: c :: a' :: b' :: c' :: _ =>
    ([⟨n64 a, n64 b, n64 c⟩, ⟨n64 a', n64 b', n64 c'⟩] : List LoopRec).filter fun r => r.count != 0
  | a :: b :: c :: _ => ([⟨n64 a, n64 b, n64 c⟩] : List LoopRec).filter fun r => r.count != 0
  | _ => []

/-- The end check of a word whose park will complete it, made now: what the debugger reads and writes of its loop records and PC is what
holds once the word is complete (R185, R377; log entry 33, DESIGN CHOICE). -/
def settleNext (x : Slot) : Slot :=
  { x with ctl := { x.ctl with pc := x.ctl.pc ||| 1, npc := (nextWord x).2, loops := (nextWord x).1 } }

/-- The PC written (log entry 33, DESIGN CHOICE): the word that issues next after the resume, in place of one that has parked to issue again. -/
def writePc (g : SlotKey) (v : Word64) (s : State) : State :=
  let v := v &&& ~~~(1 : Word64)
  if (slotAt s g).ctl.wait.restarts then
    modCtl g (fun c => { c with
      pc := v, wait := .none, under := if c.under = .parked then .running else c.under }) (leaveWait g s)
  else modCtl g (fun c => { c with npc := v }) (modSlot g settleNext s)

/-- Loop records written. -/
def writeLoops (g : SlotKey) (l : List LoopRec) (s : State) : State :=
  let s := if (slotAt s g).ctl.wait.restarts then s else modSlot g settleNext s
  modCtl g (fun c => { c with loops := l }) s

/-- The shadow written, laid out as it is read: s1 to s3, p1, their presence, then loop records. -/
def writeShadow (v : List Nat) (x : Slot) : Slot :=
  match v with
  | a :: b :: c :: p :: q :: r =>
    { x with shadow := {
        s := #v[n64 a, n64 b, n64 c], sp := Vector.ofFn fun k => presOfNum (elem q 2 k.val), p1 := p % 2 == 1
        pp1 := presOfNum (elem q 2 3), loops := loopsOf r } }
  | _ => x

/-- A control register written from outside: the slot's own by value, LCLK, TRAPCAUSE and TRAPADDR among them, which a word cannot write
(R10, R377), the others as CSET of privileged code writes them (log entry 33, DESIGN CHOICE). -/
def writeCregOutside (g : SlotKey) (n : Nat) (v : Word64) (s : State) : State :=
  let x := slotAt s g
  let a := x.ctl.asid
  match n with
  | 0x004 =>
    let size := bits v 16 6
    if size = 0 ∨ size = 8 ∨ size = 16 ∨ size = 32 then (tryResize g size s).getD s else s
  | 0x010 => modSlot g (fun x => { x with lclk := v.toNat }) s
  | 0x011 => modCtx a (fun c => { c with llease := min 4096 (max 16 (bits v 0 13)) }) s
  | 0x014 => if 0 < (coreAt s (coreOf g)).area then s else setDeqbase g v s
  | 0x015 => modCtx a (fun c => { c with speclim := satSpeclim v }) s
  | 0x021 => modSlot g (fun x => { x with trap := { x.trap with cause := v &&& causeMask } }) s
  | 0x022 => modSlot g (fun x => { x with trap := { x.trap with addr := v } }) s
  | 0x030 => modCtx a (fun c => { c with part := { c.part with staged := some (bits v 0 8) } }) s
  | 0x031 => commitPart a (bits v 0 9) s
  | 0x012 | 0x020 | 0x023 => modSlot g (writeCreg n v) s
  | n => if 0x100 ≤ n ∧ n < 0x180 then writeFwin (sectorOf (cellOf g)) ((n - 0x100) / 8) (n % 8) v s else s

/-- R377 WRREG of a halted slot. -/
def execWrreg (g : SlotKey) (i : DebugItem) (vals : List Nat) (pres : Option Pres) (s : State) : Res :=
  event (fun s =>
    if debugged s g = false ∨ (slotAt s g).ctl.st ≠ .halted then s
    else match i with
      | .reg k => wakePresence g (writeReg g k vals pres s)
      | .pc => match vals with | v :: _ => writePc g (n64 v) s | [] => s
      | .loops => writeLoops g (loopsOf vals) s
      | .shadow => modSlot g (writeShadow vals) s
      | .creg n => match vals with | v :: _ => writeCregOutside g n (n64 v) s | [] => s
      | .cached _ => s) s

/-! ### Discarding queued operations -/

/-- A register that a discarded operation owed is empty, and its contents are a free value (log entry 34, DESIGN CHOICE). -/
def flushReg (g : SlotKey) (s : State) (k : Desig) : State :=
  setPres g k .empty (pokeReg g k (Config.flushed s.fresh) { s with fresh := s.fresh + 1 })

/-- R377 DBGFLUSH. -/
def execDbgflush (g : SlotKey) (s : State) : Res :=
  event (fun s =>
    if debugged s g = true ∧ (slotAt s g).ctl.st = .halted then
      let gone := (coreAt s (coreOf g)).queue.filter fun e => e.gid == g
      let s := modCore (coreOf g) (fun c => { c with queue := c.queue.filter fun e => e.gid != g }) s
      (gone.flatMap fun e => owes e.instr).foldl (flushReg g) s
    else s) s

/-! ### Spilling by request -/

/-- R377 SPILL. -/
def execSpill (g : SlotKey) (s : State) : Res :=
  event (fun s =>
    let st := (slotAt s g).ctl.st
    if debugged s g = false ∨ st = .free ∨ st = .spilled then s else modReq g (fun r => { r with spill := true }) s) s

/-- R377 RESTORE: of a slot that is spilled, or whose spill is under way. -/
def execRestore (g : SlotKey) (s : State) : Res :=
  event (fun s =>
    let c := (slotAt s g).ctl
    if debugged s g = true ∧ (c.st = .spilled ∨ c.req.spill = true) then modReq g (fun r => { r with restore := true }) s else s) s

/-- R377 RDSAVE: the save area of a spilled slot, with its inbox (R369). -/
def execRdsave (g : SlotKey) (s : State) : Res :=
  event (fun s =>
    let x := slotAt s g
    if debugged s g = true ∧ x.ctl.st = .spilled ∧ x.ctl.req.spill = false then
      let a := saveArea s x.ctl.asid g
      let s := writeInbox a x s
      { s with port := (peekPhys s a 53248).map (·.toNat) }
    else s) s

end Sys2Proof.Machine
end

