-- ==== Sys2Proof/Machine/Launch.lean ====
section
/-! DEFINITION. Launching and dealing grids (R99 to R112, R128), fault reports and completion (R105 to R109), and stage graphs
(R114, R115). -/

namespace Sys2Proof.Machine

/-! ### Memory as firmware and dispatchers reach it for a context -/

/-- A context as a party, for descriptors and records that a core reads and writes for it. -/
def ctxWho (a : Nat) (priv : Bool) (c : CoreKey) : Who := { asid := a, priv := priv, core := c, fw := false }

/-- `n` bytes at a virtual address, or none where a byte cannot be read; one in a stash of a cell where the context is switched out counts
as such (log entry 35, DEDUCED). -/
def readVirt (s : State) (w : Who) (fuel va n : Nat) : Option (List Byte) :=
  match fuel with
  | 0 => some []
  | k + 1 =>
    if n = 0 then some []
    else
      let m := min n (64 - va % 64)
      match resolve s w .read (n64 va) with
      | .go p =>
        if poisoned s p m then none
        else (readVirt s w k (va + m) (n - m)).map fun r => (fetchBytes w.asid p m s).1 ++ r
      | _ => none

/-- The locations that carry the stamps of `n` bytes at a location (R307). -/
def stampLocs (l n : Nat) : List Nat := if isStashLoc l then (List.range (ceilDiv (l % 8 + n) 8)).map fun k => l + 8 * k else [l]

/-- What such a read leaves where it takes the place `clock` in the single order: a store that comes later is placed after it (R305), lines
that stashes hold written are recalled (R315), and remote stash accesses are counted (R379). -/
def noteVirt (w : Who) (clock fuel va n : Nat) (s : State) : State :=
  match fuel with
  | 0 => s
  | k + 1 =>
    if n = 0 then s
    else
      let m := min n (64 - va % 64)
      noteVirt w clock k (va + m) (n - m)
        (match resolve s w .read (n64 va) with
        | .go p =>
          let s := (fetchBytes w.asid p m (noteRemoteBy w.cell w.asid p s)).2
          match p.loc with
          | some l => (stampLocs l m).foldl (fun s l => setStamps l ((stamps s l).1, max (stamps s l).2 clock) s) s
          | none => s
        | _ => s)

/-- Whether a range of addresses names a cell where the context's state does not stand now (R373). -/
def virtAway (s : State) (w : Who) (fuel va n : Nat) : Bool :=
  match fuel with
  | 0 => false
  | k + 1 =>
    if n = 0 then false
    else
      let m := min n (64 - va % 64)
      (match resolve s w .write (n64 va) with | .away _ => true | _ => false) || virtAway s w k (va + m) (n - m)

/-- A place that records can be written to. -/
def recordPlace : Place → Bool
  | .mem _ | .stash _ _ | .cached _ _ _ _ | .peer _ | .own _ | .host _ => true
  | _ => false

/-- Bytes written at a virtual address with their stamps, or none where a byte cannot be written. -/
def writeVirt (w : Who) (clock fuel va : Nat) (bs : List Byte) (s : State) : Option State :=
  match fuel with
  | 0 => some s
  | k + 1 =>
    if bs.isEmpty then some s
    else
      let m := min bs.length (64 - va % 64)
      match resolve s w .write (n64 va) with
      | .go p =>
        if recordPlace p then
          let s := noteRemoteBy w.cell w.asid p s
          let s := if p.loc.isNone then { s with linkClk := max s.linkClk clock } else (stampWrite clock p m s).2
          writeVirt w clock k (va + m) (bs.drop m) (storeBytes w.asid p (bs.take m) s)
        else none
      | _ => none

/-- Fields by offset and bytes, as one number. -/
def packFields (l : List Piece) : Nat := (l.map fun p => p.2.2 % 256 ^ p.2.1 * 256 ^ p.1).sum

/-! ### What a launch asks (R100, R101) -/

/-- The devices that a bitmap names. -/
def maskDevs (m : Nat) : List Nat := (List.range 512).filter fun i => m.testBit i

/-- The address of a block's code (R100): a native address, or the entry of a handle of the right kind. -/
def codeEntry (s : State) (a kind code : Nat) : Option Word64 :=
  match kind with
  | 0 => some (n64 code)
  | 1 => if hTmpl (n64 code) then (handleEntry s a (n64 code)).map Prod.fst else none
  | _ => if hTmpl (n64 code) then none else (handleEntry s a (n64 code)).map Prod.fst

/-- A window size (R100). -/
def windowSize (n : Nat) : Bool := n == 0 || n == 8 || n == 16 || n == 32

/-- The fields of a launch descriptor are in range, aligned, and 0 where reserved (R100). -/
def launchFields (d : Nat) : Bool :=
  decide (dField d 8 1 ≤ 2) && decide (dField d 9 1 < 4) && decide (1 ≤ dField d 10 1) && decide (dField d 10 1 ≤ 16) &&
  windowSize (dField d 11 1) && decide (2 ≤ dField d 12 1) && decide (dField d 12 1 ≤ 4) && dField d 13 3 == 0 &&
  decide (1 ≤ dField d 16 4) && decide (1 ≤ dField d 20 4) && decide (1 ≤ dField d 24 4) &&
  decide (dField d 16 4 * dField d 20 4 * dField d 24 4 ≤ 2 ^ 40) && dField d 28 4 == 0 && dField d 40 8 % 64 == 0 &&
  (dField d 8 1 != 0 || dField d 0 8 % 2 == 0)

/-- Whether a core is available to tenants (R27). -/
def tenantCore (s : State) (c : CoreKey) : Bool := !(c % 4 == 3 && s.boot.columns.contains (cellX (c / 4)))

/-- The cores of a cell, in order. -/
def coresOf (c : CellKey) : List CoreKey := [4 * c, 4 * c + 1, 4 * c + 2, 4 * c + 3]

/-- How many blocks a cell holds when nothing else occupies it (R101). -/
def cellRoom (s : State) (slots vwin : Nat) (c : CellKey) : Nat :=
  let n := ((coresOf c).filter (tenantCore s)).length
  if vwin = 0 then n else min n (1024 / vwin / slots)

/-- How many blocks the partitions of a context hold at once on the named devices (R101). -/
def roomFor (s : State) (a slots vwin : Nat) (devs : List Nat) : Nat :=
  (devs.map fun d =>
    if d = s.boot.device then ((partCells s a).map (cellRoom s slots vwin)).sum else Config.peerRoom d a slots vwin).sum

/-- The devices of a descriptor, or none where the bitmap cannot be read (R100). -/
def launchDevs (s : State) (w : Who) (d : Nat) : Option (List Nat) :=
  if dField d 48 8 = 0 then some [s.boot.device]
  else (readVirt s w 65 (dField d 48 8) 64).map fun b => maskDevs (leNat b)

/-- What reading a descriptor at `ptr`, and the bitmap that it names, leaves. -/
def seenDescriptor (w : Who) (clock ptr d : Nat) (s : State) : State :=
  let s := noteVirt w clock 2 ptr 64 s
  if dField d 48 8 = 0 then s else noteVirt w clock 65 (dField d 48 8) 64 s

/-- The status of a launch with descriptor `d` (R101): 0 where none applies, but for BUSY. -/
def launchStatus (s : State) (w : Who) (needCap : Bool) (d : Nat) : Int :=
  match launchDevs s w d with
  | none => -1
  | some devs =>
    let blocks := dField d 16 4 * dField d 20 4 * dField d 24 4
    let cap := match ctxAt s w.asid with | some c => c.rcd.lcap | none => 0
    if launchFields d = false ∨ devs = [] ∨ (dField d 12 1 = 2 ∧ (devs.any fun x => x != s.boot.device) = true) then -1
    else if needCap ∧ (cap = 0 ∨ n64 (dField d 56 8) ≠ cap) then -2
    else if (codeEntry s w.asid (dField d 8 1) (dField d 0 8)).isNone then -6
    else if devs.any fun x => x != s.boot.device && !s.boot.reach.contains x then -5
    else if (dField d 9 1).testBit 0 ∧ roomFor s w.asid (dField d 10 1) (dField d 11 1) devs < blocks then -3
    else 0

/-! ### Grid records (R101) -/

/-- Whether a grid record is live. -/
def gridLive (s : State) (k : Nat) : Bool := match tfind s.grids k with | some g => g.live | none => false

/-- Whether every record is live. -/
def recordsFull (s : State) : Bool := (List.range 1024).all (gridLive s)

/-- The generation of a record's next use: 1 at first, modulo 2^16 with 0 skipped. -/
def nextGen (s : State) (k : Nat) : Nat :=
  match tfind s.grids k with
  | some g => if g.gen = 65535 then 1 else g.gen + 1
  | none => 1

/-- A grid identifier. -/
def gridId (dev gen rcd : Nat) : Nat := rcd + dev * 2 ^ 23 + gen * 2 ^ 32

/-- The record of a new grid. -/
def newGrid (s : State) (w : Who) (k d : Nat) (devs : List Nat) (entry : Word64) (clock : Nat) (packet : Option Nat)
    (launcher : Option (SlotKey × Nat × Nat)) : Grid :=
  { gen := nextGen s k, live := true, asid := w.asid, priv := w.priv, entry := entry
    coop := (dField d 9 1).testBit 0, fstop := (dField d 9 1).testBit 1, slots := dField d 10 1, vwin := dField d 11 1
    cscope := dField d 12 1, gx := dField d 16 4, gy := dField d 20 4, gz := dField d 24 4, args := n64 (dField d 32 8)
    compl := n64 (dField d 40 8), devs := devs, next := 0, left := dField d 16 4 * dField d 20 4 * dField d 24 4, range := (0, 0), held := []
    dealt := 0, started := 0, finished := 0, killed := 0, nfault := 0, faults := [], phase := 0, lost := [], wasDrained := false
    wasKilled := false, graph := none, clock := clock, packet := packet, launcher := launcher, mute := false }

/-- A LAUNCH answered: sD at once, before any block is dealt (R99). -/
def answerLaunch (q : Req) (d : SReg) (v : Word64) (clock : Nat) (s : State) : State :=
  send (.reply { gid := q.gid, epoch := q.epoch, writes := [.s d v], clock := clock }) s

/-- Whether a DESTROY of a context has begun (R397). -/
def ending (s : State) (a : Nat) : Bool := match ctxAt s a with | some c => (match c.pending with | some (17, _) => true | _ => false) | none => false

/-- The oldest LAUNCH that does not wait for a partition: one issued after a commit waits, unanswered, until the change has taken effect
(R125; log entry 72, DESIGN CHOICE). -/
def nextLaunch (s : State) : Option (Nat × Req × SReg × Word64) :=
  s.net.findSome? fun m =>
    match m.2 with
    | .launch q d v =>
      match ctxAt s q.asid with
      | some c => if launchHeld c m.1 then none else some (m.1, q, d, v)
      | none => some (m.1, q, d, v)
    | _ => none

/-- R101: the root serves the oldest LAUNCH; `k` is the grid record it takes. -/
def execRootDispatchLaunch (k : Nat) (s : State) : Res :=
  event (fun s =>
    match nextLaunch s with
    | none => s
    | some (id, q, d, v) =>
      let w := ctxWho q.asid q.priv (coreOf q.gid)
      if ending s q.asid then took id s
      else match readVirt s w 2 v.toNat 64 with
      | none => answerLaunch q d (w64 (-1)) q.clock (took id s)
      | some b =>
        let dn := leNat b
        let s := seenDescriptor w q.clock v.toNat dn s
        let st := launchStatus s w true dn
        if st ≠ 0 then answerLaunch q d (w64 st) q.clock (took id s)
        else if recordsFull s then answerLaunch q d (w64 (-4)) q.clock (took id s)
        else if 1024 ≤ k ∨ gridLive s k = true then s
        else match launchDevs s w dn, codeEntry s q.asid (dField dn 8 1) (dField dn 0 8) with
          | some devs, some e =>
            let g := newGrid s w k dn devs e q.clock none (some (q.gid, q.epoch, id))
            answerLaunch q d (n64 (gridId s.boot.device g.gen k)) q.clock { (took id s) with grids := tput s.grids k g }
          | _, _ => s) s

/-! ### Completion records (R106 to R108) -/

/-- A fault record (R108). -/
def faultFields (f : GFault) : Nat :=
  packFields [(0, 2, f.dev), (2, 1, f.x), (3, 1, f.y), (4, 1, f.core), (5, 1, f.slot), (6, 2, f.cause), (8, 8, f.block),
    (16, 8, f.pc.toNat), (24, 8, f.addr.toNat)]

/-- A completion record (R107). -/
def completionBytes (st dealt started finished killed ndev nfault : Nat) (reason : Int) (id : Nat) (fs : List GFault) : List Byte :=
  leBytes 320 (packFields ([(0, 4, st), (4, 4, min 0xFFFFFFFF nfault), (8, 8, dealt), (16, 8, started), (24, 8, finished),
    (32, 8, killed), (40, 2, ndev), (44, 4, wrap 32 reason), (48, 8, id)] ++
    ((fs.take 8).zipIdx.map fun (f, i) => (64 + 32 * i, 32, faultFields f))))

/-- On whose behalf records are written: the context, at the cell of its PBASE. -/
def recordWho (s : State) (a : Nat) (priv : Bool) : Who :=
  let base := match ctxAt s a with | some c => c.part.curBase | none => 0
  ctxWho a priv (4 * ((List.range 256).find? fun c => hilbert c == base).getD 0)

/-- A record written for a context, where its address can be written: a release, past every clock of the device (R106). -/
def writeRecord (a : Nat) (priv : Bool) (va : Word64) (bs : List Byte) (s : State) : State :=
  (writeVirt (recordWho s a priv) (lastClock s) 10 va.toNat bs s).getD s

/-- A record of 320 bytes waits while the context's state is not at the cell where it stands (R373, log entry 35, DEDUCED). -/
def recordWaits (s : State) (a : Nat) (priv : Bool) (va : Word64) : Bool := virtAway s (recordWho s a priv) 10 va.toNat 320

/-- A packet has completed: later packets of its queue no longer wait for it (R94). -/
def packetDone (a : Nat) (p : Option Nat) (s : State) : State :=
  match p with
  | some id => modCtx a (fun c => { c with packets := c.packets.filter (·.id != id) }) s
  | none => s

/-- STATUS of a completion record, by the order of R107. -/
def gridStatus (g : Grid) : Nat :=
  if g.wasKilled then 4 else if g.wasDrained then 3 else if g.lost ≠ [] then 5 else if 0 < g.nfault then 2 else 1

/-- A rejected packet launch (R101): STATUS 6, REASON, zeros. Where COMPL is misaligned itself, no record is written (log entry 70,
DESIGN CHOICE). `seen` is the state once the descriptor has been read, `s` the one before, in which a record that waits leaves the
packet. -/
def rejectPacket (a : Nat) (priv : Bool) (p : Nat) (va : Word64) (reason : Int) (s seen : State) : State :=
  if recordWaits s a priv va then s
  else packetDone a (some p)
    (if va.toNat % 64 = 0 then writeRecord a priv va (completionBytes 6 0 0 0 0 0 0 reason 0 []) seen else seen)

/-- The cores that hold a block of a grid, here and of contexts that are switched out. -/
def gridBlocks (s : State) (k : Nat) : Bool :=
  (s.cores.any fun c => match c.2.block with | some b => b.grid == k | none => false) ||
  s.ctxs.any fun x => x.2.savedCores.any fun c => match c.2.block with | some b => b.grid == k | none => false

/-- Whether ranges of a grid are held at a cell, here or of a context that is switched out. -/
def cellsHold (s : State) (k : Nat) : Bool :=
  (s.cells.any fun c => c.2.held.any fun h => h.1 == k) ||
  s.ctxs.any fun x => x.2.saved.any fun c => c.2.held.any fun h => h.1 == k

/-- Work that stopped slots of a context have left behind: posted operations and copies (R111). -/
def orphans (s : State) (a : Nat) : Bool :=
  (s.net.any fun m => isPosted m.2 fun q => q.asid == a && !owned s q.gid q.epoch) ||
  s.cores.any fun c => c.2.chans.any fun q => match q.2.cur with | some p => p.asid == a && !owned s p.gid p.epoch | none => false

/-- Stores to peers that a completion at a scope waits for (R106). -/
def remotePending (s : State) (sc : Nat) : Bool :=
  decide (3 ≤ sc) && s.net.any fun m => match m.2 with | .remoteStore .. => true | _ => false

/-- R106: everything of a grid on this device is over, and nothing of it is on its way to the root. -/
def gridOver (s : State) (k : Nat) (g : Grid) : Bool :=
  g.live && decide (g.phase < 3) && g.range.2 == 0 && g.held.isEmpty && !cellsHold s k && !gridBlocks s k && !orphans s g.asid &&
  !remotePending s g.cscope && !(s.net.any fun m => match m.2 with | .gfault r _ => r == k | _ => false) &&
  (match g.graph with | some t => t.bound || decide (1 ≤ g.phase) | none => true)

/-- The counts that the other devices of a grid report (R106). -/
def addPeers (ps : List PeerReport) (g : Grid) : Grid :=
  ps.foldl (fun g p => { g with
    dealt := g.dealt + p.dealt, started := g.started + p.started, finished := g.finished + p.finished
    killed := g.killed + p.killed, left := g.left - p.dealt }) g

/-- What a device reports agrees with R104. -/
def reportOk (p : PeerReport) : Bool := decide (p.started ≤ p.dealt) && decide (p.finished + p.killed = p.started)

/-- The rings of a graph leave its context. -/
def dropRings (k : Nat) (a : Nat) (s : State) : State :=
  modCtx a (fun c => { c with rings := c.rings.filter fun r => r.2.grid != k }) s

/-- R106: a grid is complete: its record is written with STATUS last, unless it finishes silently (R98, R397). -/
def completeGrid (k : Nat) (g : Grid) (s : State) : State :=
  let s := if g.mute then s
    else writeRecord g.asid g.priv g.compl
      (completionBytes (gridStatus g) g.dealt g.started g.finished g.killed (g.devs.length + g.lost.length) g.nfault 0
        (gridId s.boot.device g.gen k) g.faults) s
  let s := dropRings k g.asid { s with grids := tput s.grids k { g with live := false, phase := 3 } }
  packetDone g.asid g.packet s

/-- R106: the root writes the completion record, once it can be written; the other devices have reported. Where every named device is lost,
the blocks that none was dealt are never started (R109). -/
def execGridComplete (k : Nat) (peers : List PeerReport) (s : State) : Res :=
  event (fun s =>
    match tfind s.grids k with
    | none => s
    | some g =>
      let h := addPeers peers g
      let all := (peers.map (·.dealt)).sum
      if gridOver s k g = true ∧ peers.length = (g.devs.filter (· != s.boot.device)).length ∧ peers.all reportOk = true ∧
         (if g.phase = 0 ∧ g.devs ≠ [] then all = g.left else all ≤ g.left) ∧
         (g.mute = true ∨ recordWaits s g.asid g.priv g.compl = false) then completeGrid k h s
      else s) s

/-! ### Cancelling (R110, R112) and stopping -/

/-- A saved cell without what a core's block holds in it (R111). -/
def releaseSaved (c : CoreKey) (x : Cell) : Cell :=
  { x with
    ohold := freeHolders c x.ohold, thold := freeHolders c x.thold
    claims := x.claims.filter fun q => coreOf q.gid != c
    mx := x.mx.filter fun m => m.remote.isSome || coreOf m.gid != c
    feq := x.feq.map fun q => (q.1, (q.2.1.filter fun r => coreOf r.gid != c, q.2.2.filter fun r => coreOf r.gid != c)) }

/-- The slots of a core that is switched out with its context are discarded with their inboxes, and what its block holds goes
(R111). -/
def clearSaved (a : Nat) (c : CoreKey) (s : State) : State :=
  let s := (slotsOfCore c).foldl (fun s g =>
    let x := queuedSlot s (saveKey a g)
    let s := match x.ctl.wait with | .fullempty loc => leaveFeq a g x.ctl.epoch loc s | _ => s
    let s := freeInbox x.inbox (leaveJoins (saveKey a g) (leaveResvAs (saveKey a g) x.lclk s))
    { s with saves := tdel s.saves (saveKey a g) }) s
  modCtx a (fun x => { x with
    savedCores := match tfind x.savedCores c with
      | some k => tput x.savedCores c { k with block := none, deque := [], area := 0, deqbase := 0, passed := [] }
      | none => x.savedCores
    saved := x.saved.map fun q => if x.part.curBase + q.1 = hilbert (c / 4) then (q.1, releaseSaved c q.2) else q }) s

/-- A block of a grid at a core: killed if it has begun, else never started (R104, R110, R112). -/
def stopBlock (kill : Bool) (c : CoreKey) (b : Block) (s : State) : State :=
  if b.begun = false then releaseCore c ((slotsOfCore c).foldl (fun s g => stopSlot g s) s)
  else if kill then killBlock c s
  else s

/-- The same for a core that is switched out. -/
def stopSaved (kill : Bool) (a : Nat) (c : CoreKey) (b : Block) (s : State) : State :=
  if b.begun = false then clearSaved a c s
  else if kill then modGrid b.grid (fun x => { x with killed := x.killed + 1 }) (clearSaved a c s)
  else s

/-- Every block of a grid stopped. -/
def stopBlocks (kill : Bool) (k : Nat) (s : State) : State :=
  let s := (tkeys s.cores).foldl (fun s c =>
    match (coreAt s c).block with
    | some b => if b.grid = k then stopBlock kill c b s else s
    | none => s) s
  s.ctxs.foldl (fun s x => x.2.savedCores.foldl (fun s c =>
    match c.2.block with
    | some b => if b.grid = k then stopSaved kill x.1 c.1 b s else s
    | none => s) s) s

/-- Ranges of a grid dropped at its cells (R110). -/
def dropHeld (k : Nat) (x : Cell) : Cell := { x with held := x.held.filter fun h => h.1 != k }

/-- The rings of a graph set to DRAINED, and the slots parked on them woken (R110, R121). -/
def drainRings (k a : Nat) (s : State) : State :=
  match ctxAt s a with
  | some c => c.rings.foldl (fun s r => if r.2.grid = k ∧ r.2.st ≠ 2 then moveState a r.1 r.2 2 s else s) s
  | none => s

/-- R110: a live grid drained or killed on this device. -/
def cancelGrid (k : Nat) (kill : Bool) (s : State) : State :=
  match tfind s.grids k with
  | none => s
  | some g =>
    if g.live = false ∨ 3 ≤ g.phase ∨ (g.phase = 2 ∧ kill = false) then s
    else
      let h := { g with phase := if kill then 2 else 1, wasKilled := g.wasKilled || kill, wasDrained := g.wasDrained || !kill,
                        left := if g.devs.all (· == s.boot.device) then 0 else g.left, range := (0, 0), held := [] }
      let s := { s with grids := tput s.grids k h, cells := tmap (dropHeld k) s.cells,
                        ctxs := tmap (fun c => { c with saved := tmap (dropHeld k) c.saved }) s.ctxs }
      let s := if g.graph.isSome then drainRings k g.asid s else s
      if g.graph.isSome ∧ kill = false then s else stopBlocks kill k s

/-- R112: a cancel takes effect. -/
def execCancelArrival (k : Nat) (s : State) : Res :=
  event (fun s =>
    match tfind s.net k with
    | some (.cancel a r gen kill) =>
      let s := took k s
      match tfind s.grids r with
      | some g => if g.gen = gen ∧ g.asid = a then cancelGrid r kill s else s
      | none => s
    | _ => s) s

/-- A fault record in the order of R108: by device, then by arrival; at most 8. -/
def addFault (f : GFault) (l : List GFault) : List GFault :=
  ((l.filter fun q => decide (q.dev ≤ f.dev)) ++ [f] ++ l.filter fun q => decide (f.dev < q.dev)).take 8

/-- A grid fault counts at the root, and acts on the whole grid (R105, R107, R108). -/
def noteFault (r : Nat) (f : GFault) (s : State) : State :=
  let s := modGrid r (fun g => { g with nfault := g.nfault + 1, faults := addFault f g.faults }) s
  match tfind s.grids r with
  | some g => if g.coop then cancelGrid r true s else if g.fstop then cancelGrid r false s else s
  | none => s

/-- R105, R108: a report of this device reaches its root; or another device of a live grid reports a fault of its own. -/
def execGridFaultReport (report : FaultReport) (s : State) : Res :=
  event (fun s =>
    match report with
    | .own k =>
      match tfind s.net k with
      | some (.gfault r f) => noteFault r f (took k s)
      | _ => s
    | .peer k f =>
      match tfind s.grids k with
      | some g =>
        if g.live = true ∧ g.phase < 3 ∧ f.dev ≠ s.boot.device ∧ g.devs.contains f.dev = true then noteFault k f s else s
      | none => s) s

/-- The record of a lost device (R109); the fields that it gives no value are 0 (log entry 12, DESIGN CHOICE). -/
def lostRecord (dev : Nat) : GFault :=
  { dev := dev, x := 0, y := 0, core := 0, slot := 0xFF, cause := 0xFFFF, block := 2 ^ 64 - 1, pc := 0, addr := 0 }

/-- R109: a device is counted lost in a grid. Blocks that it had not been dealt are dealt by the devices that remain (log entry 12, DESIGN
CHOICE). -/
def loseDevice (dev : Nat) (p : PeerReport) (g : Grid) : Grid :=
  { g with
    devs := g.devs.filter (· != dev), lost := g.lost ++ [dev], faults := addFault (lostRecord dev) g.faults
    dealt := g.dealt + p.dealt, started := g.started + p.started, finished := g.finished + p.finished
    killed := g.killed + (p.started - p.finished), left := g.left - p.dealt }

/-- What a lost device had done, as the root knows it, agrees with R104: started blocks were dealt, and no more ended than had started. -/
def lostOk (p : PeerReport) : Bool := decide (p.started ≤ p.dealt) && decide (p.finished + p.killed ≤ p.started)

/-- R109: device `dev` is unreachable; `reports` gives, for grids it took part in, what it had dealt, started and finished. -/
def execDeviceUnreachable (dev : Nat) (reports : List (Nat × PeerReport)) (s : State) : Res :=
  event (fun s =>
    if dev = s.boot.device ∨ reports.all (fun r => lostOk r.2 && match tfind s.grids r.1 with | some g => decide (r.2.dealt ≤ g.left) | none => true) = false then s
    else
      let none' : PeerReport := { dealt := 0, started := 0, finished := 0, killed := 0 }
      { s with
        boot := { s.boot with reach := s.boot.reach.filter (· != dev) }
        grids := s.grids.map fun q =>
          if q.2.live = true ∧ q.2.phase < 3 ∧ q.2.devs.contains dev = true then
            (q.1, loseDevice dev (((reports.find? fun r => r.1 == q.1).map Prod.snd).getD none') q.2)
          else q }) s

/-! ### Dealing (R103, R128, R136) -/

/-- The summed weight of those cells of a context that take part. -/
def weightOf (s : State) (cs : List CellKey) : Nat := ((cs.filter fun c => (cellAt s c).joined).map (weight s)).sum

/-- The cells of a context's partition in a sector. -/
def sectorPart (s : State) (a : Nat) (sec : Nat) : List CellKey := (partCells s a).filter fun c => sectorOf c == sec

/-- Windows of `size` for `n` slots, reserved one after another (R423). -/
def reserveWindows (taken : List (Nat × Nat)) (size n : Nat) : Option (List Nat) :=
  match n with
  | 0 => some []
  | k + 1 =>
    if size = 0 then some (List.replicate (k + 1) 0)
    else match freeBase taken size with
      | some b => (reserveWindows ((b, size) :: taken) size k).map (b :: ·)
      | none => none

/-- A core that a live stage graph holds for a stage (R115). -/
def stageBound (s : State) (c : CoreKey) : Bool :=
  s.grids.any fun g => g.2.live && match g.2.graph with | some t => t.stages.any fun x => x.bound.contains c | none => false

/-- A core that is free for a block: a tenant's, with no block and no stage. -/
def coreFree (s : State) (c : CoreKey) : Bool := tenantCore s c && (coreAt s c).block.isNone && !stageBound s c

/-- A cell runs dry of a grid: it holds no block of it, and could start one (R128, log entry 65, DEDUCED). -/
def cellDry (s : State) (k : Nat) (g : Grid) (c : CellKey) : Bool :=
  (cellAt s c).joined && inPart s g.asid c && !((cellAt s c).held.any fun h => h.1 == k) && (coresOf c).any (coreFree s) &&
  (reserveWindows (poolTaken s c) g.vwin g.slots).isSome

/-- Another LAUNCH of the same slot came before, and this device has not begun to deal its grid (R103). -/
def launchWaits (s : State) (g : Grid) : Bool :=
  match g.launcher with
  | none => false
  | some (a, e, n) =>
    s.grids.any fun h => h.2.live && h.2.phase == 0 && h.2.next == 0 && h.2.devs.contains s.boot.device &&
      match h.2.launcher with | some (b, f, m) => b == a && f == e && decide (m < n) | none => false

/-- The device dispatcher's range, where it has run dry: from the root, which hands a device of several what it chooses (R103, log
entry 12, DESIGN CHOICE). -/
def deviceRange (g : Grid) (s : State) : Grid × State :=
  if 0 < g.range.2 ∨ g.left = 0 then (g, s)
  else
    let all := g.devs.all (· == s.boot.device)
    let l := if all then g.left else min g.left (max 1 (Config.podRange s.fresh))
    ({ g with range := (g.next, l), next := g.next + l, left := g.left - l }, if all then s else { s with fresh := s.fresh + 1 })

/-- A sector asks the device dispatcher for a range (R128). -/
def sectorAsks (k : Nat) (g : Grid) (sec : Nat) (s : State) : State :=
  let cs := sectorPart s g.asid sec
  let w := weightOf s cs
  if g.held.any (fun h => h.1 == sec) = true ∨ w = 0 ∨ cs.any (cellDry s k g) = false then s
  else
    let r := deviceRange g s
    let g := r.1
    if g.range.2 = 0 then s
    else
      let l := rangeLen g.range.2 1 w (max 1 (partWeight s g.asid))
      { r.2 with grids := tput s.grids k { g with held := g.held ++ [(sec, g.range.1, l)], range := (g.range.1 + l, g.range.2 - l) } }

/-- A cell asks its sector for a range (R128); its blocks count as dealt (R104). -/
def cellAsks (k : Nat) (g : Grid) (sec : Nat) (c : CellKey) (s : State) : State :=
  match g.held.find? fun h => h.1 == sec with
  | none => s
  | some (_, first, n) =>
    if cellDry s k g c = false ∨ sectorOf c ≠ sec then s
    else
      let l := rangeLen n 1 (weight s c) (max 1 (weightOf s (sectorPart s g.asid sec)))
      let keep := if l = n then [] else [(sec, first + l, n - l)]
      modCell c (fun x => { x with held := x.held ++ [(k, first, l)] })
        (modGrid k (fun g => { g with held := (g.held.filter fun h => h.1 != sec) ++ keep, dealt := g.dealt + l }) s)

/-- R128: a request of the tree of dispatchers on this device; the asker has run dry. -/
def execDispatcherRequest (k : Nat) (sec : Fin 8) (cell : Option CellKey) (s : State) : Res :=
  event (fun s =>
    match tfind s.grids k with
    | some g =>
      if g.live = false ∨ g.phase ≠ 0 ∨ g.graph.isSome = true ∨ isOut s g.asid = true ∨ g.devs.contains s.boot.device = false ∨
         launchWaits s g = true then s
      else match cell with
        | none => sectorAsks k g sec.val s
        | some c => cellAsks k g sec.val c s
    | none => s) s

/-! ### Starting blocks (R102, R128, R423) -/

/-- A block starts at a core: its reservations, and its keeper in the state of R102, with s4 to s7 given. -/
def startBlock (k : Nat) (g : Grid) (c : CoreKey) (index slots vwin : Nat) (resv : List Nat) (entry : Word64)
    (args : Vector Word64 4) (s : State) : State :=
  let b : Block :=
    { id := s.nextId, asid := g.asid, grid := k, index := index, slots := slots, vwin := vwin, resv := resv, begun := false }
  let s := modCore c (fun x => { x with block := some b, deque := [], area := 0, deqbase := 0, passed := [] })
    { s with nextId := s.nextId + 1 }
  let key := 16 * c
  let s := (slotsOfCore c).foldl (fun s h => if h = key ∨ (slotAt s h).trap = Slot.reset.trap then s else modSlot h (fun x => { x with trap := Slot.reset.trap }) s) s
  let s := startSlot key entry (startRegs args 0) g.asid vwin g.clock s
  modSlot key (fun x => { x with trap := Slot.reset.trap, waitlim := 0, parkCnt := 0, shadow := Slot.reset.shadow }) s

/-- The arguments of a block of a grid (R102). -/
def gridArgs (s : State) (g : Grid) (index : Nat) : Vector Word64 4 :=
  #v[g.args, n64 index, n64 (g.gx * g.gy * g.gz), n64 s.boot.device]

/-- The lowest-numbered block that a cell holds: its grid and index. Indices are compared whatever their grid, and of equal ones the first
received is taken (R128; log entry 65, DEDUCED). -/
def lowestHeld (x : Cell) : Option (Nat × Nat) :=
  x.held.foldl (fun r h => match r with | some q => if h.2.1 < q.2 then some (h.1, h.2.1) else r | none => some (h.1, h.2.1)) none

/-- The first index of a grid taken from a cell's ranges. -/
def takeHeld (k i : Nat) (x : Cell) : Cell :=
  { x with held := x.held.filterMap fun h =>
      if h.1 = k ∧ h.2.1 = i then (if h.2.2 ≤ 1 then none else some (k, i + 1, h.2.2 - 1)) else some h }

/-- R128: the dealer of a cell starts its lowest block at the first core that can take it. -/
def execBlockStart (c : CellKey) (s : State) : Res :=
  event (fun s =>
    match lowestHeld (cellAt s c) with
    | none => s
    | some (k, i) =>
      match tfind s.grids k with
      | none => s
      | some g =>
        if (cellAt s c).joined = false ∨ inPart s g.asid c = false ∨ isOut s g.asid = true then s
        else match (coresOf c).find? (coreFree s), reserveWindows (poolTaken s c) g.vwin g.slots with
          | some q, some rs =>
            startBlock k g q i g.slots g.vwin rs g.entry (gridArgs s g i) (modCell c (takeHeld k i) s)
          | _, _ => s) s

end Sys2Proof.Machine
end

