-- ==== Sys2Proof/Machine/Graphs.lean ====
section
/-! DEFINITION. Stage graphs (R114, R115): reading the descriptor, binding stages to cores, placing rings, and LAUNCH packets. -/

namespace Sys2Proof.Machine

/-! ### Packets (R93, R101) -/

/-- Accepted packet `k`, with its context, where it has not begun. -/
def packetAt (s : State) (k ty : Nat) : Option (Nat × Ctx × Packet) :=
  s.ctxs.findSome? fun c => (c.2.packets.find? fun p => p.id == k && p.ty == ty && p.grid.isNone).map fun p => (c.1, c.2, p)

/-- A context as the QUEUE core that serves a queue of its virtual function acts for it (R89, R91). -/
def queueWho (s : State) (a : Nat) (c : Ctx) (q : Nat) : Option Who := (queueCore s c.rcd.vf q).map (ctxWho a c.rcd.priv)

/-- A packet has begun as a grid. -/
def beginPacket (a k rcd : Nat) (s : State) : State :=
  modCtx a (fun c => { c with packets := c.packets.map fun p => if p.id = k then { p with grid := some rcd } else p }) s

/-- A packet is at the head of those that have not begun, of its queue. -/
def packetFirst (c : Ctx) (p : Packet) : Bool :=
  c.packets.all fun q => q.q != p.q || q.grid.isSome || decide (p.index ≤ q.index)

/-- R101: firmware acts on accepted LAUNCH packet `k`; `rcd` is the grid record it takes. CAP is ignored (R100). -/
def execLaunchPacket (k rcd : Nat) (s : State) : Res :=
  event (fun s =>
    match packetAt s k 1 with
    | none => s
    | some (a, c, p) =>
      match queueWho s a c p.q with
      | none => s
      | some w =>
        if launchHeld c k = true ∨ packetFirst c p = false then s
        else match readVirt s w 2 p.ptr.toNat 64 with
        | none => packetDone a (some k) s
        | some b =>
          let d := leNat b
          let seen := seenDescriptor w (lastClock s) p.ptr.toNat d s
          let compl := n64 (dField d 40 8)
          let st := if p.ptr.toNat % 64 ≠ 0 then -1 else launchStatus s w false d
          if st ≠ 0 then rejectPacket a c.rcd.priv k compl st s seen
          else if recordsFull s then rejectPacket a c.rcd.priv k compl (-4) s seen
          else if 1024 ≤ rcd ∨ gridLive s rcd = true then s
          else match launchDevs s w d, codeEntry s a (dField d 8 1) (dField d 0 8) with
            | some devs, some e =>
              beginPacket a k rcd { seen with grids := tput s.grids rcd (newGrid s w rcd d devs e (lastClock s) (some k) none) }
            | _, _ => s) s

/-! ### The descriptor of a graph (R114) -/

/-- The fields of a stage entry. -/
def stageFields (d : Nat) : Bool :=
  decide (dField d 8 1 ≤ 2) && decide (1 ≤ dField d 9 1) && decide (dField d 9 1 ≤ 16) && windowSize (dField d 10 1) &&
  decide (1 ≤ dField d 11 1) && decide (dField d 11 1 ≤ 16) && dField d 12 4 == 0 && dField d 24 8 == 0 &&
  (dField d 8 1 != 0 || dField d 0 8 % 2 == 0)

/-- The fields of a channel entry of a graph with `n` stages. -/
def chanFields (n d : Nat) : Bool :=
  decide (dField d 0 1 < n) && decide (dField d 1 1 < n) && dField d 0 1 != dField d 1 1 && decide (dField d 2 1 ≤ 1) &&
  decide (8 ≤ dField d 3 1) && decide (dField d 3 1 ≤ 16) && dField d 4 4 % 8 == 0 && decide (8 ≤ dField d 4 4) &&
  decide (dField d 4 4 ≤ 2 ^ dField d 3 1) && dField d 8 8 == 0

/-- Stages without a channel to a stage outside a set, until nothing is left or every one has such a channel: the order of
release, sinks first (R115), and what is left over. -/
def sinksFirst (fuel : Nat) (chans : List (Nat × Nat)) (left : List Nat) : List Nat × List Nat :=
  match fuel with
  | 0 => ([], left)
  | k + 1 =>
    match left.find? fun x => !(chans.any fun c => c.1 == x && left.contains c.2) with
    | none => ([], left)
    | some x =>
      let r := sinksFirst k chans (left.filter (· != x))
      (x :: r.1, r.2)

/-- The stage and channel entries of a descriptor, as numbers. -/
def entriesOf (d lo size n : Nat) : List Nat := (List.range n).map fun k => dField d (lo + size * k) size

/-- A stage of a descriptor with the code of its entry. -/
def stageOf (s : State) (a d : Nat) : Option Stage :=
  (codeEntry s a (dField d 8 1) (dField d 0 8)).map fun e =>
    { entry := e, slots := dField d 9 1, vwin := dField d 10 1, args := n64 (dField d 16 8), cores := dField d 11 1, bound := [] }

/-- A channel of a descriptor. -/
def chanEntry (d : Nat) : Nat × Nat × Bool × Nat × Nat :=
  (dField d 0 1, dField d 1 1, dField d 2 1 == 1, dField d 3 1, dField d 4 4)

/-- A graph's descriptor: its header, and the whole of it where its counts are in range and it can be read. -/
def readGraph (s : State) (w : Who) (ptr : Word64) : Option (Nat × Option Nat) :=
  (readVirt s w 2 ptr.toNat 32).map fun b =>
    let h := leNat b
    let ns := dField h 0 2
    let nc := dField h 2 2
    if ns = 0 ∨ 64 < ns ∨ 256 < nc then (h, none)
    else (h, (readVirt s w 110 ptr.toNat (32 + 32 * ns + 16 * nc)).map leNat)

/-- The fields of a graph obey R114. -/
def graphFields (d : Nat) : Bool :=
  let ns := dField d 0 2
  let nc := dField d 2 2
  let cs := entriesOf d (32 + 32 * ns) 16 nc
  decide (2 ≤ dField d 4 1) && decide (dField d 4 1 ≤ 4) && dField d 5 3 == 0 && dField d 8 8 % 64 == 0 && dField d 24 8 == 0 &&
  (entriesOf d 32 32 ns).all stageFields && cs.all (chanFields ns) &&
  (sinksFirst 64 (cs.map fun c => (dField c 0 1, dField c 1 1)) (List.range ns)).2.isEmpty

/-! ### Binding (R115) -/

/-- A core given to a stage, with the windows reserved for its block. -/
structure Bound where
  core  : CoreKey
  stage : Nat
  vwin  : Nat
  resv  : List Nat
deriving DecidableEq, Repr

/-- The pool ranges of a cell once some cores are bound. -/
def takenWith (taken : CellKey → List (Nat × Nat)) (bs : List Bound) (c : CellKey) : List (Nat × Nat) :=
  taken c ++ (bs.filter fun b => b.core / 4 == c && b.vwin != 0).flatMap fun b => b.resv.map fun r => (r, b.vwin)

/-- `n` more cores bound to a stage: the first free ones whose pools can reserve its windows. -/
def bindCores (taken : CellKey → List (Nat × Nat)) (stage : Nat) (x : Stage) (n : Nat) (cores : List CoreKey) (bs : List Bound) :
    Option (List Bound) :=
  match cores with
  | [] => if n = 0 then some bs else none
  | c :: r =>
    if n = 0 then some bs
    else if bs.any fun b => b.core == c then bindCores taken stage x n r bs
    else match reserveWindows (takenWith taken bs (c / 4)) x.vwin x.slots with
      | some rs => bindCores taken stage x (n - 1) r (bs ++ [{ core := c, stage := stage, vwin := x.vwin, resv := rs }])
      | none => bindCores taken stage x n r bs

/-- Every stage bound, in index order, to the cores of a list. -/
def bindStages (taken : CellKey → List (Nat × Nat)) (cores : List CoreKey) (xs : List Stage) : Option (List Bound) :=
  xs.zipIdx.foldl (fun r q => r.bind fun bs => bindCores taken q.2 q.1 q.1.cores cores bs) (some [])

/-- The tenant cores of a context's partition, in the order of R115. -/
def graphCores (s : State) (a : Nat) : List CoreKey :=
  match ctxAt s a with
  | some c => ((cellsOf c.part.curBase c.part.curLen).flatMap coresOf).filter (tenantCore s)
  | none => []

/-- The first channel number of the lowest free run of `n` (R115). -/
def freeRun (used : List Nat) (n : Nat) : Option Nat :=
  (List.range (1025 - n)).find? fun b => (List.range n).all fun k => !used.contains (b + k)

/-- The offset of a ring beside others on its cell (R115). -/
def ringPlace (others : List (Nat × Nat)) (size : Nat) : Option Nat :=
  ((List.range (0x40000 / size)).map (· * size)).find? fun o =>
    decide (0x10000 ≤ o) && decide (o + size ≤ 0x40000) &&
    others.all fun t => decide (o + size ≤ t.1) || decide (t.1 + t.2 ≤ o)

/-- The rings of a graph placed one after another, by channel number. -/
def placeRings (bs : List Bound) (k first : Nat) (chans : List (Nat × Nat × Bool × Nat × Nat)) (rings : Tab Ring) : Option (Tab Ring) :=
  chans.zipIdx.foldl (fun r q => r.bind fun rings =>
    let (_, cons, whole, log2, allow) := q.1
    match bs.find? fun b => b.stage == cons with
    | none => none
    | some b =>
      let cell := b.core / 4
      let others := (rings.filter fun t => t.2.cell == cell).map fun t => (t.2.off, t.2.size)
      (ringPlace others (2 ^ log2)).map fun o =>
        tput rings (first + q.2)
          { st := 0, whole := whole, log2 := log2, allow := allow, widx := 0, ridx := 0, cell := cell, off := o, grid := k }) (some rings)

/-- The record of a graph that firmware holds. -/
def newGraph (s : State) (w : Who) (k d : Nat) (xs : List Stage) (packet : Nat) : Grid :=
  { gen := nextGen s k, live := true, asid := w.asid, priv := w.priv, entry := 0, coop := false, fstop := false, slots := 0
    vwin := 0, cscope := dField d 4 1, gx := 0, gy := 0, gz := 0, args := 0, compl := n64 (dField d 8 8)
    devs := [s.boot.device], next := 0, left := 0, range := (0, 0), held := [], dealt := 0, started := 0, finished := 0, killed := 0, nfault := 0
    faults := [], phase := 0, lost := [], wasDrained := false, wasKilled := false
    graph := some { stages := xs, chans := (entriesOf d (32 + 32 * dField d 0 2) 16 (dField d 2 2)).map chanEntry, first := 0, bound := false }
    clock := lastClock s, packet := some packet, launcher := none, mute := false }

/-- R115: firmware acts on accepted STAGE GRAPH packet `k`: it rejects the graph, or holds it under grid record `rcd`. -/
def execStageGraphPacket (k rcd : Nat) (s : State) : Res :=
  event (fun s =>
    match packetAt s k 2 with
    | none => s
    | some (a, c, p) =>
      match queueWho s a c p.q with
      | none => s
      | some w =>
        if launchHeld c k = true ∨ packetFirst c p = false then s
        else match readGraph s w p.ptr with
        | none => packetDone a (some k) s
        | some (h, none) => rejectPacket a c.rcd.priv k (n64 (dField h 8 8)) (-1) s (noteVirt w (lastClock s) 2 p.ptr.toNat 32 s)
        | some (_, some d) =>
          let seen := noteVirt w (lastClock s) 110 p.ptr.toNat (32 + 32 * dField d 0 2 + 16 * dField d 2 2) s
          let rej := fun st => rejectPacket a c.rcd.priv k (n64 (dField d 8 8)) st s seen
          let es := entriesOf d 32 32 (dField d 0 2)
          let xs := es.filterMap (stageOf s a)
          if graphFields d = false then rej (-1)
          else if xs.length < es.length then rej (-6)
          else if (bindStages (fun _ => []) (graphCores s a) xs).isNone then rej (-3)
          else if recordsFull s then rej (-4)
          else if 1024 ≤ rcd ∨ gridLive s rcd = true then s
          else beginPacket a k rcd { seen with grids := tput s.grids rcd (newGraph s w rcd d xs k) }) s

/-- A held graph is rejected: its record is given back (R115). -/
def dropGraph (k : Nat) (g : Grid) (st : Int) (s : State) : State :=
  if recordWaits s g.asid g.priv g.compl then s
  else
    let s := { s with grids := tput s.grids k { g with live := false, phase := 3 } }
    match g.packet with
    | some p => rejectPacket g.asid g.priv p g.compl st s s
    | none => s

/-- Every word of a ring with its tag empty. -/
def clearRing (s : State) (r : Ring) : State :=
  modCell r.cell (fun x => { x with tags := x.tags.filter fun o => decide (8 * o < r.off) || decide (r.off + r.size ≤ 8 * o) }) s

/-- One bound core of a stage released: its keeper starts (R115). -/
def releaseStage (k : Nat) (g : Grid) (first : Nat) (x : Stage) (ci index : Nat) (b : Bound) (s : State) : State :=
  startBlock k g b.core index x.slots x.vwin b.resv x.entry #v[x.args, n64 first, n64 b.stage, n64 ci] s

/-- The cores of one stage released, in order. -/
def releaseCores (k : Nat) (g : Grid) (first : Nat) (xs : List Stage) (bs : List Bound) (s : State) (stage : Nat) : State :=
  match xs[stage]? with
  | none => s
  | some x =>
    ((bs.filter fun b => b.stage == stage).zipIdx).foldl (fun s q =>
      releaseStage k g first x q.2 ((bs.findIdx? fun b => b.core == q.1.core).getD 0) q.1 s) s

/-- The stages of a graph with the cores they are bound to. -/
def boundStages (xs : List Stage) (bs : List Bound) : List Stage :=
  xs.zipIdx.map fun q => { q.1 with bound := (bs.filter fun b => b.stage == q.2).map (·.core) }

/-- A graph bound: rings placed, stages released, sinks first. -/
def bindGraph (k first : Nat) (g : Grid) (t : Graph) (bs : List Bound) (rings : Tab Ring) (s : State) : State :=
  let s := modCtx g.asid (fun c => { c with rings := rings }) s
  let s := ((rings.filter fun r => r.2.grid == k && decide (first ≤ r.1)).map Prod.snd).foldl clearRing s
  let t := { t with stages := boundStages t.stages bs, first := first, bound := true }
  let s := { s with grids := tput s.grids k { g with graph := some t, dealt := bs.length } }
  let order := (sinksFirst 64 (t.chans.map fun c => (c.1, c.2.1)) (List.range t.stages.length)).1
  order.foldl (releaseCores k g first t.stages bs) s

/-- A core that a stage can be bound to now: it is free, and its cell runs the context (R115, R374). -/
def bindable (s : State) (a : Nat) (c : CoreKey) : Bool := coreFree s c && (cellAt s (c / 4)).joined && !isAway s a (c / 4)

/-- R115: firmware binds a held graph once every stage can be bound at once. -/
def execStageGraphBind (k : Nat) (s : State) : Res :=
  event (fun s =>
    match tfind s.grids k with
    | none => s
    | some g =>
      match g.graph, ctxAt s g.asid with
      | some t, some c =>
        if t.bound = true ∨ g.live = false ∨ g.phase ≠ 0 ∨ (workCore s 0).isNone = true then s
        else match bindStages (poolTaken s) ((graphCores s g.asid).filter (bindable s g.asid)) t.stages with
          | none => s
          | some bs =>
            let used := (c.rings.filter fun r => gridLive s r.2.grid).map Prod.fst
            match freeRun used t.chans.length with
            | none => dropGraph k g (-4) s
            | some first =>
              match placeRings bs k first t.chans c.rings with
              | none => dropGraph k g (-1) s
              | some rings => bindGraph k first g t bs rings s
      | _, _ => s) s

end Sys2Proof.Machine
end

