-- ==== Sys2Proof/Machine/Queues.lean ====
section
/-! DEFINITION. Packet queues and virtual functions (R91 to R98, R395, R396). -/

namespace Sys2Proof.Machine

/-- The context bound to a virtual function. -/
def ctxOfVf (s : State) (f : Nat) : Option (Nat × Ctx) := s.ctxs.find? fun c => c.2.rcd.vf == f

/-- R95: a host writes a wake register; a wake of a queue that is not registered is dropped. -/
def hostWake (f q : Nat) (s : State) : State :=
  match queueOwner s f q with
  | some a => wakeQueue a f q s
  | none => s

def execWake (f : Fin 128) (q : Fin 64) (s : State) : Res := event (hostWake f.val q.val) s

/-- R96: a bucket gains the tokens of one µs, up to its depth. -/
def execTokenBucketRefill (f : Fin 128) (s : State) : Res :=
  event (fun s =>
    let rate := match ctxOfVf s f.val with | some c => c.2.rcd.brate | none => 4
    { s with tokens := tput s.tokens f.val (min (bucketDepth s f.val) (tokensOf s f.val + rate)) }) s

/-! ### Registration (R395, R396) -/

/-- What QREG reads: the value last accepted; 0 for a queue that is not registered. -/
def qregValue (s : State) (f q : Nat) : Word64 :=
  match ctxOfVf s f with
  | some c => match tfind c.2.queues q with | some x => x.next.getD x.cb | none => 0
  | none => 0

/-- R396: a write of QREG: a misaligned address is discarded whole. -/
def writeQreg (f q : Nat) (v : Word64) (s : State) : State :=
  match ctxOfVf s f with
  | none => s
  | some (a, c) =>
    if v.toNat % 64 ≠ 0 then s
    else match tfind c.queues q with
      | some _ => modQueue a q (fun x => { x with next := some v }) s
      | none =>
        if v = 0 then s
        else
          let x : Queue := { cb := v, next := some v, wake := false, scans := 0, barrier := false, fault := false }
          modCtx a (fun c => { c with queues := tput c.queues q x }) s

def execQreg (f : Fin 128) (q : Fin 64) (v : Word64) (s : State) : Res := event (writeQreg f.val q.val v) s

/-- Fields of a control block written, in order (R92). -/
def writeBlock (w : Who) (cb : Word64) (l : List Piece) (s : State) : State :=
  l.foldl (fun s p => (writeVirt w (lastClock s) 2 (cb.toNat + p.1) (leBytes p.2.1 p.2.2) s).getD s) s

/-- The control block of a queue, as a number. -/
def readBlock (s : State) (w : Who) (cb : Word64) : Option Nat := (readVirt s w 2 cb.toNat 64).map leNat

/-- R396: QCLEAR returns a queue in ERROR to ACTIVE, and acts as a wake. -/
def clearQueue (f q : Nat) (skip : Bool) (s : State) : State :=
  match ctxOfVf s f with
  | none => s
  | some (a, c) =>
    match tfind c.queues q with
    | none => s
    | some x =>
      match queueWho s a c q with
      | none => s
      | some w => match readBlock s w x.cb with
      | none => s
      | some b =>
        let e := dField b 10 2
        if dField b 9 1 ≠ 1 then s
        else
          let s := noteVirt w (lastClock s) 2 x.cb.toNat 64 s
          let s := if skip ∧ 1 ≤ e ∧ e ≤ 3 then writeBlock w x.cb [(24, 8, (dField b 32 8 + 1) % 2 ^ 64)] s else s
          hostWake f q (writeBlock w x.cb [(10, 2, 0), (9, 1, 0)] s)

def execQclear (f : Fin 128) (q : Fin 64) (skip : Bool) (s : State) : Res := event (clearQueue f.val q.val skip) s

/-! ### Scans (R94, R97) -/

/-- A control block whose LOG2N, BASE and reserved bytes are as R92 has them. -/
def blockOk (b : Nat) : Bool :=
  decide (4 ≤ dField b 8 1) && decide (dField b 8 1 ≤ 16) && dField b 0 8 % 64 == 0 && dField b 12 4 == 0 && dField b 40 24 == 0

/-- A queue stopped at a packet, or for its control block: ERRCODE and ERRIDX, then STATE (R94). -/
def stopQueue (w : Who) (cb : Word64) (code i : Nat) (s : State) : State :=
  writeBlock w cb [(10, 2, code), (32, 8, i), (9, 1, 1)] s

/-- The error of a packet that has been read (R93, R94): 0 for none. -/
def packetError (p : Nat) : Nat :=
  if dField p 0 1 = 0 ∨ 4 < dField p 0 1 then 1
  else if 2 ≤ dField p 1 1 ∨ dField p 2 6 ≠ 0 ∨ dField p 16 48 ≠ 0 then 2
  else 0

/-- Whether earlier packets of a queue have not completed. -/
def packetsPending (s : State) (a q : Nat) : Bool :=
  match ctxAt s a with
  | some c => c.packets.any fun p => p.q == q
  | none => false

/-- R94: packets accepted one at a time from index `i`, at most `n` of them. -/
def acceptPackets (n : Nat) (a q : Nat) (w : Who) (cb : Word64) (base log i : Nat) (s : State) : State :=
  match n with
  | 0 => s
  | k + 1 =>
    match readVirt s w 2 (base + 64 * (i % 2 ^ log)) 64 with
    | none => stopQueue w cb 3 i s
    | some bs =>
      let p := leNat bs
      let s := noteVirt w (lastClock s) 2 (base + 64 * (i % 2 ^ log)) 64 s
      if packetError p ≠ 0 then stopQueue w cb (packetError p) i s
      else if (dField p 1 1).testBit 0 ∧ packetsPending s a q = true then modQueue a q (fun x => { x with barrier := true }) s
      else
        let x : Packet := { id := s.nextId, q := q, index := i, ty := dField p 0 1, ptr := n64 (dField p 8 8), grid := none }
        let s := modCtx a (fun c => { c with packets := c.packets ++ [x] }) { s with nextId := s.nextId + 1 }
        acceptPackets k a q w cb base log (i + 1) (writeBlock w cb [(24, 8, (i + 1) % 2 ^ 64)] s)

/-- A scan of a queue at its control block. -/
def scanBlock (a q : Nat) (w : Who) (cb : Word64) (s : State) : State :=
  match readBlock s w cb with
  | none => modQueue a q (fun x => { x with fault := true }) s
  | some b =>
    let s := noteVirt w (lastClock s) 2 cb.toNat 64 (modQueue a q (fun x => { x with fault := false }) s)
    if dField b 9 1 = 1 then s
    else if blockOk b = false then stopQueue w cb 4 (dField b 24 8) s
    else acceptPackets (dField b 16 8 - dField b 24 8) a q w cb (dField b 0 8) (dField b 8 1) (dField b 24 8) s

/-- What causes the next scan of a queue: a wake that took its token (1), a barrier packet whose predecessors have completed
(2), or the wake-again flag with a token (3); 0 for nothing (R94, R97). -/
def scanCause (s : State) (f a q : Nat) (x : Queue) : Nat :=
  if s.boot.handover then 0
  else if 0 < x.scans then 1
  else if x.barrier = true ∧ packetsPending s a q = false then 2
  else if x.wake = true ∧ 0 < tokensOf s f then 3
  else 0

/-- A scan begins: what caused it is used up, the wake-again flag is cleared, and a value of QREG takes effect (R396). -/
def beginScan (f a q cause : Nat) (x : Queue) (s : State) : State :=
  let s := if cause = 3 then { s with tokens := tput s.tokens f (tokensOf s f - 1) } else s
  match x.next with
  | some 0 => modCtx a (fun c => { c with queues := tdel c.queues q }) s
  | v => modQueue a q (fun x => { x with
      cb := v.getD x.cb, next := none, wake := false, barrier := false
      scans := if cause = 1 then x.scans - 1 else x.scans }) s

/-- R91, R94: the QUEUE core that serves a queue scans it. -/
def execQueueScan (f : Fin 128) (q : Fin 64) (s : State) : Res :=
  event (fun s =>
    match ctxOfVf s f.val with
    | none => s
    | some (a, c) =>
      match tfind c.queues q.val, queueWho s a c q.val with
      | none, _ | _, none => s
      | some x, some w =>
        let cause := scanCause s f.val a q.val x
        if cause = 0 then s
        else
          let s := beginScan f.val a q.val cause x s
          match x.next with
          | some 0 => s
          | v => scanBlock a q.val w (v.getD x.cb) s) s

/-! ### Function-level reset (R98) -/

/-- Every grid and stage graph of a context killed, without completion records (R98, R397). -/
def killAll (a : Nat) (s : State) : State :=
  let ks := (s.grids.filter fun g => g.2.live && g.2.asid == a).map Prod.fst
  ks.foldl (fun s k => cancelGrid k true (modGrid k (fun g => { g with mute := true }) s)) s

/-- R98. The wait of a barrier packet that is not accepted is dropped too (log entry 78, DESIGN CHOICE). -/
def execFunctionLevelReset (f : Fin 128) (s : State) : Res :=
  event (fun s =>
    match ctxOfVf s f.val with
    | none => s
    | some (a, _) =>
      killAll a (modCtx a (fun c => { c with
        queues := tmap (fun x => { x with wake := false, scans := 0, barrier := false }) c.queues
        packets := c.packets.filter fun p => p.grid.isSome }) s)) s

end Sys2Proof.Machine
end

