-- ==== Sys2Proof/Machine/Admin.lean ====
section
/-! DEFINITION. Admin commands (R397 to R401): creating, destroying, invalidating and migrating contexts. -/

namespace Sys2Proof.Machine

/-! ### The admin queue of PF0 (R92 to R94, R397; log entry 36, DEDUCED) -/

/-- The result record of a request, STATUS last: a release, past every clock of the device (R397, R399). -/
def adminResult (req status asid : Nat) (s : State) : State :=
  let c := lastClock s
  writePhys c (dField req 0 8) (leBytes 4 status) (writePhys c (dField req 0 8 + 4) (leBytes 2 asid) s)

/-- Fields of the admin queue's control block written, in order (R92). -/
def writeAdmin (cb : Nat) (l : List Piece) (s : State) : State :=
  l.foldl (fun s p => writePhys (lastClock s) (cb + p.1) (leBytes p.2.1 p.2.2) s) s

/-- The error of an admin packet that has been read (R93, R94, R397): 0 for none. -/
def adminError (p : Nat) : Nat :=
  if dField p 0 1 < 16 ∨ 19 < dField p 0 1 then 1
  else if 2 ≤ dField p 1 1 ∨ dField p 2 6 ≠ 0 ∨ dField p 16 48 ≠ 0 then 2
  else 0

/-- R94, R397: a QUEUE core takes the next packet of the admin queue, if its type is `ty`, and acts on its request block with `k`, which
may decline; a queue whose control block or packet is at fault stops. -/
def takeAdmin (cb ty : Nat) (k : Nat → State → Option State) (s : State) : State :=
  match readPhys s cb 64 with
  | none => s
  | some bs =>
    let b := leNat bs
    let i := dField b 24 8
    let stop := fun (code : Nat) => writeAdmin cb [(10, 2, code), (32, 8, i), (9, 1, 1)] s
    if cb % 64 ≠ 0 ∨ (workCore s 0).isNone = true ∨ dField b 9 1 = 1 then s
    else if blockOk b = false then stop 4
    else if dField b 16 8 ≤ i then s
    else match readPhys s (dField b 0 8 + 64 * (i % 2 ^ dField b 8 1)) 64 with
      | none => stop 3
      | some ps =>
        let p := leNat ps
        if adminError p ≠ 0 then stop (adminError p)
        else if dField p 0 1 ≠ ty ∨ ((dField p 1 1).testBit 0 = true ∧ (s.ctxs.any fun c => c.2.pending.isSome) = true) then s
        else
          let t := writeAdmin cb [(24, 8, (i + 1) % 2 ^ 64)] s
          match readPhys s (dField p 8 8) 64 with
          | none => t
          | some q => (k (leNat q) t).getD s

/-! ### CREATE -/

/-- A context record as a number, with its fields in range and aligned (R398). -/
def recordOk (r : Nat) : Bool :=
  (decide (dField r 0 1 ≤ 127) || dField r 0 1 == 0xFF) && decide (dField r 1 1 < 4) && dField r 2 6 == 0 &&
  dField r 8 8 % 4096 == 0 && dField r 16 8 % 64 == 0 && dField r 32 8 % 64 == 0 &&
  decide (1 ≤ dField r 40 4) && decide (dField r 40 4 < 2 ^ 30) && dField r 45 1 == 0 &&
  decide (1 ≤ dField r 56 2) && decide (1 ≤ dField r 58 2) && dField r 60 4 == 0 &&
  dField r 88 8 % 64 == 0 && decide (1 ≤ dField r 96 4) && decide (dField r 96 4 < 2 ^ 30) && dField r 100 4 == 0 &&
  dField r 104 8 % 65536 == 0 && dField r 112 8 % 64 == 0 && decide (dField r 120 4 < 2 ^ 30) && dField r 124 4 == 0

/-- The fields of a context record at an address (R398). -/
def recordOf (addr r : Nat) : CtxRec :=
  { vf := dField r 0 1, priv := (dField r 1 1).testBit 0, debug := (dField r 1 1).testBit 1, ptroot := dField r 8 8
    savebase := dField r 16 8, cellsave := dField r 24 8, rstore := dField r 32 8, rsize := dField r 40 4
    tick := dField r 48 4, deadline := dField r 52 4, bdepth := dField r 56 2, brate := dField r 58 2
    lcap := n64 (dField r 64 8), swlog := dField r 72 8, swcap := dField r 80 4, addr := addr, cstore := dField r 88 8
    csize := dField r 96 4, rva := dField r 104 8, dstore := dField r 112 8, dsize := dField r 120 4 }

/-- A context as it is created. -/
def Ctx.fresh (r : CtxRec) (base len born : Nat) : Ctx :=
  { rcd := r, part := { base := base, len := len, curBase := base, curLen := len, staged := none }, born := born, llease := 256
    speclim := speclimReset, dealq := [], bars := [], routines := [], rings := [], objs := [], tmpls := [], resids := []
    loads := 0, queues := [], packets := [], attached := false, tlb := [], pending := none, out := false, away := [], saved := [], savedCores := [] }

/-- R125, R401: whether a context may stand on a partition beside the others. -/
def mayShare (s : State) (a base len tick deadline : Nat) : Bool :=
  partFits (otherParts s a) base len &&
  s.ctxs.all fun c => c.1 == a || c.2.part.base != base || c.2.part.len != len ||
    (c.2.rcd.tick == tick && c.2.rcd.deadline == deadline && tick != 0)

/-- The next ASID number in turn that no live context holds (R400, log entry 37, DESIGN CHOICE). -/
def nextAsid (s : State) : Nat :=
  ((List.range 65535).find? fun k => (ctxAt s ((s.lastAsid + k) % 65535 + 1)).isNone).elim 0 fun k => (s.lastAsid + k) % 65535 + 1

/-- What a cell that is not the context's now keeps of it goes (R297, R379). -/
def forgetCtx (a : Nat) (x : Cell) : Cell :=
  { x with
    maps := x.maps.filter fun m => m.asid != a, mxgen := x.mxgen.filter fun q => q.1 != a
    units := x.units.filter fun q => q.1 / 8 != a }

/-- R397 CREATE; `asid` is the number that firmware chooses where the request leaves it to it. The statuses are tested in the order of their
numbers (log entry 74, DESIGN CHOICE). -/
def createContext (asid q : Nat) (s : State) : Option State :=
  let want := dField q 16 2
  let a := if want = 0 then nextAsid s else want
  match readPhys s (dField q 8 8) 128 with
  | none => some (adminResult q 1 0 s)
  | some b =>
    let r := leNat b
    let base := dField r 44 1
    let len := dField r 46 2
    if dField q 8 8 % 64 ≠ 0 ∨ recordOk r = false then some (adminResult q 1 0 s)
    else if 256 ≤ s.ctxs.length ∨ a = 0 ∨ (ctxAt s a).isSome = true then some (adminResult q 2 0 s)
    else if mayShare s 0 base len (dField r 48 4) (dField r 52 4) = false then some (adminResult q 3 0 s)
    else if want = 0 ∧ asid ≠ a then none
    else
      let taken := (runner s base len).isSome
      let c := { Ctx.fresh (recordOf (dField q 8 8) r) base len s.nextId with out := taken, away := if taken then partOf base len else [] }
      let s := { s with
        ctxs := tput s.ctxs a c, nextId := s.nextId + 1, lastAsid := if want = 0 then a else s.lastAsid
        tokens := if dField r 0 1 = 0xFF then s.tokens else tdel s.tokens (dField r 0 1) }
      let s := { s with cells := tmap (forgetCtx a) s.cells }
      let s := if taken then s else (partOf base len).foldl (clearCell a) s
      some (adminResult q 0 a s)

def execCreate (cb asid : Nat) (s : State) : Res := event (takeAdmin cb 16 (createContext asid)) s

/-! ### DESTROY (R397, R400) -/

/-- Nothing of a context is left running: no grid, posted operation, copy or message. -/
def ctxQuiet (s : State) (a : Nat) (c : Ctx) : Bool :=
  !hasLiveGrid s a && !orphans s a && !(s.net.any fun m => msgAsid s m.2 == a) &&
  (c.savedCores.all fun k => k.2.chans.all fun q => q.2.cur.isNone) &&
  !(s.cores.any fun k => k.2.chans.any fun q => match q.2.cur with | some p => p.asid == a | none => false)

/-- Every handle of a context is invalid from now on: the generations of its units have passed (R400). -/
def endHandles (a : Nat) (c : Ctx) (s : State) : State :=
  let s := c.resids.foldl (fun s r => advanceGens a 1 r.off r.units s) s
  c.tmpls.foldl (fun s t => advanceGens a 0 t.code t.units s) s

/-- A context is gone; the next of its partition takes its turn (R401). -/
def removeContext (a : Nat) (c : Ctx) (s : State) : State :=
  let next := nextOf a (sharers s c.part.curBase c.part.curLen)
  let s := endHandles a c s
  let s := if c.out then s else (partOf c.part.curBase c.part.curLen).foldl (clearCell a) s
  let s := dropOut a (fun _ => true) { s with
    ctxs := tdel s.ctxs a, saves := s.saves.filter fun q => q.1 / 16384 != a
    pages := s.pages.filter fun p => p.2.asid != a
    cells := tmap (forgetCtx a) s.cells
    slots := tmap (fun x => if x.ctl.asid = a then Slot.reset else x) s.slots }
  match next with
  | some b => if c.out = true ∨ b = a then s else switchIn b s
  | none => s

/-- R397 DESTROY begins: every grid is killed, without completion records; a context with a command under way is BUSY. -/
def beginDestroy (q : Nat) (s : State) : Option State :=
  let a := dField q 16 2
  match ctxAt s a with
  | none => some (adminResult q 1 0 s)
  | some c =>
    if c.pending.isSome then some (adminResult q 4 a s)
    else some (modCtx a (fun c => { c with packets := [], queues := [], pending := some (17, q) }) (killAll a s))

/-- The context goes once nothing of it is left (R400). -/
def finishDestroy (s : State) (a : Nat) : State :=
  match ctxAt s a with
  | some c =>
    match c.pending with
    | some (17, q) => if ctxQuiet s a c = true ∧ switching s a = false then adminResult q 0 a (removeContext a c s) else s
    | _ => s
  | none => s

def execDestroy (cb : Nat) (s : State) : Res :=
  event (fun s => let s := takeAdmin cb 17 beginDestroy s; (tkeys s.ctxs).foldl finishDestroy s) s

/-! ### INVALIDATE and MIGRATE -/

/-- Whether a TLB entry covers an address of a range (R247, R397). -/
def tlbMeets (key va len : Nat) : Bool :=
  let size := 2 ^ (key % 64)
  let page := key / 64 * size
  decide (page < va + len) && decide (va < page + size)

/-- R397 INVALIDATE, R399. -/
def invalidateContext (q : Nat) (s : State) : Option State :=
  let a := dField q 16 2
  if (ctxAt s a).isNone then some (adminResult q 1 0 s)
  else
    let va := dField q 24 8
    let len := dField q 32 8
    let drop := fun (c : Ctx) => { c with tlb := if len = 0 then [] else c.tlb.filter fun e => !tlbMeets e.key va len }
    some (adminResult q 0 a (modCtx a drop s))

def execInvalidate (cb : Nat) (s : State) : Res := event (takeAdmin cb 18 invalidateContext) s

/-- A context moved to another partition of equal length, switched out and in again (R379). -/
def migrateTo (a base : Nat) (c : Ctx) (s : State) : State :=
  let next := nextOf a (sharers s c.part.curBase c.part.curLen)
  let s := if c.out then s else switchOut a s
  match ctxAt s a with
  | none => s
  | some d =>
    let s := moveContext a base d s
    let s := match next with | some b => if c.out = true ∨ b = a then s else switchIn b s | none => s
    if ((sharers s base c.part.curLen).filter (· != a)).isEmpty then
      (partOf base c.part.curLen).foldl joinCell (switchIn a ((partOf base c.part.curLen).foldl (clearCell a) s))
    else s

/-- The partition that a MIGRATE names: base and length, where its record can be read. -/
def migrateGoal (s : State) (q : Nat) : Option (Nat × Nat) :=
  (readPhys s (dField q 8 8) 128).map fun b => (dField (leNat b) 44 1, dField (leNat b) 46 2)

/-- R397 MIGRATE begins: the context's slots are asked to spill. -/
def beginMigrate (q : Nat) (s : State) : Option State :=
  let a := dField q 16 2
  match ctxAt s a, migrateGoal s q with
  | some c, some (base, len) =>
    if c.pending.isSome then some (adminResult q 4 a s)
    else if len ≠ c.part.len ∨ partPending c = true ∨ mayShare s a base len c.rcd.tick c.rcd.deadline = false then some (adminResult q 3 a s)
    else some (modCtx a (fun c => { c with pending := some (19, q) }) s)
  | _, _ => some (adminResult q 1 0 s)

/-- A MIGRATE that fails: the context's slots are restored where they were. -/
def stayPut (q st a : Nat) (s : State) : State :=
  adminResult q st a ((ownCells s a).foldl (fun s k => (ctxSlots s a k).foldl (fun s g =>
    modCtl g (fun x => { x with req := { x.req with restore := true } }) s) s) s)

/-- It moves once its cells are quiet and nothing of it is on its way. -/
def finishMigrate (s : State) (a : Nat) : State :=
  match ctxAt s a with
  | none => s
  | some c =>
    match c.pending with
    | some (19, q) =>
      if movable s a c then
        let s := modCtx a (fun c => { c with pending := none }) s
        match migrateGoal s q, ctxAt s a with
        | some (base, len), some c =>
          if len = c.part.len ∧ partPending c = false ∧ mayShare s a base len c.rcd.tick c.rcd.deadline = true then
            adminResult q 0 a (migrateTo a base c s)
          else stayPut q 3 a s
        | _, _ => stayPut q 1 a s
      else if c.out then s
      else askSpills a (partOf c.part.curBase c.part.curLen) s
    | _ => s

def execMigrate (cb : Nat) (s : State) : Res :=
  event (fun s => let s := takeAdmin cb 19 beginMigrate s; (tkeys s.ctxs).foldl finishMigrate s) s

end Sys2Proof.Machine
end

