-- ==== Sys2Proof/Machine/Objects.lean ====
section
/-! DEFINITION. Code objects as the loader reads them (R57 to R62, R73) and the checks on distance-form bodies (R76 to R79). -/

namespace Sys2Proof.Machine

/-! ### Sections and symbols (R57 to R61) -/

/-- A section entry. -/
structure Sect where
  ty    : Nat
  flags : Nat
  align : Nat
  foff  : Nat
  fsize : Nat
  msize : Nat
  zero  : Nat
deriving DecidableEq, Repr

/-- A symbol entry with its name. -/
structure Sym where
  name  : Option (List Byte)
  sect  : Nat
  bind  : Nat
  kind  : Nat
  value : Nat
  brec  : Nat
deriving DecidableEq, Repr

/-- A relocation entry. -/
structure Reloc where
  site  : Nat
  ssect : Nat
  kind  : Nat
  zero  : Nat
  sym   : Nat
  add   : Int
deriving DecidableEq, Repr

/-- A binding record: where it stands, and its fields. -/
structure BindRec where
  off   : Nat
  sym   : Nat
  body  : Nat
  nops  : Nat
  np    : Nat
  frame : Nat
deriving DecidableEq, Repr

/-- An object as a number, with its tables. -/
structure Object where
  d     : Nat
  sects : List Sect
  syms  : List Sym
  rels  : List Reloc
  recs  : List BindRec
deriving DecidableEq, Repr

/-- Why a load fails: STATUS and INDEX of its result record (R64). -/
abbrev LoadFault := Nat × Nat

/-- The section entries of an object. -/
def sectsOf (d : Nat) : List Sect :=
  (entriesOf d (dField d 12 4) 24 (dField d 8 2)).map fun e =>
    { ty := dField e 0 2, flags := dField e 2 2, align := dField e 4 1, foff := dField e 8 4, fsize := dField e 12 4
      msize := dField e 16 8, zero := dField e 5 3 }

/-- The header obeys R57, for an object of `len` bytes. -/
def headerOk (d len : Nat) : Bool :=
  dField d 0 4 == 0x42434F5A && dField d 4 2 == 1 && decide (1 ≤ dField d 6 1) && dField d 7 1 == 0 &&
  decide (1 ≤ dField d 8 2) && decide (dField d 8 2 ≤ 64) && dField d 10 2 == 0 && dField d 12 4 % 8 == 0 &&
  dField d 20 4 == 0 && dField d 24 8 == len && decide (64 ≤ len) && dField d 32 32 == 0 &&
  decide (dField d 12 4 + 24 * dField d 8 2 ≤ len)

/-- A section entry obeys R59 in an object of `len` bytes. -/
def sectOk (len : Nat) (x : Sect) : Bool :=
  decide (1 ≤ x.ty) && decide (x.ty ≤ 9) && decide (x.flags < 4) && decide (1 ≤ x.align) && decide (x.align ≤ 30) &&
  x.zero == 0 && decide (x.foff + x.fsize ≤ len) && decide (x.fsize ≤ x.msize) &&
  match x.ty with
  | 1 => x.flags.testBit 1
  | 2 => x.flags.testBit 0
  | 3 => x.flags == 0
  | 4 => x.fsize == 0
  | 5 => x.fsize % 24 == 0
  | 9 => x.fsize % 16 == 0
  | _ => true

/-- The first section entry at fault; types 5 to 9 occur at most once. -/
def badSect (len : Nat) (xs : List Sect) : Option Nat :=
  (List.range xs.length).find? fun i =>
    match xs[i]? with
    | some x => !sectOk len x || (decide (5 ≤ x.ty) && (xs.take i).any fun y => y.ty == x.ty)
    | none => false

/-- The first section of a type. -/
def sectOfType (xs : List Sect) (ty : Nat) : Option Sect := xs.find? (·.ty == ty)

/-- A section by its index, from 1. -/
def sectAt (xs : List Sect) (i : Nat) : Option Sect := if i = 0 then none else xs[i - 1]?

/-- The bytes of an object. -/
def objBytes (d off n : Nat) : List Byte := leBytes n (dField d off n)

/-- A name of STRTAB, which a zero byte ends. -/
def nameAt (d : Nat) (xs : List Sect) (off : Nat) : Option (List Byte) :=
  match sectOfType xs 6 with
  | some t =>
    let bs := objBytes d (t.foff + off) (t.fsize - off)
    if off < t.fsize ∧ bs.contains 0 = true then some (bs.takeWhile (· != 0)) else none
  | none => none

/-- The symbol entries. -/
def symsOf (d : Nat) (xs : List Sect) : List Sym :=
  match sectOfType xs 5 with
  | some t => (entriesOf d t.foff 24 (t.fsize / 24)).map fun e =>
      { name := nameAt d xs (dField e 0 4), sect := dField e 4 2, bind := dField e 6 1, kind := dField e 7 1
        value := dField e 8 8, brec := dField e 20 4 }
  | none => []

/-- A symbol entry obeys R61, beside `n` binding records. -/
def symOk (xs : List Sect) (n : Nat) (y : Sym) : Bool :=
  y.name.isSome && decide (y.bind ≤ 2) && decide (y.kind ≤ 3) &&
  (if y.kind = 3 then
      (match sectAt xs y.sect with | some t => t.ty == 8 | none => false) && y.value == 0 && y.bind != 0 && decide (y.brec < n)
    else
      y.brec == 0xFFFFFFFF &&
      (y.sect == 0 || match sectAt xs y.sect with | some t => decide (t.ty ≤ 4) && decide (y.value ≤ t.msize) | none => false))

/-- The first symbol entry at fault; entry 0 is all zero. -/
def badSym (d : Nat) (xs : List Sect) (n : Nat) (ys : List Sym) : Option Nat :=
  let first := match sectOfType xs 5 with | some t => dField d t.foff 24 | none => 0
  if ys ≠ [] ∧ first ≠ 0 then some 0
  else (List.range ys.length).find? fun i => i != 0 && match ys[i]? with | some y => !symOk xs n y | none => false

/-- The relocation entries. -/
def relocsOf (d : Nat) (xs : List Sect) : List Reloc :=
  match sectOfType xs 9 with
  | some t => (entriesOf d t.foff 16 (t.fsize / 16)).map fun e =>
      { site := dField e 0 4, ssect := dField e 4 2, kind := dField e 6 1, zero := dField e 7 1, sym := dField e 8 4
        add := sgn 32 (dField e 12 4) }
  | none => []

/-- How many bytes a relocation patches. -/
def Reloc.size (r : Reloc) : Nat := if r.kind = 3 then 4 else 8

/-- A relocation entry obeys R62. -/
def relocOk (o : Object) (r : Reloc) : Bool :=
  decide (1 ≤ r.kind) && decide (r.kind ≤ 5) && r.zero == 0 && r.sym != 0 && decide (r.sym < o.syms.length) &&
  (if r.kind ≤ 3 then r.site % 2 == 0 else r.site % 8 == 0) &&
  match sectAt o.sects r.ssect with
  | some t => decide (t.ty ≤ 3) && decide (r.site + r.size ≤ t.msize)
  | none => false

/-! ### Binding records (R73) -/

/-- A parameter entry obeys R73. -/
def paramOk (ps : List Nat) (k : Nat) : Bool :=
  let e := (ps[k]?).getD 0
  let j := dField e 2 1
  decide (dField e 0 1 ≤ 2) && (dField e 1 1 == 7 || dField e 1 1 == 11 || dField e 1 1 == 3) && dField e 3 1 == 0 &&
  dField e 12 4 == 0 &&
  (j == 0xFF || (dField e 0 1 == 2 && j != k && match ps[j]? with | some q => dField q 0 1 == 1 | none => false))

/-- A binding record obeys R73; `d` is the object, and DISTANCE has `size` bytes. -/
def bindOk (d size : Nat) (r : BindRec) : Bool :=
  decide (1 ≤ r.nops) && decide (r.nops ≤ 2 ^ 20) && decide (r.np ≤ 16) && dField d (r.off + 13) 1 == 0 && r.frame % 8 == 0 &&
  r.body % 16 == 0 && decide (r.body + 16 * r.nops ≤ size) &&
  (let ps := entriesOf d (r.off + 16) 16 r.np; (List.range r.np).all (paramOk ps))

/-- The binding records from a byte of the object on: all of them, or the function of the first at fault. -/
def bindsFrom (d size : Nat) (fuel off left : Nat) : Except Nat (List BindRec) :=
  match fuel with
  | 0 => .ok []
  | k + 1 =>
    if left = 0 then .ok []
    else
      let r : BindRec :=
        { off := off, sym := dField d off 4, body := dField d (off + 4) 4, nops := dField d (off + 8) 4
          np := dField d (off + 12) 1, frame := dField d (off + 14) 2 }
      let n := 16 + 16 * r.np
      if left < n ∨ bindOk d size r = false then .error r.sym
      else match bindsFrom d size k (off + n) (left - n) with
        | .ok rs => .ok (r :: rs)
        | .error e => .error e

/-- The binding records of an object. A section that begins at no multiple of 8 is read as well (R73; log entry 40, DESIGN CHOICE). -/
def bindsOf (d : Nat) (xs : List Sect) : Except Nat (List BindRec) :=
  match sectOfType xs 7 with
  | some t => bindsFrom d (match sectOfType xs 8 with | some u => u.fsize | none => 0) (t.fsize / 16 + 1) t.foff t.fsize
  | none => .ok []

/-- The record of each symbol of KIND 3 names that symbol; the first symbol for which it does not. -/
def badBinding (o : Object) : Option Nat :=
  (List.range o.syms.length).find? fun i =>
    match o.syms[i]? with
    | some y => y.kind == 3 && match o.recs[y.brec]? with | some r => r.sym != i | none => true
    | none => false

/-! ### Bodies (R76 to R79) -/

/-- An operation record (R76). -/
structure DRec where
  native : Nat
  hdr    : Nat
  d1     : Nat
  d2     : Nat
  d3     : Nat
deriving DecidableEq, Repr

/-- The operation records of a body in an object. -/
def bodyOf (o : Object) (r : BindRec) : List DRec :=
  match sectOfType o.sects 8 with
  | some t => (entriesOf o.d (t.foff + r.body) 16 r.nops).map fun e =>
      { native := dField e 0 8, hdr := dField e 8 2, d1 := dField e 10 2, d2 := dField e 12 2, d3 := dField e 14 2 }
  | none => []

/-- The instruction of a value of `n` granules that stands alone in its word. -/
def decodeAlone (n v : Nat) : Option Instr :=
  let gs := granulesOf n v
  if v < 2 ^ (16 * n) ∧ wordNeed gs = n then
    match decodeBody gs with
    | .ok (.single i) => some i
    | _ => none
  else none

/-- The granules of a kind of record (R76): 0 S32, 1 V48, 2 L64. -/
def kindLen (k : Nat) : Nat := k + 2

/-- The lowest bits of the register fields that D1, D2 and D3 feed (R76). -/
def feedAt (k : Nat) (i : Instr) : List (Option Nat) :=
  match k, i with
  | 0, .madd .. => [some 14, some 9, some 4]
  | 0, _ => [some 14, some 9, some 19]
  | 1, _ => [some 28, some 23, some 18]
  | _, _ => [some 43, none, some 48]

/-- The distances of a record with their places. -/
def DRec.dists (r : DRec) : List (Nat × Nat) := [(1, r.d1), (2, r.d2), (3, r.d3)]

/-- NATIVE with register `j` in the field that each distance feeds; none where a distance feeds no field. -/
def fedValue (r : DRec) (at' : List (Option Nat)) : Option Nat :=
  r.dists.foldl (fun v (j, dist) =>
    match v, at'[j - 1]? with
    | some v, some (some lo) => some (if dist = 0 then v else v + j * 2 ^ lo)
    | some v, _ => if dist = 0 then some v else none
    | none, _ => none) (some r.native)

/-- The kind of a register as a value of a body (R78) and its number: 1 scalar, 2 vector, 3 guard, 4 a mask, 0 a tile. -/
def kindNum : Desig → Nat × Nat
  | .s n => (1, n.val)
  | .v n => (2, n.val)
  | .p n => (3, n.val)
  | .m n => (4, n.val)
  | .acc n => (0, n.val)

/-- The mask a vector instruction names (R79), apart from those that work on mask registers as values. -/
def namesMask : Instr → Bool
  | .mand .. | .mor .. | .mxor .. | .mnot .. | .mpopc .. | .mfirst .. => false
  | _ => true

/-- The registers that an instruction names in fields to read them: of a group of registers, the first (SLRN, OFILL); of MADD not d,
which D3 does not feed (R76; log entry 66, DEDUCED). -/
def namedReads (i : Instr) : List Desig :=
  match i with
  | .madd _ a b c => [.s a, .s b, .s c]
  | .slrn a b _ => [.s a, .s b]
  | .ofill _ a _ _ => [.v a]
  | i => reads i

/-- What an instruction reads through its register fields (R79), without mask m0 and the p0 of SEL. No distance feeds a guard field of
SEL, so SEL is accepted with p0; what PRES and DROP designate is not read through a field (log entry 66, DEDUCED). -/
def fieldReads (i : Instr) : List (Nat × Nat) :=
  ((namedReads i).map kindNum).filter fun q =>
    !(q == (4, 0) && namesMask i) && !(q == (3, 0) && match i with | .sel .. => true | _ => false)

/-- The registers that an instruction names in fields to write them: of a TMMA's two tiles, the first (R286). -/
def namedWrites (i : Instr) : List Desig :=
  match i with
  | .tmma acc .. => [.acc acc]
  | i => writes i ++ owes i

/-- Every register field is zero. -/
def fieldsZero (i : Instr) : Bool := (namedReads i ++ namedWrites i).all fun k => (kindNum k).2 == 0

/-- The instructions that a body may not use (R79). -/
def bodyForbids : Instr → Bool
  | .br _ | .jr _ | .call _ | .callr _ _ | .callh _ | .ret | .loop _ _ | .loopi _ _ | .fork _ _ | .join _ | .idle | .done
  | .trap _ | .tret | .brk | .ifence | .spec _ _ _ | .rfree _ | .cset _ _ | .csetVwin _ | .csetPbase _ | .csetPlen _
  | .csetDeqbase _ | .csetSpeclim _ | .csetLlease _ | .fwinWord0Write _ _ | .fwinConfigWrite _ _ _ | .inval _ _ | .sstart _ _ | .sreap _ _
  | .launch _ _ | .gcancelDrain _ | .gcancelKill _ | .cas2 _ _ _ | .slr _ _ _ _ | .lrw _ _ | .rput _ _ => true
  | _ => false

/-- The instructions that may carry U (R79). -/
def mayBeUnordered : Instr → Bool
  | .ldOff .. | .ldIdx .. | .stOff .. | .stIdx .. | .vld .. | .vst .. | .vlds .. | .vsts .. | .vgath .. | .vscat ..
  | .pref .. => true
  | _ => false

/-- What a record wants of its producers (distance and kind) and the kind of its value (R78); 0 for none. -/
structure Wants where
  ops : List (Nat × Nat)
  val : Nat
deriving DecidableEq, Repr

/-- An operation with a native form (R76, R79). -/
def nativeWants (r : DRec) : Option Wants :=
  let k := r.hdr / 2 ^ 14
  match decodeAlone (kindLen k) r.native with
  | none => none
  | some i =>
    match (fedValue r (feedAt k i)).bind (decodeAlone (kindLen k)) with
    | none => none
    | some j =>
      let rd := fieldReads j
      let used := r.dists.filter (·.2 != 0)
      if r.hdr % 2 ^ 13 ≠ 0 ∨ fieldsZero i = false ∨ bodyForbids i = true ∨ (r.hdr.testBit 13 ∧ mayBeUnordered i = false) ∨
         (rd.all fun q => q.1 != 4 && used.any fun u => u.1 == q.2) = false ∨
         (used.all fun u => rd.any fun q => q.2 == u.1) = false then none
      else some {
        ops := used.map fun u => (u.2, ((rd.find? fun q => q.2 == u.1).map Prod.fst).getD 0)
        val := match writes i ++ owes i with
          | k :: _ => if (kindNum k).1 = 4 then 0 else (kindNum k).1
          | [] => 0 }

/-- A marker (R77), in a body of `np` parameters and a frame of `fr` bytes. The bits of NATIVE beyond its argument must be 0 (log entry
71, DESIGN CHOICE). -/
def markerWants (np fr : Nat) (r : DRec) : Option Wants :=
  let code := field r.hdr 8 4
  if r.hdr % 2 ^ 8 ≠ 0 ∨ field r.hdr 12 2 ≠ 0 ∨ r.d2 ≠ 0 ∨ r.d3 ≠ 0 then none
  else match code with
    | 1 | 4 | 5 => if r.native = 0 ∧ r.d1 = 0 then some { ops := [], val := 0 } else none
    | 2 => if r.native = 0 ∧ r.d1 ≠ 0 then some { ops := [(r.d1, 1)], val := 1 } else none
    | 3 => if r.native = 0 ∧ r.d1 ≠ 0 then some { ops := [(r.d1, 3)], val := 0 } else none
    | 6 => if r.native < np ∧ r.d1 = 0 then some { ops := [], val := 1 } else none
    | 7 => if r.native < fr ∧ r.native % 8 = 0 ∧ r.d1 = 0 then some { ops := [], val := 1 } else none
    | 8 => if r.native = 0 ∧ r.d1 ≠ 0 then some { ops := [(r.d1, 1)], val := 0 } else none
    | _ => none

/-- The marker code of a record, 0 for an operation. -/
def DRec.marker (r : DRec) : Nat := if r.hdr / 2 ^ 14 = 3 then field r.hdr 8 4 else 0

/-- The open regions after a record, innermost first, each as the record that opened it and its marker (R77, R79). -/
def regionsAfter (r : DRec) (i : Nat) (last : Bool) (op : List (Nat × Nat)) : Option (List (Nat × Nat)) :=
  match r.marker with
  | 1 | 2 | 3 => if op.length < 64 then some ((i, r.marker) :: op) else none
  | 4 => match op with
    | (_, 3) :: rest => some ((i, 4) :: rest)
    | _ => none
  | 5 => match op with
    | _ :: rest => some rest
    | [] => none
  | 8 => if last ∧ op = [] then some op else none
  | _ => some op

/-- R78: each producer is an earlier record with a value of the right kind, and its regions are still open. -/
def producersOk (w : Wants) (cur : List Nat) (seen : List (List Nat × Nat)) : Bool :=
  w.ops.all fun (dist, kind) =>
    match seen[dist - 1]? with
    | some (was, k) => k == kind && was.all cur.contains
    | none => false

/-- R79: the first record of a body that is at fault; regions still open at the end are at fault from the outermost. -/
def badRecord (np fr : Nat) (rs : List DRec) (i : Nat) (op : List (Nat × Nat)) (seen : List (List Nat × Nat)) : Option Nat :=
  match rs with
  | [] => op.getLast?.map Prod.fst
  | r :: rest =>
    match if r.hdr / 2 ^ 14 = 3 then markerWants np fr r else nativeWants r with
    | none => some i
    | some w =>
      let cur := op.map Prod.fst
      if producersOk w cur seen = false then some i
      else match regionsAfter r i rest.isEmpty op with
        | none => some i
        | some op' => badRecord np fr rest (i + 1) op' ((if r.marker = 2 then i :: cur else cur, w.val) :: seen)

/-- The first record at fault in the bodies of an object's specialisable functions. -/
def badBody (o : Object) : Option Nat :=
  o.recs.findSome? fun r => badRecord r.np r.frame (bodyOf o r) 0 [] []

/-! ### Reading an object -/

/-- The object of `len` bytes, or why it is rejected (R57 to R62, R73, R79). -/
def readObject (d len : Nat) : Except LoadFault Object :=
  if headerOk d len = false then .error (1, 0)
  else if 4 < dField d 6 1 then .error (2, 0)
  else
    let xs := sectsOf d
    match badSect len xs with
    | some i => .error (1, i + 1)
    | none =>
      match bindsOf d xs with
      | .error y => .error (1, y)
      | .ok rs =>
        let o : Object := { d := d, sects := xs, syms := symsOf d xs, rels := relocsOf d xs, recs := rs }
        match badSym d xs rs.length o.syms with
        | some i => .error (1, i)
        | none =>
          if dField d 16 4 ≠ 0xFFFFFFFF ∧ o.syms.length ≤ dField d 16 4 then .error (1, dField d 16 4)
          else match badBinding o, o.rels.find? (fun r => !relocOk o r), badBody o with
            | some i, _, _ => .error (1, i)
            | none, some r, _ => .error (1, r.sym)
            | none, none, some i => .error (5, i)
            | none, none, none => .ok o

end Sys2Proof.Machine
end

