-- ==== Sys2Proof/Machine/Fold.lean ====
section
/-! DEFINITION. The walk over a distance body (R74 to R80, R202 to R204): what is known early is evaluated with the meanings of
the native instructions, and the rest is listed in order for the code that has the body's effect. -/

namespace Sys2Proof.Machine

/-- What a value of a body is to the walk (R202). -/
inductive AVal where
  | none
  /-- Early: a scalar, a guard, a vector. -/
  | sc (w : Word64)
  | gc (b : Bool)
  | vc (x : VVal)
  /-- The address s30 + k in the private frame (R77, R80). -/
  | frame (k : Word64)
  /-- Late: the value of item `id` of the walk's output. -/
  | late (id : Nat)
deriving DecidableEq, Repr

/-- Early values are constants at SPEC time. -/
def AVal.early : AVal → Bool
  | .sc _ | .gc _ | .vc _ => true
  | _ => false

/-- An item of the walk's output, in the order in which the code runs. -/
inductive Emit where
  /-- Late parameter `k` stands in s(4 + k) (R72). -/
  | param (k : Nat)
  /-- An operation with what its distances give, and the kind of its value (R78). -/
  | op (r : DRec) (args : List (Nat × AVal)) (kind : Nat)
  /-- A loop whose value counts from `start` up to `count`. -/
  | loop (start : Word64) (count : AVal)
  | loopEnd
  | ifBegin (g : AVal)
  | els
  | ifEnd
  | result (v : AVal)
deriving DecidableEq, Repr

/-- A body with what is known of its parameters and early regions, and the bounds of R203. -/
structure BodyIn where
  recs   : List DRec
  frame  : Nat
  pars   : List AVal
  /-- Base and bytes of each early region; none for a byte that cannot be read (R204). -/
  regs   : List (Nat × List (Option Byte))
  steps  : Nat
  unroll : Nat
  /-- In bytes. -/
  size   : Nat
  /-- Early values are folded; false for generic code. -/
  fold   : Bool
  /-- Recorded late values are forwarded (R202). -/
  fwd    : Bool
  /-- A frame address goes elsewhere than to a private access: what stores at other addresses may overwrite is recorded no more. -/
  shared : Bool
  /-- How many loops may be unrolled, where SIZE bounds them (R203). -/
  loops  : Option Nat
deriving DecidableEq, Repr

/-- The state of the walk. -/
structure Walk where
  env  : Tab AVal
  /-- Items, newest first, each with its number. -/
  out  : List (Nat × Emit)
  next : Nat
  /-- Recorded private-frame stores: the ranges of bytes, as offsets from s30 and lengths, and the value. -/
  mem  : List (List (Word64 × Nat) × AVal)
  /-- Loops unrolled. -/
  unrolled : Nat
  steps : Nat
  /-- Folding has stopped (R203). -/
  stopped : Bool
  sizeHit : Bool
  stepsHit : Bool
  unrollHit : Bool
  /-- The items left by R204. -/
  left : List Nat
  /-- A frame address has gone elsewhere than to a private access. -/
  esc  : Bool
deriving DecidableEq, Repr

/-! ### One operation -/

/-- The lowest bit of the field of a result. -/
def resultLo (k : Nat) : Nat := if k = 0 then 19 else if k = 1 then 33 else 48

/-- The result register is the one that the third distance feeds (BFI, LIH, CAS). -/
def isRmw (r : DRec) (i : Instr) (kind : Nat) : Bool :=
  let k := r.hdr / 2 ^ 14
  kind != 0 && r.d3 != 0 && (feedAt k i)[2]? == some (some (resultLo k))

/-- NATIVE with registers in its fields: those of the distances, and the result's. -/
def withRegs (r : DRec) (i : Instr) (kind : Nat) (regs : List (Nat × Nat)) (res : Nat) : Nat :=
  let k := r.hdr / 2 ^ 14
  regs.foldl (fun v (j, n) => match (feedAt k i)[j - 1]? with | some (some lo) => v + n * 2 ^ lo | _ => v)
    (if kind = 0 ∨ isRmw r i kind = true then r.native else r.native + res * 2 ^ resultLo k)

/-- The instruction of a record with the register of its number in each operand field, and its result in register 4 or, where it
is also read, 3. -/
def modelInstr (r : DRec) (kind : Nat) : Option (Instr × Nat) :=
  let k := r.hdr / 2 ^ 14
  match decodeAlone (kindLen k) r.native with
  | none => none
  | some i =>
    match decodeAlone (kindLen k) (withRegs r i kind ((r.dists.filter (·.2 != 0)).map fun d => (d.1, d.1)) 4) with
    | none => none
    | some j => some (j, if isRmw r i kind then 3 else 4)

/-- The value of an argument as a scalar. -/
def scArg (args : List (Nat × AVal)) (j : Nat) : Word64 :=
  (args.findSome? fun a => match a with | (k, .sc w) => if k = j then some w else none | _ => none).getD 0

/-- The operations on scalars and guards that read and write registers alone, as their meanings have them (R163 to R177). -/
def pureStep (i : Instr) (s : State) : Option Res :=
  match i with
  | .add d a b => some (execAdd d a b s)
  | .sub d a b => some (execSub d a b s)
  | .mul d a b => some (execMul d a b s)
  | .mulhs d a b => some (execMulhs d a b s)
  | .mulhz d a b => some (execMulhz d a b s)
  | .divs d a b => some (execDivs d a b s)
  | .divz d a b => some (execDivz d a b s)
  | .rems d a b => some (execRems d a b s)
  | .remz d a b => some (execRemz d a b s)
  | .and d a b => some (execAnd d a b s)
  | .or d a b => some (execOr d a b s)
  | .xor d a b => some (execXor d a b s)
  | .andn d a b => some (execAndn d a b s)
  | .shl d a b => some (execShl d a b s)
  | .shrz d a b => some (execShrz d a b s)
  | .shrs d a b => some (execShrs d a b s)
  | .rotl d a b => some (execRotl d a b s)
  | .mins d a b => some (execMins d a b s)
  | .minz d a b => some (execMinz d a b s)
  | .maxs d a b => some (execMaxs d a b s)
  | .maxz d a b => some (execMaxz d a b s)
  | .clz d a => some (execClz d a s)
  | .ctz d a => some (execCtz d a s)
  | .popc d a => some (execPopc d a s)
  | .bswap d a => some (execBswap d a s)
  | .sext8 d a => some (execSext8 d a s)
  | .sext16 d a => some (execSext16 d a s)
  | .sext32 d a => some (execSext32 d a s)
  | .madd d a b c => some (execMadd d a b c s)
  | .addiS d a v => some (execAddiS d a v s)
  | .andiS d a v => some (execAndiS d a v s)
  | .oriS d a v => some (execOriS d a v s)
  | .xoriS d a v => some (execXoriS d a v s)
  | .addiL d a v => some (execAddiL d a v s)
  | .andiL d a v => some (execAndiL d a v s)
  | .oriL d a v => some (execOriL d a v s)
  | .xoriL d a v => some (execXoriL d a v s)
  | .shli d a n => some (execShli d a n s)
  | .shri d a g n => some (execShri d a g n s)
  | .li d v => some (execLi d v s)
  | .lih d v => some (execLih d v s)
  | .bfx d a g w p => some (execBfx d a g w p s)
  | .bfi d a w p => some (execBfi d a w p s)
  | .cmp g a b c => some (execCmp g a b c s)
  | .cmpi g a c v => some (execCmpi g a c v s)
  | .pand d a b => some (execPand d a b s)
  | .por d a b => some (execPor d a b s)
  | .pxor d a b => some (execPxor d a b s)
  | .pnot d a => some (execPnot d a s)
  | .movpFrom d a => some (execMovpFrom d a s)
  | .movpTo d a => some (execMovpTo d a s)
  | .sel d a b g n => some (execSel d a b g n s)
  | .xya d a b c r => some (execXya d a b c r s)
  | _ => none

/-- A slot whose registers hold the operands of an operation. -/
def operandSlot (args : List (Nat × AVal)) (x : Slot) : Slot :=
  args.foldl (fun x a =>
    match a with
    | (j, .sc w) => sSet ⟨j % 32, Nat.mod_lt _ (by decide)⟩ w x
    | (j, .gc b) => pSet ⟨j % 8, Nat.mod_lt _ (by decide)⟩ b x
    | _ => x) x

/-- An operation of the wide unit on registers alone, with a value (R202): not memory, and not the matrix unit. -/
def pureVector (r : DRec) (i : Instr) : Bool := r.hdr / 2 ^ 14 == 1 && !isVmem i && !isMatrix i

/-- An operation that does nothing but give its value. -/
def pureOp (r : DRec) (i : Instr) : Bool := (pureStep i State.reset).isSome || pureVector r i

/-- R202: the value of an operation whose operands are all early; none where its evaluation would fault (R204). -/
def evalOp (r : DRec) (kind : Nat) (args : List (Nat × AVal)) : Option AVal :=
  match modelInstr r kind with
  | none => none
  | some (i, n) =>
    if pureVector r i then
      let vs := args.filterMap fun a => match a with | (j, .vc x) => some (.v ⟨j % 32, Nat.mod_lt _ (by decide)⟩ x) | _ => none
      match vecResult ⟨vs, (scalars i).map fun q => scArg args q.val⟩ i with
      | .v _ x :: _ => some (.vc x)
      | .s _ w :: _ => some (.sc w)
      | _ => none
    else match pureStep i (modSlot 0 (operandSlot args) State.reset) with
      | some (.next t) =>
        if t.issue.done = false then none
        else if kind = 3 then some (.gc (pGet (slotAt t 0) ⟨n % 8, Nat.mod_lt _ (by decide)⟩))
        else some (.sc (sGet (slotAt t 0) ⟨n % 32, Nat.mod_lt _ (by decide)⟩))
      | _ => none

/-- R202: an operation that early operands decide although another is late: an early 0, or the other operand. -/
def shortCut (i : Instr) (args : List (Nat × AVal)) : Option AVal :=
  match args with
  | [(1, a), (2, b)] =>
    match i with
    | .mul .. | .mulhs .. | .mulhz .. | .and .. =>
      if a = .sc 0 ∨ b = .sc 0 then some (.sc 0)
      else match i with
        | .mul .. => if a = .sc 1 then some b else if b = .sc 1 then some a else none
        | _ => none
    | .add .. | .or .. | .xor .. => if a = .sc 0 then some b else if b = .sc 0 then some a else none
    | .sub .. => if b = .sc 0 then some a else none
    | _ => none
  | _ => none

/-- R77, R80: the sum of a frame address and a constant is a frame address. -/
def frameSum (i : Instr) (args : List (Nat × AVal)) : Option AVal :=
  match i, args with
  | .addiS _ _ v, [(1, .frame k)] => some (.frame (k + v.signExtend 64))
  | .addiL _ _ v, [(1, .frame k)] => some (.frame (k + v.signExtend 64))
  | .add .., [(1, .frame k), (2, .sc w)] => some (.frame (k + w))
  | .add .., [(1, .sc w), (2, .frame k)] => some (.frame (k + w))
  | _, _ => none

/-! ### Loads (R75) and the private frame (R80) -/

/-- The byte ranges of a load at early addresses: the address and the width of each access; none for what is no load. -/
def loadSpans (i : Instr) (args : List (Nat × AVal)) : Option (List (Word64 × Nat)) :=
  match i with
  | .ldOff _ _ w o => some [(eaOff (scArg args 1) o, ldBytes w)]
  | .ldIdx _ _ _ w h => some [(eaIdx (scArg args 1) (scArg args 2) h, ldBytes w)]
  | .vld .. | .vlds .. | .vgath .. =>
    let t := vmemTy i
    let ix := args.findSome? fun a => match a with | (_, .vc x) => some x.toNat | _ => none
    some ((List.range t.count).map fun e => (vmemAddr i ((scalars i).map fun q => scArg args q.val) (ix.getD 0) e, t.width / 8))
  | _ => none

/-- The bytes of a range that lies wholly inside one early region; an unreadable byte is none. -/
def regionBytes (regs : List (Nat × List (Option Byte))) (a n : Nat) : Option (List (Option Byte)) :=
  (regs.find? fun q => decide (q.1 ≤ a) && decide (a + n ≤ q.1 + q.2.length)).map fun q => (q.2.drop (a - q.1)).take n

/-- What an early-bound load gives (R75): its value, a fault that leaves it to run (R204), or none where it is late-bound. -/
inductive EarlyLoad where
  | value (v : AVal)
  | faults
  | late
deriving DecidableEq, Repr

/-- An early-bound load, all of whose operands are early. Each element of a vector load may lie in a region of its own (R75; log entry 77,
DESIGN CHOICE). -/
def earlyLoad (b : BodyIn) (i : Instr) (args : List (Nat × AVal)) : EarlyLoad :=
  match loadSpans i args with
  | none => .late
  | some l =>
    match l.mapM fun q => regionBytes b.regs q.1.toNat q.2 with
    | none => .late
    | some bs =>
      if l.any (fun q => q.1.toNat % q.2 != 0) ∨ bs.any (fun x => x.any (·.isNone)) then .faults
      else
        let vals := bs.map fun x => leNat (x.map (·.getD 0))
        match i with
        | .ldOff _ _ w _ | .ldIdx _ _ _ w _ => .value (.sc (ldExtend w (vals.headD 0)))
        | _ => .value (.vc (BitVec.ofNat 2048 (ofElems (vmemTy i).width vals)))

/-- The place of the distance that feeds the address operand of a load or store (R76); none for what is neither. -/
def addressAt : Instr → Option Nat
  | .ldOff .. | .ldIdx .. | .stOff .. | .stIdx .. => some 1
  | .vld .. | .vst .. | .vlds .. | .vsts .. | .vgath .. | .vscat .. => some 3
  | _ => none

/-- The frame address that is the address operand of a load or store. -/
def frameBase (i : Instr) (args : List (Nat × AVal)) : Option Word64 :=
  (addressAt i).bind fun j => args.findSome? fun a => match a with | (q, .frame k) => if q = j then some k else none | _ => none

/-- Ranges of bytes with neighbours joined where one follows the other. -/
def joinSpans : List (Word64 × Nat) → List (Word64 × Nat)
  | [] => []
  | (a, n) :: rest =>
    match joinSpans rest with
    | (b, m) :: t => if b = a + n64 n then (a, n + m) :: t else (a, n) :: (b, m) :: t
    | [] => [(a, n)]

/-- The bytes of the frame that an access at base `k` touches, in the order of its elements; none where a late operand decides. -/
def frameSpans (k : Word64) (i : Instr) (args : List (Nat × AVal)) : Option (List (Word64 × Nat)) :=
  let other := ((args.find? (·.1 == 2)).map Prod.snd).getD .none
  let elems := fun (st : Word64) (ix : Nat) =>
    some (joinSpans ((List.range (vmemTy i).count).map fun e => (vmemAddr i [k, st] ix e, (vmemTy i).width / 8)))
  match i, other with
  | .ldOff _ _ w o, _ => some [(eaOff k o, ldBytes w)]
  | .stOff _ _ w o, _ => some [(eaOff k o, stBytes w)]
  | .ldIdx _ _ _ w h, .sc x => some [(eaIdx k x h, ldBytes w)]
  | .stIdx _ _ _ w h, .sc x => some [(eaIdx k x h, stBytes w)]
  | .vld _ _ _ _ o, _ | .vst _ _ _ _ o, _ => some [(k + (o.signExtend 64 <<< 3), 256)]
  | .vlds .., .sc x | .vsts .., .sc x => elems x 0
  | .vgath .., .vc x | .vscat .., .vc x => elems 0 x.toNat
  | _, _ => none

/-- The bytes of the frame that a private-frame access (R80) can touch; all of them where a late operand decides. -/
def privateAt (i : Instr) (args : List (Nat × AVal)) : Option (List (Word64 × Nat)) :=
  (frameBase i args).map fun k => (frameSpans k i args).getD [(0, 2 ^ 64)]

/-- A load or store that stores. -/
def storesMem : Instr → Bool
  | .stOff .. | .stIdx .. | .vst .. | .vsts .. | .vscat .. => true
  | _ => false

/-- Two ranges of the frame meet. -/
def framesMeet (a : Word64) (n : Nat) (b : Word64) (m : Nat) : Bool :=
  decide ((b - a).toNat < n) || decide ((a - b).toNat < m)

/-- Ranges of the frame meet others. -/
def spansMeet (a b : List (Word64 × Nat)) : Bool := a.any fun x => b.any fun y => framesMeet x.1 x.2 y.1 y.2

/-- No two of some ranges meet. -/
def spansApart : List (Word64 × Nat) → Bool
  | [] => true
  | x :: rest => !spansMeet [x] rest && spansApart rest

/-! ### The walk -/

/-- A record is about to be walked (R203). -/
def tick (b : BodyIn) (w : Walk) : Walk :=
  if b.fold = false ∨ w.stopped = true then w
  else if w.steps = 0 then { w with stopped := true, stepsHit := true, mem := [] }
  else { w with steps := w.steps - 1 }

/-- An item is listed. -/
def emitItem (e : Emit) (w : Walk) : Walk := { w with out := (w.next, e) :: w.out, next := w.next + 1 }

/-- A record's value. -/
def setVal (i : Nat) (v : AVal) (w : Walk) : Walk := { w with env := tput w.env i v }

/-- What the distances of record `n` give. -/
def argsOf (w : Walk) (n : Nat) (r : DRec) : List (Nat × AVal) :=
  (r.dists.filter (·.2 != 0)).map fun d => (d.1, (tfind w.env (n - d.2)).getD .none)

/-- An operation is listed, and its value is late. -/
def emitOp (n : Nat) (r : DRec) (kind : Nat) (args : List (Nat × AVal)) (w : Walk) : Walk :=
  setVal n (if kind = 0 then .none else .late w.next) (emitItem (.op r args kind) w)

/-- Whether an operation keeps a frame address to itself: it is the address of a private access, and nothing else. -/
def frameKept (i : Instr) (args : List (Nat × AVal)) : Bool :=
  let n := (args.filter fun a => match a.2 with | .frame _ => true | _ => false).length
  n == 0 || (n == 1 && (privateAt i args).isSome)

/-- The place of the distance that feeds the value that a store writes. -/
def storedAt : Instr → Option Nat
  | .stOff .. | .stIdx .. => some 3
  | .vst .. | .vsts .. | .vscat .. => some 1
  | _ => none

/-- Whether a late value that a store writes can be taken back whole: all 64 bits of a scalar, or a vector. -/
def keptWhole (i : Instr) (l : List (Word64 × Nat)) : Bool :=
  match i with
  | .stOff .. | .stIdx .. => (l.map Prod.snd).sum == 8
  | _ => true

/-- A private-frame store recorded (R202): what it overwrites is recorded no more. -/
def recordStore (b : BodyIn) (i : Instr) (args : List (Nat × AVal)) (w : Walk) : Walk :=
  if b.fold = false ∨ w.stopped = true ∨ storesMem i = false then w
  else match frameBase i args with
  | none => w
  | some k =>
    let v := ((storedAt i).bind fun j => (args.find? (·.1 == j)).map Prod.snd).getD .none
    let rest := w.mem.filter fun q => !spansMeet q.1 ((frameSpans k i args).getD [(0, 2 ^ 64)])
    match frameSpans k i args with
    | some l =>
      let known := match v with | .late _ => b.fwd && keptWhole i l | v => v.early
      { w with mem := if spansApart l ∧ known = true then (l, v) :: rest else rest }
    | none => { w with mem := rest }

/-- A private-frame load of bytes that a recorded store has written. -/
def recordedLoad (i : Instr) (args : List (Nat × AVal)) (w : Walk) : Option AVal :=
  match (frameBase i args).bind fun k => frameSpans k i args with
  | none => none
  | some l =>
    (w.mem.find? fun q => q.1 == l).bind fun q =>
      match i, q.2 with
      | .ldOff _ _ wd _, .sc v | .ldIdx _ _ _ wd _, .sc v => some (.sc (ldExtend wd (v.toNat % 2 ^ (8 * ldBytes wd))))
      | .ldOff .., .late id | .ldIdx .., .late id => some (.late id)
      | .vld .., .vc x | .vlds .., .vc x | .vgath .., .vc x => some (.vc x)
      | .vld .., .late id | .vlds .., .late id | .vgath .., .late id => some (.late id)
      | _, _ => none

/-- An operation that changes nothing but its result, beside those on registers alone. -/
def givesOnly : Instr → Bool
  | .cget .. | .pres .. | .sstat .. | .gstat .. | .rinfo .. | .cpyq .. | .barq .. => true
  | _ => false

/-- Whether an operation may write memory elsewhere than where a private-frame store does; `own` says that its address is the frame's. -/
def writesElsewhere (r : DRec) (i : Instr) (own : Bool) : Bool :=
  !(pureOp r i || givesOnly i || ((addressAt i).isSome && (!storesMem i || own)))

/-- An operation that is listed, with what it does to the records of private-frame stores. -/
def plainOp (b : BodyIn) (n : Nat) (r : DRec) (kind : Nat) (i : Instr) (args : List (Nat × AVal)) (w : Walk) : Walk :=
  let w := if frameKept i args then recordStore b i args w else { w with esc := true, mem := [] }
  emitOp n r kind args (if b.shared = true ∧ writesElsewhere r i (privateAt i args).isSome = true then { w with mem := [] } else w)

/-- One operation (R202, R204). -/
def walkOp (b : BodyIn) (n : Nat) (r : DRec) (w : Walk) : Walk :=
  let kind := ((nativeWants r).map (·.val)).getD 0
  let args := argsOf w n r
  match modelInstr r kind with
  | none => w
  | some (i, _) =>
    match frameSum i args with
    | some v => setVal n v w
    | none =>
      let plain := plainOp b n r kind i args
      if b.fold = false ∨ w.stopped = true then plain w
      else match recordedLoad i args w with
        | some v => setVal n v w
        | none =>
          if args.all (·.2.early) then
            if kind ≠ 0 ∧ pureOp r i = true then
              match evalOp r kind args with
              | some v => setVal n v w
              | none => plain { w with left := w.next :: w.left }
            else match earlyLoad b i args with
              | .value v => setVal n v w
              | .faults => plain { w with left := w.next :: w.left }
              | .late => plain w
          else match shortCut i args with
            | some v => setVal n v w
            | none => plain w

/-- How many records stand before the marker that closes a region. -/
def closeOf (rs : List DRec) (depth : Nat) : Nat :=
  match rs with
  | [] => 0
  | r :: rest =>
    match r.marker with
    | 1 | 2 | 3 => closeOf rest (depth + 1) + 1
    | 4 => if depth = 0 then 0 else closeOf rest depth + 1
    | 5 => if depth = 0 then 0 else closeOf rest (depth - 1) + 1
    | _ => closeOf rest depth + 1

/-- The marker at a record. -/
def markerAt (b : BodyIn) (i : Nat) : Nat := ((b.recs[i]?).map (·.marker)).getD 0

/-- The late values that an item names. -/
def itemUses (e : Emit) : List Nat :=
  let ids := fun (v : AVal) => match v with | .late k => [k] | _ => []
  match e with
  | .op _ args _ => args.flatMap fun a => ids a.2
  | .loop _ c => ids c
  | .ifBegin g => ids g
  | .result v => ids v
  | _ => []

/-- An operation that may go when its value is not used (R202, R83): one that only gives a value, a load with U, and a load of
the private frame. What else has a result has an effect of its own, which R202 keeps (log entry 69, DEDUCED). -/
def removable (r : DRec) (kind : Nat) (args : List (Nat × AVal)) : Bool :=
  match modelInstr r kind with
  | some (i, _) =>
    kind != 0 && (pureOp r i || givesOnly i ||
      ((addressAt i).isSome && !storesMem i && (r.hdr.testBit 13 || (privateAt i args).isSome)))
  | none => false

/-- Items, newest first, without the operations whose values nobody uses; `live` lists the values used later. -/
def pruneVals (live : List Nat) (l : List (Nat × Emit)) : List (Nat × Emit) :=
  match l with
  | [] => []
  | (id, e) :: rest =>
    let drop := match e with
      | .op r args kind => removable r kind args && !live.contains id
      | _ => false
    if drop then pruneVals live rest else (id, e) :: pruneVals (itemUses e ++ live) rest

/-- The bytes of the frame in which an operation may see what private-frame stores have written: those of a private-frame load; all where
it reads memory at another address without U. Accesses with U may pass private-frame stores (R83). -/
def frameSeen (r : DRec) (i : Instr) (args : List (Nat × AVal)) : List (Word64 × Nat) :=
  if storesMem i = true ∨ pureOp r i = true ∨ givesOnly i = true then []
  else match privateAt i args with
    | some l => l
    | none => if (addressAt i).isSome = true ∧ r.hdr.testBit 13 = true then [] else [(0, 2 ^ 64)]

/-- The ranges of the frame in which listed items may see private-frame stores. -/
def frameReads (l : List (Nat × Emit)) : List (Word64 × Nat) :=
  l.flatMap fun q =>
    match q.2 with
    | .op r args kind => match modelInstr r kind with | some i => frameSeen r i.1 args | none => []
    | _ => []

/-- Without the private-frame stores that no listed item can see (R83, R202). -/
def pruneStores (l : List (Nat × Emit)) : List (Nat × Emit) :=
  let rd := frameReads l
  l.filter fun q =>
    match q.2 with
    | .op r args 0 =>
      match modelInstr r 0 with
      | some (i, _) =>
        (match storesMem i, privateAt i args with
          | true, some l => spansMeet rd l
          | _, _ => true)
      | none => true
    | _ => true

/-- Items, newest first, without what has no effect; private stores stay where a frame address has gone elsewhere. -/
def prune (esc : Bool) (live : List Nat) (l : List (Nat × Emit)) : List (Nat × Emit) :=
  let l := pruneVals live l
  if esc then l else pruneVals live (pruneStores l)

/-- The size of the residual as emitted so far (R203), without what nothing uses; `sz` gives the size of the code of items, with the late
values still in use after them. -/
def sizeSoFar (sz : List (Nat × Emit) → List Nat → Nat) (b : BodyIn) (w : Walk) : Nat :=
  let live := (w.env.map Prod.snd ++ w.mem.map Prod.snd).filterMap fun v => match v with | .late k => some k | _ => none
  sz (prune (w.esc || b.shared) live w.out).reverse live

/-- What two ways through a region have both recorded. -/
def bothRecorded (a b : Walk) : List (List (Word64 × Nat) × AVal) := a.mem.filter b.mem.contains

/-- What record `n` is to the frame, whatever runs: no frame address, one at an offset, or one at an offset not known here. -/
def frameStatic (recs : List DRec) (frame fuel n : Nat) : Option (Option Word64) :=
  match fuel with
  | 0 => none
  | k + 1 =>
    match recs[n]? with
    | none => none
    | some r =>
      if r.marker = 7 then some (some (n64 r.native - n64 frame))
      else
        let a := if r.d1 = 0 then none else frameStatic recs frame k (n - r.d1)
        let b := if r.d2 = 0 then none else frameStatic recs frame k (n - r.d2)
        match (modelInstr r 1).map Prod.fst with
        | some (.addiS _ _ v) => a.map fun x => x.map (· + v.signExtend 64)
        | some (.addiL _ _ v) => a.map fun x => x.map (· + v.signExtend 64)
        | some (.add ..) => if a.isSome ∨ b.isSome then some none else none
        | _ => none

/-- What record `n` is to a store's address: the frame address, or the offset of one, that its address operand is. -/
def storeBase (b : BodyIn) (n : Nat) (r : DRec) (q : Instr) : Option (Option Word64) :=
  let d := (((addressAt q).bind fun j => r.dists.find? (·.1 == j)).map Prod.snd).getD 0
  if d = 0 then none else frameStatic b.recs b.frame n (n - d)

/-- The bytes of the frame that the private-frame stores among records `i` to `e` write. -/
def regionStores (b : BodyIn) (i e : Nat) : List (Word64 × Nat) :=
  ((List.range (e - i)).map (i + ·)).flatMap fun n =>
    match (b.recs[n]?).bind fun r => (modelInstr r 0).map fun q => (r, q.1) with
    | none => []
    | some (r, q) =>
      if storesMem q = false then []
      else match storeBase b n r q with
        | none => []
        | some none => [(0, 2 ^ 64)]
        | some (some k) => (frameSpans k q []).getD [(0, 2 ^ 64)]

/-- Whether one of the records `i` to `e` may write memory elsewhere than in the frame. -/
def regionWrites (b : BodyIn) (i e : Nat) : Bool :=
  (List.range (e - i)).any fun j =>
    match b.recs[i + j]? with
    | none => false
    | some r =>
      r.hdr / 2 ^ 14 != 3 && match modelInstr r (((nativeWants r).map (·.val)).getD 0) with
        | some (q, _) => writesElsewhere r q (storeBase b (i + j) r q).isSome
        | none => false

/-- What stays recorded around a loop that is kept: what none of its stores overwrites (R202). -/
def keptRecords (b : BodyIn) (i e : Nat) (w : Walk) : List (List (Word64 × Nat) × AVal) :=
  if b.shared = true ∧ regionWrites b i e = true then []
  else
    let st := regionStores b i e
    w.mem.filter fun q => !spansMeet q.1 st

/-- Records from `i` to the marker that closes their region, and where that marker stands (R77, R202, R203). -/
def walkFrom (sz : List (Nat × Emit) → List Nat → Nat) (b : BodyIn) (fuel i : Nat) (w : Walk) : Walk × Nat :=
  match fuel with
  | 0 => (w, i)
  | k + 1 =>
    match b.recs[i]? with
    | none => (w, i)
    | some r =>
      let e := i + 1 + closeOf (b.recs.drop (i + 1)) 0
      match r.marker with
      | 4 | 5 => (w, i)
      | 1 =>
        let x := walkFrom sz b k (i + 1) (tick b w)
        walkFrom sz b k (x.2 + 1) (tick b x.1)
      | 2 =>
        let w := tick b w
        let c := (tfind w.env (i - r.d1)).getD .none
        let asLoop := fun (start : Nat) (w : Walk) =>
          let mem := keptRecords b (i + 1) e w
          let w := setVal i (.late w.next) (emitItem (.loop (n64 start) c) { w with mem := mem })
          let x := tick b (walkFrom sz b k (i + 1) w).1
          { emitItem .loopEnd x with mem := if x.stopped then [] else mem }
        let w' :=
          match c with
          | .sc t =>
            if b.fold = false ∨ w.stopped = true then asLoop 0 w
            else if b.unroll < t.toNat then asLoop 0 { w with unrollHit := true }
            else if b.loops.any (· ≤ w.unrolled) then asLoop 0 { w with sizeHit := true }
            else
              let x := (List.range t.toNat).foldl (fun (q : Walk × Nat) j =>
                if q.1.stopped then q else (tick b (walkFrom sz b k (i + 1) (setVal i (.sc (n64 j)) q.1)).1, j + 1)) ({ w with unrolled := w.unrolled + 1 }, 0)
              if b.size < sizeSoFar sz b x.1 ∧ sizeSoFar sz b w < sizeSoFar sz b x.1 then asLoop 0 { w with sizeHit := true }
              else if x.2 < t.toNat then asLoop x.2 x.1 else x.1
          | _ => asLoop 0 w
        walkFrom sz b k (e + 1) w'
      | 3 =>
        let w := tick b w
        let g := (tfind w.env (i - r.d1)).getD .none
        let e2 := if markerAt b e = 4 then e + 1 + closeOf (b.recs.drop (e + 1)) 0 else e
        let w' :=
          match g, b.fold && !w.stopped with
          | .gc c, true =>
            if markerAt b e = 4 then
              if c then tick b (tick b (walkFrom sz b k (i + 1) w).1) else tick b (walkFrom sz b k (e + 1) (tick b w)).1
            else if c then tick b (walkFrom sz b k (i + 1) w).1 else tick b w
          | _, _ =>
            let w0 := emitItem (.ifBegin g) w
            let x := (walkFrom sz b k (i + 1) w0).1
            if markerAt b e = 4 then
              let y := (walkFrom sz b k (e + 1) { tick b (emitItem .els x) with mem := w0.mem }).1
              { emitItem .ifEnd (tick b y) with mem := bothRecorded x y }
            else { emitItem .ifEnd (tick b x) with mem := bothRecorded x w0 }
        walkFrom sz b k (e2 + 1) w'
      | 6 => walkFrom sz b k (i + 1) (setVal i ((b.pars[r.native]?).getD .none) (tick b w))
      | 7 => walkFrom sz b k (i + 1) (setVal i (.frame (n64 r.native - n64 b.frame)) (tick b w))
      | 8 => walkFrom sz b k (i + 1) (emitItem (.result ((tfind w.env (i - r.d1)).getD .none)) (tick b w))
      | _ => walkFrom sz b k (i + 1) (walkOp b i r (tick b w))

/-- The walk's start: the late parameters in their registers. -/
def walkStart (b : BodyIn) : Walk :=
  let n := (b.pars.filter fun v => match v with | .late _ => true | _ => false).length
  { env := [], out := ((List.range n).map fun k => (k, .param k)).reverse, next := n, mem := [], unrolled := 0, steps := b.steps, stopped := false
    sizeHit := false, stepsHit := false, unrollHit := false, left := [], esc := false }

/-- The walk of a whole body. -/
def walkBody (sz : List (Nat × Emit) → List Nat → Nat) (b : BodyIn) : Walk := (walkFrom sz b (b.recs.length + 1) 0 (walkStart b)).1

/-- The items of a body in order: without folding, all of them; with it, those that have an effect. -/
def itemsOfBody (sz : List (Nat × Emit) → List Nat → Nat) (b : BodyIn) : List (Nat × Emit) × Walk :=
  let w := walkBody sz b
  if b.fold = false then (w.out.reverse, w)
  else if w.esc then
    let v := walkBody sz { b with shared := true }
    ((prune true [] v.out).reverse, v)
  else ((prune false [] w.out).reverse, w)

/-- How many of the listed operations R204 has left (R208). -/
def leftIn (x : List (Nat × Emit) × Walk) : Nat := (x.1.filter fun q => x.2.left.contains q.1).length

end Sys2Proof.Machine
end

