-- ==== Sys2Proof/Machine/Translate.lean ====
section
/-! DEFINITION. Native code for a distance body (R72, R81, R83, R202): the items of its walk in list order, registers assigned from
those that the call convention lets change. Which register is taken and where a NOP stands is free (log entry 9, DESIGN CHOICE). -/

namespace Sys2Proof.Machine

/-- A piece of code: an instruction value of `n` granules behind a guard if there is one, a branch to a label, or a label. -/
inductive CodePiece where
  | raw (n v : Nat)
  | br (guard : Option GuardField) (lab : Nat)
  | lab (l : Nat)
deriving DecidableEq, Repr

/-- The state of the code generator. -/
structure Gen where
  /-- Newest first. -/
  code : List CodePiece
  /-- Registers in use: kind (R78), number, the item whose value it holds; none for a register of one operation. -/
  own  : List (Nat × Nat × Option Nat)
  labs : Nat
  /-- Open loops and branches: two labels and the counter's register. -/
  opens : List (Nat × Nat × Nat)
  /-- Choices drawn so far. -/
  drawn : Nat
  ok   : Bool
  /-- Guard values are held as scalar values, and those that are. -/
  soft : Bool
  boxed : List Nat
  /-- Scalar values are held in words of vector registers, and the registers taken for that. -/
  deep  : Bool
  banks : List Nat
  /-- How many scalar registers the code uses. -/
  room : Nat
deriving DecidableEq, Repr

/-- The registers of a kind that code uses, among those that R72 lets change: of scalars the first `room`. -/
def poolOf (room kind : Nat) : List Nat :=
  if kind = 1 then (List.range room).map (· + 1) else if kind = 2 then List.range 32 else (List.range 7).map (· + 1)

/-- The number by which a word of a vector register is known as a place of scalar values. -/
def wordNo (v k : Nat) : Nat := 32 + 32 * v + k

/-- A register number as the fields of instructions have it. -/
def sr (n : Nat) : SReg := ⟨n % 32, Nat.mod_lt _ (by decide)⟩
def pr (n : Nat) : GReg := ⟨n % 8, Nat.mod_lt _ (by decide)⟩
def vr (n : Nat) : VRegNo := ⟨n % 32, Nat.mod_lt _ (by decide)⟩

/-- A free register of a kind: the choice among scalars and guards is free; of vector registers the lowest, since the window's
size is the caller's (R72). -/
def takeReg (ch : Nat → Nat) (kind : Nat) (who : Option Nat) (g : Gen) : Nat × Gen :=
  let l := (poolOf g.room kind).filter fun n => !(g.own.any fun q => q.1 == kind && q.2.1 == n) && !(kind == 2 && g.banks.contains n)
  let n := l[if kind = 2 then 0 else ch g.drawn % l.length]?
  match n with
  | some n => (n, { g with own := (kind, n, who) :: g.own, drawn := g.drawn + 1 })
  | none => (0, { g with ok := false })

/-- An instruction. -/
def ins (i : Instr) (g : Gen) : Gen :=
  match encodeValue i with
  | some (n, v) => { g with code := .raw n v :: g.code }
  | none => { g with ok := false }

/-- A constant in a scalar register. -/
def loadConst (r : Nat) (w : Word64) (g : Gen) : Gen :=
  if (-8192) ≤ w.toInt ∧ w.toInt < 8192 then ins (.addiS (sr r) 0 (w.setWidth 14)) g
  else
    let g := ins (.li (sr r) (w.setWidth 32)) g
    if (-2147483648) ≤ w.toInt ∧ w.toInt < 2147483648 then g else ins (.lih (sr r) ((w >>> 32).setWidth 32)) g

/-- A frame address in a scalar register. -/
def loadFrame (r : Nat) (k : Word64) (g : Gen) : Gen :=
  if (-8192) ≤ k.toInt ∧ k.toInt < 8192 then ins (.addiS (sr r) 30 (k.setWidth 14)) g
  else ins (.add (sr r) (sr r) 30) (loadConst r k g)

/-- A constant in a vector register. -/
def loadVector (ch : Nat → Nat) (r : Nat) (x : VVal) (g : Gen) : Gen :=
  let t := takeReg ch 1 none g
  let e := fun k => n64 (elem x.toNat 64 k)
  let g := ins (.vbcast (vr r) (sr t.1) 0 .b64) (loadConst t.1 (e 0) t.2)
  (List.range 32).foldl (fun g k =>
    if e k = e 0 then g else ins (.vins (vr r) (sr t.1) .b64 (BitVec.ofNat _ k)) (loadConst t.1 (e k) g)) g

/-- A free word of a vector register for the value of an item. -/
def takeWord (ch : Nat → Nat) (who : Nat) (g : Gen) : Nat × Gen :=
  let free := fun (g : Gen) => (g.banks.flatMap fun v => (List.range 32).map (wordNo v)).find? fun n => !(g.own.any fun q => q.1 == 1 && q.2.1 == n)
  let keep := fun (n : Nat) (g : Gen) => (n, { g with own := (1, n, some who) :: g.own })
  match free g with
  | some n => keep n g
  | none =>
    let t := takeReg ch 2 none g
    keep (wordNo t.1 0) { t.2 with own := g.own, banks := t.1 :: g.banks }

/-- A scalar written in a word of a vector register. -/
def fillWord (n from_ : Nat) (g : Gen) : Gen := ins (.vins (vr ((n - 32) / 32)) (sr from_) .b64 (BitVec.ofNat _ ((n - 32) % 32))) g

/-- The scalar result of an item: what `k` leaves in a register stands where values are held. -/
def keepScalar (ch : Nat → Nat) (id : Nat) (k : Nat → Gen → Gen) (g : Gen) : Gen :=
  if g.deep then
    let t := takeReg ch 1 none g
    let g := k t.1 t.2
    let x := takeWord ch id g
    fillWord x.1 t.1 x.2
  else
    let x := takeReg ch 1 (some id) g
    k x.1 x.2

/-- A held scalar in a register. -/
def inReg (ch : Nat → Nat) (n : Nat) (g : Gen) : Nat × Gen :=
  if n < 32 then (n, g)
  else
    let t := takeReg ch 1 none g
    (t.1, ins (.vext (sr t.1) (vr ((n - 32) / 32)) .b64 (BitVec.ofNat _ ((n - 32) % 32))) t.2)

/-- The register that holds the value of an item. -/
def holderOf (g : Gen) (id : Nat) : Option Nat := (g.own.find? fun q => q.2.2 == some id).map fun q => q.2.1

/-- An operand in a register. -/
def operandReg (ch : Nat → Nat) (v : AVal) (g : Gen) : Nat × Gen :=
  match v with
  | .late id =>
    match holderOf g id with
    | some n =>
      if g.boxed.contains id then
        let x := inReg ch n g
        let t := takeReg ch 3 none x.2
        (t.1, ins (.movpTo (pr t.1) (sr x.1)) t.2)
      else inReg ch n g
    | none => (0, { g with ok := false })
  | .sc w => if w = 0 then (0, g) else let t := takeReg ch 1 none g; (t.1, loadConst t.1 w t.2)
  | .gc b => if b then (0, g) else let t := takeReg ch 3 none g; (t.1, ins (.pnot (pr t.1) 0) t.2)
  | .vc x => let t := takeReg ch 2 none g; (t.1, loadVector ch t.1 x t.2)
  | .frame k => let t := takeReg ch 1 none g; (t.1, loadFrame t.1 k t.2)
  | .none => (0, { g with ok := false })

/-- Operands in registers, in the order of the distances. -/
def operandRegs (ch : Nat → Nat) (args : List (Nat × AVal)) (g : Gen) : List (Nat × Nat) × Gen :=
  args.foldl (fun (q : List (Nat × Nat) × Gen) a => let r := operandReg ch a.2 q.2; (q.1 ++ [(a.1, r.1)], r.2)) ([], g)

/-- Registers given back: those of one operation, and of values whose last use is over. -/
def giveBack (last : Tab Nat) (pos : Nat) (g : Gen) : Gen :=
  { g with own := g.own.filter fun q => match q.2.2 with | some id => decide (pos < (tfind last id).getD 0) | none => false }

/-- A label not yet used. -/
def newLab (g : Gen) : Nat × Gen := (g.labs, { g with labs := g.labs + 1 })

/-- A NOP, where the free choice has one. -/
def maybeNop (ch : Nat → Nat) (g : Gen) : Gen :=
  let g' := { g with drawn := g.drawn + 1 }
  if ch g.drawn % 5 = 4 then ins .nop g' else g'

/-- An instruction value of a number of granules, which must decode. -/
def put (n v : Nat) (g : Gen) : Gen :=
  if (decodeAlone n v).isSome then { g with code := .raw n v :: g.code } else { g with ok := false }

/-- The register of a result: a guard that is to be held in a scalar register moves there once it is written by `k`. -/
def genResult (ch : Nat → Nat) (kind id : Nat) (k : Nat → Gen → Gen) (g : Gen) : Gen :=
  if kind = 3 ∧ g.soft = true then
    let t := takeReg ch 3 none g
    let g := keepScalar ch id (fun n => ins (.movpFrom (sr n) (pr t.1))) (k t.1 t.2)
    { g with boxed := id :: g.boxed }
  else if kind = 1 then keepScalar ch id k g
  else
    let x := takeReg ch kind (some id) g
    k x.1 x.2

/-- An operation (R80): operands, the copy of one that the result replaces, and the instruction itself. -/
def genOp (ch : Nat → Nat) (last : Tab Nat) (pos id : Nat) (r : DRec) (args : List (Nat × AVal)) (kind : Nat) (g : Gen) : Gen :=
  let k := r.hdr / 2 ^ 14
  match decodeAlone (kindLen k) r.native with
  | none => { g with ok := false }
  | some i =>
    if isRmw r i kind then
      let o := operandRegs ch (args.filter (·.1 != 3)) g
      let old := ((args.find? (·.1 == 3)).map Prod.snd).getD .none
      let copy := fun (n : Nat) (g : Gen) =>
        match old with
        | .late q => match holderOf g q with
          | some m => let x := inReg ch m g; ins (.addiS (sr n) (sr x.1) 0) x.2
          | none => { g with ok := false }
        | .sc w => loadConst n w g
        | .frame q => loadFrame n q g
        | _ => { g with ok := false }
      giveBack last pos (keepScalar ch id (fun n g => put (kindLen k) (withRegs r i kind (o.1 ++ [(3, n)]) 0) (copy n g)) o.2)
    else
      let o := operandRegs ch args g
      if kind = 0 then giveBack last pos (put (kindLen k) (withRegs r i kind o.1 0) o.2)
      else
        giveBack last pos (genResult ch kind id (fun n g => put (kindLen k) (withRegs r i kind o.1 n) g) (giveBack last pos o.2))

/-- One item. -/
def genItem (ch : Nat → Nat) (last : Tab Nat) (pos id : Nat) (e : Emit) (g : Gen) : Gen :=
  match e with
  | .param k =>
    if g.deep then let x := takeWord ch id g; giveBack last pos (fillWord x.1 (4 + k) x.2)
    else giveBack last pos { g with own := (1, 4 + k, some id) :: g.own }
  | .op r args kind => genOp ch last pos id r args kind (maybeNop ch g)
  | .loop start c =>
    let a := newLab g
    let b := newLab a.2
    let g := keepScalar ch id (fun n => loadConst n start) b.2
    let at' := (holderOf g id).getD 0
    let x := inReg ch at' { g with code := .lab a.1 :: g.code }
    let o := operandReg ch c x.2
    let p := takeReg ch 3 none o.2
    let g := ins (.cmp (pr p.1) (sr x.1) (sr o.1) .eq) p.2
    giveBack last pos { g with
      code := .br (some { neg := false, reg := pr p.1 }) b.1 :: g.code, opens := (a.1, b.1, at') :: g.opens }
  | .loopEnd =>
    match g.opens with
    | (a, b, r) :: rest =>
      let x := inReg ch r { g with opens := rest }
      let g := ins (.addiS (sr x.1) (sr x.1) 1) x.2
      let g := if r < 32 then g else fillWord r x.1 g
      giveBack last pos { g with code := .lab b :: .br none a :: g.code }
    | [] => { g with ok := false }
  | .ifBegin v =>
    let o := operandReg ch v g
    let a := newLab o.2
    let b := newLab a.2
    giveBack last pos { b.2 with
      code := .br (some { neg := true, reg := pr o.1 }) a.1 :: b.2.code, opens := (a.1, b.1, 1) :: b.2.opens }
  | .els =>
    match g.opens with
    | (a, b, _) :: rest => { g with code := .lab a :: .br none b :: g.code, opens := (a, b, 0) :: rest }
    | [] => { g with ok := false }
  | .ifEnd =>
    match g.opens with
    | (a, b, n) :: rest => { g with code := .lab b :: (if n = 1 then [.lab a] else []) ++ g.code, opens := rest }
    | [] => { g with ok := false }
  | .result v =>
    match v with
    | .late id => match holderOf g id with
      | some n => if n = 4 then g else let x := inReg ch n g; ins (.addiS 4 (sr x.1) 0) x.2
      | none => { g with ok := false }
    | .sc w => loadConst 4 w g
    | .frame k => loadFrame 4 k g
    | _ => { g with ok := false }

/-! ### Last uses -/

/-- The loops among items, as the positions of their beginnings and ends; `opens` lists the beginnings of open ones. -/
def loopSpans (l : List (Nat × Emit)) (pos : Nat) (opens : List Nat) : List (Nat × Nat) :=
  match l with
  | [] => []
  | (_, .loop _ _) :: rest => loopSpans rest (pos + 1) (pos :: opens)
  | (_, .loopEnd) :: rest =>
    match opens with
    | o :: os => (o, pos) :: loopSpans rest (pos + 1) os
    | [] => loopSpans rest (pos + 1) []
  | _ :: rest => loopSpans rest (pos + 1) opens

/-- Where the last use of a value counts that is used at a position: at the end of every loop that runs the use again after the
value was made. -/
def useAt (spans : List (Nat × Nat)) (made pos : Nat) : Nat :=
  (spans.filter fun s => decide (made < s.1) && decide (s.1 ≤ pos) && decide (pos ≤ s.2)).foldl (fun m s => max m s.2) pos

/-- The position of the last use of every value; those of `live` are used after the items too. -/
def lastUses (l : List (Nat × Emit)) (live : List Nat) : Tab Nat :=
  let spans := loopSpans l 0 []
  let made := l.zipIdx.foldl (fun (t : Tab Nat) q => tput t q.1.1 q.2) []
  let t := l.zipIdx.foldl (fun t q =>
    let t := match q.1.2 with
      | .loop _ _ => tput t q.1.1 (max ((tfind t q.1.1).getD 0) (((spans.find? (·.1 == q.2)).map Prod.snd).getD q.2))
      | _ => t
    (itemUses q.1.2).foldl (fun t id =>
      tput t id (max ((tfind t id).getD 0) (useAt spans ((tfind made id).getD 0) q.2))) t) []
  live.foldl (fun t id => tput t id l.length) t

/-! ### Bytes -/

/-- The granules of a piece. -/
def CodePiece.size : CodePiece → Nat
  | .raw n _ => n
  | .br g _ => if g.isSome then 3 else 2
  | .lab _ => 0

/-- Where each label stands, in granules. -/
def labelsAt (l : List CodePiece) (pos : Nat) : List (Nat × Nat) :=
  match l with
  | [] => []
  | .lab k :: rest => (k, pos) :: labelsAt rest pos
  | p :: rest => labelsAt rest (pos + p.size)

/-- The granules of pieces from a position; none where a branch reaches too far. -/
def assemble (labs : List (Nat × Nat)) (l : List CodePiece) (pos : Nat) : Option (List (BitVec 16)) :=
  match l with
  | [] => some []
  | p :: rest =>
    match assemble labs rest (pos + p.size) with
    | none => none
    | some gs =>
      match p with
      | .raw n v => some (granulesOf n v ++ gs)
      | .lab _ => some gs
      | .br q k =>
        match labs.find? (·.1 == k) with
        | none => none
        | some (_, t) =>
          let d : Int := (t : Int) - (pos : Int)
          if d < -(2 ^ 23) ∨ 2 ^ 23 ≤ d then none
          else some (encodeWord { guard := q, body := .single (.br (BitVec.ofInt 24 d)) } ++ gs)

/-- The scalar registers that code may use: SLRN begins four of them with its operand (R338), so that s29 is left out where it stands. -/
def roomOf (l : List (Nat × Emit)) : Nat :=
  let four := fun (e : Emit) => match e with
    | .op r _ _ => match decodeAlone (kindLen (r.hdr / 2 ^ 14)) r.native with | some (.slrn ..) => true | _ => false
    | _ => false
  if l.any fun q => four q.2 then 28 else 29

/-- The ways to hold values, each with more room than the one before: in registers; guards as scalars; and these in words of vector
registers. -/
inductive Hold where
  | regs | boxes | words
deriving DecidableEq, Repr

/-- The code of items in order, and whether the registers suffice. A vector register that holds words is made whole first. -/
def piecesOf (ch : Nat → Nat) (h : Hold) (l : List (Nat × Emit)) (live : List Nat) : List CodePiece × Bool :=
  let last := lastUses l live
  let g := l.zipIdx.foldl (fun g q => genItem ch last q.2 q.1.1 q.1.2 g)
    { code := [], own := [], labs := 0, opens := [], drawn := 0, ok := true, soft := h != .regs, boxed := [], deep := h == .words
      banks := [], room := roomOf l }
  let first := g.banks.foldl (fun g v => ins (.vbcast (vr v) 0 0 .b64) g) { g with code := [] }
  (g.code ++ first.code, g.ok)

/-- The code of items in order; none where the registers do not suffice. -/
def codeWith (ch : Nat → Nat) (h : Hold) (l : List (Nat × Emit)) : Option (List Byte) :=
  let r := piecesOf ch h l []
  let code := r.1.reverse ++ [.raw 2 (match encodeValue .ret with | some (_, v) => v | none => 0)]
  if r.2 then (assemble (labelsAt code 0) code 0).map granuleBytes else none

/-- The code of items in order: scalar values stand in vector registers, and guard values in scalars, only where other registers do not
suffice. -/
def codeOf (ch : Nat → Nat) (l : List (Nat × Emit)) : Option (List Byte) :=
  (codeWith ch .regs l).or ((codeWith ch .boxes l).or (codeWith ch .words l))

/-- The bytes of code of items, as far as they go (R203). -/
def codeSize (ch : Nat → Nat) (l : List (Nat × Emit)) (live : List Nat) : Nat :=
  let size := fun (r : List CodePiece × Bool) => 2 * (r.1.map CodePiece.size).sum
  let a := piecesOf ch .regs l live
  let b := piecesOf ch .boxes l live
  if a.2 then size a else if b.2 then size b else size (piecesOf ch .words l live)

/-! ### Generic code (R81) and residuals (R202, R203) -/

/-- The records of a body's bytes: a binding record from byte 8 on, then R76. -/
def recsOf (body : List Byte) : List DRec :=
  let h := leNat (body.take 8)
  let np := dField h 4 1
  (List.range (dField h 0 4)).map fun k =>
    let e := leNat ((body.drop (8 + 16 * np + 16 * k)).take 16)
    { native := dField e 0 8, hdr := dField e 8 2, d1 := dField e 10 2, d2 := dField e 12 2, d3 := dField e 14 2 }

/-- Parameters in binding order: early ones with their values, late ones as the items of their registers. -/
def parsOf (marks : List Bool) (vals : List Word64) (k : Nat) : List AVal :=
  match marks, vals with
  | [], _ => []
  | true :: ms, v :: vs => .sc v :: parsOf ms vs k
  | true :: ms, [] => .none :: parsOf ms [] k
  | false :: ms, vs => .late k :: parsOf ms vs (k + 1)

/-- What of a binding record is early. -/
def marksOf (body : List Byte) : List Bool :=
  (List.range (dField (leNat (body.take 8)) 4 1)).map fun k => !((body[8 + 16 * k]?).getD 0 == 0)

/-- A body to be translated: generic where nothing is early. -/
def bodyIn (body : List Byte) (vals : List Word64) (regs : List (Nat × List (Option Byte))) (lim : Word64) (early fold : Bool) :
    BodyIn :=
  { recs := recsOf body, frame := dField (leNat (body.take 8)) 6 2
    pars := parsOf ((marksOf body).map (early && ·)) vals 0, regs := regs
    steps := bits lim 16 23, unroll := bits lim 40 13, size := 64 * bits lim 0 13, fold := fold, fwd := true, shared := false, loops := none }

/-- The generic native code of a body (R81): every parameter is late, and nothing is folded. A body that has more values at once than s1
to s29, the guards and the vector registers hold has free code: no code both has its effect and keeps to R72 (log entry 9, DESIGN
CHOICE). -/
def genericCodeOf (body : List Byte) : List Byte :=
  let ch := Config.codeChoice body [] [] 0
  match codeOf ch (itemsOfBody (codeSize ch) (bodyIn body [] [] 0 false false)).1 with
  | some c => c
  | none => Config.genericCode body

/-- RINFO's bits [47:32] of a residual made from items (R208); `size` says that a longer one has given way. -/
def residualInfo (size : Bool) (x : List (Nat × Emit) × Walk) : Nat :=
  (size || x.2.sizeHit).toNat + x.2.stepsHit.toNat * 2 + x.2.unrollHit.toNat * 4 + min 255 (leftIn x) * 256

/-- The code of a body of at most `cap` bytes, with its RINFO bits: with the first `n` loops unrolled that are to be, or as many of them as
the bound lets stand (R203). -/
def boundedCode (ch : Nat → Nat) (cap : Nat) (b : BodyIn) (n : Nat) : Option (List Byte × Nat) :=
  let x := itemsOfBody (codeSize ch) { b with loops := some n }
  let fits := (codeOf ch x.1).bind fun c => if c.length ≤ cap then some (c, residualInfo false x) else none
  match fits, n with
  | some r, _ => some r
  | none, 0 => none
  | none, k + 1 => boundedCode ch cap b k

/-- The same, where every loop may be unrolled that SIZE lets be. -/
def foldedCode (ch : Nat → Nat) (cap : Nat) (b : BodyIn) : Option (List Byte × Nat) :=
  let x := itemsOfBody (codeSize ch) b
  match codeOf ch x.1 with
  | some c => if c.length ≤ cap then some (c, residualInfo false x) else boundedCode ch cap b (x.2.unrolled - 1)
  | none => none

/-- The residual of a body and RINFO's bits [47:32] (R202, R203, R208). Where late values of the frame take up too many registers, they stay
in the frame. Where a residual would pass SIZE and the size of the one without folding, its last unrolled loops are kept as loops;
the one without folding is left in the end (R203). A body that has more values at once than the registers of R72 hold has free code, within
SIZE (log entry 9, DESIGN CHOICE). -/
def residualCodeOf (body : List Byte) (vals : List Word64) (regs : List (Nat × List (Option Byte))) (key : List (List Byte))
    (lim : Word64) : List Byte × Nat :=
  let ch := Config.codeChoice body vals key lim
  let b := bodyIn body vals regs lim true true
  let plain := itemsOfBody (codeSize ch) { b with fold := false }
  let whole := codeOf ch plain.1
  let cap := max b.size (match whole with | some d => d.length | none => 0)
  match (foldedCode ch cap b).or (foldedCode ch cap { b with fwd := false }), whole with
  | some c, _ => c
  | none, some c => (c, residualInfo true plain)
  | none, none => ((Config.residualCode body vals key lim).take b.size, residualInfo false (itemsOfBody (codeSize ch) b))

end Sys2Proof.Machine
end

