-- ==== Sys2Proof/Machine/Loader.lean ====
section
/-! DEFINITION. Loading and unloading code objects (R60 to R71): placement, symbol resolution, relocation, result records. -/

namespace Sys2Proof.Machine

/-! ### Placement (R60, R71) -/

/-- Something to place in a store of 64-byte units: 0 code, 1 data; its unit count, its alignment in bytes, and its section or
symbol index. -/
structure Item where
  store : Nat
  units : Nat
  align : Nat
  sect  : Nat
  sym   : Nat
deriving DecidableEq, Repr

/-- The units that bytes take. -/
def unitsFor (n : Nat) : Nat := max 1 (ceilDiv n 64)

/-- The parts of a binding record that its body's code depends on, and the body: records of R73 from byte 8 on, then R76. -/
def bodyBytes (o : Object) (r : BindRec) : List Byte :=
  objBytes o.d (r.off + 8) (8 + 16 * r.np) ++
  match sectOfType o.sects 8 with
  | some t => objBytes o.d (t.foff + r.body) (16 * r.nops)
  | none => []

/-- The generic code of a symbol of KIND 3 (R81). -/
def genericOf (o : Object) (y : Sym) : List Byte :=
  match o.recs[y.brec]? with
  | some r => genericCodeOf (bodyBytes o r)
  | none => []

/-- The sections of given types as items of a store. -/
def sectItems (o : Object) (store : Nat) (tys : List Nat) : List Item :=
  o.sects.zipIdx.filterMap fun (x, i) =>
    if tys.contains x.ty then
      some { store := store, units := unitsFor x.msize, align := max 64 (2 ^ x.align), sect := i + 1, sym := 0 }
    else none

/-- The alignment of the generic translation of a symbol (R71): its DISTANCE section's ALIGN, and 64 bytes. -/
def genAlign (o : Object) (y : Sym) : Nat := max 64 (match sectAt o.sects y.sect with | some x => 2 ^ x.align | none => 64)

/-- What a load places (R71): CODE sections, generic translations in symbol order, DATA and CONST sections. -/
def itemsOf (o : Object) : List Item :=
  sectItems o 0 [1] ++
  (o.syms.zipIdx.filterMap fun (y, i) =>
    if y.kind = 3 then
      some { store := 0, units := unitsFor (genericOf o y).length, align := genAlign o y, sect := 0, sym := i }
    else none) ++
  sectItems o 1 [2, 3]

/-- The unit ranges that the objects and templates of a context hold in a store. -/
def storeTaken (c : Ctx) (store : Nat) : List (Nat × Nat) :=
  if store = 0 then c.objs.flatMap (·.code) ++ c.tmpls.map fun t => (t.code, t.units) else c.objs.flatMap (·.data)

/-- Base address and size in units of a store. -/
def storeRange (c : Ctx) (store : Nat) : Nat × Nat :=
  if store = 0 then (c.rcd.cstore, c.rcd.csize) else (c.rcd.dstore, c.rcd.dsize)

/-- Two ranges meet. -/
def rangesMeet (a n b m : Nat) : Bool := decide (a < b + m) && decide (b < a + n)

/-- The spent units of a store. -/
def spentUnits (s : State) (a store : Nat) : List Nat :=
  s.gens.filterMap fun q => if q.1 / 2 ^ 32 = 4 * a + store ∧ 65535 ≤ q.2 then some (q.1 % 2 ^ 32) else none

/-- An item can stand at unit `u`, beside the ranges taken. -/
def itemFits (spent : List Nat) (c : Ctx) (taken : List (Nat × Nat)) (x : Item) (u : Nat) : Bool :=
  let r := storeRange c x.store
  decide (u + x.units ≤ r.2) && (r.1 + 64 * u) % x.align == 0 && !(taken.any fun t => rangesMeet t.1 t.2 u x.units) &&
  (x.store != 0 || !(spent.any fun k => decide (u ≤ k) && decide (k < u + x.units)))

/-- The first aligned unit from `u` on. -/
def alignedFrom (base align u : Nat) : Nat := (ceilDiv (base + 64 * u) align * align - base) / 64

/-- The lowest unit where an item can stand: it is the store's first, or follows something that is taken. -/
def firstUnit (spent : List Nat) (c : Ctx) (taken : List (Nat × Nat)) (x : Item) : Option Nat :=
  let base := (storeRange c x.store).1
  let cand := ((0 :: taken.map fun (t : Nat × Nat) => t.1 + t.2) ++ spent.map (· + 1)).map (alignedFrom base x.align)
  (cand.filter (itemFits spent c taken x)).min?

/-- Items stand at the units given, beside the ranges taken in the code store and the data store. -/
def placesFit (spent : List Nat) (c : Ctx) (t0 t1 : List (Nat × Nat)) (xs : List Item) (us : List Nat) : Bool :=
  match xs, us with
  | [], [] => true
  | x :: xs, u :: us =>
    if x.store = 0 then itemFits spent c t0 x u && placesFit spent c ((u, x.units) :: t0) t1 xs us
    else itemFits [] c t1 x u && placesFit spent c t0 ((u, x.units) :: t1) xs us
  | _, _ => false

/-- The first item that finds no room when each takes the lowest units it can. -/
def noRoom (spent : List Nat) (c : Ctx) (t0 t1 : List (Nat × Nat)) (xs : List Item) : Option Item :=
  match xs with
  | [] => none
  | x :: xs =>
    if x.store = 0 then
      match firstUnit spent c t0 x with
      | some u => noRoom spent c ((u, x.units) :: t0) t1 xs
      | none => some x
    else match firstUnit [] c t1 x with
      | some u => noRoom spent c t0 ((u, x.units) :: t1) xs
      | none => some x

/-- R60: the highest offset at which a STASH section of `n` bytes can stand. -/
def stashPlace (taken : List (Nat × Nat)) (align n : Nat) : Option Nat :=
  let fits := fun o => decide (0x40000 ≤ o) && decide (o + n ≤ 0x60000) && !(taken.any fun (t : Nat × Nat) => rangesMeet t.1 t.2 o n)
  let cand := (0x60000 :: taken.map Prod.fst).filterMap fun e => if n ≤ e then some ((e - n) / 2 ^ align * 2 ^ align) else none
  (cand.filter fits).max?

/-- R60: the STASH sections of an object placed in order, as section index, offset and size; or the section that cannot be. -/
def stashPlaces (taken : List (Nat × Nat)) (xs : List (Sect × Nat)) : Except Nat (List (Nat × Nat × Nat)) :=
  match xs with
  | [] => .ok []
  | (x, i) :: rest =>
    if x.ty ≠ 4 then stashPlaces taken rest
    else match stashPlace taken x.align x.msize with
      | none => .error (i + 1)
      | some o =>
        match stashPlaces ((o, x.msize) :: taken) rest with
        | .ok r => .ok ((i + 1, o, x.msize) :: r)
        | .error e => .error e

/-! ### Symbols (R61, R62, R68) -/

/-- Where the parts of an object stand: section addresses and generic entries by symbol. -/
structure Placed where
  sects : List (Nat × Nat)
  gens  : List (Nat × Nat)
deriving DecidableEq, Repr

/-- The addresses that placements give. -/
def placedAt (c : Ctx) (xs : List Item) (us : List Nat) (st : List (Nat × Nat × Nat)) : Placed :=
  let at' := (xs.zip us).map fun (x, u) => (x, (storeRange c x.store).1 + 64 * u)
  { sects := (at'.filterMap fun (x, a) => if x.sect ≠ 0 then some (x.sect, a) else none) ++ st.map fun q => (q.1, q.2.1)
    gens := at'.filterMap fun (x, a) => if x.sect = 0 then some (x.sym, a) else none }

/-- The template handle of a generic entry (R70). -/
def templateHandle (s : State) (a : Nat) (c : Ctx) (addr : Nat) : Word64 :=
  let u := (addr - c.rcd.cstore) / 64
  n64 (u + a * 2 ^ 30 + genOf s a 0 u * 2 ^ 46 + 2 ^ 62)

/-- What a symbol's name stands for. -/
structure Target' where
  addr   : Word64
  handle : Option Word64
  /-- The object whose definition it is; none for the object that is being loaded. -/
  obj    : Option Nat
deriving DecidableEq, Repr

/-- The definition a context has for a name: that of its earliest-loaded object (R65, R68). -/
def definedIn (c : Ctx) (name : List Byte) : Option (Nat × ObjSym) :=
  c.objs.findSome? fun o => (o.syms.find? fun y => y.name == name).map fun y => (o.id, y)

/-- The own definition of symbol `i` of an object. -/
def ownDef (s : State) (a : Nat) (c : Ctx) (p : Placed) (i : Nat) (y : Sym) : Target' :=
  if y.kind = 3 then
    let e := ((p.gens.find? fun g => g.1 == i).map Prod.snd).getD 0
    { addr := n64 e, handle := if y.bind = 0 then none else some (templateHandle s a c e), obj := none }
  else { addr := n64 (((p.sects.find? fun x => x.1 == y.sect).map Prod.snd).getD 0 + y.value), handle := none, obj := none }

/-- A global or weak definition. -/
def Sym.defines (y : Sym) : Bool := y.sect != 0 && y.bind != 0

/-- The definition in an object of a name that one of its own references uses (log entry 68, DEDUCED: R68 asks only that the name
be defined). -/
def ownName (o : Object) (name : Option (List Byte)) : Option (Nat × Sym) :=
  ((o.syms.zipIdx.filter fun (y, i) => i != 0 && y.defines && y.name == name).head?).map fun (y, i) => (i, y)

/-- What symbol `i` of an object stands for: an earlier definition of the context wins (R68). -/
def resolveSym (s : State) (a : Nat) (c : Ctx) (o : Object) (p : Placed) (i : Nat) : Option Target' :=
  match o.syms[i]? with
  | none => none
  | some y =>
    let earlier := if y.sect ≠ 0 ∧ y.bind = 0 then none else definedIn c (y.name.getD [])
    match earlier with
    | some (id, q) => some { addr := q.addr, handle := q.handle, obj := some id }
    | none =>
      if y.sect ≠ 0 then some (ownDef s a c p i y)
      else (ownName o y.name).map fun (j, z) => ownDef s a c p j z

/-- R68: the first symbol whose definition meets one that exists, unless both are weak. Two definitions of one name in the object
itself count as a conflict (log entry 68, DEDUCED). -/
def duplicateSym (c : Ctx) (o : Object) : Option Nat :=
  (List.range o.syms.length).find? fun i =>
    match o.syms[i]? with
    | some y =>
      i != 0 && y.defines &&
      ((match definedIn c (y.name.getD []) with | some (_, q) => !(q.weak && y.bind == 2) | none => false) ||
        ((o.syms.take i).any fun z => z.defines && z.name == y.name && !(z.bind == 2 && y.bind == 2)))
    | none => false

/-! ### Relocation (R62) -/

/-- Bytes replaced in a section's image. -/
def patchAt (bs : List Byte) (site : Nat) (new : List Byte) : List Byte := bs.take site ++ new ++ bs.drop (site + new.length)

/-- The image of a section with one relocation applied; `base` is its address. None where a displacement is odd or out of
range, or KIND 5 names no template. -/
def applyReloc (base : Nat) (t : Target') (r : Reloc) (bs : List Byte) : Option (List Byte) :=
  let v := wrap 64 ((t.addr.toNat : Int) + r.add)
  let b := fun (k n : Nat) => BitVec.ofNat 8 (n / 2 ^ (8 * k))
  let imm := fun n => patchAt bs (r.site + 4) [b 2 n, b 3 n, b 0 n, b 1 n]
  match r.kind with
  | 1 => some (imm v)
  | 2 => some (imm (v / 2 ^ 32))
  | 3 =>
    let dist := (t.addr.toNat : Int) + r.add - ((base + r.site : Nat) : Int)
    let d := dist / 2
    if dist % 2 ≠ 0 ∨ d < -(2 ^ 23) ∨ 2 ^ 23 ≤ d then none
    else
      let n := wrap 24 d
      some (patchAt bs r.site [b 2 n, (bs[r.site + 1]?).getD 0, b 0 n, b 1 n])
  | 4 => some (patchAt bs r.site (leBytes 8 v))
  | _ => t.handle.map fun h => patchAt bs r.site (leBytes 8 h.toNat)

/-- The bytes a section occupies when placed, before relocation (R59). -/
def imageOf (o : Object) (x : Sect) : List Byte := objBytes o.d x.foff x.fsize ++ List.replicate (x.msize - x.fsize) 0

/-- The image of section `i` with the relocations of that section applied in order, or the symbol of the one that fails. -/
def relocated (tgt : Nat → Option Target') (base i : Nat) (rs : List Reloc) (bs : List Byte) : Except Nat (List Byte) :=
  match rs with
  | [] => .ok bs
  | r :: rest =>
    if r.ssect ≠ i then relocated tgt base i rest bs
    else match (tgt r.sym).bind fun t => applyReloc base t r bs with
      | some bs => relocated tgt base i rest bs
      | none => .error r.sym

/-- The images of all placed sections with their addresses, or the symbol of a relocation that fails. -/
def imagesOf (o : Object) (p : Placed) (tgt : Nat → Option Target') (xs : List (Nat × Nat)) : Except Nat (List (Nat × List Byte)) :=
  match xs with
  | [] => .ok []
  | (i, base) :: rest =>
    match sectAt o.sects i with
    | none => imagesOf o p tgt rest
    | some x =>
      if x.ty = 4 then imagesOf o p tgt rest
      else match relocated tgt base i o.rels (imageOf o x), imagesOf o p tgt rest with
        | .ok bs, .ok r => .ok ((base, bs) :: r)
        | .error e, _ => .error e
        | _, .error e => .error e

/-! ### A load (R64 to R68, R70) -/

/-- Bytes written for a context, each chunk after the stamps so far; the last write stamp comes back. Bytes without a
translation are not written (log entry 40, DESIGN CHOICE). -/
def placeBytes (w : Who) (need : Need) (fuel clock va : Nat) (bs : List Byte) (s : State) : Nat × State :=
  match fuel with
  | 0 => (clock, s)
  | k + 1 =>
    if bs.isEmpty then (clock, s)
    else
      let m := min bs.length (64 - va % 64)
      match resolve s w need (n64 va) with
      | .go p =>
        let r := stampWrite clock p m (noteRemoteBy w.cell w.asid p s)
        placeBytes w need k r.1 (va + m) (bs.drop m) (if recordPlace p then storeBytes w.asid p (bs.take m) r.2 else r.2)
      | _ => placeBytes w need k clock (va + m) (bs.drop m) s

/-- Several images written. -/
def placeAll (w : Who) (need : Need) (l : List (Nat × List Byte)) (r : Nat × State) : Nat × State :=
  l.foldl (fun r q => placeBytes w need (q.2.length / 64 + 2) r.1 q.1 q.2 r.2) r

/-- A result record (R64). -/
def resultBytes (status index seq id : Nat) : List Byte := leBytes 24 (packFields [(0, 4, status), (4, 4, index), (8, 8, seq), (16, 8, id)])

/-- A load or unload ends: its record is written last, past everything that has been seen, and its packet is done (R65, R67). A
RESADDR that is not 8-byte aligned gets no record (log entry 40, DESIGN CHOICE). -/
def endLoad (a : Nat) (w : Who) (p : Packet) (req : Nat) (status index id : Nat) (r : Nat × State) : State :=
  let seq := match ctxAt r.2 a with | some c => c.loads + 1 | none => 0
  let s := modCtx a (fun c => { c with loads := c.loads + 1 }) r.2
  let at' := dField req 16 8
  let s := if at' % 8 = 0 then (placeBytes w .write 3 (max r.1 (lastClock s)) at' (resultBytes status index seq id) s).2 else s
  packetDone a (some p.id) s

/-- The export list (R64): one entry for each global or weak symbol. -/
def exportsOf (o : Object) (tgt : Nat → Option Target') : List Byte :=
  o.syms.zipIdx.flatMap fun (y, i) =>
    if i = 0 ∨ y.bind = 0 then []
    else match tgt i with
      | some t => leBytes 16 (packFields [(0, 4, i), (8, 8, (t.handle.getD t.addr).toNat)])
      | none => []

/-- How many symbols the export list names. -/
def exportCount (o : Object) : Nat := (o.syms.zipIdx.filter fun (y, i) => i != 0 && y.bind != 0).length

/-- The symbols of an object that stand for something: every definition and every reference but entry 0. -/
def unresolvedSym (s : State) (a : Nat) (c : Ctx) (o : Object) (p : Placed) : Option Nat :=
  (List.range o.syms.length).find? fun i => i != 0 && (resolveSym s a c o p i).isNone

/-- The templates that a load makes (R70, R81). -/
def newTemplates (s : State) (a : Nat) (c : Ctx) (o : Object) (p : Placed) (id : Nat) : List Template :=
  o.syms.zipIdx.filterMap fun (y, i) =>
    match o.recs[y.brec]?, p.gens.find? fun g => g.1 == i with
    | some r, some (_, e) =>
      let u := (e - c.rcd.cstore) / 64
      let n := (genericOf o y).length
      if y.kind = 3 then
        some { off := u, gen := genOf s a 0 u, obj := id, code := u, units := unitsFor n, bytes := n, body := bodyBytes o r }
      else none
    | _, _ => none

/-- The record of a loaded object. -/
def newObj (s : State) (a : Nat) (c : Ctx) (o : Object) (p : Placed) (xs : List Item) (us : List Nat) (st : List (Nat × Nat × Nat))
    (id : Nat) : Obj :=
  let ranges := fun k => (xs.zip us).filterMap fun (x, u) => if x.store = k ∧ x.sect ≠ 0 then some (u, x.units) else none
  { id := id, code := ranges 0, data := ranges 1, stash := st.map fun q => (q.2.1, q.2.2)
    syms := o.syms.zipIdx.filterMap fun (y, i) =>
      if i ≠ 0 ∧ y.defines then
        let d := ownDef s a c p i y
        some { name := y.name.getD [], weak := y.bind == 2, addr := d.addr, handle := d.handle }
      else none
    deps := (o.syms.zipIdx.filterMap fun (_, i) =>
      if o.rels.any (fun r => r.sym == i) ∨ ((o.syms[i]?).any fun y => y.sect == 0) then (resolveSym s a c o p i).bind (·.obj)
      else none).eraseDups }

/-- A load takes effect at the places chosen. -/
def commitLoad (a : Nat) (c : Ctx) (w : Who) (pk : Packet) (req : Nat) (o : Object) (xs : List Item) (us : List Nat)
    (st : List (Nat × Nat × Nat)) (s : State) : State :=
  let p := placedAt c xs us st
  let tgt := resolveSym s a c o p
  match unresolvedSym s a c o p, imagesOf o p tgt p.sects with
  | some i, _ => endLoad a w pk req 4 i 0 (0, s)
  | none, .error y => endLoad a w pk req 1 y 0 (0, s)
  | none, .ok ims =>
    let id := c.loads + 1
    let gens := p.gens.map fun g => (g.2, match o.syms[g.1]? with | some y => genericOf o y | none => [])
    let obj := newObj s a c o p xs us st id
    let ts := newTemplates s a c o p id
    let r := placeAll w .read (ims ++ gens) (0, modCtx a (fun c => { c with objs := c.objs ++ [obj], tmpls := c.tmpls ++ ts }) s)
    let r := placeAll w .write [(dField req 24 8, exportsOf o tgt)] r
    endLoad a w pk req 0 0 id r

/-- A load of an object that reads well (R60, R64, R66, R68, R71); `places` are the loader's choices of units. The spec does not
say which status is reported when a load fails in several ways: here the order is DUPLICATE_SYMBOL, EXPCAP, the stash, the stores,
UNRESOLVED, the relocations (log entry 40, DESIGN CHOICE). `seen` is the state once the object has been read. -/
def placeObject (a : Nat) (c : Ctx) (w : Who) (pk : Packet) (req : Nat) (o : Object) (places : List Nat) (s seen : State) : State :=
  match duplicateSym c o with
  | some i => endLoad a w pk req 3 i 0 (0, seen)
  | none =>
    if dField req 32 4 < exportCount o then endLoad a w pk req 6 0 0 (0, seen)
    else match stashPlaces (c.objs.flatMap (·.stash)) o.sects.zipIdx with
      | .error i => endLoad a w pk req 6 i 0 (0, seen)
      | .ok st =>
        let spent := spentUnits s a 0
        let xs := itemsOf o
        let t0 := storeTaken c 0
        let t1 := storeTaken c 1
        if placesFit spent c t0 t1 xs places then commitLoad a c w pk req o xs places st seen
        else match noRoom spent c t0 t1 xs with
          | some x => endLoad a w pk req 6 (x.sect + x.sym) 0 (0, seen)
          | none => s

/-- The oldest packet of a context that is a LOAD or UNLOAD (R65). -/
def loadFirst (c : Ctx) (k : Nat) : Bool := c.packets.all fun p => (p.ty != 3 && p.ty != 4) || decide (k ≤ p.id)

/-- The request block of a packet (R64), where it can be read. -/
def loadRequest (s : State) (w : Who) (p : Packet) : Option Nat := (readVirt s w 2 p.ptr.toNat 40).map leNat

/-- R64, R89: a LOADER core performs LOAD packet `k`. An object that cannot be read, a misaligned EXPADDR and nonzero reserved
bytes end the load with BAD_FORMAT and INDEX 0 (log entry 40, DESIGN CHOICE). -/
def execLoad (k : Nat) (places : List Nat) (s : State) : Res :=
  event (fun s =>
    match packetAt s k 3, workCore s 3 with
    | some (a, c, p), some core =>
      let w := ctxWho a c.rcd.priv core
      if loadFirst c k = false then s
      else match loadRequest s w p with
        | none => packetDone a (some k) s
        | some req =>
          let len := dField req 8 8
          let asked := noteVirt w (lastClock s) 2 p.ptr.toNat 40 s
          if dField req 24 8 % 8 ≠ 0 ∨ dField req 36 4 ≠ 0 then endLoad a w p req 1 0 0 (0, asked)
          else match readVirt s w (len / 64 + 2) (dField req 0 8) len with
            | none => endLoad a w p req 1 0 0 (0, asked)
            | some bs =>
              let seen := noteVirt w (lastClock s) (len / 64 + 2) (dField req 0 8) len asked
              match readObject (leNat bs) len with
              | .error (st, i) => endLoad a w p req st i 0 (0, seen)
              | .ok o => placeObject a c w p req o places s seen
    | _, _ => s) s

/-! ### Unloading (R69, R71) -/

/-- The templates of an object are no longer loaded, and the residuals made from them are freed (R69). -/
def dropTemplates (a : Nat) (ts : List Template) (s : State) : State :=
  let s := ts.foldl (fun s t =>
    let mine := match ctxAt s a with | some c => c.resids.filter fun (r : Residual) => r.tmpl == t.off | none => []
    advanceGens a 0 t.code t.units (mine.foldl (fun s r => freeResidual a r s) s)) s
  modCtx a (fun c => { c with tmpls := c.tmpls.filter fun t => !ts.contains t }) s

/-- R69, R89: a LOADER core performs UNLOAD packet `k`. Its record goes to the request's RESADDR, which R64 has 0 like every other
field but OBJADDR; the other fields are not looked at (log entry 68, DEDUCED: an unload has a result record, and no other field
says where). -/
def execUnload (k : Nat) (s : State) : Res :=
  event (fun s =>
    match packetAt s k 4, workCore s 3 with
    | some (a, c, p), some core =>
      let w := ctxWho a c.rcd.priv core
      if loadFirst c k = false then s
      else match loadRequest s w p with
        | none => packetDone a (some k) s
        | some req =>
          let id := dField req 0 8
          let s := noteVirt w (lastClock s) 2 p.ptr.toNat 40 s
          if (c.objs.any fun o => o.id == id) = false then endLoad a w p req 8 0 id (0, s)
          else if c.objs.any fun o => o.id != id && o.deps.contains id then endLoad a w p req 7 0 id (0, s)
          else
            let s := dropTemplates a (c.tmpls.filter fun t => t.obj == id) s
            let s := modCtx a (fun c => { c with objs := c.objs.filter fun o => o.id != id }) s
            endLoad a w p req 0 0 id (0, s)
    | _, _ => s) s

end Sys2Proof.Machine
end

