-- ==== Sys2Proof/Machine/Specialise.lean ====
section
/-! DEFINITION. The specialiser (R199 to R206, R278): it serves one SPEC after another; what a residual holds is in Fold.lean and
Translate.lean, and depends on what R205 names alone. -/

namespace Sys2Proof.Machine

/-- The oldest SPEC on its way (R199). -/
def nextSpec (s : State) : Option (Nat × Req × SReg × Word64 × Word64 × Word64) :=
  s.net.findSome? fun m =>
    match m.2 with
    | .spec q d t b l => some (m.1, q, d, t, b, l)
    | _ => none

/-- What reading memory for a SPEC gives: bytes, or none for bytes that cannot be read, or a page that the page service must
look at first (R204); no address while the cell that holds the bytes runs another context. -/
inductive SpecRead where
  | bytes (l : List (Option Byte))
  | absent (va : Option Word64)
deriving DecidableEq, Repr

/-- The verdict that the page service has given a SPEC on an address. -/
def specGaveUp (s : State) (id : Nat) (va : Word64) : Bool :=
  s.pages.any fun p => p.2.kind == 5 && p.2.item == id && p.2.va == va && p.2.done == some false

/-- Memory as the specialiser reads it for a context. -/
def specRead (s : State) (w : Who) (id fuel va n : Nat) : SpecRead :=
  match fuel with
  | 0 => .bytes []
  | k + 1 =>
    if n = 0 then .bytes []
    else
      let m := min n (64 - va % 64)
      let rest := specRead s w id k (va + m) (n - m)
      let join := fun (l : List (Option Byte)) => match rest with | .bytes r => SpecRead.bytes (l ++ r) | .absent v => .absent v
      match resolve s w .read (n64 va) with
      | .go p => join (if poisoned s p m then List.replicate m none else (fetchBytes w.asid p m s).1.map some)
      | .trap _ => join (List.replicate m none)
      | .page => if specGaveUp s id (n64 va) then join (List.replicate m none) else .absent (some (n64 va))
      | .away _ => .absent none

/-- Several ranges read: base and length. -/
def specReads (s : State) (w : Who) (id : Nat) (l : List (Nat × Nat)) : Except (Option Word64) (List (List (Option Byte))) :=
  match l with
  | [] => .ok []
  | (va, n) :: rest =>
    match specRead s w id (n / 64 + 2) va n, specReads s w id rest with
    | .absent v, _ => .error v
    | .bytes _, .error v => .error v
    | .bytes b, .ok r => .ok (b :: r)

/-- The latest write stamp of the lines of a range, as far as they translate (R312). -/
def specStamp (s : State) (w : Who) (fuel va n : Nat) : Nat :=
  match fuel with
  | 0 => 0
  | k + 1 =>
    if n = 0 then 0
    else
      let m := min n (64 - va % 64)
      let t := match resolve s w .read (n64 va) with
        | .go p => (match p.loc with | some l => (stamps s l).1 | none => 0)
        | _ => 0
      max t (specStamp s w k (va + m) (n - m))

/-- The place of a SPEC that has read ranges: after the SPEC, and after every store it has seen (R312). -/
def specClock (s : State) (w : Who) (q : Req) (l : List (Nat × Nat)) : Nat :=
  (l.map fun r => specStamp s w (r.2 / 64 + 2) r.1 r.2).foldl max q.clock

/-- What the specialiser's reads of ranges leave, at the place `clock` (R200). -/
def specSeen (w : Who) (clock : Nat) (l : List (Nat × Nat)) (s : State) : State :=
  l.foldl (fun s r => noteVirt w clock (r.2 / 64 + 2) r.1 r.2 s) s

/-- The specialiser waits for the page service, or for a cell. -/
def specWaits (q : Req) (id : Nat) (va : Option Word64) (s : State) : State :=
  match va with
  | none => s
  | some va =>
    if s.pages.any fun p => p.2.kind == 5 && p.2.item == id && p.2.done.isNone then s
    else askPage (pageReqOf q.asid va 5 q.gid q.epoch id .read) s

/-! ### The template (R73, R74) -/

/-- The parameter entries of a template, as numbers. -/
def paramsOf (t : Template) : List Nat :=
  let b := leNat (t.body.take 264)
  entriesOf b 8 16 (dField b 4 1)

/-- The entries of the parameters that have a word in the early-value block. -/
def earlyParams (t : Template) : List (Nat × Nat) := (paramsOf t).zipIdx.filterMap fun (e, i) => if dField e 0 1 = 0 then none else some (i, e)

/-- The early value of parameter `j` (R74). -/
def earlyValue (es : List (Nat × Nat)) (vals : List Word64) (j : Nat) : Nat :=
  (((es.zip vals).find? fun x => x.1.1 == j).map fun x => x.2.toNat).getD 0

/-- The early regions: base and length of each (R74). A length is exact, and is not cut to 64 bits. -/
def regionsOf (es : List (Nat × Nat)) (vals : List Word64) : List (Nat × Nat) :=
  (es.zip vals).filterMap fun ((_, e), v) =>
    if dField e 0 1 = 2 then
      some (v.toNat, dField e 8 4 + dField e 4 4 * (if dField e 2 1 = 0xFF then 0 else earlyValue es vals (dField e 2 1)))
    else none

/-- A record of a body (R76): NATIVE, HDR, D1, D2, D3. -/
def recBytes (native hdr d1 d2 d3 : Nat) : List Byte :=
  leBytes 16 (packFields [(0, 8, native), (8, 2, hdr), (10, 2, d1), (12, 2, d2), (14, 2, d3)])

/-- A native operation of a body, its register fields zero: with the kind of its encoding and whether it carries U. -/
def opBytes (i : Instr) (u : Bool) (d1 d2 d3 : Nat) : List Byte :=
  match encodeValue i with
  | some (n, v) => recBytes v ((n - 2) * 2 ^ 14 + u.toNat * 2 ^ 13) d1 d2 d3
  | none => []

/-- A marker of a body. -/
def markBytes (code native d1 : Nat) : List Byte := recBytes native (3 * 2 ^ 14 + code * 2 ^ 8) d1 0 0

/-- A parameter entry (R73). -/
def paramBytes (mark lenp scale : Nat) : List Byte :=
  leBytes 16 (packFields [(0, 1, mark), (1, 1, 3), (2, 1, lenp), (4, 4, scale)])

/-- The template `dot` (R75, R278): 18 operations, three parameters, a frame of 8 bytes. -/
def dotBody : List Byte :=
  leBytes 8 (packFields [(0, 4, 18), (4, 1, 3), (6, 2, 8)]) ++
  paramBytes 1 0xFF 0 ++ paramBytes 2 0 1 ++ paramBytes 0 0xFF 0 ++
  markBytes 6 0 0 ++ markBytes 6 1 0 ++ markBytes 6 2 0 ++ markBytes 7 0 0 ++ opBytes (.li 0 0) false 0 0 0 ++
  opBytes (.stOff 0 0 .b64 0) false 2 0 1 ++ markBytes 2 0 6 ++
  opBytes (.add 0 0 0) false 6 1 0 ++ opBytes (.ldOff 0 0 .s8 0) false 1 0 0 ++ opBytes (.add 0 0 0) false 7 3 0 ++
  opBytes (.ldOff 0 0 .s8 0) true 1 0 0 ++ opBytes (.mul 0 0 0) false 3 1 0 ++ opBytes (.ldOff 0 0 .b64 0) false 9 0 0 ++
  opBytes (.add 0 0 0) false 1 2 0 ++ opBytes (.stOff 0 0 .b64 0) false 11 0 1 ++ markBytes 5 0 0 ++
  opBytes (.ldOff 0 0 .b64 0) false 13 0 0 ++ markBytes 8 0 1

/-- The residual of R278. -/
def dotResidual : List Byte :=
  [(.ldOff 5 4 .s8 0 : Instr), .add 5 5 5, .ldOff 6 4 .s8 2, .sub 5 5 6, .ldOff 7 4 .s8 3, .addiS 8 0 3, .madd 4 7 8 5, .ret].flatMap
    fun i => granuleBytes (encode i)

/-- Whether a SPEC is the one of R278: its template is `dot`, n = 4, w = (2, 0, −1, 3), SPECLIM at reset. -/
def isDotCase (body : List Byte) (vals : List Word64) (regs : List (List Byte)) (lim : Word64) : Bool :=
  body == dotBody && vals.head? == some 4 && regs == [[2, 0, 255, 3]] && lim == speclimReset

/-! ### The residual (R202 to R206) -/

/-- Early regions as the free choices see them: bytes that cannot be read stand apart from every byte. -/
def regionKey (l : List (Option Byte)) : List (List Byte) := [l.map (·.getD 0), l.map fun b => if b.isSome then 1 else 0]

/-- The code of a residual and its bits [47:32] for RINFO (R208). -/
def residualFor (body : List Byte) (vals : List Word64) (bases : List Nat) (regs : List (List (Option Byte))) (lim : Word64) :
    List Byte × Nat :=
  if isDotCase body vals (regs.map fun l => l.map (·.getD 0)) lim ∧ regs.all (fun l => l.all (·.isSome)) then (dotResidual, 0)
  else residualCodeOf body vals (bases.zip regs) (regs.flatMap regionKey) lim

/-- The unit ranges of a context's residual store that are live. -/
def residualsTaken (c : Ctx) : List (Nat × Nat) := c.resids.map fun r => (r.off, r.units)

/-- A slot of the context still holds a granule that it fetched from units of the residual store (R207). -/
def unitsFetched (s : State) (a : Nat) (c : Ctx) (u n : Nat) : Bool :=
  (s.slots.map Prod.snd ++ s.saves.map Prod.snd).any fun x =>
    x.ctl.asid == a && x.ctl.buf.any fun b => decide (c.rcd.rva + 64 * u ≤ b.addr) && decide (b.addr < c.rcd.rva + 64 * (u + n))

/-- A residual of `n` units can stand at unit `u`. -/
def residualFits (spent : List Nat) (c : Ctx) (n u : Nat) : Bool :=
  decide (u + n ≤ c.rcd.rsize) && !((residualsTaken c).any fun t => rangesMeet t.1 t.2 u n) &&
  !(spent.any fun k => decide (u ≤ k) && decide (k < u + n))

/-- Some units can hold a residual of `n` units. -/
def residualRoom (spent : List Nat) (c : Ctx) (n : Nat) : Bool :=
  ((0 :: ((residualsTaken c).map fun (t : Nat × Nat) => t.1 + t.2)) ++ spent.map (· + 1)).any (residualFits spent c n)

/-- A SPEC is answered: its result is on its way to sD, or to where the slot is (R200, R209, R378). -/
def answerSpec (id : Nat) (q : Req) (d : SReg) (v : Word64) (h : Option Word64) (clock : Nat) (s : State) : State :=
  let s := took id { s with pages := s.pages.filter fun p => !(p.2.kind == 5 && p.2.item == id) }
  send (.reply { gid := q.gid, epoch := q.epoch, writes := [.s d v], clock := clock, handle := h }) s

/-- The loaded template that a handle names (R201). -/
def templateOf (s : State) (a : Nat) (h : Word64) : Option (Ctx × Template) :=
  match ctxAt s a with
  | none => none
  | some c =>
    if bit h 63 ∨ hAsid h ≠ a ∨ hTmpl h = false then none
    else (c.tmpls.find? fun t => t.off == hOff h && t.gen == hGen h).map fun t => (c, t)

/-- A residual is written at unit `u` of the store and its handle returned (R200, R206). -/
def makeResidual (id : Nat) (q : Req) (d : SReg) (w : Who) (c : Ctx) (t : Template) (u : Nat) (code : List Byte × Nat) (clock : Nat)
    (s : State) : State :=
  let n := unitsFor code.1.length
  let gen := genOf s q.asid 1 u
  let r : Residual := { off := u, units := n, gen := gen, bytes := code.1.length, info := code.2, tmpl := t.off }
  let p := placeBytes w .read (code.1.length / 64 + 2) clock (c.rcd.rva + 64 * u) code.1 s
  let s := modCtx q.asid (fun c => { c with resids := c.resids ++ [r] }) p.2
  let h := n64 (u + q.asid * 2 ^ 30 + gen * 2 ^ 46)
  answerSpec id q d h (some h) (max clock p.1) s

/-- A SPEC whose template is loaded, with its early values read at `b`. -/
def specialise (id : Nat) (q : Req) (d : SReg) (w : Who) (c : Ctx) (t : Template) (b : Nat) (vals : List Word64) (lim : Word64)
    (units : Nat) (clock : Nat) (s : State) : State :=
  let ranges := regionsOf (earlyParams t) vals
  match specReads s w id ranges with
  | .error va => specWaits q id va s
  | .ok regs =>
    let code := residualFor t.body vals (ranges.map Prod.fst) regs lim
    let n := unitsFor code.1.length
    let spent := spentUnits s q.asid 1
    let clock := max clock (specClock s w q ranges)
    let seen := specSeen w clock ((b, 8 * vals.length) :: ranges) s
    if residualRoom spent c n = false then answerSpec id q d (w64 (-3)) none clock seen
    else if residualFits spent c n units = true ∧ unitsFetched s q.asid c units n = false then makeResidual id q d w c t units code clock seen
    else s

/-- The 64-bit words of bytes, where every byte could be read. -/
def specWords (n : Nat) (l : List (Option Byte)) : Option (List Word64) :=
  if l.all (·.isSome) then
    let v := leNat (l.map (·.getD 0))
    some ((List.range n).map fun k => n64 (dField v (8 * k) 8))
  else none

/-- R202, R89: a SPECIALISER core serves the oldest SPEC; `units` is the unit offset it takes. It reads with the access of the slot
that asked (log entry 60, DESIGN CHOICE). A bad template is reported before a bad block (R201; log entry 79, DESIGN CHOICE). -/
def execSpecialise (units : Nat) (s : State) : Res :=
  event (fun s =>
    if (workCore s 2).isNone then s
    else match nextSpec s with
    | none => s
    | some (id, q, d, h, b, lim) =>
      match templateOf s q.asid h with
      | none => answerSpec id q d (w64 (-1)) none q.clock s
      | some (c, t) =>
        let w := ctxWho q.asid q.priv (coreOf q.gid)
        let n := (earlyParams t).length
        let clock := specClock s w q [(b.toNat, 8 * n)]
        if b.toNat % 8 ≠ 0 then answerSpec id q d (w64 (-2)) none q.clock s
        else match specReads s w id [(b.toNat, 8 * n)] with
          | .error va => specWaits q id va s
          | .ok l =>
            match specWords n (l.flatten) with
            | none => answerSpec id q d (w64 (-2)) none clock (specSeen w clock [(b.toNat, 8 * n)] s)
            | some vals => specialise id q d w c t b.toNat vals lim units clock s) s

end Sys2Proof.Machine
end

