-- ==== Sys2Proof/Machine/System.lean ====
section
/-! DEFINITION. Around the device: link agent and host (R316, R322, R323, R395), boot (R403, R404), Leapfrog hand-over (R405),
sensors, speed and power (R24 to R26, R406, R409), firmware updates (R407) and soft errors (R408). -/

namespace Sys2Proof.Machine

/-! ### Accesses from outside (R316, R323, R395) -/

/-- Whether every byte of a range is memory of this device (R20). -/
def isLocal (pa n : Nat) : Bool :=
  match regionOf pa, regionOf (pa + (n - 1)) with
  | .hbm _, .hbm _ | .lpddr, .lpddr => true
  | _, _ => false

/-- An access from outside that reads nothing poisoned (R408). -/
def readsWell (s : State) (pa n : Nat) : Bool :=
  isLocal pa n && !((List.range (n / 128 + 2)).any fun k => decide (pa / 128 + k ≤ (pa + (n - 1)) / 128) && s.mem.poison.contains (pa / 128 + k))

/-- A request of the link agent for a context. -/
def agentReq (pa asid : Nat) (s : State) : Req :=
  { gid := 0, epoch := 0, blk := 0, asid := asid, priv := false, va := n64 pa, clock := s.linkClk }

/-- A peer's atomic or routine on `n` bytes, performed by the link agent at the home (R325): its two results go back, or nothing where it
fails. -/
def agentAtomic (pa n asid : Nat) (op : AtomOp) (s : State) : State :=
  if isLocal pa n then
    match atomicAt (agentReq pa asid s) (.mem pa) op s with
    | .ok (a, b, ts, s) => { s with linkClk := max s.linkClk ts, port := [a.toNat, b.toNat] }
    | .error _ => { s with port := [] }
  else s

/-- Whether a word is one that slots of peers can hold (R325, R343): aligned, and memory of this device. -/
def agentWord (pa : Nat) : Bool := pa % 8 == 0 && isLocal pa 8

/-- LRW of a peer's slot: the value that it takes goes back; where it waits or its word fails, nothing does (R343, R344). -/
def agentLrw (pa id : Nat) (s : State) : State :=
  if agentWord pa then
    match lrwStep (agentReq pa 0 s) (peerName id) (.mem pa) s with
    | .ok (some v, s) => { s with linkClk := max s.linkClk v.2, port := [v.1.toNat] }
    | .ok (none, s) => { s with port := [] }
    | .error _ => { s with port := [] }
  else s

/-- SCH and SCHX of a peer's slot, which has to hold the word; the value that it stores, if any (R343, R344). -/
def agentPass (pa id : Nat) (v : Option Word64) (s : State) : State :=
  if agentWord pa ∧ (resvOf s pa).holder = some (peerName id) ∧ atomicFault s (n64 pa) (.mem pa) = none then
    match v with
    | some v =>
      let s := agentWrite 2 pa (leBytes 8 v.toNat) s
      handOver pa v s.linkClk s
    | none =>
      let r := agentRead 2 pa 8 s
      handOver pa (n64 (leNat r.1)) r.2.linkClk r.2
  else s

/-- A peer's slot leaves the FIFOs here, and where it has ended also passes on what it holds (R345). -/
def agentLeave (id : Nat) (ended : Bool) (s : State) : State :=
  if ended then leaveResvAs (peerName id) s.linkClk s else leaveFifos (peerName id) s

/-- A peer grants a word of its memory, which then holds the value granted, to the first slot that waits for it here (R344). -/
def agentGrant (pa : Nat) (v : Word64) (s : State) : State :=
  match tfind s.mem.resv pa with
  | some r =>
    if queueAway pa ∧ r.holder = none ∧ r.fifo ≠ [] then
      passOn pa r v s.linkClk { s with mem := { s.mem with ext := putExts s.mem.ext pa (leBytes 8 v.toNat) } }
    else s
  | none => s

/-- What an access from outside does beside plain reads and writes (R325, R343). -/
def agentOther (acc : LinkAccess) (s : State) : State :=
  match acc with
  | .atomic pa o t b => agentAtomic pa (t.width / 8) 0 (.amo o t b) s
  | .cas pa t e n => agentAtomic pa (t.width / 8) 0 (.cas t e n) s
  | .cas2 pa lo hi nlo nhi => agentAtomic pa 16 0 (.cas2 lo hi nlo nhi) s
  | .routine pa asid id g => agentAtomic pa 1 asid (.routine id g) s
  | .lrw pa id => agentLrw pa id s
  | .sch pa id v => agentPass pa id (some v) s
  | .schx pa id => agentPass pa id none s
  | .leave id ended => agentLeave id ended s
  | .grant pa v => agentGrant pa v s
  | .read .. | .write .. => s

/-- R316: an access that comes over the pod links is performed at its home; one outside memory fails at its sender (R392). -/
def execLinkAgentAccess (acc : LinkAccess) (s : State) : Res :=
  event (fun s =>
    match acc with
    | .read pa n =>
      if readsWell s pa n then
        let r := agentRead (n / 128 + 2) pa n s
        { r.2 with port := r.1.map (·.toNat) }
      else { s with port := [] }
    | .write pa bs => if isLocal pa bs.length then agentWrite (bs.length / 128 + 2) pa bs s else s
    | acc => agentOther acc s) s

/-- QFAULT of a virtual function (R395). -/
def qfaultValue (s : State) (f : Nat) : Nat :=
  match ctxOfVf s f with
  | some c => (c.2.queues.map fun q => if q.2.fault then 2 ^ (q.1 % 64) else 0).sum
  | none => 0

/-- A byte of a virtual function's page as the host reads it (R395). -/
def vfByte (s : State) (f off : Nat) : Nat :=
  let v := if 0x200 ≤ off ∧ off < 0x400 then (qregValue s f ((off - 0x200) / 8)).toNat
    else if 0x408 ≤ off ∧ off < 0x410 then qfaultValue s f else 0
  v / 2 ^ (8 * (off % 8)) % 256

/-- The host writes in a virtual function's page (R395, R396). -/
def vfWrite (f off : Nat) (bs : List Byte) (s : State) : State :=
  if off < 0x200 then hostWake f (off / 8) s
  else if 0x200 ≤ off ∧ off < 0x400 ∧ off % 8 = 0 ∧ bs.length = 8 then writeQreg f ((off - 0x200) / 8) (n64 (leNat bs)) s
  else if off = 0x400 ∧ bs.length = 8 then clearQueue f (field (leNat bs) 0 6) ((leNat bs).testBit 8) s
  else s

/-- Memory as the host sees it: not the lines that stashes hold written (R323). -/
def hostRead (fuel pa n : Nat) (s : State) : List Byte × State :=
  match fuel with
  | 0 => ([], s)
  | k + 1 =>
    if n = 0 then ([], s)
    else
      let m := pieceLen pa n
      let ts := max (s.linkClk + 1) (stamps s pa).1
      let s' := setStamps pa ((stamps s pa).1, max (stamps s pa).2 ts) { s with linkClk := ts }
      let r := hostRead k (pa + m) (n - m) s'
      (getBytes s.mem.bytes pa m ++ r.1, r.2)

/-- R323, R395: a host access to memory or to a virtual function's page. -/
def execHostAccess (acc : LinkAccess) (s : State) : Res :=
  event (fun s =>
    match acc with
    | .read pa n =>
      match regionOf pa with
      | .vfPage f off => { s with port := (List.range n).map fun k => vfByte s f (off + k) }
      | _ =>
        if readsWell s pa n then
          let r := hostRead (n / 128 + 2) pa n s
          { r.2 with port := r.1.map (·.toNat) }
        else { s with port := [] }
    | .write pa bs =>
      match regionOf pa with
      | .vfPage f off => vfWrite f off bs s
      | _ => if isLocal pa bs.length then agentWrite (bs.length / 128 + 2) pa bs s else s
    | acc => agentOther acc s) s

/-! ### Boot (R86, R89, R90, R403, R404) -/

/-- The firmware columns of a table (R86). -/
def columnsOk (l : List Nat) : Bool :=
  l.all (· < 16) && match l with | [_] => true | [a, b] => a != b | _ => false

/-- A role map for `n` firmware cores (R89, R90). -/
def rolesOk (n : Nat) (l : List Nat) : Bool := l.length == n && l.all (· ≤ 4) && [0, 1, 2, 3].all fun r => l.contains r

/-- The reason for which the Anole core refuses a configuration table and an image (R403): 1 the signature, 2 the version, 3 the role
map, 4 the image's digest, 5 the device index or the firmware columns; 0 for none. -/
def refusal (s : State) (t : ConfigTable) (img : FwImage) : Nat :=
  if t.signatureOk = false then 1
  else if t.version < s.boot.fuse then 2
  else if 512 ≤ t.device ∨ columnsOk t.fwColumns = false then 5
  else if rolesOk (16 * t.fwColumns.length) t.roles = false then 3
  else if img.digest ≠ t.digest then 4
  else 0

/-- The machine after a cold reset: what flash, fuses and the Anole log hold stays, and what lies outside the device. -/
def coldReset (s : State) : State :=
  { State.reset with
    boot := { State.reset.boot with flash := s.boot.flash, fuse := s.boot.fuse, log := s.boot.log }
    mem := { State.reset.mem with ext := s.mem.ext }
    agenda := s.agenda, fly := s.fly, copies := s.copies, fresh := s.fresh, time := s.time }

/-- The tested speed code of a cell: fixed at manufacture, 0 to 32 (R23, R24). -/
def testedCode (c : CellKey) : Nat := Config.tested c % 33

/-- The cells once the tested speed codes are loaded: every live entry starts at its tested one (R24, R404 step 6). -/
def speedTable : Tab Cell := (List.range 256).map fun c => (c, { Cell.reset with tested := testedCode c, live := testedCode c })

/-- The image that a cold boot takes: an update that waits in flash where the table names it, otherwise the one that is fetched (R404
step 2, R407; log entry 61, DESIGN CHOICE). -/
def bootImage (s : State) (t : ConfigTable) (img : FwImage) : FwImage :=
  match s.boot.flash with
  | some u => if u.digest = t.digest then u else img
  | none => img

/-- R404: a cold boot with the table and the image that are fetched; a refusal leaves the device unbooted, and its reason is logged
(R403). -/
def execColdBoot (b : BootFetch) (s : State) : Res :=
  event (fun s =>
    let t := b.table
    let img := bootImage s t b.image
    let why := refusal s t img
    let s := coldReset s
    if why = 0 then
      { s with
        cells := speedTable
        boot := { s.boot with
          booted := true, device := t.device, columns := t.fwColumns, roles := t.roles, routes := t.routes
          reach := (t.routes.map Prod.fst).filter (· != t.device), digest := t.digest, bank := 0, image := some img } }
    else logEvent 7 why s) s

/-! ### Firmware (R405, R407) -/

/-- Every old firmware core has reached a quiescent point (R405): no packet, SPEC, page fault or load in progress. -/
def quiescent (s : State) : Bool :=
  (s.pages.all fun p => p.2.done.isSome) && s.ctxs.all fun c => c.2.pending.isNone && c.2.packets.all (·.grid.isSome)

/-- R405 step 1: the new image has passed its checks and lies in the idle bank with its roles; wakes then only set flags. The firmware
columns do not change. -/
def beginHandover (t : ConfigTable) (img : FwImage) (s : State) : State :=
  if refusal s t img ≠ 0 ∨ t.fwColumns ≠ s.boot.columns then s
  else { s with boot := { s.boot with handover := true, idle := some (img, t.roles) } }

/-- R405 steps 2 and 3: at a quiescent point the old image writes the state block, and the new one starts on the same cores from the
other bank with its roles; where it does not accept the block's version, the old one resumes. -/
def endHandover (s : State) : State :=
  match s.boot.idle, s.boot.image with
  | some (new, roles), some old =>
    let s := { s with boot := { s.boot with block := some old.writes, handover := false, idle := none } }
    if new.accepts.contains old.writes then
      logEvent 6 1 { s with boot := { s.boot with bank := 1 - s.boot.bank, image := some new, roles := roles, digest := new.digest } }
    else logEvent 6 0 s
  | _, _ => { s with boot := { s.boot with handover := false } }

/-- R405: a hand-over begins; or, once it has begun, it ends at a quiescent point. -/
def execLeapfrogHandover (t : ConfigTable) (img : FwImage) (finish : Bool) (s : State) : Res :=
  event (fun s =>
    if s.boot.booted = false ∨ s.boot.handover ≠ finish then s
    else if finish = false then beginHandover t img s
    else if quiescent s then endHandover s
    else s) s

/-- R407: an update in the flash pair becomes active later; a failed check leaves the active image in use. -/
def execFirmwareUpdate (image : FwImage) (checkOk : Bool) (s : State) : Res :=
  event (fun s => if checkOk then { s with boot := { s.boot with flash := some image } } else s) s

/-! ### Sensors, speed and power (R24 to R26, R406, R409) -/

/-- A live entry set; it never passes the tested entry (R24). -/
def setLive (c : CellKey) (code : Nat) (s : State) : State := modCell c (fun x => { x with live := min code x.tested }) s

/-- R409: a cell that must run slower does, and the throttling is logged. -/
def throttle (c : CellKey) (s : State) : State :=
  let l := (cellAt s c).live
  if l = 0 then s
  else logEvent 3 c { setLive c (Config.throttledTo s.fresh l % l) s with fresh := s.fresh + 1 }

/-- The power that the rails carry, in µW (R406). -/
def railPower (p : Plant) : Nat := (p.rails.map fun r => r.1 * r.2).sum

/-- R409: above the cap, the Anole core lowers the live code of every cell that runs above the lowest one (log entry 42, DESIGN
CHOICE). -/
def capPower (s : State) : State :=
  if s.boot.cap * 10 ^ 6 < railPower s.boot.plant then (tkeys s.cells).foldl (fun s c => throttle c s) s else s

/-- A cell that nothing holds back may run faster again, up to its tested code (R24, R26; log entry 42, DESIGN CHOICE). -/
def speedUp (s : State) (c : CellKey) : State :=
  let x := cellAt s c
  if 1050 < x.temp ∨ x.tested ≤ x.live then s
  else { setLive c (x.live + Config.throttledTo s.fresh x.live % (x.tested - x.live + 1)) s with fresh := s.fresh + 1 }

/-- R406, R409: what the Anole core does with a sample, temperatures in 0.1 °C. Above 105 °C a cell is throttled, above the cap every
cell is, and at 115 °C the device stops. -/
def takeSample (p : Sample) (s : State) : State :=
  let s := p.temps.foldl (fun s q => if q.1 < 256 then modCell q.1 (fun x => { x with temp := q.2 }) s else s)
    { s with boot := { s.boot with plant := p.plant } }
  let s := p.temps.foldl (fun s q => if q.1 < 256 ∧ 1050 < q.2 then throttle q.1 s else s) s
  let s := if s.boot.cap * 10 ^ 6 < railPower p.plant then capPower s else (tkeys s.cells).foldl speedUp s
  if p.temps.any fun q => decide (q.1 < 256) && decide (1150 ≤ q.2) then
    logEvent 3 1150 { s with boot := { s.boot with stopped := true } } else s

/-- R406, R409: the sensors are sampled. -/
def execSensorSample (p : Sample) (s : State) : Res := event (takeSample p) s

/-- R409: a power cap from 1,200 W to 2,000 W; the next sample is held to it (log entry 42, DESIGN CHOICE). -/
def execSetPowerCap (watts : Nat) (p : Sample) (s : State) : Res :=
  event (fun s => if watts < 1200 ∨ 2000 < watts then s else takeSample p { s with boot := { s.boot with cap := watts } }) s

/-! ### Errors and links (R402, R406, R408) -/

/-- A register of a slot takes a wrong value (R408, log entry 34, DESIGN CHOICE). -/
def upsetRegister (g : SlotKey) (s : State) : State :=
  let k := s.fresh
  let n := Config.upsetAt k
  let v := Config.upset k
  let s := { s with fresh := k + 1 }
  let f5 : Fin 32 := ⟨n / 4 % 32, Nat.mod_lt _ (by decide)⟩
  let f3 : Fin 8 := ⟨n / 4 % 8, Nat.mod_lt _ (by decide)⟩
  match n % 4 with
  | 0 => if f5 = 0 then s else modSlot g (fun x => { x with regs := { x.regs with s := x.regs.s.set f5.val (n64 v) } }) s
  | 1 => if f3 = 0 then s else modSlot g (fun x => { x with regs := { x.regs with p := x.regs.p.set f3.val (v % 2 == 1) } }) s
  | 2 => if f3 = 0 then s else modSlot g (fun x => { x with regs := { x.regs with m := x.regs.m.set f3.val (BitVec.ofNat 256 v) } }) s
  | _ => if f5.val < (slotAt s g).win.size then vPut g f5.val (BitVec.ofNat 2048 v) s else s

/-- An uncorrectable error of a cell's SRAM is counted and logged (R393, R408). -/
def countUe (c : CellKey) (s : State) : State := logEvent 2 c (modCell c (fun x => { x with ue := x.ue + 1 }) s)

/-- R408: an uncorrectable error in a register raises F.PAGE at its slot: at once where the slot runs, at its next turn
otherwise. -/
def registerError (g : SlotKey) (s : State) : State :=
  let x := slotAt s g
  let s := countUe (cellOf g) (upsetRegister g s)
  if x.ctl.gone then s
  else if x.ctl.st = .running then takeTrap g (fPage 2 0) x.ctl.pc s
  else modCtl g (fun c => { c with deferred := match c.deferred with | some q => some q | none => some (fPage 2 0) }) s

/-- An item of operand or accumulator memory of a cell takes a wrong value (R408, log entry 34, DESIGN CHOICE). -/
def upsetItem (c : CellKey) (s : State) : State :=
  let k := s.fresh
  let n := Config.upsetAt k
  let v := Config.upset k
  modCell c (fun x =>
    if n % 2 = 0 then { x with opnd := match tfind x.opnd (n / 2) with | some _ => tput x.opnd (n / 2) (BitVec.ofNat 65536 v) | none => x.opnd }
    else { x with tile := match tfind x.tile (n / 2) with | some _ => tput x.tile (n / 2) (BitVec.ofNat 131072 v) | none => x.tile })
    { s with fresh := k + 1 }

/-- The line of a location is poisoned (R408). -/
def poisonLine (l : Nat) (s : State) : State := { s with mem := { s.mem with poison := sadd s.mem.poison (l / 128) } }

/-- R408: a soft error. One of a slice or of a stash is also counted in its cell (R393). -/
def execSoftError (e : SoftErr) (s : State) : Res :=
  event (fun s =>
    match e with
    | .corrected c => if c < 256 then logEvent 1 c (modCell c (fun x => { x with ce := x.ce + 1 }) s) else s
    | .line pa => if isLocal pa 1 then logEvent 2 (pa / 128) (poisonLine pa s) else s
    | .slice pa => if isLocal pa 1 then countUe (cellOfSlice (homeSlice pa)) (poisonLine pa s) else s
    | .stash c off => if c < 256 ∧ off < 0x80000 then countUe c (poisonLine (stashLoc c off) s) else s
    | .register g => if g < 16384 then registerError g s else s
    | .operand g =>
      if g < 16384 then
        deferTrap g (slotAt s g).ctl.epoch (fPage 2 0) (countUe (cellOf g) (upsetItem (cellOf g) s))
      else s) s

/-- R408: the HBM is scrubbed; what it corrects was never seen. -/
def execHbmScrub (s : State) : Res := event id s

/-- R406: a port goes down and the Anole core logs it. -/
def execLinkDown (port : Fin 24) (s : State) : Res :=
  event (fun s => logEvent 5 port.val { s with boot := { s.boot with linksUp := s.boot.linksUp.filter (· != port.val) } }) s

/-- R402: the link layer replays a flit; nothing above it sees that. -/
def execFlitReplay (port : Fin 24) (s : State) : Res :=
  event (fun s => if s.boot.linksUp.contains port.val then s else s) s

end Sys2Proof.Machine
end

