-- ==== Sys2Proof/Machine/Dispatch.lean ====
section
/-! DEFINITION. One arm for every constructor of Instr: a direct call of its meaning. -/

namespace Sys2Proof.Machine

/-- What an instruction or a step of the machine does. -/
def exec (i : Instr) (s : State) : Host.Outcome State Fault Refusal :=
  match i with
  -- S32: integer ALU, major 0x01 (R163)
  | .add d a b => Sys2Proof.Machine.execAdd d a b s
  | .sub d a b => Sys2Proof.Machine.execSub d a b s
  | .mul d a b => Sys2Proof.Machine.execMul d a b s
  | .mulhs d a b => Sys2Proof.Machine.execMulhs d a b s
  | .mulhz d a b => Sys2Proof.Machine.execMulhz d a b s
  | .divs d a b => Sys2Proof.Machine.execDivs d a b s
  | .divz d a b => Sys2Proof.Machine.execDivz d a b s
  | .rems d a b => Sys2Proof.Machine.execRems d a b s
  | .remz d a b => Sys2Proof.Machine.execRemz d a b s
  | .and d a b => Sys2Proof.Machine.execAnd d a b s
  | .or d a b => Sys2Proof.Machine.execOr d a b s
  | .xor d a b => Sys2Proof.Machine.execXor d a b s
  | .andn d a b => Sys2Proof.Machine.execAndn d a b s
  | .shl d a b => Sys2Proof.Machine.execShl d a b s
  | .shrz d a b => Sys2Proof.Machine.execShrz d a b s
  | .shrs d a b => Sys2Proof.Machine.execShrs d a b s
  | .rotl d a b => Sys2Proof.Machine.execRotl d a b s
  | .mins d a b => Sys2Proof.Machine.execMins d a b s
  | .minz d a b => Sys2Proof.Machine.execMinz d a b s
  | .maxs d a b => Sys2Proof.Machine.execMaxs d a b s
  | .maxz d a b => Sys2Proof.Machine.execMaxz d a b s
  -- S32: unary, major 0x02 (R167), and multiply-add (R166)
  | .clz d a => Sys2Proof.Machine.execClz d a s
  | .ctz d a => Sys2Proof.Machine.execCtz d a s
  | .popc d a => Sys2Proof.Machine.execPopc d a s
  | .bswap d a => Sys2Proof.Machine.execBswap d a s
  | .sext8 d a => Sys2Proof.Machine.execSext8 d a s
  | .sext16 d a => Sys2Proof.Machine.execSext16 d a s
  | .sext32 d a => Sys2Proof.Machine.execSext32 d a s
  | .madd d a b c => Sys2Proof.Machine.execMadd d a b c s
  -- S32: immediates, majors 0x04 to 0x09 (R168, R169)
  | .addiS d a imm => Sys2Proof.Machine.execAddiS d a imm s
  | .andiS d a imm => Sys2Proof.Machine.execAndiS d a imm s
  | .oriS d a imm => Sys2Proof.Machine.execOriS d a imm s
  | .xoriS d a imm => Sys2Proof.Machine.execXoriS d a imm s
  | .shli d a n => Sys2Proof.Machine.execShli d a n s
  | .shri d a sgn n => Sys2Proof.Machine.execShri d a sgn n s
  -- S32: bit fields, comparisons, guards (R171 to R176) and XYA (R177)
  | .bfx d a sgn w p => Sys2Proof.Machine.execBfx d a sgn w p s
  | .bfi d a w p => Sys2Proof.Machine.execBfi d a w p s
  | .cmp g a b c => Sys2Proof.Machine.execCmp g a b c s
  | .cmpi g a c imm => Sys2Proof.Machine.execCmpi g a c imm s
  | .pand d a b => Sys2Proof.Machine.execPand d a b s
  | .por d a b => Sys2Proof.Machine.execPor d a b s
  | .pxor d a b => Sys2Proof.Machine.execPxor d a b s
  | .pnot d a => Sys2Proof.Machine.execPnot d a s
  | .movpFrom d a => Sys2Proof.Machine.execMovpFrom d a s
  | .movpTo d a => Sys2Proof.Machine.execMovpTo d a s
  | .sel d a b g neg => Sys2Proof.Machine.execSel d a b g neg s
  | .xya d a b ctl rel => Sys2Proof.Machine.execXya d a b ctl rel s
  -- S32: control registers (R155) and presence (R153, R154)
  | .cget d n => Sys2Proof.Machine.execCget d n s
  | .cset a n => Sys2Proof.Machine.execCset a n s
  | .csetVwin a => Sys2Proof.Machine.execCsetVwin a s
  | .csetPbase a => Sys2Proof.Machine.execCsetPbase a s
  | .csetPlen a => Sys2Proof.Machine.execCsetPlen a s
  | .csetDeqbase a => Sys2Proof.Machine.execCsetDeqbase a s
  | .csetSpeclim a => Sys2Proof.Machine.execCsetSpeclim a s
  | .csetLlease a => Sys2Proof.Machine.execCsetLlease a s
  | .fwinWord0Write a n => Sys2Proof.Machine.execFwinWord0Write a n s
  | .fwinConfigWrite a n k => Sys2Proof.Machine.execFwinConfigWrite a n k s
  | .inval a n => Sys2Proof.Machine.execInval a n s
  | .viewLinesDropped sector n => Sys2Proof.Machine.execViewLinesDropped sector n s
  | .pres g k => Sys2Proof.Machine.execPres g k s
  | .drop k => Sys2Proof.Machine.execDrop k s
  -- S32: control flow (R180 to R197)
  | .br j => Sys2Proof.Machine.execBr j s
  | .call j => Sys2Proof.Machine.execCall j s
  | .jr a => Sys2Proof.Machine.execJr a s
  | .callr d a => Sys2Proof.Machine.execCallr d a s
  | .ret => Sys2Proof.Machine.execRet s
  | .loop a imm => Sys2Proof.Machine.execLoop a imm s
  | .loopi c imm => Sys2Proof.Machine.execLoopi c imm s
  | .fork a imm => Sys2Proof.Machine.execFork a imm s
  | .join a => Sys2Proof.Machine.execJoin a s
  | .nop => Sys2Proof.Machine.execNop s
  | .idle => Sys2Proof.Machine.execIdle s
  | .done => Sys2Proof.Machine.execDone s
  | .ifence => Sys2Proof.Machine.execIfence s
  | .tret => Sys2Proof.Machine.execTret s
  | .brk => Sys2Proof.Machine.execBrk s
  | .amow => Sys2Proof.Machine.execAmow s
  | .trap c => Sys2Proof.Machine.execTrap c s
  -- S32: handles and specialisation (R198 to R209)
  | .callh a => Sys2Proof.Machine.execCallh a s
  | .spec d a b => Sys2Proof.Machine.execSpec d a b s
  | .specialise units => Sys2Proof.Machine.execSpecialise units s
  | .rfree a => Sys2Proof.Machine.execRfree a s
  | .rinfo d a => Sys2Proof.Machine.execRinfo d a s
  -- S32: slots, dealing and grids (R99 to R136)
  | .sstart a b => Sys2Proof.Machine.execSstart a b s
  | .sreap d a => Sys2Proof.Machine.execSreap d a s
  | .idleSlotsEnd core => Sys2Proof.Machine.execIdleSlotsEnd core s
  | .sstat d a => Sys2Proof.Machine.execSstat d a s
  | .tnext d a => Sys2Proof.Machine.execTnext d a s
  | .dealerNext k => Sys2Proof.Machine.execDealerNext k s
  | .dealerSet k => Sys2Proof.Machine.execDealerSet k s
  | .dealerQuery k => Sys2Proof.Machine.execDealerQuery k s
  | .launch d a => Sys2Proof.Machine.execLaunch d a s
  | .rootDispatchLaunch rec => Sys2Proof.Machine.execRootDispatchLaunch rec s
  | .dispatcherRequest grid sector cell => Sys2Proof.Machine.execDispatcherRequest grid sector cell s
  | .blockStart cell => Sys2Proof.Machine.execBlockStart cell s
  | .gridComplete rec peers => Sys2Proof.Machine.execGridComplete rec peers s
  | .gcancelDrain a => Sys2Proof.Machine.execGcancelDrain a s
  | .gcancelKill a => Sys2Proof.Machine.execGcancelKill a s
  | .cancelArrival k => Sys2Proof.Machine.execCancelArrival k s
  | .gstat d a => Sys2Proof.Machine.execGstat d a s
  -- S32: channels (R117 to R122)
  | .chsend d a b => Sys2Proof.Machine.execChsend d a b s
  | .chrecv d a b => Sys2Proof.Machine.execChrecv d a b s
  | .getstate d a b => Sys2Proof.Machine.execGetstate d a b s
  | .setstate d a b => Sys2Proof.Machine.execSetstate d a b s
  | .getwidx d a b => Sys2Proof.Machine.execGetwidx d a b s
  | .getridx d a b => Sys2Proof.Machine.execGetridx d a b s
  | .setridx d a b => Sys2Proof.Machine.execSetridx d a b s
  | .getbase d a b => Sys2Proof.Machine.execGetbase d a b s
  -- S32: loads, stores and full/empty words (R248, R346)
  | .ldOff d a w o => Sys2Proof.Machine.execLdOff d a w o s
  | .ldIdx d a b w h => Sys2Proof.Machine.execLdIdx d a b w h s
  | .stOff d a w o => Sys2Proof.Machine.execStOff d a w o s
  | .stIdx d a b w h => Sys2Proof.Machine.execStIdx d a b w h s
  | .ldf d a o => Sys2Proof.Machine.execLdf d a o s
  | .ldfk d a o => Sys2Proof.Machine.execLdfk d a o s
  | .ste d a o => Sys2Proof.Machine.execSte d a o s
  | .stff d a o => Sys2Proof.Machine.execStff d a o s
  | .fclr a o => Sys2Proof.Machine.execFclr a o s
  | .feq d a o => Sys2Proof.Machine.execFeq d a o s
  -- S32: atomics, reservations, barriers, fences (R318, R326 to R354)
  | .amo d a b o t => Sys2Proof.Machine.execAmo d a b o t s
  | .amon a b o t => Sys2Proof.Machine.execAmon a b o t s
  | .cas d a b t => Sys2Proof.Machine.execCas d a b t s
  | .cas2 d a b => Sys2Proof.Machine.execCas2 d a b s
  | .slr d a b imm => Sys2Proof.Machine.execSlr d a b imm s
  | .slrn a b imm => Sys2Proof.Machine.execSlrn a b imm s
  | .sliceRoutine k => Sys2Proof.Machine.execSliceRoutine k s
  | .lrw d a => Sys2Proof.Machine.execLrw d a s
  | .sch a b => Sys2Proof.Machine.execSch a b s
  | .schx a => Sys2Proof.Machine.execSchx a s
  | .bari a n => Sys2Proof.Machine.execBari a n s
  | .bara d n => Sys2Proof.Machine.execBara d n s
  | .barw d a n => Sys2Proof.Machine.execBarw d a n s
  | .barq d a n => Sys2Proof.Machine.execBarq d a n s
  | .barrierUnitRequest k => Sys2Proof.Machine.execBarrierUnitRequest k s
  | .fence u => Sys2Proof.Machine.execFence u s
  -- S32: copies, prefetch, stash maps, matrix scalar side (R256 to R269, R280 to R301)
  | .cpyw d a b => Sys2Proof.Machine.execCpyw d a b s
  | .cpyq d a => Sys2Proof.Machine.execCpyq d a s
  | .pref a h o => Sys2Proof.Machine.execPref a h o s
  | .stmap d a b => Sys2Proof.Machine.execStmap d a b s
  | .stunmap d a => Sys2Proof.Machine.execStunmap d a s
  | .stflush d a => Sys2Proof.Machine.execStflush d a s
  | .oclaim d a => Sys2Proof.Machine.execOclaim d a s
  | .operandClaimGrant cell => Sys2Proof.Machine.execOperandClaimGrant cell s
  | .orel a => Sys2Proof.Machine.execOrel a s
  | .mxwait d a b => Sys2Proof.Machine.execMxwait d a b s
  | .mxcap d a => Sys2Proof.Machine.execMxcap d a s
  | .bsum d a b => Sys2Proof.Machine.execBsum d a b s
  | .bsacc d a => Sys2Proof.Machine.execBsacc d a s
  | .bsumArrival k => Sys2Proof.Machine.execBsumArrival k s
  -- X16 and L64 (R45, R49)
  | .nop16 => Sys2Proof.Machine.execNop16 s
  | .li d imm => Sys2Proof.Machine.execLi d imm s
  | .lih d imm => Sys2Proof.Machine.execLih d imm s
  | .rput a t => Sys2Proof.Machine.execRput a t s
  | .rputArrival k => Sys2Proof.Machine.execRputArrival k s
  | .cpy d a acq rel sc ch => Sys2Proof.Machine.execCpy d a acq rel sc ch s
  | .cpyx d a acq rel sc ch => Sys2Proof.Machine.execCpyx d a acq rel sc ch s
  | .copySegment core ch => Sys2Proof.Machine.execCopySegment core ch s
  | .copyComplete core ch => Sys2Proof.Machine.execCopyComplete core ch s
  | .tmmar d a c => Sys2Proof.Machine.execTmmar d a c s
  | .tmmarCommandArrival k => Sys2Proof.Machine.execTmmarCommandArrival k s
  | .slrinst a imm => Sys2Proof.Machine.execSlrinst a imm s
  | .addiL d a imm => Sys2Proof.Machine.execAddiL d a imm s
  | .andiL d a imm => Sys2Proof.Machine.execAndiL d a imm s
  | .oriL d a imm => Sys2Proof.Machine.execOriL d a imm s
  | .xoriL d a imm => Sys2Proof.Machine.execXoriL d a imm s
  -- V48: arithmetic (R226, R227)
  | .vadd d a b m t rm => Sys2Proof.Machine.execVadd d a b m t rm s
  | .vsub d a b m t rm => Sys2Proof.Machine.execVsub d a b m t rm s
  | .vmul d a b m t rm => Sys2Proof.Machine.execVmul d a b m t rm s
  | .vfma d a b c m t rm => Sys2Proof.Machine.execVfma d a b c m t rm s
  | .vfms d a b c m t rm => Sys2Proof.Machine.execVfms d a b c m t rm s
  | .vfnma d a b c m t rm => Sys2Proof.Machine.execVfnma d a b c m t rm s
  | .vmin d a b m t => Sys2Proof.Machine.execVmin d a b m t s
  | .vmax d a b m t => Sys2Proof.Machine.execVmax d a b m t s
  | .vabs d a m t => Sys2Proof.Machine.execVabs d a m t s
  | .vneg d a m t => Sys2Proof.Machine.execVneg d a m t s
  | .vdiv d a b m t rm => Sys2Proof.Machine.execVdiv d a b m t rm s
  | .vsqrt d a m t rm => Sys2Proof.Machine.execVsqrt d a m t rm s
  | .vrcpa d a m t => Sys2Proof.Machine.execVrcpa d a m t s
  | .vrsqa d a m t => Sys2Proof.Machine.execVrsqa d a m t s
  | .vexpa d a m t => Sys2Proof.Machine.execVexpa d a m t s
  | .vloga d a m t => Sys2Proof.Machine.execVloga d a m t s
  -- V48: comparison, selection, logic, shifts, integer forms (R228 to R232)
  | .vcmp d a b m t c => Sys2Proof.Machine.execVcmp d a b m t c s
  | .vsel d a b m t => Sys2Proof.Machine.execVsel d a b m t s
  | .vand d a b m t => Sys2Proof.Machine.execVand d a b m t s
  | .vor d a b m t => Sys2Proof.Machine.execVor d a b m t s
  | .vxor d a b m t => Sys2Proof.Machine.execVxor d a b m t s
  | .vnot d a m t => Sys2Proof.Machine.execVnot d a m t s
  | .vshl d a n m t => Sys2Proof.Machine.execVshl d a n m t s
  | .vshrz d a n m t => Sys2Proof.Machine.execVshrz d a n m t s
  | .vshrs d a n m t => Sys2Proof.Machine.execVshrs d a n m t s
  | .vadds d a b m t => Sys2Proof.Machine.execVadds d a b m t s
  | .vsubs d a b m t => Sys2Proof.Machine.execVsubs d a b m t s
  | .vmulh d a b m t => Sys2Proof.Machine.execVmulh d a b m t s
  | .vdot4 d a b m t sat => Sys2Proof.Machine.execVdot4 d a b m t sat s
  -- V48: conversion and movement (R233 to R238)
  | .vcvt d a m td ts rm part sat => Sys2Proof.Machine.execVcvt d a m td ts rm part sat s
  | .vbcast d c m t => Sys2Proof.Machine.execVbcast d c m t s
  | .vidx d c m t => Sys2Proof.Machine.execVidx d c m t s
  | .vperm d a b m t => Sys2Proof.Machine.execVperm d a b m t s
  | .vslide d a b m t k => Sys2Proof.Machine.execVslide d a b m t k s
  | .vredadd d a c m t rm => Sys2Proof.Machine.execVredadd d a c m t rm s
  | .vredmin d a c m t => Sys2Proof.Machine.execVredmin d a c m t s
  | .vredmax d a c m t => Sys2Proof.Machine.execVredmax d a c m t s
  | .vscan d a m t rm o => Sys2Proof.Machine.execVscan d a m t rm o s
  | .vcomp d a m t => Sys2Proof.Machine.execVcomp d a m t s
  | .vxpnd d a m t => Sys2Proof.Machine.execVxpnd d a m t s
  | .vpack d a b m t sat => Sys2Proof.Machine.execVpack d a b m t sat s
  | .vunpk d a m t hi => Sys2Proof.Machine.execVunpk d a m t hi s
  | .vmov d a m t => Sys2Proof.Machine.execVmov d a m t s
  | .vext d a t k => Sys2Proof.Machine.execVext d a t k s
  | .vins d c t k => Sys2Proof.Machine.execVins d c t k s
  -- V48: masks (R241)
  | .mand d a b => Sys2Proof.Machine.execMand d a b s
  | .mor d a b => Sys2Proof.Machine.execMor d a b s
  | .mxor d a b => Sys2Proof.Machine.execMxor d a b s
  | .mnot d a => Sys2Proof.Machine.execMnot d a s
  | .mpopc d a t => Sys2Proof.Machine.execMpopc d a t s
  | .mfirst d a t => Sys2Proof.Machine.execMfirst d a t s
  -- V48: vector memory (R250, R251)
  | .vld d c m t o => Sys2Proof.Machine.execVld d c m t o s
  | .vst a c m t o => Sys2Proof.Machine.execVst a c m t o s
  | .vlds d b c m t => Sys2Proof.Machine.execVlds d b c m t s
  | .vsts a b c m t => Sys2Proof.Machine.execVsts a b c m t s
  | .vgath d a c m t k => Sys2Proof.Machine.execVgath d a c m t k s
  | .vscat a b c m t k => Sys2Proof.Machine.execVscat a b c m t k s
  -- V48: matrix (R282 to R295)
  | .oload o b c t shapeB tr acq => Sys2Proof.Machine.execOload o b c t shapeB tr acq s
  | .ofill o a seg k => Sys2Proof.Machine.execOfill o a seg k s
  | .tmma acc oa ob c t rm z xb n => Sys2Proof.Machine.execTmma acc oa ob c t rm z xb n s
  | .azero acc => Sys2Proof.Machine.execAzero acc s
  | .astore u acc vb c t rm sat src => Sys2Proof.Machine.execAstore u acc vb c t rm sat src s
  | .avec d acc row => Sys2Proof.Machine.execAvec d acc row s
  -- Events that the model tries by itself (log entry 3, DESIGN CHOICE)
  | .wideUnitStart cell => Sys2Proof.Machine.execWideUnitStart cell s
  | .sequencerStep cell => Sys2Proof.Machine.execSequencerStep cell s
  | .operandLoaderFill cell => Sys2Proof.Machine.execOperandLoaderFill cell s
  | .instructionCacheFill core line => Sys2Proof.Machine.execInstructionCacheFill core line s
  | .gridFaultReport report => Sys2Proof.Machine.execGridFaultReport report s
  | .skinkSpill slot => Sys2Proof.Machine.execSkinkSpill slot s
  | .skinkRestore slot => Sys2Proof.Machine.execSkinkRestore slot s
  | .resultArrival k => Sys2Proof.Machine.execResultArrival k s
  | .homeAccess k => Sys2Proof.Machine.execHomeAccess k s
  | .waitlimExpiry slot => Sys2Proof.Machine.execWaitlimExpiry slot s
  | .vwinResizeGrant slot => Sys2Proof.Machine.execVwinResizeGrant slot s
  | .bankWake cell bank => Sys2Proof.Machine.execBankWake cell bank s
  | .queueScan vf q => Sys2Proof.Machine.execQueueScan vf q s
  | .launchPacket k rec => Sys2Proof.Machine.execLaunchPacket k rec s
  | .unload k => Sys2Proof.Machine.execUnload k s
  | .pageService id v => Sys2Proof.Machine.execPageService id v s
  | .bankRetention cell bank => Sys2Proof.Machine.execBankRetention cell bank s
  -- Events of queues, firmware, system software, the Skink engine, the debug port, links and management
  | .wake vf q => Sys2Proof.Machine.execWake vf q s
  | .tokenBucketRefill vf => Sys2Proof.Machine.execTokenBucketRefill vf s
  | .stageGraphPacket k rec => Sys2Proof.Machine.execStageGraphPacket k rec s
  | .stageGraphBind rec => Sys2Proof.Machine.execStageGraphBind rec s
  | .load k places => Sys2Proof.Machine.execLoad k places s
  | .qreg vf q addr => Sys2Proof.Machine.execQreg vf q addr s
  | .qclear vf q skip => Sys2Proof.Machine.execQclear vf q skip s
  | .functionLevelReset vf => Sys2Proof.Machine.execFunctionLevelReset vf s
  | .create cb asid => Sys2Proof.Machine.execCreate cb asid s
  | .destroy cb => Sys2Proof.Machine.execDestroy cb s
  | .invalidate cb => Sys2Proof.Machine.execInvalidate cb s
  | .migrate cb => Sys2Proof.Machine.execMigrate cb s
  | .partitionChange asid => Sys2Proof.Machine.execPartitionChange asid s
  | .gangSwitchTick asid => Sys2Proof.Machine.execGangSwitchTick asid s
  | .saveDeadline asid elapsed => Sys2Proof.Machine.execSaveDeadline asid elapsed s
  | .clockRebase => Sys2Proof.Machine.execClockRebase s
  | .sensorSample sample => Sys2Proof.Machine.execSensorSample sample s
  | .setPowerCap watts sample => Sys2Proof.Machine.execSetPowerCap watts sample s
  | .halt slot => Sys2Proof.Machine.execHalt slot s
  | .resume slot => Sys2Proof.Machine.execResume slot s
  | .step slot => Sys2Proof.Machine.execStep slot s
  | .rdreg slot item => Sys2Proof.Machine.execRdreg slot item s
  | .wrreg slot item vals pres => Sys2Proof.Machine.execWrreg slot item vals pres s
  | .dbgflush slot => Sys2Proof.Machine.execDbgflush slot s
  | .spill slot => Sys2Proof.Machine.execSpill slot s
  | .restore slot => Sys2Proof.Machine.execRestore slot s
  | .rdsave slot => Sys2Proof.Machine.execRdsave slot s
  | .linkAgentAccess acc => Sys2Proof.Machine.execLinkAgentAccess acc s
  | .hostAccess acc => Sys2Proof.Machine.execHostAccess acc s
  | .deviceUnreachable dev reports => Sys2Proof.Machine.execDeviceUnreachable dev reports s
  | .coldBoot fetched => Sys2Proof.Machine.execColdBoot fetched s
  | .leapfrogHandover table image finish => Sys2Proof.Machine.execLeapfrogHandover table image finish s
  | .firmwareUpdate image checkOk => Sys2Proof.Machine.execFirmwareUpdate image checkOk s
  | .softError e => Sys2Proof.Machine.execSoftError e s
  | .hbmScrub => Sys2Proof.Machine.execHbmScrub s
  | .debuggerAttach asid on => Sys2Proof.Machine.execDebuggerAttach asid on s
  | .linkDown port => Sys2Proof.Machine.execLinkDown port s
  | .flitReplay port => Sys2Proof.Machine.execFlitReplay port s

end Sys2Proof.Machine
end

