-- ==== Sys2Proof/Machine/Turn.lean ====
section
/-! DEFINITION. A core cycle and the turn of its slot (R42 to R44, R137, R138, R140, R367), and what else the machine's next
step may be (log entry 3, DESIGN CHOICE). -/

namespace Sys2Proof.Machine

/-! ### Core cycles (R140, R349, R379) -/

/-- The counter of R379 that a parked slot's cycle raises. -/
def parkCounter (w : Wait) : Fin 16 :=
  match w.code with
  | 1 | 5 => 2
  | 2 => 3
  | _ => 4

/-- A slot in a core cycle of its core (R349, R379). One that waits for its context to start in its cell is not counted (R376). -/
def cycleSlot (counted : Bool) (x : Slot) : Slot :=
  if counted = false then x
  else
  match x.ctl.st with
  | .running => count 0 1 x
  | .parked => count (parkCounter x.ctl.wait) 1 (count 0 1 { x with parkCnt := x.parkCnt + 1 })
  | _ => x

/-- Whether a slot of a cell is counted: its context has started there, or has not left yet (R374, R376). -/
def counts (s : State) (c : CellKey) (x : Slot) : Bool :=
  (cellAt s c).joined || s.switches.any fun w => w.2.out == x.ctl.asid && w.2.left.contains c

/-- A core cycle passes: the core's count, its slots' counters, and the cell's count of slow cycles (R393). -/
def cycle (c : CoreKey) (s : State) : State :=
  let t := modCore c (fun k => { k with cycle := k.cycle + 1 })
    { s with slots := s.slots.map fun q => if coreOf q.1 = c then (q.1, cycleSlot (counts s (c / 4) q.2) q.2) else q }
  if c % 4 = 0 ∧ (cellAt t (c / 4)).live < (cellAt t (c / 4)).tested then
    modCell (c / 4) (fun x => { x with throt := x.throt + 1 }) t
  else t

/-! ### Between two turns of a slot (R367) -/

/-- Trap entry for a fault that arose outside a word. -/
def takeDeferred (g : SlotKey) (s : State) : State :=
  let x := slotAt s g
  match x.ctl.deferred with
  | some t =>
    if x.ctl.st = .running then takeTrap g t x.ctl.pc (modCtl g (fun c => { c with deferred := none }) s) else s
  | none => s

/-- A debugger halt: on request, or before the word that follows a step. -/
def takeHalt (g : SlotKey) (s : State) : State :=
  let c := (slotAt s g).ctl
  if c.st = .running ∧ c.req.step = 2 then endStep g (haltSlot g (modReq g (fun r => { r with halt := false }) s))
  else if c.req.halt ∧ (c.st = .running ∨ c.st = .parked ∨ c.st = .idle) then haltSlot g (modReq g (fun r => { r with halt := false }) s)
  else s

/-- A spill request. -/
def takeSpill (g : SlotKey) (s : State) : State :=
  let c := (slotAt s g).ctl
  if c.req.spill ∧ c.st ≠ .free ∧ c.st ≠ .spilled then stopForSpill g s else s

/-- R349: the slots of a core whose LIMIT has passed enter F.WAITLIM before the next cycle. -/
def expireWaits (c : CoreKey) (s : State) : State := (List.range 16).foldl (fun s k => expireWait (16 * c + k) s) s

/-- R367: what is pending for a slot, in order. -/
def between (g : SlotKey) (s : State) : State := takeSpill g (takeHalt g (takeDeferred g s))

/-! ### A word at issue (R42, R43) -/

/-- Only the vector half of the word that granules make is illegal (R43). -/
def vectorIllegal (gs : List (BitVec 16)) : Bool :=
  let t := match gs with | g :: rest => if classOf g = GranuleClass.g16 then rest else gs | [] => []
  let guardOk := match gs with | g :: _ => classOf g != GranuleClass.g16 || field g.toNat 0 8 == 0 | [] => true
  match t with
  | a :: b :: h :: rest =>
    guardOk &&
    let v := valueOf [a, b]
    classOf a == GranuleClass.s32 && field v 30 1 == 1 && decide (1 ≤ field v 24 6) && decide (field v 24 6 ≤ 0x10) &&
    (match checked (decodeS32 v) with | .ok _ => true | .error _ => false) && classOf h == GranuleClass.v48 &&
    (match checked (decodeV48 (valueOf (h :: rest.take 2))) with | .ok _ => false | .error _ => true)
  | _ => false

/-- The part of a word that issues. -/
def atHalf (h : Half) (s : State) : State := { s with issue := { s.issue with half := h } }

/-- A scalar or guard register of another view of the slot written here. -/
def sameWrite (x : Slot) (y : Slot) (k : Desig) : Slot :=
  match k with
  | .s n => sSet n x.regs.s[n.val] y
  | .p n => pSet n x.regs.p[n.val] y
  | _ => y

/-- The second half of a pair, once the scalar half is known to take effect: `t` is the state the scalar half leaves. Both read
the state before the word; the scalar result is then written (R43). -/
def pairVector (i j : Instr) (t s : State) : Res :=
  match exec j (atHalf .vector s) with
  | .next u =>
    if u.issue.done then .next (modSlot u.issue.gid (fun y => (writes i).foldl (sameWrite (slotAt t u.issue.gid)) y) u) else .next u
  | r => r

/-- A pair (R42, R43). -/
def pairExec (i j : Instr) (s : State) : Res :=
  let g := s.issue.gid
  match vectorFault j s with
  | some t => .next (fault t (atHalf .vector s))
  | none =>
    if blocked s g (reads i ++ reads j) (writes i) then .next (park g (.presence (reads i ++ reads j) (writes i)) s)
    else match exec i (atHalf .scalar s) with
      | .next t => if t.issue.done then pairVector i j t s else .next t
      | r => r

/-- What a word does once its guard is true. -/
def bodyExec (b : Body) (s : State) : Res :=
  match b with
  | .single i => exec i s
  | .pair i j => pairExec i j s

/-- R42 steps 2 and 3: the guard. -/
def wordExec (w : IWord) (s : State) : Res :=
  let g := s.issue.gid
  match w.guard with
  | none => bodyExec w.body s
  | some q =>
    if readBlocks s g (.p q.reg) then .next (park g (.presence [.p q.reg] []) s)
    else if pGet (slotAt s g) q.reg = q.neg then .next (skip s)
    else bodyExec w.body s

/-- The state in which a word of `n` granules issues at a slot. -/
def atIssue (g : SlotKey) (n : Nat) (s : State) : State :=
  modCtl g (fun c => { c with npc := c.pc + n64 (2 * n) }) { s with issue := { gid := g, half := .whole, done := false } }

/-- After a word: the fetch buffer ages, a block has begun once its keeper has issued, and a debugger's step ends. -/
def afterWord (g : SlotKey) (s : State) : State :=
  let s := if s.issue.done then
      let s := ageBuffer g s
      if isKeeper g then noteBegun (coreOf g) s else s
    else s
  settle (stepAfter g s)

/-- A step's end, where there is a next state. -/
def thenNext (r : Res) (k : State → State) : Res :=
  match r with
  | .next s => .next (k s)
  | r => r

/-- The word of a slot issues (R42): a fetch fault, a wait for the fetch, an illegal word, or the word. -/
def issueWord (g : SlotKey) (s : State) : Res :=
  match fetchWord s g (slotAt s g).ctl.pc with
  | .word gs =>
    let s := atIssue g gs.length s
    match decodeWord gs with
    | .ok w => thenNext (wordExec w s) (afterWord g)
    | .error _ => .next (afterWord g (fault fIll (if vectorIllegal gs then atHalf .vector s else s)))
  | .stop r =>
    let s := atIssue g 0 s
    .next (afterWord g (match r with
      | .trap t => fault t s
      | .page va => codePark va s
      | .miss line => park g (.fetch line) s
      | .ok _ => s))

/-! ### A word that has issued makes its access (R143, R144, R246, R255, R320) -/

/-- The wait of a word that has issued is over: its access can be made. -/
def accessReady (s : State) (g : SlotKey) : Bool :=
  (slotAt s g).ctl.st == .parked &&
  match (slotAt s g).ctl.wait with
  | .vmem => !vmemPending s g
  | .posted line => !postedBlocks s g line
  | .page id => match tfind s.pages id with | some r => r.done == some true | none => true
  | .away c => !isAway s (slotAt s g).ctl.asid c
  | .visit => !visiting s g
  | _ => false

/-- A word that waits before its access. -/
def Wait.holdsAccess : Wait → Bool
  | .vmem | .posted _ | .page _ | .away _ | .visit => true
  | _ => false

/-- What a slot has caught goes once its word waits for its access no more. -/
def dropCaught (g : SlotKey) (s : State) : State :=
  if (slotAt s g).ctl.st = .parked ∧ (slotAt s g).ctl.wait.holdsAccess = true then s else modCtl g (fun c => { c with caught := none }) s

/-- A word makes its access, with the operands that it had when it issued, and completes or parks again. -/
def resumeWord (g : SlotKey) (i : Instr) (s : State) : Res :=
  let s := modSlot g uncount (unpark g .running (leaveWait g s))
  thenNext (exec i { s with issue := { gid := g, half := .whole, done := false } }) (fun t => settle (stepAfter g (dropCaught g t)))

/-! ### The turn (R140) -/

/-- The slot whose turn it is in a core's next cycle. -/
def turnOf (s : State) (c : CoreKey) : SlotKey := 16 * c + (coreAt s c).cycle % 16

/-- A core cycle: the waits that have passed their LIMIT, what is pending for the slot whose turn it is, the counts, then the access of
the word in which the slot is parked if that can be made, or its next word if it is RUNNING. -/
def coreTurn (c : CoreKey) (s : State) : Res :=
  let g := turnOf s c
  let s := cycle c (between g (expireWaits c s))
  if (cellAt s (cellOf g)).joined = false then .next s
  else match (slotAt s g).ctl.caught with
    | some c => if accessReady s g then resumeWord g c.instr s else .next s
    | none => if (slotAt s g).ctl.st = .running then issueWord g s else .next s

/-! ### What the model's hidden parts do (log entries 4, 7, 10) -/

/-- The slot's fetch buffer takes a granule from the instruction cache (R137). -/
def bufferFill (g : SlotKey) (addr : Nat) (s : State) : State :=
  let b := (slotAt s g).ctl.buf
  if 48 ≤ b.length ∨ (b.any fun e => e.addr == addr) = true ∨ addr % 2 = 1 then s
  else match granuleAt s g (n64 addr) with
    | .ok v => modCtl g (fun c => { c with buf := c.buf ++ [{ addr := addr, val := v, left := 8 }] }) s
    | _ => s

/-- A TLB of a context keeps a translation: a core's first-level TLB (units 0 to 1023) what its sector's second-level TLB or the page
table says, a sector's (units 1024 to 1031) what the page table says now (R13, R247). -/
def tlbFill (unit a : Nat) (va : Word64) (s : State) : State :=
  match ctxAt s a with
  | none => s
  | some c =>
    let leaf := if unit < 1024 then sectorLeaf s c (unit / 4) va.toNat else walk s va.toNat c.rcd.ptroot walkLevels
    match leaf with
    | some (sh, e) =>
      if 1032 ≤ unit ∨ (tlbLeaf c unit va.toNat).isSome = true then s
      else modCtx a (fun c => { c with tlb := c.tlb ++ [{ unit := unit, key := tlbKey sh va.toNat, leaf := e }] }) s
    | none => s

/-- A TLB drops what it holds of a context. -/
def tlbDrop (unit a : Nat) (s : State) : State := modCtx a (fun c => { c with tlb := c.tlb.filter fun e => e.unit != unit }) s

/-- A view line is cached in its home slice, as it decodes now (R275). -/
def viewFill (line : Nat) (s : State) : State :=
  if (windowOf s (128 * line)).isSome ∧ tfind s.mem.views line = none then
    { s with mem := { s.mem with views := tput s.mem.views line (readView s (128 * line) 128) } }
  else s

/-- Somebody outside changes peer or host memory (R322, R323). -/
def outside (pa : Nat) (bs : List Byte) (s : State) : State :=
  match regionOf pa with
  | .peer d _ => if d = s.boot.device then s else { s with mem := { s.mem with ext := putExts s.mem.ext pa bs } }
  | .host => { s with mem := { s.mem with ext := putExts s.mem.ext pa bs } }
  | _ => s

/-- A step of the machine itself, as opposed to a word. -/
def isEvent (i : Instr) : Bool := (encodeValue i).isNone

/-- A step of the machine while it is not booted: the Anole core alone works (R403, R404). -/
def beforeBoot (i : Instr) : Bool :=
  match i with
  | .coldBoot _ | .firmwareUpdate _ _ | .sensorSample _ | .setPowerCap _ _ => true
  | _ => false

/-- One step, chosen. -/
def takePick (p : Pick) (s : State) : Res :=
  match p with
  | .core c => if s.boot.booted then coreTurn c s else .next s
  | .event i => if isEvent i ∧ (s.boot.booted = true ∨ beforeBoot i = true) then exec i s else .next s
  | .prefetch g a => .next (bufferFill g a s)
  | .tlbFill u a va => .next (tlbFill u a va s)
  | .tlbDrop u a => .next (tlbDrop u a s)
  | .viewFill l => .next (viewFill l s)
  | .fly on => .next { s with fly := on }
  | .copies on => .next { s with copies := on, cells := if on then s.cells else tmap (fun x => { x with copies := [] }) s.cells }
  | .copyDrop c l => .next (modCell c (fun x => { x with copies := tdel x.copies l }) s)
  | .outside pa bs => .next (outside pa bs s)

/-! ### Which step comes next when nothing says so (log entry 3, DESIGN CHOICE) -/

/-- What a message on its way waits for. -/
def messageEvents (k : Nat) (m : Msg) : List Instr :=
  match m with
  | .reply _ => [.resultArrival k]
  | .rput .. => [.rputArrival k]
  | .bsum .. => [.bsumArrival k]
  | .tmmar .. => [.tmmarCommandArrival k]
  | .cancel .. => [.cancelArrival k]
  | .gfault .. => [.gridFaultReport (.own k)]
  | .inval _ a b => [.viewLinesDropped ⟨a % 8, Nat.mod_lt _ (by decide)⟩ ⟨b % 16, Nat.mod_lt _ (by decide)⟩]
  | .atomic .. => [.sliceRoutine k, .homeAccess k]
  | .dealer .. => [.dealerNext k, .dealerSet k, .dealerQuery k]
  | .barInit .. | .barArrive .. | .barQuery .. => [.barrierUnitRequest k]
  | .load .. | .store .. | .remoteStore .. | .lrw .. | .gstat .. | .visit _ => [.homeAccess k]
  | .join .. | .slrinst .. => [.sliceRoutine k]
  | .spec .. | .launch .. => []

/-- Steps that may be due for a slot. -/
def slotEvents (g : SlotKey) (x : Slot) : List Instr :=
  (match x.ctl.wait with
    | .fetch line => [.instructionCacheFill (coreOf g) line]
    | .resize _ => [.vwinResizeGrant g]
    | .reap _ _ => [.idleSlotsEnd (coreOf g)]
    | _ => []) ++
  (if x.ctl.st = .spilled ∧ x.ctl.req.spill = true then [.skinkSpill g] else []) ++
  (if x.ctl.st = .spilled ∧ x.ctl.req.restore = true then [.skinkRestore g] else [])

/-- Steps that may be due in a cell. -/
def cellEvents (c : CellKey) (x : Cell) : List Instr :=
  (if (coresOfCell c x).isEmpty then [] else [.wideUnitStart c]) ++
  (if x.mx.isEmpty then [] else [.sequencerStep c, .operandLoaderFill c]) ++
  (if x.claims.isEmpty then [] else [.operandClaimGrant c]) ++
  (x.waking.map fun b => .bankWake c ⟨b % 32, Nat.mod_lt _ (by decide)⟩) ++
  (if x.held.isEmpty then [] else [.blockStart c])
where
  /-- The wide unit serves the cores of a cell. -/
  coresOfCell (c : CellKey) (_ : Cell) : List CoreKey := [4 * c, 4 * c + 1, 4 * c + 2, 4 * c + 3]

/-- Steps that may be due for a running copy. -/
def chanEvents (c : CoreKey) (k : Nat) (x : Chan) : List Instr :=
  let ch : Fin 128 := ⟨k % 128, Nat.mod_lt _ (by decide)⟩
  if x.cur.isSome then [.copySegment c ch, .copyComplete c ch] else []

/-- The cells of a partition in Hilbert order (R122, R128). -/
def inHilbertOrder (base len : Nat) : List CellKey :=
  (List.range len).filterMap fun h => (List.range 256).find? fun c => hilbert c == base + h

/-- The sectors that may ask the device dispatcher, in ascending order, and the cells of a context that may ask their sectors, in Hilbert
order (R128). -/
def dealEvents (s : State) (k : Nat) (g : Grid) : List Instr :=
  if g.live = false ∨ 0 < g.phase ∨ g.graph.isSome = true then []
  else
    let sec := fun (c : CellKey) => (⟨sectorOf c % 8, Nat.mod_lt _ (by decide)⟩ : Fin 8)
    ((List.finRange 8).map fun k' => .dispatcherRequest k k' none) ++
    (match ctxAt s g.asid with
      | some c => (inHilbertOrder c.part.curBase c.part.curLen).map fun c => .dispatcherRequest k (sec c) (some c)
      | none => [])

/-- A stage graph that may be bound (R115). -/
def bindEvents (k : Nat) (g : Grid) : List Instr :=
  match g.graph with
  | some t => if g.live = true ∧ t.bound = false then [.stageGraphBind k] else []
  | none => []

/-- Switches under way, and contexts that wait for their start. -/
def switchEvents (s : State) : List Instr :=
  (s.switches.flatMap fun q => .gangSwitchTick q.2.out :: (if q.2.left = [] then [.saveDeadline q.2.inn (Config.elapsed s.fresh)] else [])) ++
  (s.ctxs.flatMap fun q =>
    if q.2.out = false ∧ switching s q.1 = false ∧ ((partCells s q.1).any fun c => !(cellAt s c).joined) = true then [.saveDeadline q.1 (Config.elapsed s.fresh)]
    else [])

/-- A free grid record. -/
def freeRecord (s : State) : Nat := ((List.range 1024).find? fun k => !gridLive s k).getD 0

/-- Steps of firmware that may be due for a context's packets and queues. -/
def firmwareEvents (s : State) (c : Ctx) : List Instr :=
  (c.packets.flatMap fun p =>
    if p.grid.isSome then []
    else match p.ty with
      | 1 => [.launchPacket p.id (freeRecord s)]
      | 2 => [.stageGraphPacket p.id (freeRecord s)]
      | 4 => [.unload p.id]
      | _ => []) ++
  c.queues.flatMap fun q =>
    if c.rcd.vf < 128 then
      [.queueScan ⟨c.rcd.vf % 128, Nat.mod_lt _ (by decide)⟩ ⟨q.1 % 64, Nat.mod_lt _ (by decide)⟩]
    else []

/-- Steps of the machine itself that may be due, in the order in which they are tried. -/
def candidates (s : State) : List Instr :=
  s.net.flatMap (fun m => messageEvents m.1 m.2) ++ s.slots.flatMap (fun q => slotEvents q.1 q.2) ++
  (if s.net.any fun m => match m.2 with | .launch .. => true | _ => false then [.rootDispatchLaunch (freeRecord s)] else []) ++
  s.cores.flatMap (fun c => c.2.chans.flatMap fun k => chanEvents c.1 k.1 k.2) ++ s.cells.flatMap (fun c => cellEvents c.1 c.2) ++
  s.grids.flatMap (fun g => dealEvents s g.1 g.2) ++ s.ctxs.flatMap (fun c => firmwareEvents s c.2) ++
  s.grids.flatMap (fun g => bindEvents g.1 g.2) ++ switchEvents s ++
  s.grids.flatMap fun g => if g.2.live then [.gridComplete g.1 []] else []

/-- A step of the machine itself has something to do. -/
def isDue (s : State) (i : Instr) : Bool :=
  match exec i s with
  | .next t => t != s
  | _ => false

/-- A core has a slot that can use its turn, or with requests pending. -/
def coreBusy (s : State) (c : CoreKey) : Bool :=
  s.slots.any fun q => coreOf q.1 == c && (q.2.ctl.st == .running || q.2.ctl.st == .parked || q.2.ctl.req.halt || q.2.ctl.req.spill)

/-- The next core in rotation that is busy; core 0 where none is. -/
def nextCore (s : State) : CoreKey :=
  let cs := (s.slots.map fun q => coreOf q.1).filter (coreBusy s)
  (cs.find? fun c => decide (s.turn ≤ c)).getD (cs.headD 0)

/-- What the machine does next when nothing says so: a step of its own that is due, or a cycle of the next busy core. -/
def nextPick (s : State) : Pick :=
  match (candidates s).find? (isDue s) with
  | some i => .event i
  | none => .core (nextCore s)

/-- A step begins: the head of the agenda is taken, or a choice made. -/
def beginStep (s : State) : Pick × State :=
  match s.agenda with
  | p :: rest => (p, { s with agenda := rest })
  | [] =>
    let p := nextPick s
    (p, { s with turn := match p with | .core c => c + 1 | _ => s.turn })

/-- A stopped device takes no step but a cold boot (R404, R409). -/
def isBoot (p : Pick) : Bool := match p with | .event (.coldBoot _) => true | _ => false

/-- One step of the machine. -/
def machineStep (s : State) : Res :=
  let r := beginStep s
  if s.boot.stopped ∧ isBoot r.1 = false then .fault .deviceStopped else takePick r.1 r.2

/-! ### Placing an instruction for the next step (log entry 2, DESIGN CHOICE) -/

/-- The address at which the instruction is placed. -/
def placeAddr : Nat := 0x1000

/-- A context whose first gigabyte is the device's, readable, writable and executable. -/
def placeCtx : Ctx :=
  let r : CtxRec :=
    { vf := 255, priv := true, debug := false, ptroot := 0, savebase := 0, cellsave := 0, rstore := 0, rsize := 1, tick := 0
      deadline := 0, bdepth := 1, brate := 1, lcap := 0, swlog := 0, swcap := 0, addr := 0, cstore := 0, csize := 1
      rva := 0x100000000000000, dstore := 0, dsize := 0 }
  { Ctx.fresh r 0 256 0 with tlb := [{ unit := 0, key := tlbKey 30 0, leaf := 15 }] }

/-- A block of one slot on core 0. -/
def placeBlock : Block :=
  { id := 0, asid := 1, grid := 0, index := 0, slots := 1, vwin := 32, resv := [0], begun := false }

/-- The bytes of an instruction whose value has `nbits` bits, followed by zeros. -/
def placeWord (nbits w : Nat) : List Byte := granuleBytes ((granulesOf (nbits / 16) w ++ List.replicate 6 0#16).take 6)

/-- The state with an instruction placed where slot 0 of core 0 fetches next, in the machine's next step. -/
def placeState (s : State) (nbits w : Nat) : State :=
  let s := { s with
    boot := { s.boot with booted := true, stopped := false }
    ctxs := tput s.ctxs 1 placeCtx
    agenda := .core 0 :: s.agenda
    mem := { s.mem with bytes := putBytes s.mem.bytes placeAddr (placeWord nbits w) } }
  let s := modCore 0 (fun k => { k with cycle := 0, block := some placeBlock, lines := sadd k.lines (placeAddr / 128) }) s
  let s := modCell 0 (fun c => { c with joined := true, retained := [], waking := [] }) s
  modSlot 0 (fun x => { x with
    ctl := { Slot.reset.ctl with st := .running, pc := n64 placeAddr, npc := n64 placeAddr, asid := 1 }
    win := { base := 0, size := 32 } }) s

end Sys2Proof.Machine
end

