-- ==== Sys2Proof/Machine/Step.lean ====
section
/-! DEFINITION. One step of the machine, and the host's way to place an instruction for it. -/

namespace Sys2Proof.Machine

/-- One step: the head of the agenda, or what the model chooses (log entry 3, DESIGN CHOICE). -/
def step (s : State) : Host.Outcome State Fault Refusal := machineStep s

/-- `s` with the instruction of `nbits` bits, followed by zeros, where the next step fetches (log entry 2, DESIGN CHOICE). -/
def State.withFetchWord (s : State) (nbits w : Nat) : State := placeState s nbits w

end Sys2Proof.Machine
end

