-- ==== Sys2Proof/Safety.lean ====
section
/-! DEFINITION. What a safe run is, and the terms in which statements about the machine are made. -/

namespace Sys2Proof.Machine

/-- A run is safe up to `n` steps when the machine has not stopped. -/
def runsOn (n : Nat) (s : State) : Bool :=
  match n with
  | 0 => true
  | k + 1 =>
    match step s with
    | .next t => runsOn k t
    | _ => false

/-! ### A word that issues, and what it leaves alone -/

/-- The word issues for the first time (R144); nothing that it reads is missing, and none of its destinations is owed (R147, R148). -/
def Ready (i : Instr) (s : State) : Prop :=
  (slotAt s s.issue.gid).ctl.caught = none ∧ blocked s s.issue.gid (reads i) (writes i) = false

/-- The slot whose word issues. -/
abbrev me (s : State) : Slot := slotAt s s.issue.gid

/-- The cell, the core and the context of the slot whose word issues. -/
abbrev myCell (s : State) : CellKey := cellOf s.issue.gid
abbrev myCore (s : State) : CoreKey := coreOf s.issue.gid
abbrev myAsid (s : State) : Nat := (me s).ctl.asid

/-- The word has issued, and of the whole machine only its own slot has changed. -/
def OnlySlot (s t : State) : Prop :=
  t = { s with slots := t.slots, issue := { s.issue with done := true } } ∧
  ∀ h, h ≠ s.issue.gid → slotAt t h = slotAt s h

/-- R185, R379: a slot goes on after its word. The word counts, the loop records and the pc move, nothing else of its control
state changes. -/
def GoesOn (x y : Slot) : Prop :=
  y.ctl = { x.ctl with loops := (endCheck x.ctl.pc x.ctl.npc x.ctl.loops).1,
                       pc := (endCheck x.ctl.pc x.ctl.npc x.ctl.loops).2 } ∧
  y.ctr = x.ctr.set 1 ((x.ctr[1] + 1) % 2 ^ 64)

/-- Of a slot, only registers, control state and counters differ. -/
def SameRest (x y : Slot) : Prop := y = { x with ctl := y.ctl, regs := y.regs, ctr := y.ctr }

/-- Registers in which only scalar register `d` differs: it holds `v` and is full, and a write to s0 is discarded (R146). -/
def ScalarSet (d : SReg) (v : Word64) (x y : Regs) : Prop :=
  y = { x with s := y.s, sp := y.sp } ∧ (∀ n, n ≠ d → y.s[n.val] = x.s[n.val] ∧ y.sp[n.val] = x.sp[n.val]) ∧
  (if d = 0 then y.s[d.val] = x.s[d.val] ∧ y.sp[d.val] = x.sp[d.val] else y.s[d.val] = v ∧ y.sp[d.val] = .full)

/-- Registers in which only guard `d` differs: it holds `v` and is full, and a write to p0 is discarded (R146). -/
def GuardSet (d : GReg) (v : Bool) (x y : Regs) : Prop :=
  y = { x with p := y.p, pp := y.pp } ∧ (∀ n, n ≠ d → y.p[n.val] = x.p[n.val] ∧ y.pp[n.val] = x.pp[n.val]) ∧
  (if d = 0 then y.p[d.val] = x.p[d.val] ∧ y.pp[d.val] = x.pp[d.val] else y.p[d.val] = v ∧ y.pp[d.val] = .full)

/-- The word has written `v` to scalar `d`, and has changed nothing else. -/
def WroteS (d : SReg) (v : Word64) (s t : State) : Prop :=
  OnlySlot s t ∧ GoesOn (me s) (slotAt t s.issue.gid) ∧ SameRest (me s) (slotAt t s.issue.gid) ∧
  ScalarSet d v (me s).regs (slotAt t s.issue.gid).regs

/-- The word has written `v` to guard `d`, and has changed nothing else. -/
def WroteP (d : GReg) (v : Bool) (s t : State) : Prop :=
  OnlySlot s t ∧ GoesOn (me s) (slotAt t s.issue.gid) ∧ SameRest (me s) (slotAt t s.issue.gid) ∧
  GuardSet d v (me s).regs (slotAt t s.issue.gid).regs

/-- The word has changed nothing but where its slot goes on. -/
def WroteNothing (s t : State) : Prop :=
  OnlySlot s t ∧ GoesOn (me s) (slotAt t s.issue.gid) ∧
  slotAt t s.issue.gid = { me s with ctl := (slotAt t s.issue.gid).ctl, ctr := (slotAt t s.issue.gid).ctr }

/-! ### Values of the scalar instructions, as the manual's tables give them -/

/-- R164: q and r of the signed division. -/
def signedQR (x y : Int) : Int × Int :=
  if y = 0 then (-1, x)
  else if x = -(2 ^ 63) ∧ y = -1 then (-(2 ^ 63), 0)
  else (Int.tdiv x y, x - Int.tdiv x y * y)

/-- R164: q and r of the unsigned division. -/
def unsignedQR (x y : Nat) : Nat × Nat := if y = 0 then (2 ^ 64 - 1, x) else (x / y, x - x / y * y)

/-- R164: the destination and the value of the four division instructions. -/
def divisionValue (x : Slot) : Instr → Option (SReg × Word64)
  | .divs d a b => some (d, BitVec.ofInt 64 (signedQR (sGet x a).toInt (sGet x b).toInt).1)
  | .rems d a b => some (d, BitVec.ofInt 64 (signedQR (sGet x a).toInt (sGet x b).toInt).2)
  | .divz d a b => some (d, BitVec.ofNat 64 (unsignedQR (sGet x a).toNat (sGet x b).toNat).1)
  | .remz d a b => some (d, BitVec.ofNat 64 (unsignedQR (sGet x a).toNat (sGet x b).toNat).2)
  | _ => none

/-- R163, R165: the destination and the value of the other instructions of major 0x01. -/
def aluValue (x : Slot) : Instr → Option (SReg × Word64)
  | .add d a b => some (d, BitVec.ofNat 64 ((sGet x a).toNat + (sGet x b).toNat))
  | .sub d a b => some (d, BitVec.ofInt 64 ((sGet x a).toInt - (sGet x b).toInt))
  | .mul d a b => some (d, BitVec.ofInt 64 ((sGet x a).toInt * (sGet x b).toInt))
  | .mulhs d a b => some (d, (BitVec.ofInt 128 ((sGet x a).toInt * (sGet x b).toInt)).extractLsb' 64 64)
  | .mulhz d a b => some (d, (BitVec.ofNat 128 ((sGet x a).toNat * (sGet x b).toNat)).extractLsb' 64 64)
  | .and d a b => some (d, sGet x a &&& sGet x b)
  | .or d a b => some (d, sGet x a ||| sGet x b)
  | .xor d a b => some (d, sGet x a ^^^ sGet x b)
  | .andn d a b => some (d, sGet x a &&& ~~~(sGet x b))
  | .shl d a b => some (d, BitVec.ofNat 64 ((sGet x a).toNat * 2 ^ ((sGet x b).toNat % 64)))
  | .shrz d a b => some (d, BitVec.ofNat 64 ((sGet x a).toNat / 2 ^ ((sGet x b).toNat % 64)))
  | .shrs d a b => some (d, BitVec.ofInt 64 ((sGet x a).toInt / 2 ^ ((sGet x b).toNat % 64)))
  | .rotl d a b =>
    let n := (sGet x b).toNat % 64
    some (d, BitVec.ofNat 64 ((sGet x a).toNat * 2 ^ n + (sGet x a).toNat / 2 ^ (64 - n)))
  | .mins d a b => some (d, BitVec.ofInt 64 (min (sGet x a).toInt (sGet x b).toInt))
  | .minz d a b => some (d, BitVec.ofNat 64 (min (sGet x a).toNat (sGet x b).toNat))
  | .maxs d a b => some (d, BitVec.ofInt 64 (max (sGet x a).toInt (sGet x b).toInt))
  | .maxz d a b => some (d, BitVec.ofNat 64 (max (sGet x a).toNat (sGet x b).toNat))
  | _ => none

/-- R166, R167: the destination and the value of MADD and the unary instructions. -/
def unaryValue (x : Slot) : Instr → Option (SReg × Word64)
  | .madd d a b c => some (d, BitVec.ofInt 64 ((sGet x a).toInt * (sGet x b).toInt + (sGet x c).toInt))
  | .clz d a => some (d, BitVec.ofNat 64 ((List.range 64).takeWhile fun k => !(sGet x a).getLsbD (63 - k)).length)
  | .ctz d a => some (d, BitVec.ofNat 64 ((List.range 64).takeWhile fun k => !(sGet x a).getLsbD k).length)
  | .popc d a => some (d, BitVec.ofNat 64 ((List.range 64).countP fun k => (sGet x a).getLsbD k))
  | .bswap d a =>
    some (d, (List.range 8).foldl (fun v i => v ||| ((sGet x a >>> (8 * (7 - i)) &&& 0xFF) <<< (8 * i))) 0)
  | .sext8 d a => some (d, ((sGet x a).setWidth 8).signExtend 64)
  | .sext16 d a => some (d, ((sGet x a).setWidth 16).signExtend 64)
  | .sext32 d a => some (d, ((sGet x a).setWidth 32).signExtend 64)
  | _ => none

/-- R168 to R170, R49: the destination and the value of the instructions with an immediate. -/
def immediateValue (x : Slot) : Instr → Option (SReg × Word64)
  | .addiS d a i => some (d, BitVec.ofInt 64 ((sGet x a).toInt + i.toInt))
  | .addiL d a i => some (d, BitVec.ofInt 64 ((sGet x a).toInt + i.toInt))
  | .andiS d a i => some (d, sGet x a &&& BitVec.ofInt 64 i.toInt)
  | .andiL d a i => some (d, sGet x a &&& BitVec.ofInt 64 i.toInt)
  | .oriS d a i => some (d, sGet x a ||| BitVec.ofInt 64 i.toInt)
  | .oriL d a i => some (d, sGet x a ||| BitVec.ofInt 64 i.toInt)
  | .xoriS d a i => some (d, sGet x a ^^^ BitVec.ofInt 64 i.toInt)
  | .xoriL d a i => some (d, sGet x a ^^^ BitVec.ofInt 64 i.toInt)
  | .shli d a n => some (d, BitVec.ofNat 64 ((sGet x a).toNat * 2 ^ n.toNat))
  | .shri d a sg n =>
    some (d, if sg then BitVec.ofInt 64 ((sGet x a).toInt / 2 ^ n.toNat) else BitVec.ofNat 64 ((sGet x a).toNat / 2 ^ n.toNat))
  | .li d i => some (d, BitVec.ofInt 64 i.toInt)
  | .lih d i => some (d, BitVec.ofNat 64 (2 ^ 32 * i.toNat + (sGet x d).toNat % 2 ^ 32))
  | _ => none

/-- R174: whether a condition holds between two operands. -/
def condTrue (c : Cond) (a b : Word64) : Prop :=
  match c with
  | .eq => a = b
  | .ne => a ≠ b
  | .lts => a.toInt < b.toInt
  | .ltz => a.toNat < b.toNat
  | .les => a.toInt ≤ b.toInt
  | .lez => a.toNat ≤ b.toNat

/-! ### Control registers -/

/-- What CGET of register `n` shows, field by field (R157, R127, R125, R194, R203, R271, R307, R308, R348, R360). Values wider
than their field show only where they fit. -/
def CregShows (s : State) (n : Nat) (v : Word64) : Prop :=
  let g := s.issue.gid
  let x := me s
  (n = 0x000 → v = 4) ∧
  (n = 0x001 → bits v 0 4 = g % 16 ∧ bits v 4 2 = g / 16 % 4 ∧ bits v 6 58 = 0) ∧
  (n = 0x002 → g < 16384 →
    bits v 0 4 = cellX (g / 64) ∧ bits v 4 4 = cellY (g / 64) ∧ bits v 8 8 = hilbert (g / 64) ∧ bits v 16 3 = sectorOf (g / 64) ∧
    bits v 19 2 = dieOf (g / 64) ∧ bits v 21 8 = sliceOf (g / 64) ∧ bits v 29 35 = 0) ∧
  (n = 0x003 → x.ctl.asid < 2 ^ 16 → v.toNat = x.ctl.asid) ∧
  (n = 0x004 → x.win.base < 2 ^ 10 → x.win.size < 2 ^ 6 →
    bits v 0 10 = x.win.base ∧ bits v 10 6 = 0 ∧ bits v 16 6 = x.win.size ∧ bits v 22 42 = 0) ∧
  (n = 0x010 → x.lclk < 2 ^ 64 → v.toNat = x.lclk) ∧
  (n = 0x011 → ∀ c, ctxAt s x.ctl.asid = some c → c.llease < 2 ^ 64 → v.toNat = c.llease) ∧
  (n = 0x012 → v = x.waitlim) ∧
  (n = 0x013 → (cellAt s (g / 64)).live < 2 ^ 8 → (cellAt s (g / 64)).tested < 2 ^ 8 →
    ((partCells s x.ctl.asid).map fun c => 124 + (cellAt s c).live).sum < 2 ^ 16 →
    bits v 0 8 = (cellAt s (g / 64)).live ∧ bits v 8 8 = (cellAt s (g / 64)).tested ∧
    bits v 16 16 = ((partCells s x.ctl.asid).map fun c => 124 + (cellAt s c).live).sum ∧
    bits v 32 9 = (partCells s x.ctl.asid).length) ∧
  (n = 0x014 → v = (coreAt s (g / 16)).deqbase) ∧
  (n = 0x015 → ∀ c, ctxAt s x.ctl.asid = some c → v = c.speclim) ∧
  (n = 0x020 → v = x.trap.vec) ∧ (n = 0x021 → v = x.trap.cause) ∧ (n = 0x022 → v = x.trap.addr) ∧ (n = 0x023 → v = x.trap.pc) ∧
  (n = 0x030 → ∀ c, ctxAt s x.ctl.asid = some c → c.part.base < 2 ^ 64 → v.toNat = c.part.base) ∧
  (n = 0x031 → ∀ c, ctxAt s x.ctl.asid = some c → c.part.len < 2 ^ 64 → v.toNat = c.part.len) ∧
  (∀ w k, n = 0x100 + 8 * w + k → w < 16 → k < 8 →
    v = if k = 5 then 0 else (tfind s.fwin (128 * sectorOf (g / 64) + 8 * w + k)).getD 0)

/-! ### Pairs (R37, R43) -/

/-- R43: what a pair does in state `y`, before which nothing of the word has happened, and `r` is the step's answer. Where the vector
half is at fault, or the word waits for a register that either half reads or the scalar half writes, neither half takes effect;
otherwise each half is executed on `y`, and where the vector half takes effect the scalar half's result is written beside it. A trap of
the vector half has HALF = 1. -/
def PairRuns (g : SlotKey) (i j : Instr) (r : Res) (y : State) : Prop :=
  let rd := reads i ++ reads j
  (∀ t, vectorFault j y = some t → r = .next (afterWord g (fault t (atHalf .vector y)))) ∧
  (vectorFault j y = none → blocked y g rd (writes i) = true → r = .next (afterWord g (park g (.presence rd (writes i)) y))) ∧
  (vectorFault j y = none → blocked y g rd (writes i) = false → ∀ t, exec i (atHalf .scalar y) = .next t →
    (t.issue.done = false → r = .next (afterWord g t)) ∧
    ∀ u, t.issue.done = true → exec j (atHalf .vector y) = .next u →
      (u.issue.done = false → r = .next (afterWord g u)) ∧
      (u.issue.done = true → ∃ v, r = .next (afterWord g v) ∧ v = { u with slots := v.slots } ∧
        let h := u.issue.gid
        (∀ k, k ≠ h → slotAt v k = slotAt u k) ∧ slotAt v h = { slotAt u h with regs := (slotAt v h).regs } ∧
        (∀ d, writes i = [.s d] → ScalarSet d (slotAt t h).regs.s[d.val] (slotAt u h).regs (slotAt v h).regs) ∧
        (∀ d, writes i = [.p d] → GuardSet d (slotAt t h).regs.p[d.val] (slotAt u h).regs (slotAt v h).regs) ∧
        (writes i = [] → slotAt v h = slotAt u h))) ∧
  ∀ t : TrapInfo, (slotAt y g).trap.vec ≠ 0 → bit (slotAt y g).trap.cause 11 = false → y.issue.gid = g →
    bit (slotAt (fault t (atHalf .vector y)) g).trap.cause 8 = true ∧ bit (slotAt (fault t (atHalf .scalar y)) g).trap.cause 8 = false

/-! ### Transfers of control and traps -/

/-- R180: the target of a branch or call, and its link register. -/
def branchOf (s : State) : Instr → Option (Word64 × Option SReg)
  | .br j => some (BitVec.ofInt 64 ((me s).ctl.pc.toInt + 2 * j.toInt), none)
  | .call j => some (BitVec.ofInt 64 ((me s).ctl.pc.toInt + 2 * j.toInt), some 31)
  | .jr a => some (sGet (me s) a, none)
  | .callr d a => some (sGet (me s) a, some d)
  | .ret => some (sGet (me s) 31, none)
  | _ => none

/-- R183, R184: the count and the end address of LOOP and LOOPI. -/
def loopOf (s : State) : Instr → Option (Word64 × Word64)
  | .loop a i => some (sGet (me s) a, (me s).ctl.pc + BitVec.ofNat 64 (2 * i.toNat))
  | .loopi c i => some (BitVec.ofNat 64 c.toNat, (me s).ctl.pc + BitVec.ofNat 64 (2 * i.toNat))
  | _ => none

/-- R184: a loop may start here: its end is not before its start, a record is free, and the word is no end word. -/
def LoopLegal (s : State) (e : Word64) : Prop :=
  (me s).ctl.npc.toNat ≤ e.toNat ∧ (me s).ctl.loops.length < 2 ∧ ∀ r ∈ (me s).ctl.loops, r.stop ≠ (me s).ctl.pc

/-- R186: the records whose bodies contain an address. -/
def bodiesWith (t : Word64) (l : List LoopRec) : List LoopRec :=
  l.filter fun r => decide (r.start.toNat ≤ t.toNat ∧ t.toNat ≤ r.stop.toNat)

/-- A presence state of s1 to s3 and p1 at trap entry: they keep their values if full, and are empty otherwise (R361). -/
def fullOrEmpty (p q : Pres) : Prop := if p = .full then q = .full else q = .empty

/-- R361, R360: slot `x` has entered its handler as slot `y` for trap `t`, with `pc` in TRAPPC and HALF as given. -/
def TrapEntered (t : TrapInfo) (half : Bool) (pc : Word64) (x y : Slot) : Prop :=
  bits y.trap.cause 0 8 = t.code % 256 ∧ bit y.trap.cause 8 = half ∧ bit y.trap.cause 9 = t.deferred ∧
  bit y.trap.cause 10 = t.fetch ∧ bit y.trap.cause 11 = true ∧ bits y.trap.cause 12 4 = 0 ∧
  bits y.trap.cause 16 8 = t.status % 256 ∧ bits y.trap.cause 24 8 = 0 ∧ bits y.trap.cause 32 14 = t.detail % 2 ^ 14 ∧
  bits y.trap.cause 46 18 = 0 ∧
  y.trap.vec = x.trap.vec ∧ y.trap.addr = t.addr ∧ y.trap.pc = pc &&& 0xFFFFFFFFFFFFFFFE ∧
  y.shadow.s = #v[x.regs.s[1], x.regs.s[2], x.regs.s[3]] ∧ y.shadow.sp = #v[x.regs.sp[1], x.regs.sp[2], x.regs.sp[3]] ∧
  y.shadow.p1 = x.regs.p[1] ∧ y.shadow.pp1 = x.regs.pp[1] ∧ y.shadow.loops = x.ctl.loops ∧
  y.ctl.loops = [] ∧ y.ctl.pc = x.trap.vec ∧ y.ctl.st = .running ∧ y.ctl.wait = .none ∧
  y.regs = { x.regs with sp := y.regs.sp, pp := y.regs.pp } ∧
  fullOrEmpty x.regs.sp[1] y.regs.sp[1] ∧ fullOrEmpty x.regs.sp[2] y.regs.sp[2] ∧ fullOrEmpty x.regs.sp[3] y.regs.sp[3] ∧
  (∀ n : SReg, n.val = 0 ∨ 4 ≤ n.val → y.regs.sp[n.val] = x.regs.sp[n.val]) ∧
  fullOrEmpty x.regs.pp[1] y.regs.pp[1] ∧ (∀ n : GReg, n ≠ 1 → y.regs.pp[n.val] = x.regs.pp[n.val]) ∧
  y = { x with ctl := y.ctl, regs := y.regs, trap := y.trap, shadow := y.shadow, ctr := y.ctr }

/-- Of the whole machine, only one slot has changed. -/
def SlotAlone (g : SlotKey) (s t : State) : Prop := t = { s with slots := t.slots } ∧ ∀ h, h ≠ g → slotAt t h = slotAt s h

/-! ### Accesses to memory -/

/-- No byte has changed: not of this device's memory, not of peer or host memory, not of a stash. -/
def SameBytes (s t : State) : Prop :=
  t.mem.bytes = s.mem.bytes ∧ t.mem.ext = s.mem.ext ∧ ∀ c, (cellAt t c).stash = (cellAt s c).stash

/-- Every other slot is as it was. -/
def OthersSame (s t : State) : Prop := ∀ h, h ≠ s.issue.gid → slotAt t h = slotAt s h

/-- The word has issued and its slot goes on; of the slot only registers, control state, counters and its clock differ. -/
def WentOn (s t : State) : Prop :=
  t.issue.done = true ∧ GoesOn (me s) (slotAt t s.issue.gid) ∧
  slotAt t s.issue.gid = { me s with
    ctl := (slotAt t s.issue.gid).ctl
    regs := (slotAt t s.issue.gid).regs
    ctr := (slotAt t s.issue.gid).ctr
    lclk := (slotAt t s.issue.gid).lclk }

/-- The control state of a slot that goes on after its word (R185). -/
def nextCtl (x : Slot) : Ctl :=
  { x.ctl with loops := (endCheck x.ctl.pc x.ctl.npc x.ctl.loops).1, pc := (endCheck x.ctl.pc x.ctl.npc x.ctl.loops).2 }

/-- The word has issued and its slot is parked for the reason given, its registers as they were. -/
def ParkedFor (w : Wait) (s t : State) : Prop :=
  t.issue.done = true ∧ (slotAt t s.issue.gid).regs = (me s).regs ∧
  (slotAt t s.issue.gid).ctl = { (me s).ctl with st := .parked, wait := w }

/-- A word that has issued waits with the operands that it has read (R143, R144): its slot is parked for the reason given, its
registers as they were, and holds the word and those registers. -/
def HeldFor (i : Instr) (w : Wait) (s t : State) : Prop :=
  t.issue.done = true ∧ (slotAt t s.issue.gid).regs = (me s).regs ∧
  (slotAt t s.issue.gid).ctl = { (me s).ctl with st := .parked, wait := w, caught := some { instr := i, regs := (me s).regs } }

/-- No posted operation of the issuing slot is on its way. -/
def NoPosted (s : State) : Prop := ∀ m ∈ s.net, isPosted m.2 (fun q => q.gid == s.issue.gid) = false

/-- An idle slot finds no task (R189). -/
def NoTask (s : State) (g : SlotKey) : Prop :=
  (slotAt s g).ctl.st = .idle → ∀ d, mayTake s d (coreOf g) = true → (coreAt s d).deque = []

/-- The word has not issued: its slot is parked for the reason given, and nothing else of the machine has changed. -/
def WaitsFor (w : Wait) (s t : State) : Prop :=
  t = { s with slots := t.slots } ∧ OthersSame s t ∧ (slotAt t s.issue.gid).regs = (me s).regs ∧
  (slotAt t s.issue.gid).ctl = { (me s).ctl with st := .parked, wait := w }

/-- An access of the issuing slot goes to a place, and is performed there and then: requests do not travel, and neither the
slot's vector memory operations nor its posted operations to the line hold it back (R255, R320). -/
def Served (s : State) (need : Need) (va : Word64) (p : Place) : Prop :=
  s.fly = false ∧ vmemPending s s.issue.gid = false ∧
  postedTo s s.issue.gid (placeKey p / 128) s.nextId = [] ∧ resolve s (whoIs s s.issue.gid) need va = .go p

/-- A place whose line no stash has to give up first: no stash holds the line of memory written; a line mapped for a context is
present, and in no other stash (R259). -/
def UndisturbedFor (asid : Nat) (s : State) (p : Place) : Prop :=
  match p with
  | .mem pa | .own pa => ∀ h ∈ holdersOf s (pa / 128), h.2.2.2 = false
  | .cached c e off pa =>
    ∃ m, mapAt s asid c off = some m ∧ m.entry = e ∧ (tfind m.present ((off - m.off) / 128)).isSome = true ∧
      ∀ h ∈ holdersOf s (pa / 128), h.1 = c ∧ h.2.1.asid = asid ∧ h.2.1.entry = e ∧ h.2.2.1 = (off - m.off) / 128
  | _ => True

/-- The same for the context whose word issues. -/
abbrev Undisturbed (s : State) (p : Place) : Prop := UndisturbedFor (myAsid s) s p

/-- Exactly the `n` bytes at a place have been written, with the low `n` bytes of `v`; no other byte anywhere has changed.
A control page ignores what is stored (R393), and a virtual function's page holds nothing (R395). The peer window of this device is
its own memory (R392). -/
def StoredAt (p : Place) (n v : Nat) (s t : State) : Prop :=
  match p with
  | .mem pa | .own pa =>
    leNat (getBytes t.mem.bytes pa n) = v % 2 ^ (8 * n) ∧
    (∀ a, a < pa ∨ pa + n ≤ a → getByte t.mem.bytes a = getByte s.mem.bytes a) ∧
    t.mem.ext = s.mem.ext ∧ ∀ c, (cellAt t c).stash = (cellAt s c).stash
  | .stash c off | .cached c _ off _ =>
    leNat (getBytes (cellAt t c).stash off n) = v % 2 ^ (8 * n) ∧
    (∀ a, a < off ∨ off + n ≤ a → getByte (cellAt t c).stash a = getByte (cellAt s c).stash a) ∧
    t.mem.bytes = s.mem.bytes ∧ t.mem.ext = s.mem.ext ∧ ∀ d, d ≠ c → (cellAt t d).stash = (cellAt s d).stash
  | .peer pa | .host pa =>
    leNat (getExts t.mem.ext pa n) = v % 2 ^ (8 * n) ∧
    (∀ a, a < pa ∨ pa + n ≤ a → getExt t.mem.ext a = getExt s.mem.ext a) ∧
    t.mem.bytes = s.mem.bytes ∧ ∀ c, (cellAt t c).stash = (cellAt s c).stash
  | .ctl _ _ | .vf _ _ | .dev _ => SameBytes s t
  | .view _ => False

/-- R309: a load of the issuing slot has taken its place in the single order, past the clocks that the place itself has. -/
def ReadStamped (p : Place) (s t : State) : Prop :=
  match p.loc with
  | none => (slotAt t s.issue.gid).lclk = (me s).lclk
  | some l =>
    (slotAt t s.issue.gid).lclk = max (placeClock s p (me s).lclk + 1) (stamps s l).1 ∧
    stamps t l = ((stamps s l).1, max (stamps s l).2 ((slotAt t s.issue.gid).lclk + leaseOf s (myAsid s) - 1))

/-- R310: a store of the issuing slot has taken its place in the single order, past the clocks that the place itself has. -/
def WriteStamped (p : Place) (s t : State) : Prop :=
  match p.loc with
  | none => (slotAt t s.issue.gid).lclk = (me s).lclk
  | some l =>
    (slotAt t s.issue.gid).lclk = max (placeClock s p (me s).lclk) (stamps s l).2 + 1 ∧
    stamps t l = ((slotAt t s.issue.gid).lclk, (slotAt t s.issue.gid).lclk)

/-- A write of the issuing slot has taken its place in the order of every location of a list (R304, R310). -/
def WriteStampedAll (p : Place) (ls : List Nat) (s t : State) : Prop :=
  (slotAt t s.issue.gid).lclk = ls.foldl (fun n l => max n (stamps s l).2) (placeClock s p (me s).lclk) + 1 ∧
  ∀ l ∈ ls, stamps t l = ((slotAt t s.issue.gid).lclk, (slotAt t s.issue.gid).lclk)

/-- R249: the destination, the width and the address of a load. -/
def loadOf (x : Slot) : Instr → Option (SReg × LdWidth × Word64)
  | .ldOff d a w o => some (d, w, BitVec.ofInt 64 ((sGet x a).toInt + o.toInt))
  | .ldIdx d a b w h => some (d, w, sGet x a + sGet x b <<< h.toNat)
  | _ => none

/-- R249: the value, the width and the address of a store. -/
def storeOf (x : Slot) : Instr → Option (Word64 × StWidth × Word64)
  | .stOff d a w o => some (sGet x d, w, BitVec.ofInt 64 ((sGet x a).toInt + o.toInt))
  | .stIdx d a b w h => some (sGet x d, w, sGet x a + sGet x b <<< h.toNat)
  | _ => none

/-- R249: what a load writes, given the number that its bytes make. -/
def loadedValue (w : LdWidth) (v : Nat) : Word64 :=
  match w with
  | .s8 => (BitVec.ofNat 8 v).signExtend 64
  | .s16 => (BitVec.ofNat 16 v).signExtend 64
  | .s32 => (BitVec.ofNat 32 v).signExtend 64
  | .z8 | .z16 | .z32 | .b64 => BitVec.ofNat 64 v

/-- R327: the new value of an integer AMO over the low bits of its operands; `none` for the float types. -/
def amoInteger (o : AmoOp) (t : Ty) (old b : Nat) : Option Nat :=
  let whole := fun (w : Nat) (sg : Bool) (x y : BitVec w) =>
    match o with
    | .add => (x + y).toNat
    | .sub => (x - y).toNat
    | .min => if (if sg then decide (x.toInt ≤ y.toInt) else decide (x.toNat ≤ y.toNat)) then x.toNat else y.toNat
    | .max => if (if sg then decide (x.toInt ≤ y.toInt) else decide (x.toNat ≤ y.toNat)) then y.toNat else x.toNat
    | .and => (x &&& y).toNat
    | .or => (x ||| y).toNat
    | .xor => (x ^^^ y).toNat
    | .swap => y.toNat
  match t with
  | .s32 => some (whole 32 true (BitVec.ofNat 32 old) (BitVec.ofNat 32 b))
  | .z32 => some (whole 32 false (BitVec.ofNat 32 old) (BitVec.ofNat 32 b))
  | .s64 => some (whole 64 true (BitVec.ofNat 64 old) (BitVec.ofNat 64 b))
  | .z64 => some (whole 64 false (BitVec.ofNat 64 old) (BitVec.ofNat 64 b))
  | .s32x2 => some (whole 32 true (BitVec.ofNat 32 old) (BitVec.ofNat 32 b) +
      2 ^ 32 * whole 32 true (BitVec.ofNat 32 (old / 2 ^ 32)) (BitVec.ofNat 32 (b / 2 ^ 32)))
  | _ => none

/-- Registers in which a pair has been written: `v` in scalar `d` and `w` in the one after it. -/
def PairSet (d : SReg) (v w : Word64) (x y : Regs) : Prop := ∃ z, ScalarSet d v x z ∧ ScalarSet (sreg d 1) w z y

/-- Of a routine's state, only register `d` has changed: it holds `v`. -/
def RoutineWrote (d : Nat) (v : Word64) (r t : RoutineSt) : Prop :=
  rGet t d = v ∧ (∀ k, k < 8 → k ≠ d → rGet t k = rGet r k) ∧ t.line = r.line

/-- Of a routine's state, only the `n` bits of its line from bit `lo` have changed: they hold `v`. -/
def RoutineStored (lo n v : Nat) (r t : RoutineSt) : Prop :=
  t.g = r.g ∧ field t.line lo n = v % 2 ^ n ∧ (∀ k, k < lo ∨ lo + n ≤ k → t.line.testBit k = r.line.testBit k)

/-- R336: the value of an arithmetic slice instruction: the low bits of its operands taken as T; the integers wrap, the floats round to
nearest even, packed lanes stand alone, and the result is extended. -/
def sliceArith (o : Arith) (t : Nat) (a b : Word64) : Word64 :=
  let whole := fun (w : Nat) (sg : Bool) (x y : BitVec w) =>
    show BitVec w from match o with
    | .add => x + y
    | .sub => x - y
    | .mul => x * y
    | .min => if (if sg then decide (x.toInt ≤ y.toInt) else decide (x.toNat ≤ y.toNat)) then x else y
    | .max => if (if sg then decide (x.toInt ≤ y.toInt) else decide (x.toNat ≤ y.toNat)) then y else x
  let one := fun (f : Ty) (lo : Nat) => floatLane o f (a.toNat / 2 ^ lo % 2 ^ f.width) (b.toNat / 2 ^ lo % 2 ^ f.width)
  match t with
  | 0 => whole 64 true a b
  | 1 => whole 64 false a b
  | 2 => (whole 32 true (a.setWidth 32) (b.setWidth 32)).signExtend 64
  | 3 => (whole 32 false (a.setWidth 32) (b.setWidth 32)).setWidth 64
  | 4 => whole 32 true (a.extractLsb' 32 32) (b.extractLsb' 32 32) ++ whole 32 true (a.setWidth 32) (b.setWidth 32)
  | 5 => BitVec.ofNat 64 (one .f64 0)
  | 6 => BitVec.ofNat 64 (one .f32 0)
  | 7 => BitVec.ofNat 64 (one .bf16 0)
  | 8 => BitVec.ofNat 64 (one .f32 0 + 2 ^ 32 * one .f32 32)
  | _ => BitVec.ofNat 64 (one .bf16 0 + 2 ^ 16 * one .bf16 16)

/-- R336: whether condition `c` of a slice compare holds in type T: 0 eq, 1 ne, 2 lt, 3 le; with a NaN only ne holds. -/
def sliceHolds (c t : Nat) (a b : Word64) : Prop :=
  let ints := fun (x y : Int) => match c with | 0 => x = y | 1 => x ≠ y | 2 => x < y | _ => x ≤ y
  let floats := fun (f : Ty) =>
    let r := fvCmp (unpack (fmtOf f) (a.toNat % 2 ^ f.width)) (unpack (fmtOf f) (b.toNat % 2 ^ f.width))
    match c with | 0 => r = some .eq | 1 => r ≠ some .eq | 2 => r = some .lt | _ => r = some .lt ∨ r = some .eq
  match t with
  | 0 => ints a.toInt b.toInt
  | 1 => ints a.toNat b.toNat
  | 2 => ints (a.setWidth 32).toInt (b.setWidth 32).toInt
  | 3 => ints (a.setWidth 32).toNat (b.setWidth 32).toNat
  | 5 => floats .f64
  | 6 => floats .f32
  | _ => floats .bf16

/-- A full/empty word of the issuing slot: an unmapped stash word, reached there and then (R257, R346). -/
def FullEmptyAt (s : State) (va : Word64) (c off : Nat) : Prop :=
  va.toNat % 8 = 0 ∧ bits va 56 8 = 0xFF ∧ coordinate s (whoIs s s.issue.gid) va = .go (.stash c off) ∧
  mapAt s (myAsid s) c off = none ∧ isAway s (myAsid s) c = false ∧ vmemPending s s.issue.gid = false ∧
  postedTo s s.issue.gid (stashLoc c off / 128) s.nextId = [] ∧ (me s).ctl.wait = .none ∧ bytesWf (cellAt s c).stash = true

/-- R120: the destination, the two sources and the operation code of the six CHCTL rows. -/
def ctlWord : Instr → Option (SReg × SReg × SReg × Nat)
  | .getstate d a b => some (d, a, b, 0)
  | .setstate d a b => some (d, a, b, 1)
  | .getwidx d a b => some (d, a, b, 2)
  | .getridx d a b => some (d, a, b, 3)
  | .setridx d a b => some (d, a, b, 4)
  | .getbase d a b => some (d, a, b, 5)
  | _ => none

/-- R177, R244: an address that names byte `off` of a cell's stash by absolute coordinates. -/
def NamesStash (v : Word64) (c : CellKey) (off : Nat) : Prop :=
  bits v 56 8 = 0xFF ∧ bits v 48 8 = 0 ∧ bits v 40 8 = cellX c ∧ bits v 32 8 = cellY c ∧ bits v 19 13 = 0 ∧ bits v 0 19 = off

/-- A ring that fits its cell's stash, at rest as R116 has it. -/
def RingFits (r : Ring) : Prop := r.cell < 256 ∧ r.off + r.size ≤ 2 ^ 19 ∧ 3 ≤ r.log2 ∧ r.widx < 2 ^ 32 ∧ r.ridx < 2 ^ 32

/-- A register of the issuing slot is owed; the word has issued, the slot goes on, and its values are as they were. -/
def OwesScalar (d : SReg) (s t : State) : Prop :=
  t.issue.done = true ∧ GoesOn (me s) (slotAt t s.issue.gid) ∧ (slotAt t s.issue.gid).regs.s = (me s).regs.s ∧
  (d ≠ 0 → presOf t s.issue.gid (.s d) = .owed) ∧ (∀ l, l ≠ .s d → presOf t s.issue.gid l = presOf s s.issue.gid l) ∧
  OthersSame s t ∧ SameBytes s t

/-- R136: the length of the range that a NEXT receives. -/
def nextRange (r g w total : Nat) : Nat := min r (min 8388607 (max g ((r * w + (4 * total - 1)) / (4 * total))))

/-- R133, R136: what a dealer queue answers, and what becomes of it. -/
def dealerRule (q : DealQ) (ask : Word64) (w total : Nat) : Word64 × DealQ :=
  match bits ask 6 2 with
  | 0 =>
    if bits ask 8 56 ≠ 0 then (BitVec.ofInt 64 (-3), q)
    else if q.set = false then (BitVec.ofInt 64 (-2), q)
    else if q.r = 0 then (BitVec.ofInt 64 (-1), q)
    else (BitVec.ofNat 64 (q.b + nextRange q.r q.g w total * 2 ^ 40),
      { q with b := q.b + nextRange q.r q.g w total, r := q.r - nextRange q.r q.g w total })
  | 1 =>
    if q.set = true ∧ q.r ≠ 0 then (BitVec.ofInt 64 (-4), q)
    else (0, { set := true, b := 0, r := bits ask 8 40, g := if bits ask 48 16 = 0 then 1 else bits ask 48 16 })
  | 2 =>
    if bits ask 8 56 ≠ 0 then (BitVec.ofInt 64 (-3), q)
    else if q.set then (BitVec.ofNat 64 q.r, q) else (BitVec.ofInt 64 (-2), q)
  | _ => (BitVec.ofInt 64 (-3), q)

/-- The dealer queue of a context that a request names. -/
def dealerQueue (s : State) (a : Nat) (ask : Word64) : DealQ :=
  match ctxAt s a with
  | some c => (tfind c.dealq (bits ask 0 6)).getD { set := false, b := 0, r := 0, g := 1 }
  | none => { set := false, b := 0, r := 0, g := 1 }

/-- R136: the weight of a cell, and the summed weight of a context's partition. -/
def dealWeight (s : State) (c : CellKey) : Nat := 124 + (cellAt s c).live
def dealTotal (s : State) (a : Nat) : Nat := max 1 (((partCells s a).filter fun c => (cellAt s c).joined).map (dealWeight s)).sum

/-- The next message on its way is a reply to a request: it writes `v` to scalar `d` of the slot that asked, in the life in which it asked. -/
def Answered (q : Req) (d : SReg) (v : Word64) (s u : State) : Prop :=
  ∃ r, tfind u.net s.nextId = some (.reply r) ∧ r.gid = q.gid ∧ r.epoch = q.epoch ∧ r.writes = [.s d v] ∧ r.fault = none

/-- R350: a barrier is complete with the arrivals given: generation, record and a new round; otherwise it only has them. -/
def barAfter (b : Barrier) : Barrier :=
  if b.c ≠ 0 ∧ b.c ≤ b.arr.length then
    { b with arr := [], g := (b.g + 1) % 2 ^ 32, last := some { g := b.g, c := b.c, arr := b.arr } }
  else b

/-- A posted operation has left the issuing slot (R331). -/
def PostedBy (op : AtomOp) (va : Word64) (s t : State) : Prop :=
  t.issue.done = true ∧ (slotAt t s.issue.gid).ctl = nextCtl (me s) ∧ (slotAt t s.issue.gid).regs = (me s).regs ∧
  (slotAt t s.issue.gid).posted = (me s).posted + 1 ∧ SameBytes s t ∧ OthersSame s t ∧
  tfind t.net s.nextId = some (.atomic (reqOf s va) none op none)

/-- A reply on its way: the next message carries `ws` to a slot, in its present life, and ends its park. -/
def ReplySent (s t : State) (g : SlotKey) (ws : List RegWrite) : Prop :=
  ∃ r, tfind t.net s.nextId = some (.reply r) ∧ r.gid = g ∧ r.epoch = (slotAt s g).ctl.epoch ∧ r.writes = ws ∧ r.ends = true ∧
    r.fault = none

/-! ### The vector class -/

/-- The instructions of the vector class: their words enter the dispatch queue of the core (R210). -/
def isVector : Instr → Bool
  | .vadd .. | .vsub .. | .vmul .. | .vfma .. | .vfms .. | .vfnma .. | .vmin .. | .vmax .. | .vabs .. | .vneg .. | .vdiv ..
  | .vsqrt .. | .vrcpa .. | .vrsqa .. | .vexpa .. | .vloga .. | .vcmp .. | .vsel .. | .vand .. | .vor .. | .vxor .. | .vnot ..
  | .vshl .. | .vshrz .. | .vshrs .. | .vadds .. | .vsubs .. | .vmulh .. | .vdot4 .. | .vcvt .. | .vbcast .. | .vidx ..
  | .vperm .. | .vslide .. | .vredadd .. | .vredmin .. | .vredmax .. | .vscan .. | .vcomp .. | .vxpnd .. | .vpack ..
  | .vunpk .. | .vmov .. | .vext .. | .vins .. | .mand .. | .mor .. | .mxor .. | .mnot .. | .mpopc .. | .mfirst ..
  | .vld .. | .vst .. | .vlds .. | .vsts .. | .vgath .. | .vscat .. | .oload .. | .ofill .. | .tmma .. | .azero ..
  | .astore .. | .avec .. => true
  | _ => false

/-- R252, R282, R295: the operands of a word of the vector class give no fault at issue: the active elements of the direct
memory forms are aligned and lie where they may, and base and stride of a tile are multiples of the element size. -/
def OperandsGood (i : Instr) (s : State) : Prop :=
  match i with
  | .vld _ _ m _ _ | .vst _ _ m _ _ | .vlds _ _ _ m _ | .vsts _ _ _ m _ =>
    presOf s s.issue.gid (.m m) = .full → ∀ e ∈ actives (mGet (me s) m) (vmemTy i),
      elemFault s (whoIs s s.issue.gid) ((vmemTy i).width / 8) (vmemAddr i ((scalars i).map (sGet (me s))) 0 e) = none
  | .oload _ b c t _ _ _ => (sGet (me s) c).toNat % (t.width / 8) = 0 ∧ (sGet (me s) b).toNat % (t.width / 8) = 0
  | .astore st _ _ c t _ _ _ => (sGet (me s) c).toNat % (t.width / 8) = 0 ∧ (sGet (me s) st).toNat % (t.width / 8) = 0
  | _ => True

/-- R42, R147, R150, R210, R279: a word of the vector class enters the queue: its vector fields lie in the window, its matrix
items are held, its sources are there, the bank is awake, and the queue has room. -/
def Enters (i : Instr) (s : State) : Prop :=
  (∀ n ∈ vfields i, n < (me s).win.size) ∧
  (∀ n ∈ osFields i, holds (cellAt s (myCell s)).ohold n s.issue.gid = true) ∧
  (∀ n ∈ tileFields i, holds (cellAt s (myCell s)).thold n s.issue.gid = true) ∧
  blocked s s.issue.gid (reads i) [] = false ∧ OperandsGood i s ∧
  (vfields i ≠ [] → bankAwake s (myCell s) (me s).win.base = true) ∧ (coreAt s (myCore s)).queue.length < 16

/-- The value of a lane of an integer type, and the lane of a value modulo 2^W. -/
def intVal (t : Ty) (x : Nat) : Int := if t.isSigned then (BitVec.ofNat t.width x).toInt else (BitVec.ofNat t.width x).toNat
def intBits (t : Ty) (z : Int) : Nat := (BitVec.ofInt t.width z).toNat

/-- A value held within the range of an integer type (R219). -/
def clampTo (t : Ty) (z : Int) : Int :=
  if t.isSigned then max (-(2 ^ (t.width - 1))) (min (2 ^ (t.width - 1) - 1) z) else max 0 (min (2 ^ t.width - 1) z)

/-- R240: what a scan gives an element, from the values of the active elements up to it. -/
def scanRule (t : Ty) (o : ScanOp) (l : List Nat) : Nat :=
  let z := l.map (intVal t)
  match o with
  | .add => intBits t z.sum
  | .min => intBits t (z.min?.getD 0)
  | .max => intBits t (z.max?.getD 0)

/-- The active elements of a vector source, those before element `n`. -/
def activeEls (r : Srcs) (t : Ty) (m : MReg) (a : VRegNo) (n : Nat) : List Nat :=
  ((List.range n).filter fun j => (r.m m).getLsbD (t.width * j / 8)).map (r.el t a)

/-- R226 to R240: the destination, the mask, the lane width and the value of lane `k` of the merging operations that need no
floating-point arithmetic. -/
def laneRule (r : Srcs) : Instr → Option (VRegNo × MReg × Nat × (Nat → Nat))
  | .vadd d a b m t _ =>
    if t.isInt then some (d, m, t.width, fun k => intBits t (intVal t (r.el t a k) + intVal t (r.el t b k))) else none
  | .vsub d a b m t _ =>
    if t.isInt then some (d, m, t.width, fun k => intBits t (intVal t (r.el t a k) - intVal t (r.el t b k))) else none
  | .vmul d a b m t _ =>
    if t.isInt then some (d, m, t.width, fun k => intBits t (intVal t (r.el t a k) * intVal t (r.el t b k))) else none
  | .vmin d a b m t =>
    if t.isInt then some (d, m, t.width, fun k => if intVal t (r.el t a k) ≤ intVal t (r.el t b k) then r.el t a k else r.el t b k)
    else none
  | .vmax d a b m t =>
    if t.isInt then some (d, m, t.width, fun k => if intVal t (r.el t a k) ≤ intVal t (r.el t b k) then r.el t b k else r.el t a k)
    else none
  | .vabs d a m t => if t.isInt then some (d, m, t.width, fun k => intBits t (intVal t (r.el t a k)).natAbs)
      else some (d, m, t.width, fun k => r.el t a k % 2 ^ (t.width - 1))
  | .vneg d a m t => if t.isInt then some (d, m, t.width, fun k => intBits t (-(intVal t (r.el t a k))))
      else some (d, m, t.width, fun k => (r.el t a k + 2 ^ (t.width - 1)) % 2 ^ t.width)
  | .vadds d a b m t => some (d, m, t.width, fun k => intBits t (clampTo t (intVal t (r.el t a k) + intVal t (r.el t b k))))
  | .vsubs d a b m t => some (d, m, t.width, fun k => intBits t (clampTo t (intVal t (r.el t a k) - intVal t (r.el t b k))))
  | .vmulh d a b m t => some (d, m, t.width, fun k => intBits t (intVal t (r.el t a k) * intVal t (r.el t b k) / 2 ^ t.width))
  | .vand d a b m t => some (d, m, t.width, fun k => r.el t a k &&& r.el t b k)
  | .vor d a b m t => some (d, m, t.width, fun k => r.el t a k ||| r.el t b k)
  | .vxor d a b m t => some (d, m, t.width, fun k => r.el t a k ^^^ r.el t b k)
  | .vnot d a m t => some (d, m, t.width, fun k => 2 ^ t.width - 1 - r.el t a k)
  | .vshl d a n m t => some (d, m, t.width, fun k =>
      r.el t a k * 2 ^ ((match n with | .vec b => r.el t b k | .sca _ => r.sca) % t.width) % 2 ^ t.width)
  | .vshrz d a n m t => some (d, m, t.width, fun k =>
      r.el t a k / 2 ^ ((match n with | .vec b => r.el t b k | .sca _ => r.sca) % t.width))
  | .vshrs d a n m t => some (d, m, t.width, fun k =>
      (BitVec.ofInt t.width ((BitVec.ofNat t.width (r.el t a k)).toInt /
        2 ^ ((match n with | .vec b => r.el t b k | .sca _ => r.sca) % t.width))).toNat)
  | .vbcast d _ m t => some (d, m, t.width, fun _ => r.sca % 2 ^ t.width)
  | .vidx d _ m t => some (d, m, t.width, fun k => (r.sca + k) % 2 ^ t.width)
  | .vperm d a b m t => some (d, m, t.width, fun k => if r.el t b k < 2048 / t.width then r.el t a (r.el t b k) else 0)
  | .vslide d a b m t n => some (d, m, t.width, fun k =>
      if k + n.toNat < 2048 / t.width then r.el t a (k + n.toNat) else r.el t b (k + n.toNat - 2048 / t.width))
  | .vmov d a m t => some (d, m, t.width, fun k => r.el t a k)
  | .vins d _ t n => some (d, 0, t.width, fun k => if k = n.toNat then r.sca % 2 ^ t.width else r.el t d k)
  | .vxpnd d a m t => some (d, m, t.width, fun k =>
      r.el t a ((List.range k).countP fun j => (r.m m).getLsbD (t.width * j / 8)))
  | .vdot4 d a b m t sat => some (d, m, 32, fun k =>
      let w : Ty := if t = .s8 then .s32 else .z32
      let z := intVal w (r.el .b32 d k) +
        ((List.range 4).map fun j => intVal t (r.el t a (4 * k + j)) * intVal t (r.el t b (4 * k + j))).sum
      intBits w (if sat then clampTo w z else z))
  | .vpack d a b m t sat => some (d, m, t.width / 2, fun k =>
      let n := 2048 / t.width
      let x := if k < n then r.el t a k else r.el t b (k - n)
      if sat then intBits (halfTy t) (clampTo (halfTy t) (intVal t x)) else x % 2 ^ (t.width / 2))
  | .vunpk d a m t hi => some (d, m, t.width, fun k =>
      let x := r.el (halfTy t) a ((if hi then 2048 / t.width else 0) + k)
      if t.isSigned then intBits t (intVal (halfTy t) x) else x)
  | .vscan d a m t _ o => if t.isInt then some (d, m, t.width, fun k => scanRule t o (activeEls r t m a (k + 1))) else none
  | _ => none

/-- R239: the value that a reduction leaves, extended to 64 bits. -/
def extended (t : Ty) (x : Nat) : Word64 := if t.isSigned then BitVec.ofInt 64 (intVal t x) else BitVec.ofNat 64 x

/-- R239: position `j` of the tree after `k` levels, `f` combining neighbours. -/
def treeAt (f : Nat → Nat → Nat) (l : Nat → Option Nat) : Nat → Nat → Option Nat
  | 0, j => l j
  | k + 1, j =>
    match treeAt f l k (2 * j), treeAt f l k (2 * j + 1) with
    | some a, some b => some (f a b)
    | some a, none => some a
    | none, b => b

/-- R233: an integer as an element of another integer type. -/
def intConvert (td ts : Ty) (sat : Bool) (x : Nat) : Nat :=
  if sat = true ∧ td.width < ts.width then intBits td (clampTo td (intVal ts x)) else intBits td (intVal ts x)

/-- R233: element `k` of a conversion: what is converted, or the element kept. -/
def convertRule (r : Srcs) (d a : VRegNo) (m : MReg) (td ts : Ty) (part k : Nat) (f : Nat → Nat) : Nat :=
  let n := 2048 / max ts.width td.width
  let on := (r.m m).getLsbD (td.width * k / 8) = true
  let old := elem (r.v d.val).toNat td.width k
  if td.width < ts.width then (if part * n ≤ k ∧ k < part * n + n ∧ on then f (r.el ts a (k - part * n)) else old)
  else if on then f (r.el ts a (part * n + k)) else old

/-! ### Floating-point numbers (R216 to R220) -/

/-- R216: the real number that a finite value of a layout is. -/
def valueIs (v : FV) (x : ℝ) : Prop :=
  match v with
  | .fin neg m e => x = (if neg then -1 else 1) * (m : ℝ) * (2 : ℝ) ^ e
  | _ => False

/-- A pattern of a layout that stands for a real number. -/
def patternIs (f : Fmt) (y : Nat) (x : ℝ) : Prop := y < 2 ^ f.width ∧ valueIs (unpack f y) x

/-- R219: the pattern to which a number rounds that is not 0 and within the finite range of a layout; a result of zero keeps the sign. -/
def roundsTo (f : Fmt) (rm : Rm) (x : ℝ) (y : Nat) : Prop :=
  ∃ v, patternIs f y v ∧ (v = 0 → (y.testBit (f.eb + f.fb) = true ↔ x < 0)) ∧
    match rm with
    | .rne => ∀ z w, patternIs f z w → |x - v| ≤ |x - w| ∧ (|x - w| = |x - v| → w ≠ v → y % 2 = 0)
    | .rtz => |v| ≤ |x| ∧ ∀ z w, patternIs f z w → |w| ≤ |x| → |x - v| ≤ |x - w|
    | .rdn => v ≤ x ∧ ∀ z w, patternIs f z w → w ≤ x → w ≤ v
    | .rup => x ≤ v ∧ ∀ z w, patternIs f z w → x ≤ w → v ≤ w

/-- R220: the pattern for a number beyond the largest finite value of a layout. To nearest even it is an infinity from half a unit of
the last place beyond on. -/
def beyondTo (f : Fmt) (rm : Rm) (sat : Bool) (x : ℝ) (y : Nat) : Prop :=
  ∀ neg : Bool, (neg = true ↔ x < 0) →
    if sat = true ∨ f.inf = false then y = maxBits f neg
    else match rm with
      | .rne =>
        let half : ℝ := (2 ^ (f.fb + 2) - 1) * (2 : ℝ) ^ ((f.bias : Int) - f.fb - 1)
        (half ≤ |x| → y = infBits f neg) ∧ (|x| < half → y = maxBits f neg)
      | .rtz => y = maxBits f neg
      | .rdn => y = if neg then infBits f neg else maxBits f neg
      | .rup => y = if neg then maxBits f neg else infBits f neg

/-- R219, R220: `y` is rnd(x) in a layout, for a number that is not 0. -/
def isRnd (f : Fmt) (rm : Rm) (sat : Bool) (x : ℝ) (y : Nat) : Prop :=
  x ≠ 0 → ∀ top, patternIs f (maxBits f false) top → (|x| ≤ top → roundsTo f rm x y) ∧ (top < |x| → beyondTo f rm sat x y)

/-- R219: a number rounded to an integer. -/
def roundsToInt (rm : Rm) (x : ℝ) (n : Int) : Prop :=
  match rm with
  | .rne => |x - n| ≤ 1 / 2 ∧ (|x - n| = 1 / 2 → n % 2 = 0)
  | .rtz => |(n : ℝ)| ≤ |x| ∧ |x - n| < 1 ∧ 0 ≤ n * x
  | .rdn => (n : ℝ) ≤ x ∧ x < n + 1
  | .rup => x ≤ n ∧ (n : ℝ) < x + 1

/-- The pattern of a zero. -/
def zeroBits (f : Fmt) (neg : Bool) : Nat := neg.toNat * 2 ^ (f.eb + f.fb)

/-- The floating-point types of the vector unit (R31). -/
def floatTypes : List Ty := [.h16, .bf16, .f32, .f64]

/-- The types that VCVT converts from and to beside the integers (R233). -/
def convertTypes : List Ty := floatTypes ++ [.e4m3, .e5m2, .e2m1]

/-- R226: the destination, the mask, the type and the value of lane `k` of the merging operations on floating-point types. -/
def floatLaneRule (r : Srcs) : Instr → Option (VRegNo × MReg × Ty × (Nat → Nat))
  | .vadd d a b m t rm => some (d, m, t, fun k => fAdd (fmtOf t) rm (r.el t a k) (r.el t b k))
  | .vsub d a b m t rm => some (d, m, t, fun k => fSub (fmtOf t) rm (r.el t a k) (r.el t b k))
  | .vmul d a b m t rm => some (d, m, t, fun k => fMul (fmtOf t) rm (r.el t a k) (r.el t b k))
  | .vdiv d a b m t rm => some (d, m, t, fun k => fDiv (fmtOf t) rm (r.el t a k) (r.el t b k))
  | .vfma d a b c m t rm => some (d, m, t, fun k => fFma (fmtOf t) rm false false (r.el t a k) (r.el t b k) (r.el t c k))
  | .vfms d a b c m t rm => some (d, m, t, fun k => fFma (fmtOf t) rm false true (r.el t a k) (r.el t b k) (r.el t c k))
  | .vfnma d a b c m t rm => some (d, m, t, fun k => fFma (fmtOf t) rm true false (r.el t a k) (r.el t b k) (r.el t c k))
  | .vsqrt d a m t rm => some (d, m, t, fun k => fSqrt (fmtOf t) rm (r.el t a k))
  | .vmin d a b m t => some (d, m, t, fun k => minNumber (fmtOf t) (r.el t a k) (r.el t b k))
  | .vmax d a b m t => some (d, m, t, fun k => maxNumber (fmtOf t) (r.el t a k) (r.el t b k))
  | .vrcpa d a m t => some (d, m, t, fun k => approxElem 0 t (r.el t a k))
  | .vrsqa d a m t => some (d, m, t, fun k => approxElem 1 t (r.el t a k))
  | .vexpa d a m t => some (d, m, t, fun k => approxElem 2 t (r.el t a k))
  | .vloga d a m t => some (d, m, t, fun k => approxElem 3 t (r.el t a k))
  | .vscan d a m t rm o => some (d, m, t, fun k =>
      let f := match o with | .add => fAdd (fmtOf t) rm | .min => minNumber (fmtOf t) | .max => maxNumber (fmtOf t)
      match activeEls r t m a (k + 1) with
      | x :: l => l.foldl f x
      | [] => 0)
  | _ => none

/-- The accumulator and every product of a group are zeros of one sign. -/
def zerosOf (neg : Bool) (c : FV) (ps : List FV) : Prop := (∃ e, c = .fin neg 0 e) ∧ ∀ q ∈ ps, ∃ e, q = .fin neg 0 e

/-- R288: the products of a group added to `c` with one rounding: `y` is the new value. -/
def groupAdds (rm : Rm) (c : Nat) (ps : List FV) (y : Nat) : Prop :=
  let f := fmtOf .f32
  (∀ z (xs : List ℝ), valueIs (unpack f c) z → List.Forall₂ valueIs ps xs →
    isRnd f rm false (z + xs.sum) y ∧
    (z + xs.sum = 0 →
      (zerosOf true (unpack f c) ps → y = zeroBits f true) ∧
      (¬ zerosOf true (unpack f c) ps → rm ≠ .rdn → y = zeroBits f false) ∧
      (¬ zerosOf false (unpack f c) ps → rm = .rdn → y = zeroBits f true))) ∧
  ((unpack f c = .nan ∨ .nan ∈ ps ∨ (.inf true ∈ unpack f c :: ps ∧ .inf false ∈ unpack f c :: ps)) → y = nanBits f) ∧
  ∀ n, .inf n ∈ unpack f c :: ps → .inf (!n) ∉ unpack f c :: ps → .nan ∉ unpack f c :: ps → y = infBits f n

/-! ### Units, system software and the outside -/

/-- R349: what a slot waits for is one of the limited waits, and it has not come. -/
def LimitedWait (s : State) (g : SlotKey) : Prop :=
  match (slotAt s g).ctl.wait with
  | .channel .. | .copy _ _ _ | .barrier _ _ _ => True
  | .fullempty loc =>
    (∃ q ∈ (cellAt s (locCell loc)).feq, ∃ r ∈ q.2.1 ++ q.2.2, r.gid = g ∧ r.epoch = (slotAt s g).ctl.epoch) ∨
    ∃ c, ctxAt s (slotAt s g).ctl.asid = some c ∧
      ∃ p ∈ c.saved, ∃ q ∈ p.2.feq, ∃ r ∈ q.2.1 ++ q.2.2, r.gid = g ∧ r.epoch = (slotAt s g).ctl.epoch
  | .reserve _ _ => ∃ q ∈ s.mem.resv, g ∈ q.2.fifo
  | _ => False

/-- Memory of this device, none of whose lines a stash holds written (R20, R259). -/
def PlainMemory (s : State) (pa n : Nat) : Prop :=
  isLocal pa n = true ∧ ∀ l, pa / 128 ≤ l → l ≤ (pa + n) / 128 → ∀ h ∈ holdersOf s l, h.2.2.2 = false

/-- `n` bytes of this device's memory as a number. -/
def memNat (s : State) (pa n : Nat) : Nat := leNat (getBytes s.mem.bytes pa n)

/-- R368: the save area at `a` holds the image of slot `x`, whose vector registers are `v`. -/
def ImageOf (s : State) (a : Nat) (x : Slot) (v : Nat → VVal) : Prop :=
  memNat s a 8 = (nextWord x).2.toNat ∧ memNat s (a + 0x008) 1 = (spilledFrom x).code ∧ memNat s (a + 0x009) 1 = x.ctl.wait.code ∧
  memNat s (a + 0x010) 8 = x.lclk % 2 ^ 64 ∧ memNat s (a + 0x018) 8 = x.parkCnt % 2 ^ 64 ∧
  memNat s (a + 0x020) 8 = x.waitlim.toNat ∧ memNat s (a + 0x028) 8 = x.trap.vec.toNat ∧
  memNat s (a + 0x030) 8 = x.trap.cause.toNat ∧ memNat s (a + 0x038) 8 = x.trap.addr.toNat ∧
  memNat s (a + 0x040) 8 = x.trap.pc.toNat ∧
  (∀ n : SReg, n ≠ 0 → memNat s (a + 0x100 + 8 * n.val) 8 = x.regs.s[n.val].toNat) ∧
  (∀ n : SReg, elem (memNat s (a + 0x200) 8) 2 n.val = Pres.num x.regs.sp[n.val]) ∧
  (∀ n : GReg, elem (memNat s (a + 0x208) 1) 1 n.val = x.regs.p[n.val].toNat ∧
    elem (memNat s (a + 0x209) 2) 2 n.val = Pres.num x.regs.pp[n.val]) ∧
  (∀ n : MReg, memNat s (a + 0x240 + 32 * n.val) 32 = x.regs.m[n.val].toNat ∧
    elem (memNat s (a + 0x210) 2) 2 n.val = Pres.num x.regs.mp[n.val]) ∧
  (∀ n : VRegNo, elem (memNat s (a + 0x218) 8) 2 n.val = Pres.num x.regs.vp[n.val] ∧
    (n.val < x.win.size → memNat s (a + 0x400 + 256 * n.val) 256 = (v n.val).toNat)) ∧
  ∀ k : Fin 16, memNat s (a + 0xCC00 + 8 * k.val) 8 = x.ctr[k.val] % 2 ^ 64

/-- A debugger is attached to the context of a slot, and the slot is halted (R377). -/
def AtProbe (s : State) (g : SlotKey) : Prop := debugged s g = true ∧ (slotAt s g).ctl.st = .halted

/-- The requests of a slot changed. -/
def withReq (s : State) (g : SlotKey) (f : SlotReq → SlotReq) : State :=
  { s with slots := tput s.slots g { slotAt s g with ctl := { (slotAt s g).ctl with req := f (slotAt s g).ctl.req } } }

/-- A queue of a context changed. -/
def withQueue (s : State) (a q : Nat) (c : Ctx) (x : Queue) : State :=
  { s with ctxs := tput s.ctxs a { c with queues := tput c.queues q x } }

/-- A packet, its context and its position: the first of its queue that has not begun, with its context's partition in force. -/
def PacketDue (s : State) (k ty a : Nat) (c : Ctx) (p : Packet) : Prop :=
  packetAt s k ty = some (a, c, p) ∧ ctxAt s a = some c ∧ launchesWait c = false ∧ packetFirst c p = true

/-- A LOAD or UNLOAD packet that is the oldest of its context, the LOADER core that serves it (R89), and its request block (R64,
R65). -/
def LoadDue (s : State) (k ty a : Nat) (c : Ctx) (p : Packet) (core : CoreKey) (req : Nat) : Prop :=
  packetAt s k ty = some (a, c, p) ∧ ctxAt s a = some c ∧ loadFirst c k = true ∧ workCore s 3 = some core ∧
  loadRequest s (ctxWho a c.rcd.priv core) p = some req

/-- The admin queue of PF0 has a next packet of type `ty`, which a QUEUE core takes (R92 to R94, R397): `t` is the machine once the packet
is accepted, `q` the request block. -/
def AdminDue (s : State) (cb ty q : Nat) (t : State) : Prop :=
  ∃ bs ps qs, readPhys s cb 64 = some bs ∧ cb % 64 = 0 ∧ (workCore s 0).isSome = true ∧ dField (leNat bs) 9 1 ≠ 1 ∧
    blockOk (leNat bs) = true ∧ dField (leNat bs) 24 8 < dField (leNat bs) 16 8 ∧
    readPhys s (dField (leNat bs) 0 8 + 64 * (dField (leNat bs) 24 8 % 2 ^ dField (leNat bs) 8 1)) 64 = some ps ∧
    adminError (leNat ps) = 0 ∧ dField (leNat ps) 0 1 = ty ∧
    (dField (leNat ps) 1 1 % 2 = 0 ∨ ∀ x ∈ s.ctxs, x.2.pending = none) ∧
    t = writeAdmin cb [(24, 8, (dField (leNat bs) 24 8 + 1) % 2 ^ 64)] s ∧
    readPhys t (dField (leNat ps) 8 8) 64 = some qs ∧ q = leNat qs

/-- No context has a DESTROY or MIGRATE under way. -/
def NonePending (s : State) : Prop := ∀ x ∈ s.ctxs, x.2.pending = none

/-- A peer's atomic access, or the host's, to a physical address (R316, R323, R325). -/
def Outside (pa : Nat) (op : AtomOp) (acc : Instr) : Prop :=
  (∃ o t b, op = .amo o t b ∧ (acc = .linkAgentAccess (.atomic pa o t b) ∨ acc = .hostAccess (.atomic pa o t b))) ∨
  (∃ t e n, op = .cas t e n ∧ (acc = .linkAgentAccess (.cas pa t e n) ∨ acc = .hostAccess (.cas pa t e n))) ∨
  ∃ lo hi nlo nhi, op = .cas2 lo hi nlo nhi ∧
    (acc = .linkAgentAccess (.cas2 pa lo hi nlo nhi) ∨ acc = .hostAccess (.cas2 pa lo hi nlo nhi))

/-- R327, R329, R330: what such an access makes of the `n` bytes there, and what goes back: for CAS2 the old pair, for the others the old
value, and the new one beside it. -/
def OutsideDoes (op : AtomOp) (old n new : Nat) (out : List Nat) : Prop :=
  match op with
  | .amo o t b => n = t.width / 8 ∧ amoInteger o t old b.toNat = some new ∧ out = [old, new]
  | .cas t e v => n = t.width / 8 ∧ (t = .z32 ∨ t = .z64) ∧ out = [old, new] ∧
    new = if old = e.toNat % 2 ^ t.width then v.toNat % 2 ^ t.width else old
  | .cas2 lo hi nlo nhi => n = 16 ∧ out = [old % 2 ^ 64, old / 2 ^ 64] ∧
    new = if old = lo.toNat + 2 ^ 64 * hi.toNat then nlo.toNat + 2 ^ 64 * nhi.toNat else old
  | .routine .. => False

/-- The packets of a context without one of them. -/
def packetsBut (c : Ctx) (k : Nat) : List Packet := c.packets.filter fun p => p.id != k

/-- A packet of a context has ended, with no grid (R101). -/
def PacketEnded (s u : State) (a k : Nat) (c : Ctx) : Prop :=
  u.grids = s.grids ∧ ctxAt u a = some { c with packets := packetsBut c k }

/-! ### A state with one thing changed -/

/-- A context record changed, where the context exists. -/
def withCtx (s : State) (a : Nat) (f : Ctx → Ctx) : State :=
  match tfind s.ctxs a with
  | some c => { s with ctxs := tput s.ctxs a (f c) }
  | none => s

/-- A core, a cell, a format-window word or a grid record changed. -/
def withCore (s : State) (c : CoreKey) (f : Core → Core) : State := { s with cores := tput s.cores c (f (coreAt s c)) }
def withCell (s : State) (c : CellKey) (f : Cell → Cell) : State := { s with cells := tput s.cells c (f (cellAt s c)) }
def withFwin (s : State) (sec n k : Nat) (v : Word64) : State := { s with fwin := tput s.fwin (128 * sec + 8 * n + k) v }

/-- A message more on its way, under the next number. -/
def withMsg (s : State) (m : Msg) : State := { s with net := tput s.net s.nextId m, nextId := s.nextId + 1 }

end Sys2Proof.Machine
end

