-- ==== Sys2Proof/Certificates/Slice0/Obligations.lean ====
section
/-! DEFINITION. The statements about the machine. -/

namespace Sys2Proof.Machine

end Sys2Proof.Machine

open Sys2Proof Sys2Proof.Machine

def Obligations.MemoryWfAtReset : Prop := Memory.wf State.reset

/-- R163 to R165: the instructions of major 0x01 write the value of the table, the four divisions the q and r of R164, and nothing
else. -/
def Obligations.IntegerResults : Prop :=
  (∀ i s d v, Ready i s → divisionValue (me s) i = some (d, v) → ∃ t, exec i s = .next t ∧ WroteS d v s t) ∧
  ∀ i s d v, Ready i s → aluValue (me s) i = some (d, v) → ∃ t, exec i s = .next t ∧ WroteS d v s t

/-- R166 to R170, R49: MADD, the unary instructions and those with an immediate. -/
def Obligations.UnaryImmediateResults : Prop :=
  (∀ i s d v, Ready i s → unaryValue (me s) i = some (d, v) → ∃ t, exec i s = .next t ∧ WroteS d v s t) ∧
  ∀ i s d v, Ready i s → immediateValue (me s) i = some (d, v) → ∃ t, exec i s = .next t ∧ WroteS d v s t

/-- R171, R172, R176, R177: BFX, BFI, SEL and XYA. -/
def Obligations.FieldSelectAddressResults : Prop :=
  (∀ s d a sg w p, Ready (.bfx d a sg w p) s → ∃ t v, exec (.bfx d a sg w p) s = .next t ∧ WroteS d v s t ∧
    let f := ((sGet (me s) a) >>> p.toNat).setWidth (w.toNat + 1)
    v = if sg then f.signExtend 64 else f.setWidth 64) ∧
  (∀ s d a w p, Ready (.bfi d a w p) s → ∃ t v, exec (.bfi d a w p) s = .next t ∧ WroteS d v s t ∧
    ∀ k, k < 64 → v.getLsbD k =
      if p.toNat ≤ k ∧ k ≤ p.toNat + w.toNat then (sGet (me s) a).getLsbD (k - p.toNat) else (sGet (me s) d).getLsbD k) ∧
  (∀ s d a b g neg, Ready (.sel d a b g neg) s → ∃ t, exec (.sel d a b g neg) s = .next t ∧
    WroteS d (if (pGet (me s) g = true ∧ neg = false) ∨ (pGet (me s) g = false ∧ neg = true) then sGet (me s) a
      else sGet (me s) b) s t) ∧
  ∀ s d a b ctl rel, Ready (.xya d a b ctl rel) s → ∃ t, exec (.xya d a b ctl rel) s = .next t ∧
    let x := sGet (me s) a
    WroteS d (0xFF00000000000000 ||| (if rel then 1 <<< 55 else 0) ||| ((x &&& 0xFF) <<< 40) ||| (((x >>> 8) &&& 0xFF) <<< 32) |||
      (if ctl then 1 <<< 30 else 0) ||| (sGet (me s) b &&& 0x7FFFF)) s t

/-- R174, R175: comparisons and guard operations. -/
def Obligations.GuardResults : Prop :=
  (∀ s g a b c, Ready (.cmp g a b c) s → ∃ t v, exec (.cmp g a b c) s = .next t ∧ WroteP g v s t ∧
    (v = true ↔ condTrue c (sGet (me s) a) (sGet (me s) b))) ∧
  (∀ s g a c n, Ready (.cmpi g a c n) s → ∃ t v, exec (.cmpi g a c n) s = .next t ∧ WroteP g v s t ∧
    (v = true ↔ condTrue c (sGet (me s) a) (BitVec.ofInt 64 n.toInt))) ∧
  (∀ s d a b, Ready (.pand d a b) s → ∃ t, exec (.pand d a b) s = .next t ∧ WroteP d (pGet (me s) a && pGet (me s) b) s t) ∧
  (∀ s d a b, Ready (.por d a b) s → ∃ t, exec (.por d a b) s = .next t ∧ WroteP d (pGet (me s) a || pGet (me s) b) s t) ∧
  (∀ s d a b, Ready (.pxor d a b) s → ∃ t, exec (.pxor d a b) s = .next t ∧
    WroteP d (Bool.xor (pGet (me s) a) (pGet (me s) b)) s t) ∧
  (∀ s d a, Ready (.pnot d a) s → ∃ t, exec (.pnot d a) s = .next t ∧ WroteP d (!pGet (me s) a) s t) ∧
  (∀ s d a, Ready (.movpFrom d a) s → ∃ t, exec (.movpFrom d a) s = .next t ∧ WroteS d (if pGet (me s) a then 1 else 0) s t) ∧
  ∀ s d a, Ready (.movpTo d a) s → ∃ t v, exec (.movpTo d a) s = .next t ∧ WroteP d v s t ∧ (v = true ↔ sGet (me s) a ≠ 0)

/-- R155 to R157: CGET writes the register's value, field by field. -/
def Obligations.ControlRegisterReads : Prop :=
  ∀ s d n, Ready (.cget d n) s → cregListed n.toNat = true → (cregPriv n.toNat = true → privileged s s.issue.gid = true) →
    ∃ t v, exec (.cget d n) s = .next t ∧ WroteS d v s t ∧ CregShows s n.toNat v

/-- R155, R348, R360: CSET of WAITLIM, TRAPVEC and TRAPPC; CSET of a read-only register is ignored (R10). -/
def Obligations.SlotRegisterWrites : Prop :=
  ∀ s a n, Ready (.cset a n) s → cregListed n.toNat = true → (cregPriv n.toNat = true → privileged s s.issue.gid = true) →
    ∃ t, exec (.cset a n) s = .next t ∧ OnlySlot s t ∧ GoesOn (me s) (slotAt t s.issue.gid) ∧
      slotAt t s.issue.gid = { me s with
        ctl := (slotAt t s.issue.gid).ctl
        ctr := (slotAt t s.issue.gid).ctr
        waitlim := if n = 0x012 then sGet (me s) a &&& 0x00000000FFFFFFFF else (me s).waitlim
        trap := { (me s).trap with
          vec := if n = 0x020 then sGet (me s) a &&& 0xFFFFFFFFFFFFFFFE else (me s).trap.vec
          pc := if n = 0x023 then sGet (me s) a &&& 0xFFFFFFFFFFFFFFFE else (me s).trap.pc } }

/-- R125, R194, R203, R308: CSET of the registers of a context and of a core. LLEASE is open to privileged code alone. -/
def Obligations.ContextRegisterWrites : Prop :=
  (∀ s a, Ready (.csetLlease a) s → privileged s s.issue.gid = true → ∃ t, exec (.csetLlease a) s = .next t ∧
    WroteNothing (withCtx s (myAsid s) fun c => { c with llease := max 16 (min 4096 ((sGet (me s) a).toNat % 8192)) }) t) ∧
  (∀ s a, Ready (.csetSpeclim a) s → ∃ t v, exec (.csetSpeclim a) s = .next t ∧
    WroteNothing (withCtx s (myAsid s) fun c => { c with speclim := v }) t ∧
    bits v 0 13 = max 1 (min 4096 (bits (sGet (me s) a) 0 13)) ∧ bits v 16 23 = max 1 (min 4194304 (bits (sGet (me s) a) 16 23)) ∧
    bits v 40 13 = min 4096 (bits (sGet (me s) a) 40 13) ∧ bits v 13 3 = 0 ∧ bits v 39 1 = 0 ∧ bits v 53 11 = 0) ∧
  (∀ s a, Ready (.csetPbase a) s → privileged s s.issue.gid = true → ∃ t, exec (.csetPbase a) s = .next t ∧
    WroteNothing (withCtx s (myAsid s) fun c => { c with part := { c.part with staged := some ((sGet (me s) a).toNat % 256) } }) t) ∧
  (∀ s a, Ready (.csetDeqbase a) s → (coreAt s (myCore s)).area = 0 →
    bits (sGet (me s) a) 6 13 * 64 + bits (sGet (me s) a) 32 13 * 64 ≤ tenantStash s (myCell s) →
    ∃ t, exec (.csetDeqbase a) s = .next t ∧
      WroteNothing (withCore s (myCore s) fun k => { k with deqbase := sGet (me s) a &&& 0x00001FFF0007FFC0 }) t)

/-- R124, R125: CSET of PLEN: a partition that does not fit beside those that are committed and those that are in force is refused and
the staged base forgotten; one that fits is committed, and takes effect at once where the context has neither ticks nor a live
grid: the stash of every cell that leaves or joins is zero below the part of system software, with empty tags. A PLEN with no staged base
keeps the committed one, and a context whose new partition another context runs on is switched out there (log entry 72, DESIGN CHOICE). -/
def Obligations.PartitionCommit : Prop :=
  ∀ s a c, Ready (.csetPlen a) s → privileged s s.issue.gid = true → ctxAt s (myAsid s) = some c →
    ∃ t u, exec (.csetPlen a) s = .next t ∧ WroteNothing u t ∧
      let len := (sGet (me s) a).toNat % 512
      let base := c.part.staged.getD c.part.base
      let others := (s.ctxs.filter fun q => q.1 != myAsid s).flatMap fun q =>
        [(q.2.part.base, q.2.part.len), (q.2.part.curBase, q.2.part.curLen)]
      let within := fun (b l : Nat) (k : CellKey) => b ≤ hilbert k ∧ hilbert k < b + l
      let fits := 1 ≤ len ∧ base + len ≤ 256 ∧ (∀ o ∈ others, o = (base, len) ∨ base + len ≤ o.1 ∨ o.1 + o.2 ≤ base) ∧
        ((base, len) :: others).eraseDups.length ≤ 32
      (¬ fits → u = withCtx s (myAsid s) fun c => { c with part := { c.part with staged := none } }) ∧
      (fits → (c.rcd.tick ≠ 0 ∨ hasLiveGrid s (myAsid s) = true) →
        u = withCtx s (myAsid s) fun c => { c with part := { c.part with base := base, len := len, staged := none, since := s.nextId } }) ∧
      (fits → c.rcd.tick = 0 → hasLiveGrid s (myAsid s) = false →
        let busy := runsElse s (myAsid s) base len
        u = { s with cells := u.cells, cores := u.cores, ctxs := u.ctxs, mem := u.mem } ∧
        (∃ d, ctxAt u (myAsid s) = some d ∧ d.out = busy ∧
          d.part = { base := base, len := len, curBase := base, curLen := len, staged := none, since := s.nextId }) ∧
        ∀ k, k < 256 → ¬ (c.out = false ∧ within c.part.curBase c.part.curLen k ↔ busy = false ∧ within base len k) →
          (∀ off, off < tenantStash s k → getByte (cellAt u k).stash off = 0) ∧
          ∀ w ∈ (cellAt u k).tags, tenantStash s k ≤ 8 * w)

/-- R150, R423: CSET of VWIN: an unchanged size has no effect; a size that can be given now moves the window, its first
registers keeping value and presence and the others zero and full; otherwise the slot parks with reason bank. -/
def Obligations.WindowResize : Prop :=
  ∀ s a, Ready (.csetVwin a) s → ∃ t, exec (.csetVwin a) s = .next t ∧
    let g := s.issue.gid
    let size := bits (sGet (me s) a) 16 6
    (size ≠ 0 → size ≠ 8 → size ≠ 16 → size ≠ 32 → t = fault fWindow s) ∧
    ((size = 0 ∨ size = 8 ∨ size = 16 ∨ size = 32) →
      (size = (me s).win.size → WroteNothing s t) ∧
      (size ≠ (me s).win.size → opsPending s g = false → ∀ b, windowFor s g size = some b →
        (size = 0 ∨ bankAwake s (myCell s) b = true) →
        t.issue.done = true ∧ GoesOn (me s) (slotAt t g) ∧ (slotAt t g).win = { base := b, size := size } ∧
        (∀ k : Fin 32, k.val < size →
          vGet t g k.val = (if k.val < (me s).win.size then vGet s g k.val else 0) ∧
          (slotAt t g).regs.vp[k.val] = if k.val < (me s).win.size then (me s).regs.vp[k.val] else .full)) ∧
      (size ≠ (me s).win.size → (opsPending s g = true ∨ windowFor s g size = none) →
        (slotAt t g).ctl.st = .parked ∧ (slotAt t g).ctl.wait = .resize size ∧ (slotAt t g).ctl.pc = (me s).ctl.pc))

/-- R272, R271, R275: writes of the format windows' words by privileged code. -/
def Obligations.FormatWindowWrites : Prop :=
  (∀ s a n, Ready (.fwinWord0Write a n) s → privileged s s.issue.gid = true →
    (bit (sGet (me s) a) 0 = true → windowOk s (sectorOf (myCell s)) n.val (sGet (me s) a) = true) →
    ∃ t, exec (.fwinWord0Write a n) s = .next t ∧
      WroteNothing (withFwin s (sectorOf (myCell s)) n.val 0 (sGet (me s) a &&& 0xFF)) t) ∧
  (∀ s a n, Ready (.fwinWord0Write a n) s → privileged s s.issue.gid = true → bit (sGet (me s) a) 0 = true →
    windowOk s (sectorOf (myCell s)) n.val (sGet (me s) a) = false →
    ∃ u, exec (.fwinWord0Write a n) s = .next (fault (fFormat 2 0) u) ∧
      u = { s with fwin := u.fwin } ∧ bit (fwinWord u (sectorOf (myCell s)) n.val 0) 0 = false) ∧
  (∀ s a n k, Ready (.fwinConfigWrite a n k) s → privileged s s.issue.gid = true → 1 ≤ k.val → k.val ≠ 5 →
    bit (fwinWord s (sectorOf (myCell s)) n.val 0) 0 = false →
    ∃ t, exec (.fwinConfigWrite a n k) s = .next t ∧
      let m : Word64 := match k.val with
        | 1 => 0x000FFFFFFFFFFF80 | 2 => 0x00FFFFFF00FFFFFF | 3 => 0x000FFFFFFFFFFFF0 | _ => 0x000FFFFFFFFFFFFF
      WroteNothing (if k.val ≤ 4 then withFwin s (sectorOf (myCell s)) n.val k.val (sGet (me s) a &&& m) else s) t) ∧
  (∀ s a n, Ready (.inval a n) s → privileged s s.issue.gid = true → ∃ t, exec (.inval a n) s = .next t ∧
    WroteNothing (withMsg s (.inval s.issue.gid (sectorOf (myCell s)) n.val)) t) ∧
  (∀ s sec n, (∃ m ∈ s.net, ∃ g, m.2 = .inval g sec.val n.val) → ∃ u, exec (.viewLinesDropped sec n) s = .next (settle u) ∧
    (∀ m ∈ u.net, ∀ g, m.2 ≠ .inval g sec.val n.val) ∧
    let first := bits (fwinWord s sec.val n.val 1) 7 45
    let last := first + viewLen s sec.val n.val / 128
    u.mem.views = s.mem.views.filter fun v => decide (v.1 < first) || decide (last ≤ v.1))

/-- R155, R10: a control register that is open to privileged code alone raises F.PRIV for other code, and changes nothing. -/
def Obligations.PrivilegeFaults : Prop :=
  ∀ s i, privileged s s.issue.gid = false →
    (match i with
      | .cget _ n | .cset _ n => cregListed n.toNat = true ∧ (n = 0x011 ∨ n = 0x030 ∨ n = 0x031 ∨ 0x100 ≤ n.toNat)
      | .csetLlease _ | .csetPbase _ | .csetPlen _ | .fwinWord0Write _ _ | .fwinConfigWrite _ _ _ | .inval _ _ => True
      | _ => False) → exec i s = .next (fault (fPriv 0) s)

/-- R153, R154: PRES and DROP of a register inside the window, or a tile that the slot holds. -/
def Obligations.PresenceWords : Prop :=
  (∀ s p k, Ready (.pres p k) s → desigFault (.pres p k) s = none → ∃ t v, exec (.pres p k) s = .next t ∧ WroteP p v s t ∧
    (v = true ↔ presOf s s.issue.gid k = .full)) ∧
  (∀ s k, desigFault (.drop k) s = none → writeBlocks s s.issue.gid k = false → ∃ t, exec (.drop k) s = .next t ∧
    t.issue.done = true ∧ GoesOn (me s) (slotAt t s.issue.gid) ∧
    (k ≠ .s 0 → k ≠ .p 0 → k ≠ .m 0 → presOf t s.issue.gid k = .empty) ∧
    ((k = .s 0 ∨ k = .p 0 ∨ k = .m 0) → WroteNothing s t) ∧
    (∀ l, l ≠ k → presOf t s.issue.gid l = presOf s s.issue.gid l) ∧
    (slotAt t s.issue.gid).regs.s = (me s).regs.s ∧ (slotAt t s.issue.gid).regs.p = (me s).regs.p ∧
    (slotAt t s.issue.gid).regs.m = (me s).regs.m ∧ t.mem = s.mem ∧ ∀ h, h ≠ s.issue.gid → slotAt t h = slotAt s h) ∧
  (∀ p, presOf p p.issue.gid (.s 0) = .full ∧ presOf p p.issue.gid (.p 0) = .full ∧ presOf p p.issue.gid (.m 0) = .full)

/-- R180, R181, R186: a branch, call or return to an even target; an odd target raises F.ALIGN with the target in TRAPADDR,
before any link is written. -/
def Obligations.BranchesTaken : Prop :=
  (∀ i s dest link, Ready i s → branchOf s i = some (dest, link) → dest.getLsbD 0 = false →
    ∃ t, exec i s = .next t ∧ OnlySlot s t ∧ SameRest (me s) (slotAt t s.issue.gid) ∧
      (slotAt t s.issue.gid).ctl = { (me s).ctl with loops := bodiesWith dest (me s).ctl.loops, pc := dest } ∧
      (slotAt t s.issue.gid).ctr = (me s).ctr.set 1 (((me s).ctr[1] + 1) % 2 ^ 64) ∧
      (match link with
        | some d => ScalarSet d (me s).ctl.npc (me s).regs (slotAt t s.issue.gid).regs
        | none => (slotAt t s.issue.gid).regs = (me s).regs)) ∧
  ∀ i s dest link, Ready i s → branchOf s i = some (dest, link) → dest.getLsbD 0 = true →
    exec i s = .next (fault (fAlign dest) s)

/-- R42, R183, R184: LOOP and LOOPI: F.ILL where no loop may start, whatever the operands hold and whether they are full; the record
pushed; the body skipped at a count of 0, and the length of the end word read only where the slot goes on after it. -/
def Obligations.LoopStarts : Prop :=
  (∀ i s count e, loopOf s i = some (count, e) → ¬ LoopLegal s e → exec i s = .next (fault fIll s)) ∧
  ∀ i s count e, Ready i s → loopOf s i = some (count, e) → LoopLegal s e →
    (count ≠ 0 → ∃ t, exec i s = .next t ∧ OnlySlot s t ∧
      slotAt t s.issue.gid = { me s with
        ctl := { (me s).ctl with
          loops := { start := (me s).ctl.npc, stop := e, count := count } :: (me s).ctl.loops
          pc := (me s).ctl.npc }
        ctr := (me s).ctr.set 1 (((me s).ctr[1] + 1) % 2 ^ 64) }) ∧
    (count = 0 →
      let live := (me s).ctl.loops.filter fun r => !decide ((me s).ctl.pc.toNat < r.stop.toNat ∧ r.stop.toNat < e.toNat)
      (∀ gs, fetchLength s s.issue.gid e = .word gs → ∃ t, exec i s = .next t ∧ OnlySlot s t ∧
        let next := endCheck e (e + BitVec.ofNat 64 (2 * wordNeed gs)) live
        slotAt t s.issue.gid = { me s with
          ctl := { (me s).ctl with loops := next.1, pc := next.2 }
          ctr := (me s).ctr.set 1 (((me s).ctr[1] + 1) % 2 ^ 64) }) ∧
      ((∃ r ∈ live.head?, r.stop = e ∧ 2 ≤ r.count.toNat) → ∃ t, exec i s = .next t ∧ OnlySlot s t ∧
        slotAt t s.issue.gid = { me s with
          ctl := { (me s).ctl with loops := (endCheck e e live).1, pc := (endCheck e e live).2 }
          ctr := (me s).ctr.set 1 (((me s).ctr[1] + 1) % 2 ^ 64) }))

/-- R185: where a word that does not transfer control goes on. `endCheck` decides it, and the words, guards that are false and
parks that complete a word all use it. -/
def Obligations.LoopEnds : Prop :=
  (∀ w n l, (∀ r ∈ l, r.stop ≠ w) → endCheck w n l = (l, n)) ∧
  (∀ w n inner r outer, (∀ q ∈ inner, q.stop ≠ w) → r.stop = w → 2 ≤ r.count.toNat →
    endCheck w n (inner ++ r :: outer) = ({ r with count := r.count - 1 } :: outer, r.start)) ∧
  (∀ w n inner r outer, (∀ q ∈ inner, q.stop ≠ w) → r.stop = w → r.count = 1 →
    endCheck w n (inner ++ r :: outer) = endCheck w n outer) ∧
  (∀ i s, (i = .nop ∨ i = .nop16) → ∃ t, exec i s = .next t ∧ WroteNothing s t) ∧
  (∀ s w q, w.guard = some q → presOf s s.issue.gid (.p q.reg) = .full → pGet (me s) q.reg = q.neg →
    ∃ t, wordExec w s = .next t ∧ WroteNothing s t) ∧
  (∀ s g, (slotAt s g).ctl.st = .parked → (slotAt (finish g s) g).ctl =
    { (slotAt s g).ctl with
      st := .running
      wait := .none
      loops := (endCheck (slotAt s g).ctl.pc (slotAt s g).ctl.npc (slotAt s g).ctl.loops).1
      pc := (endCheck (slotAt s g).ctl.pc (slotAt s g).ctl.npc (slotAt s g).ctl.loops).2 })

/-- R361, R362: a fault of a word with a handler set and none running: the slot enters its handler, TRAPPC is the word, and
nothing else changes. -/
def Obligations.TrapEntry : Prop :=
  ∀ t s, (me s).trap.vec ≠ 0 → bit (me s).trap.cause 11 = false → t.code < 256 →
    SlotAlone s.issue.gid s (fault t s) ∧
    TrapEntered t (decide (s.issue.half = .vector)) (me s).ctl.pc (me s) (slotAt (fault t s) s.issue.gid)

/-- R361, R105, R111: a fault with no handler, or inside one, is a grid fault: a report with cause, pc and address is on its
way, the core's slots are all free, and the block is gone. -/
def Obligations.UnhandledTraps : Prop :=
  ∀ t s b, ((me s).trap.vec = 0 ∨ bit (me s).trap.cause 11 = true) → (coreAt s (myCore s)).block = some b →
    (∃ m ∈ (fault t s).net, ∃ f : GFault, m.2 = .gfault b.grid f ∧ f.cause = t.code ∧ f.pc = (me s).ctl.pc &&& 0xFFFFFFFFFFFFFFFE ∧ f.addr = t.addr ∧
      f.block = b.index ∧ f.core = coreNo s.issue.gid ∧ f.slot = slotNo s.issue.gid) ∧
    (coreAt (fault t s) (myCore s)).block = none ∧ ∀ h, coreOf h = myCore s → (slotAt (fault t s) h).ctl.st = .free

/-- R364, R365, R362: TRAP and BRK: TRAPPC is N with R185 applied; a debugger that is attached takes BRK. R364: TRET with IN set
restores the shadow and goes on at TRAPPC; without IN it raises F.ILL. Taking a trap and returning at once gives back every register,
its presence, both loop records and the pc (R361). -/
def Obligations.TrapsAskedAndLeft : Prop :=
  (∀ s, (me s).trap.vec ≠ 0 → bit (me s).trap.cause 11 = false →
    let n := (endCheck (me s).ctl.pc (me s).ctl.npc (me s).ctl.loops).2
    let x := { me s with ctl := { (me s).ctl with loops := (endCheck (me s).ctl.pc (me s).ctl.npc (me s).ctl.loops).1 } }
    (∀ c, ∃ t, exec (.trap c) s = .next t ∧ OnlySlot s t ∧
      TrapEntered { code := 14, detail := c.toNat } false n x (slotAt t s.issue.gid)) ∧
    ((∀ k, ctxAt s (myAsid s) = some k → k.attached = false) → ∃ t, exec .brk s = .next t ∧ OnlySlot s t ∧
      TrapEntered { code := 15 } false n x (slotAt t s.issue.gid)) ∧
    (∀ k, ctxAt s (myAsid s) = some k → k.attached = true → ∃ t, exec .brk s = .next t ∧ OnlySlot s t ∧
      (slotAt t s.issue.gid).ctl.st = .halted ∧ (slotAt t s.issue.gid).ctl.under = .running ∧ (slotAt t s.issue.gid).ctl.pc = n ∧
      (slotAt t s.issue.gid).regs = (me s).regs ∧ (slotAt t s.issue.gid).trap = (me s).trap)) ∧
  (∀ s, bit (me s).trap.cause 11 = true → ∃ t, exec .tret s = .next t ∧ OnlySlot s t ∧
    let x := me s
    let y := slotAt t s.issue.gid
    y = { x with ctl := y.ctl, regs := y.regs, trap := y.trap, ctr := y.ctr } ∧
    y.trap = { x.trap with cause := x.trap.cause &&& 0xFFFFFFFFFFFFF7FF } ∧
    y.ctl = { x.ctl with loops := x.shadow.loops, pc := x.trap.pc } ∧
    y.regs = { x.regs with s := y.regs.s, sp := y.regs.sp, p := y.regs.p, pp := y.regs.pp } ∧
    (y.regs.s[1] = x.shadow.s[0] ∧ y.regs.s[2] = x.shadow.s[1] ∧ y.regs.s[3] = x.shadow.s[2]) ∧
    (y.regs.sp[1] = x.shadow.sp[0] ∧ y.regs.sp[2] = x.shadow.sp[1] ∧ y.regs.sp[3] = x.shadow.sp[2]) ∧
    (∀ n : SReg, n.val = 0 ∨ 4 ≤ n.val → y.regs.s[n.val] = x.regs.s[n.val] ∧ y.regs.sp[n.val] = x.regs.sp[n.val]) ∧
    y.regs.p[1] = x.shadow.p1 ∧ y.regs.pp[1] = x.shadow.pp1 ∧
    (∀ n : GReg, n ≠ 1 → y.regs.p[n.val] = x.regs.p[n.val] ∧ y.regs.pp[n.val] = x.regs.pp[n.val]) ∧
    y.ctr = x.ctr.set 1 ((x.ctr[1] + 1) % 2 ^ 64)) ∧
  (∀ s, bit (me s).trap.cause 11 = false → exec .tret s = .next (fault fIll s)) ∧
  ∀ x t pc, let y := trapReturn (trapEntry t pc x)
    y.regs = x.regs ∧ y.ctl.loops = x.ctl.loops ∧ y.ctl.pc = pc &&& 0xFFFFFFFFFFFFFFFE ∧ bit y.trap.cause 11 = false

/-- R187, R189, R190, R193: FORK and IDLE. A full hardware deque first moves its 32 oldest tasks to the spill area, 64 bytes each, in a
ring of entries; a full area makes FORK fault. -/
def Obligations.ForkJoinIdle : Prop :=
  (∀ s a i, Ready (.fork a i) s → vmemPending s s.issue.gid = false →
    (coreAt s (myCore s)).deque.length - (coreAt s (myCore s)).area < 64 →
    (∀ d h, mayTake s d (myCore s) = true → coreOf h = d → (slotAt s h).ctl.st ≠ .idle) →
    ∃ t u, exec (.fork a i) s = .next t ∧ WroteNothing u t ∧ u = { s with cores := u.cores, fresh := u.fresh } ∧
      (∀ c, c ≠ myCore s → coreAt u c = coreAt s c) ∧
      ∃ k : Task, coreAt u (myCore s) = { coreAt s (myCore s) with deque := (coreAt s (myCore s)).deque ++ [k] } ∧
        k.pc = BitVec.ofInt 64 ((me s).ctl.pc.toInt + 2 * i.toInt) ∧ k.ctr = sGet (me s) a ∧
        k.args = #v[sGet (me s) 4, sGet (me s) 5, sGet (me s) 6, sGet (me s) 7]) ∧
  (∀ s a i, Ready (.fork a i) s → vmemPending s s.issue.gid = false →
    let c := coreAt s (myCore s)
    let cap := bits c.deqbase 32 13
    let base := bits c.deqbase 6 13 * 64
    64 ≤ c.deque.length - c.area →
    (cap < c.area + 32 → exec (.fork a i) s = .next (fault (fQueue 1) s)) ∧
    (c.area + 32 ≤ cap → bytesWf (cellAt s (myCell s)).stash = true →
      (∀ d h, mayTake s d (myCore s) = true → coreOf h = d → (slotAt s h).ctl.st ≠ .idle) →
      ∃ t k e, exec (.fork a i) s = .next t ∧ t.issue.done = true ∧ GoesOn (me s) (slotAt t s.issue.gid) ∧
        (slotAt t s.issue.gid).regs = (me s).regs ∧ OthersSame s t ∧
        (coreAt t (myCore s)).deque = c.deque ++ [k] ∧ (coreAt t (myCore s)).area = c.area + 32 ∧
        k.pc = BitVec.ofInt 64 ((me s).ctl.pc.toInt + 2 * i.toInt) ∧ k.ctr = sGet (me s) a ∧ (0 < c.area → e = c.areaAt) ∧
        (∀ n q, n < 32 → c.deque[c.area + n]? = some q →
          getBytes (cellAt t (myCell s)).stash (base + 64 * ((e + c.area + n) % cap)) 64 =
            ([q.pc, q.ctr, q.args[0], q.args[1], q.args[2], q.args[3], 0, 0].flatMap fun w => leBytes 8 w.toNat)) ∧
        ∀ x, x < base ∨ base + 64 * cap ≤ x → getByte (cellAt t (myCell s)).stash x = getByte (cellAt s (myCell s)).stash x)) ∧
  (∀ s, isKeeper s.issue.gid = true → exec .idle s = .next (fault (fPriv 0) s)) ∧
  (∀ s, isKeeper s.issue.gid = false →
    (∀ d, mayTake s (myCore s) d = true → (coreAt s d).deque = []) →
    ∃ t, exec .idle s = .next t ∧ OnlySlot s t ∧
      (slotAt t s.issue.gid).ctl = { (me s).ctl with st := .idle, wait := .none, loops := [], pc := (me s).ctl.npc } ∧
      (slotAt t s.issue.gid).regs = (me s).regs) ∧
  (∀ s k rest, isKeeper s.issue.gid = false → mayTake s (myCore s) (myCore s) = true →
    (coreAt s (myCore s)).deque = rest ++ [k] → ∃ t, exec .idle s = .next t ∧
      (coreAt t (myCore s)).deque = rest ∧ (slotAt t s.issue.gid).ctl.st = .running ∧ (slotAt t s.issue.gid).ctl.pc = k.pc ∧
      (slotAt t s.issue.gid).ctl.loops = [] ∧ sGet (slotAt t s.issue.gid) 3 = k.ctr ∧ sGet (slotAt t s.issue.gid) 4 = k.args[0] ∧
      sGet (slotAt t s.issue.gid) 5 = k.args[1] ∧ sGet (slotAt t s.issue.gid) 6 = k.args[2] ∧
      sGet (slotAt t s.issue.gid) 7 = k.args[3] ∧
      ∀ n : SReg, n.val < 3 ∨ 8 ≤ n.val → sGet (slotAt t s.issue.gid) n = sGet (me s) n)

/-- R195 to R197, R366, R139, R333, R334, R317, R318: DONE, IFENCE, AMOW and FENCE. That a FENCE gives up the slot's renewal points, so that its
next load of any line is made at the line's home, is the model's own (log entry 7, DESIGN CHOICE). -/
def Obligations.DoneAndDrains : Prop :=
  (∀ s, isKeeper s.issue.gid = false → (∀ d sel, (slotAt s (16 * myCore s)).ctl.wait ≠ .reap d sel) →
    ∃ t, exec .done s = .next t ∧ t.issue.done = true ∧ (slotAt t s.issue.gid).ctl.st = .ended ∧
      (slotAt t s.issue.gid).ctl.loops = [] ∧ bit (slotAt t s.issue.gid).trap.cause 11 = false ∧
      (slotAt t s.issue.gid).regs = (me s).regs) ∧
  (∀ s h, isKeeper s.issue.gid = true → isKeeper h = false → coreOf h = myCore s → (slotAt s h).ctl.st ≠ .free →
    exec .done s = .next (fault (fPriv 0) s)) ∧
  (∀ s b, isKeeper s.issue.gid = true → (∀ h, isKeeper h = false → coreOf h = myCore s → (slotAt s h).ctl.st = .free) →
    blockDrained s (myCore s) = true → (me s).pfail = none → (coreAt s (myCore s)).passed = [] →
    (coreAt s (myCore s)).block = some b → b.begun = true → ∃ t, exec .done s = .next t ∧ t.issue.done = true ∧
      (slotAt t s.issue.gid).ctl.st = .free ∧ (coreAt t (myCore s)).block = none ∧ (coreAt t (myCore s)).deque = [] ∧
      ∀ q, tfind s.grids b.grid = some q → tfind t.grids b.grid = some { q with finished := q.finished + 1 }) ∧
  (∀ s, isKeeper s.issue.gid = true → (∀ h, isKeeper h = false → coreOf h = myCore s → (slotAt s h).ctl.st = .free) →
    blockDrained s (myCore s) = false → ∃ t, exec .done s = .next t ∧ OnlySlot s t ∧
      (slotAt t s.issue.gid).ctl = { (me s).ctl with st := .parked, wait := .drain .done }) ∧
  (∀ s, storesFly s s.issue.gid = false → vmemPending s s.issue.gid = false → ∃ t, exec .ifence s = .next t ∧ OnlySlot s t ∧
    (slotAt t s.issue.gid).ctl.buf = [] ∧ (slotAt t s.issue.gid).regs = (me s).regs ∧
    (slotAt t s.issue.gid).ctl.pc = (endCheck (me s).ctl.pc (me s).ctl.npc (me s).ctl.loops).2) ∧
  (∀ s, (me s).posted = 0 → (me s).pfail = none → ∃ t, exec .amow s = .next t ∧ WroteNothing s t) ∧
  (∀ s f, (me s).posted = 0 → (me s).pfail = some f → ∃ u, exec .amow s = .next
    (takeTrap s.issue.gid { code := f.code, status := f.status, addr := f.addr, deferred := true } (me s).ctl.pc u) ∧
    SlotAlone s.issue.gid s u ∧ slotAt u s.issue.gid = { me s with pfail := none }) ∧
  (∀ s, (me s).posted ≠ 0 → ∃ t, exec .amow s = .next t ∧ OnlySlot s t ∧
    (slotAt t s.issue.gid).ctl = { (me s).ctl with st := .parked, wait := .drain .amow }) ∧
  (∀ s sc, fenceReady s s.issue.gid sc = true → (me s).pfail = none → ∃ t, exec (.fence sc) s = .next t ∧
    WroteNothing { s with slots := tput s.slots s.issue.gid { me s with renew := [] } } t) ∧
  (∀ s sc, (me s).posted ≠ 0 → ∃ t, exec (.fence sc) s = .next t ∧ OnlySlot s t ∧
    (slotAt t s.issue.gid).ctl = { (me s).ctl with st := .parked, wait := .drain (.fence sc) })

/-- R198, R207, R208, R199: calling by handle, freeing and asking about residuals, and asking for one. Where requests travel, the slots
of CALLH, RFREE and RINFO park until the unit that looks the handle up has answered. -/
def Obligations.HandleWords : Prop :=
  (∀ s a c t, Ready (.callh a) s → s.fly = false → ctxAt s (myAsid s) = some c → t ∈ c.tmpls →
    let h := sGet (me s) a
    handleEntry s (myAsid s) h = some (BitVec.ofNat 64 (c.rcd.cstore + 64 * t.off), BitVec.ofNat 64 (t.bytes % 2 ^ 32 + 2 ^ 62)) →
    c.rcd.cstore % 2 = 0 →
    ∃ u, exec (.callh a) s = .next u ∧ OnlySlot s u ∧ (slotAt u s.issue.gid).ctl.pc = BitVec.ofNat 64 (c.rcd.cstore + 64 * t.off) ∧
      ScalarSet 31 (me s).ctl.npc (me s).regs (slotAt u s.issue.gid).regs) ∧
  (∀ s a, Ready (.callh a) s → s.fly = false → handleEntry s (myAsid s) (sGet (me s) a) = none →
    exec (.callh a) s = .next (fault { code := 7, status := 1, addr := sGet (me s) a } s)) ∧
  (∀ s a h, bit h 63 = true ∨ hAsid h ≠ a → handleEntry s a h = none) ∧
  (∀ s a c r, Ready (.rfree a) s → s.fly = false → ctxAt s (myAsid s) = some c → r ∈ c.resids → c.resids.Nodup →
    handleEntry s (myAsid s) (sGet (me s) a) ≠ none → residualOf s (sGet (me s) a) = some r → hTmpl (sGet (me s) a) = false →
    ∃ t u, exec (.rfree a) s = .next t ∧ WroteNothing u t ∧ u = { s with ctxs := u.ctxs, gens := u.gens } ∧
      (∃ d, ctxAt u (myAsid s) = some d ∧ r ∉ d.resids ∧ ∀ q ∈ c.resids, q ≠ r → q ∈ d.resids) ∧
      ∀ k, k < r.units → genOf u (myAsid s) 1 (r.off + k) = genOf s (myAsid s) 1 (r.off + k) + 1) ∧
  (∀ s a, Ready (.rfree a) s → s.fly = false → (handleEntry s (myAsid s) (sGet (me s) a) = none ∨ hTmpl (sGet (me s) a) = true) →
    exec (.rfree a) s = .next (fault { code := 7, status := 2, addr := sGet (me s) a } s)) ∧
  (∀ s d a, Ready (.rinfo d a) s → s.fly = false → ∃ t v, exec (.rinfo d a) s = .next t ∧ WroteS d v s t ∧
    (handleEntry s (myAsid s) (sGet (me s) a) = none → v.toInt = -1) ∧
    ∀ e, handleEntry s (myAsid s) (sGet (me s) a) = some e → v = e.2) ∧
  (∀ i s, Ready i s → s.fly = true → (match i with | .callh _ | .rfree _ | .rinfo _ _ => True | _ => False) →
    ∃ t q, exec i s = .next t ∧ HeldFor i .visit s t ∧ SameBytes s t ∧ OthersSame s t ∧ tfind t.net s.nextId = some (.visit q) ∧
      q.gid = s.issue.gid ∧ q.epoch = (me s).ctl.epoch) ∧
  (∀ s d a b c, Ready (.spec d a b) s → vmemPending s s.issue.gid = false → ctxAt s (myAsid s) = some c →
    ∃ t q, exec (.spec d a b) s = .next t ∧ t.issue.done = true ∧ GoesOn (me s) (slotAt t s.issue.gid) ∧
      tfind t.net s.nextId = some (.spec q d (sGet (me s) a) (sGet (me s) b) c.speclim) ∧ q.gid = s.issue.gid ∧
      q.epoch = (me s).ctl.epoch ∧ q.asid = myAsid s ∧ (slotAt t s.issue.gid).regs.s = (me s).regs.s ∧
      (d ≠ 0 → presOf t s.issue.gid (.s d) = .owed) ∧ ∀ l, l ≠ .s d → presOf t s.issue.gid l = presOf s s.issue.gid l)

/-- R129 to R131: starting, reaping and reading slots, by a keeper with a block. -/
def Obligations.SlotWords : Prop :=
  (∀ s a b k, Ready (.sstart a b) s → isKeeper s.issue.gid = true → (coreAt s (myCore s)).block = some k →
    let n := (sGet (me s) a).toNat
    n ≠ 0 → n < k.slots → n < 16 → (slotAt s (16 * myCore s + n)).ctl.st = .free → bit (sGet (me s) b) 0 = false →
    ∃ t, exec (.sstart a b) s = .next t ∧ t.issue.done = true ∧ GoesOn (me s) (slotAt t s.issue.gid) ∧
      (slotAt t s.issue.gid).regs = (me s).regs ∧
      let y := slotAt t (16 * myCore s + n)
      y.ctl.st = .running ∧ y.ctl.pc = sGet (me s) b ∧ y.ctl.loops = [] ∧ y.ctl.asid = myAsid s ∧
      y.win.size = k.vwin ∧ y.trap.vec = (me s).trap.vec ∧ y.waitlim = (me s).waitlim ∧
      sGet y 4 = sGet (me s) 4 ∧ sGet y 5 = sGet (me s) 5 ∧ sGet y 6 = sGet (me s) 6 ∧ sGet y 7 = sGet (me s) 7 ∧
      sGet y 8 = BitVec.ofNat 64 n ∧ (∀ r : SReg, r.val < 4 ∨ 9 ≤ r.val → sGet y r = 0) ∧
      (∀ r : SReg, y.regs.sp[r.val] = .full) ∧ ∀ j, j < k.vwin → vGet t (16 * myCore s + n) j = 0) ∧
  (∀ i s, isKeeper s.issue.gid = false → (match i with | .sstart _ _ | .sreap _ _ | .mxcap _ _ => True | _ => False) →
    exec i s = .next (fault (fPriv 0) s)) ∧
  (∀ s d a, Ready (.sreap d a) s → isKeeper s.issue.gid = true → 15 < (sGet (me s) a).toNat →
    exec (.sreap d a) s = .next (fault (fPriv 0) s)) ∧
  (∀ s d a, Ready (.sreap d a) s → isKeeper s.issue.gid = true →
    let n := (sGet (me s) a).toNat
    0 < n → n ≤ 15 → (slotAt s (16 * myCore s + n)).ctl.st = .ended →
    ∃ t, exec (.sreap d a) s = .next t ∧ t.issue.done = true ∧ GoesOn (me s) (slotAt t s.issue.gid) ∧
      ScalarSet d (sGet (slotAt s (16 * myCore s + n)) 4) (me s).regs (slotAt t s.issue.gid).regs ∧
      (slotAt t (16 * myCore s + n)).ctl.st = .free) ∧
  (∀ s d a, Ready (.sreap d a) s → isKeeper s.issue.gid = true → sGet (me s) a = 0 →
    let others := (List.range 15).map fun k => 16 * myCore s + (k + 1)
    (∀ h ∈ others, (slotAt s h).ctl.st = .free ∨ (slotAt s h).ctl.st = .ended) →
    ∃ t, exec (.sreap d a) s = .next t ∧ t.issue.done = true ∧ GoesOn (me s) (slotAt t s.issue.gid) ∧
      ScalarSet d (BitVec.ofNat 64 (others.countP fun h => (slotAt s h).ctl.st == .ended)) (me s).regs (slotAt t s.issue.gid).regs ∧
      ∀ h ∈ others, (slotAt t h).ctl.st = .free) ∧
  (∀ s d a, Ready (.sstat d a) s → (sGet (me s) a).toNat < 16 → ∃ t v, exec (.sstat d a) s = .next t ∧ WroteS d v s t ∧
    let y := slotAt s (16 * myCore s + (sGet (me s) a).toNat)
    (y.ctl.st ≠ .spilled ∨ y.ctl.req.spill = false → bits v 0 8 = (match y.ctl.st with
      | .free => 0 | .running => 1 | .parked => 2 | .idle => 3 | .spilled => 4 | .halted => 5 | .ended => 6) ∧
      (y.ctl.st = .parked → bits v 8 8 = y.ctl.wait.code) ∧ (y.ctl.st ≠ .parked → bits v 8 8 = 0)) ∧ bits v 16 48 = 0) ∧
  (∀ s d a, Ready (.sstat d a) s → 16 ≤ (sGet (me s) a).toNat → exec (.sstat d a) s = .next (fault (fPriv 0) s)) ∧
  (∀ s c, idleEnds s c = true → ∃ u, exec (.idleSlotsEnd c) s = .next (settle u) ∧
    ∀ h, coreOf h = c → isKeeper h = false → (slotAt s h).ctl.st = .idle → (slotAt u h).ctl.st = .ended ∨ (slotAt u h).ctl.st = .free)

/-- R248, R249, R255, R309, R362, R408: loads. A misaligned address raises F.ALIGN, one that may not be read the trap of R245, a
poisoned line F.PAGE 2; otherwise the bytes at the place come to sD, extended, and no byte changes. Behind vector memory operations
of its slot the load waits with the operands that it has read; where requests travel, its slot parks until the reply. -/
def Obligations.Loads : Prop :=
  ∀ i s d w va, Ready i s → loadOf (me s) i = some (d, w, va) →
    (va.toNat % ldBytes w ≠ 0 → exec i s = .next (fault (fAlign va) s)) ∧
    (va.toNat % ldBytes w = 0 → ∀ p, Served s .read va p →
      (poisoned s p (ldBytes w) = true → exec i s = .next (fault (fPage 2 va) s)) ∧
      (poisoned s p (ldBytes w) = false → s.copies = false → ∃ t, exec i s = .next t ∧ WentOn s t ∧ OthersSame s t ∧ ReadStamped p s t ∧
        ScalarSet d (loadedValue w (leNat (fetchBytes (myAsid s) p (ldBytes w) s).1)) (me s).regs (slotAt t s.issue.gid).regs ∧
        ((∀ c e o a, p ≠ .cached c e o a) → Undisturbed s p → SameBytes s t))) ∧
    (va.toNat % ldBytes w = 0 → vmemPending s s.issue.gid = true → ∃ t, exec i s = .next t ∧ HeldFor i .vmem s t ∧ OnlySlot s t) ∧
    (va.toNat % ldBytes w = 0 → vmemPending s s.issue.gid = false → ∀ f, resolve s (whoIs s s.issue.gid) .read va = .trap f →
      exec i s = .next (fault f s)) ∧
    (va.toNat % ldBytes w = 0 → s.fly = true → vmemPending s s.issue.gid = false → ∀ p,
      resolve s (whoIs s s.issue.gid) .read va = .go p → ∃ t, exec i s = .next t ∧ ParkedFor .reply s t ∧ SameBytes s t ∧
        tfind t.net s.nextId = some (.load (reqOf s va) d w))

/-- R248, R249, R255, R310, R274: stores. A misaligned address raises F.ALIGN, one that may not be written the trap of R245, a view
F.FORMAT 1; otherwise exactly the bytes at the place change, and no register. -/
def Obligations.Stores : Prop :=
  ∀ i s v w va, Ready i s → storeOf (me s) i = some (v, w, va) →
    (va.toNat % stBytes w ≠ 0 → exec i s = .next (fault (fAlign va) s)) ∧
    (va.toNat % stBytes w = 0 → ∀ p, Served s .write va p →
      (∀ a, p = .view a → exec i s = .next (fault (fFormat 1 va) s)) ∧
      ((∀ a, p ≠ .view a) → (∀ f o, p ≠ .vf f o) → Undisturbed s p → Memory.wf s →
        ∃ t, exec i s = .next t ∧ WentOn s t ∧ OthersSame s t ∧ (slotAt t s.issue.gid).regs = (me s).regs ∧ WriteStamped p s t ∧
          StoredAt p (stBytes w) v.toNat s t) ∧
      (∀ f o, p = .vf f o → o < 0x200 → queueOwner s f (o / 8) ≠ some (myAsid s) → exec i s = .next (fault (fQueue 4) s)) ∧
      (∀ f o c q, p = .vf f o → o < 0x200 → queueOwner s f (o / 8) = some (myAsid s) → ctxAt s (myAsid s) = some c →
        tfind c.queues (o / 8) = some q → ∃ t d, exec i s = .next t ∧ WentOn s t ∧ SameBytes s t ∧ ctxAt t (myAsid s) = some d ∧
          (s.boot.handover = false → 0 < tokensOf s f →
            tfind d.queues (o / 8) = some { q with scans := q.scans + 1 } ∧ tokensOf t f = tokensOf s f - 1) ∧
          ((s.boot.handover = true ∨ tokensOf s f = 0) → tfind d.queues (o / 8) = some { q with wake := true }))) ∧
    (va.toNat % stBytes w = 0 → vmemPending s s.issue.gid = true → ∃ t, exec i s = .next t ∧ HeldFor i .vmem s t ∧ OnlySlot s t) ∧
    (va.toNat % stBytes w = 0 → vmemPending s s.issue.gid = false → ∀ f, resolve s (whoIs s s.issue.gid) .write va = .trap f →
      exec i s = .next (fault f s)) ∧
    (va.toNat % stBytes w = 0 → s.fly = true → vmemPending s s.issue.gid = false → ∀ p,
      resolve s (whoIs s s.issue.gid) .write va = .go p → ∃ t, exec i s = .next t ∧ ParkedFor .reply s t ∧ SameBytes s t ∧
        tfind t.net s.nextId = some (.store (reqOf s va) w v))

/-- R346, R347, R408: full/empty words. -/
def Obligations.FullEmptyWords : Prop :=
  (∀ s d a o c off, Ready (.ldf d a o) s → FullEmptyAt s (sGet (me s) a + o.signExtend 64) c off →
    let l := stashLoc c off
    (tagAt s c off = true → (feqOf s l).1 = [] → s.mem.poison.contains (l / 128) = true →
      exec (.ldf d a o) s = .next (fault (fPage 2 (sGet (me s) a + o.signExtend 64)) s)) ∧
    (tagAt s c off = true → feqOf s l = ([], []) → s.mem.poison.contains (l / 128) = false → ∃ t, exec (.ldf d a o) s = .next t ∧ WentOn s t ∧ SameBytes s t ∧
      ScalarSet d (read64 s l) (me s).regs (slotAt t s.issue.gid).regs ∧ tagAt t c off = false) ∧
    (∀ r rest, tagAt s c off = true → feqOf s l = ([], r :: rest) → s.mem.poison.contains (l / 128) = false → ∃ t, exec (.ldf d a o) s = .next t ∧
      ScalarSet d (read64 s l) (me s).regs (slotAt t s.issue.gid).regs ∧ read64 t l = r.v ∧ tagAt t c off = true ∧
      feqOf t l = ([], rest) ∧ ∃ q, tfind t.net s.nextId = some (.reply q) ∧ q.gid = r.gid ∧ q.epoch = r.epoch ∧ q.ends = true) ∧
    (tagAt s c off = false → ∃ t, exec (.ldf d a o) s = .next t ∧ ParkedFor (.fullempty l) s t ∧ SameBytes s t ∧
      (feqOf t l).1.map (fun r => (r.gid, r.op, r.d)) = (feqOf s l).1.map (fun r => (r.gid, r.op, r.d)) ++ [(s.issue.gid, 0, d)])) ∧
  (∀ s d a o c off, Ready (.ldfk d a o) s → FullEmptyAt s (sGet (me s) a + o.signExtend 64) c off → tagAt s c off = true →
    (feqOf s (stashLoc c off)).1 = [] → s.mem.poison.contains (stashLoc c off / 128) = false →
    ∃ t, exec (.ldfk d a o) s = .next t ∧ WentOn s t ∧ SameBytes s t ∧
      ScalarSet d (read64 s (stashLoc c off)) (me s).regs (slotAt t s.issue.gid).regs ∧ tagAt t c off = true) ∧
  (∀ s d a o c off, Ready (.ste d a o) s → FullEmptyAt s (sGet (me s) a + o.signExtend 64) c off →
    let l := stashLoc c off
    (tagAt s c off = false → feqOf s l = ([], []) → ∃ t, exec (.ste d a o) s = .next t ∧ WentOn s t ∧
      (slotAt t s.issue.gid).regs = (me s).regs ∧ StoredAt (.stash c off) 8 (sGet (me s) d).toNat s t ∧ tagAt t c off = true) ∧
    (tagAt s c off = true → ∃ t, exec (.ste d a o) s = .next t ∧ ParkedFor (.fullempty l) s t ∧ SameBytes s t ∧
      (feqOf t l).2.map (fun r => (r.gid, r.op, r.v)) =
        (feqOf s l).2.map (fun r => (r.gid, r.op, r.v)) ++ [(s.issue.gid, 2, sGet (me s) d)])) ∧
  (∀ s d a o c off, Ready (.stff d a o) s → FullEmptyAt s (sGet (me s) a + o.signExtend 64) c off →
    feqOf s (stashLoc c off) = ([], []) → ∃ t, exec (.stff d a o) s = .next t ∧ WentOn s t ∧
      (slotAt t s.issue.gid).regs = (me s).regs ∧ StoredAt (.stash c off) 8 (sGet (me s) d).toNat s t ∧ tagAt t c off = true) ∧
  (∀ s a o c off, Ready (.fclr a o) s → FullEmptyAt s (sGet (me s) a + o.signExtend 64) c off →
    feqOf s (stashLoc c off) = ([], []) → ∃ t, exec (.fclr a o) s = .next t ∧ WentOn s t ∧ SameBytes s t ∧
      (slotAt t s.issue.gid).regs = (me s).regs ∧ tagAt t c off = false) ∧
  (∀ s d a o c off, Ready (.feq d a o) s → FullEmptyAt s (sGet (me s) a + o.signExtend 64) c off →
    ∃ t, exec (.feq d a o) s = .next t ∧ WentOn s t ∧ SameBytes s t ∧ tagAt t c off = tagAt s c off ∧
      ScalarSet d (if tagAt s c off then 1 else 0) (me s).regs (slotAt t s.issue.gid).regs) ∧
  (∀ s d a o, Ready (.ldf d a o) s → (sGet (me s) a + o.signExtend 64).toNat % 8 ≠ 0 →
    exec (.ldf d a o) s = .next (fault (fAlign (sGet (me s) a + o.signExtend 64)) s)) ∧
  (∀ s d a o, Ready (.ldf d a o) s → (sGet (me s) a + o.signExtend 64).toNat % 8 = 0 → vmemPending s s.issue.gid = false →
    bits (sGet (me s) a + o.signExtend 64) 56 8 ≠ 0xFF → exec (.ldf d a o) s = .next (fault (fPage 6 (sGet (me s) a + o.signExtend 64)) s))

/-- R326 to R330, R325, R310: AMO, CAS and CAS2: the old value comes to sD, the new one is stored, in one step. -/
def Obligations.Atomics : Prop :=
  (∀ s d a b o t p, Ready (.amo d a b o t) s → amoLegal o t = true → (sGet (me s) a).toNat % (t.width / 8) = 0 →
    Served s .write (sGet (me s) a) p → atomicFault s (sGet (me s) a) p = none → Undisturbed s (p.down (t.width / 8)) → Memory.wf s →
    let old := leNat (fetchBytes (myAsid s) (p.down (t.width / 8)) (t.width / 8) s).1
    ∃ u new, exec (.amo d a b o t) s = .next u ∧ WentOn s u ∧ OthersSame s u ∧
      WriteStamped (p.down (t.width / 8)) s u ∧ StoredAt (p.down (t.width / 8)) (t.width / 8) new s u ∧
      ScalarSet d (if t = .s32 then (BitVec.ofNat 32 old).signExtend 64 else BitVec.ofNat 64 old) (me s).regs
        (slotAt u s.issue.gid).regs ∧
      (∀ n, amoInteger o t old (sGet (me s) b).toNat = some n → new = n) ∧
      (amoInteger o t old (sGet (me s) b).toNat = none → new = amoNew o t old (sGet (me s) b).toNat)) ∧
  (∀ s d a b t p, Ready (.cas d a b t) s → (t = .z32 ∨ t = .z64) → (sGet (me s) a).toNat % (t.width / 8) = 0 →
    Served s .write (sGet (me s) a) p → atomicFault s (sGet (me s) a) p = none → Undisturbed s (p.down (t.width / 8)) → Memory.wf s →
    let old := leNat (fetchBytes (myAsid s) (p.down (t.width / 8)) (t.width / 8) s).1
    ∃ u, exec (.cas d a b t) s = .next u ∧ WentOn s u ∧ OthersSame s u ∧ WriteStamped (p.down (t.width / 8)) s u ∧
      StoredAt (p.down (t.width / 8)) (t.width / 8)
        (if old = (sGet (me s) d).toNat % 2 ^ t.width then (sGet (me s) b).toNat else old) s u ∧
      ScalarSet d (BitVec.ofNat 64 old) (me s).regs (slotAt u s.issue.gid).regs) ∧
  (∀ s d a b p, Ready (.cas2 d a b) s → (sGet (me s) a).toNat % 16 = 0 →
    Served s .write (sGet (me s) a) p → atomicFault s (sGet (me s) a) p = none → Undisturbed s (p.down 16) → Memory.wf s →
    let old := leNat (fetchBytes (myAsid s) (p.down 16) 16 s).1
    ∃ u, exec (.cas2 d a b) s = .next u ∧ WentOn s u ∧ OthersSame s u ∧
      (match (p.down 16).loc with
        | none => (slotAt u s.issue.gid).lclk = (me s).lclk
        | some l => WriteStampedAll (p.down 16) (if isStashLoc l then [l, l + 8] else [l]) s u) ∧
      StoredAt (p.down 16) 16
        (if old = (sGet (me s) d).toNat + 2 ^ 64 * (sGet (me s) (sreg d 1)).toNat
          then (sGet (me s) b).toNat + 2 ^ 64 * (sGet (me s) (sreg b 1)).toNat else old) s u ∧
      PairSet d (BitVec.ofNat 64 old) (BitVec.ofNat 64 (old / 2 ^ 64)) (me s).regs (slotAt u s.issue.gid).regs) ∧
  (∀ s d a b o t, Ready (.amo d a b o t) s → (sGet (me s) a).toNat % (t.width / 8) ≠ 0 →
    exec (.amo d a b o t) s = .next (fault (fAlign (sGet (me s) a)) s)) ∧
  (∀ s d a b, Ready (.cas2 d a b) s → (sGet (me s) a).toNat % 16 ≠ 0 →
    exec (.cas2 d a b) s = .next (fault (fAlign (sGet (me s) a)) s)) ∧
  (∀ s d a b p t, Ready (.cas2 d a b) s → (sGet (me s) a).toNat % 16 = 0 → Served s .write (sGet (me s) a) p →
    atomicFault s (sGet (me s) a) p = some t → exec (.cas2 d a b) s = .next (fault t s))

/-- R336, R327: what the slice instructions of a routine do to its registers and its line, in every type. -/
def Obligations.RoutineSteps : Prop :=
  ∀ r w, sliceOk w = true →
    let a := rGet r (iA w)
    let b := rGet r (iB w)
    let d := iD w
    let t := sliceStep r w
    let on := iC w = 0 ∨ rGet r d ≠ 0
    (iOp w = 0x01 → RoutineWrote d (BitVec.ofNat 64 (field r.line (64 * iW w) 64)) r t) ∧
    (iOp w = 0x02 → RoutineWrote d (BitVec.ofNat 64 (field r.line (64 * (a.toNat % 16)) 64)) r t) ∧
    (iOp w = 0x03 → (on → RoutineStored (64 * iW w) 64 b.toNat r t) ∧ (¬ on → t = r)) ∧
    (iOp w = 0x04 → (on → RoutineStored (64 * (a.toNat % 16)) 64 b.toNat r t) ∧ (¬ on → t = r)) ∧
    (iOp w = 0x05 → ∀ n : Nat, n = 8 * 2 ^ (iT w % 4) →
      let v := field r.line (8 * (((a.toNat + (BitVec.ofNat 8 (iImm w)).toInt) % 128).toNat / (n / 8) * (n / 8))) n
      RoutineWrote d (if 4 ≤ iT w then ((BitVec.ofNat 64 v <<< (64 - n)).sshiftRight (64 - n)) else BitVec.ofNat 64 v) r t) ∧
    (iOp w = 0x06 → ∀ n : Nat, n = 8 * 2 ^ iT w →
      let lo := 8 * (((a.toNat + (BitVec.ofNat 8 (iImm w)).toInt) % 128).toNat / (n / 8) * (n / 8))
      (on → RoutineStored lo n b.toNat r t) ∧ (¬ on → t = r)) ∧
    (iOp w = 0x07 → RoutineWrote d ((BitVec.ofNat 17 w).signExtend 64) r t) ∧
    (iOp w = 0x08 → RoutineWrote d a r t) ∧
    (∀ o, (match o with | .add => 0x09 | .sub => 0x0A | .mul => 0x0B | .min => 0x0C | .max => 0x0D) = iOp w →
      RoutineWrote d (sliceArith o (iT w) a b) r t) ∧
    (iOp w = 0x0E → RoutineWrote d (a &&& b) r t) ∧ (iOp w = 0x0F → RoutineWrote d (a ||| b) r t) ∧
    (iOp w = 0x10 → RoutineWrote d (a ^^^ b) r t) ∧
    (iOp w = 0x11 → RoutineWrote d (a <<< (b.toNat % 64)) r t) ∧ (iOp w = 0x12 → RoutineWrote d (a >>> (b.toNat % 64)) r t) ∧
    (iOp w = 0x13 → ∃ v, RoutineWrote d v r t ∧ (sliceHolds (iW w) (iT w) a b → v = 1) ∧ (¬ sliceHolds (iW w) (iT w) a b → v = 0)) ∧
    (iOp w = 0x14 → RoutineWrote d (if rGet r (iW w) ≠ 0 then a else b) r t)

/-- R335 to R342: SLR of a built-in, of an installed routine and of none; SLRINST at once and where requests travel. -/
def Obligations.Routines : Prop :=
  (∀ s d a b i p o t, Ready (.slr d a b i) s → Served s .write (sGet (me s) a) p → atomicFault s (sGet (me s) a) p = none →
    builtinOf i.toNat = some (.rmw o t) → Undisturbed s (p.down (t.width / 8)) → Memory.wf s →
    let old := leNat (fetchBytes (myAsid s) (p.down (t.width / 8)) (t.width / 8) s).1
    let new := amoNew o t old (sGet (me s) b).toNat
    ∃ u, exec (.slr d a b i) s = .next u ∧ WentOn s u ∧ OthersSame s u ∧ StoredAt (p.down (t.width / 8)) (t.width / 8) new s u ∧
      PairSet d (BitVec.ofNat 64 old) (BitVec.ofNat 64 new) (me s).regs (slotAt u s.issue.gid).regs) ∧
  (∀ s d a b i p t, Ready (.slr d a b i) s → Served s .write (sGet (me s) a) p → atomicFault s (sGet (me s) a) p = none →
    builtinOf i.toNat = some (.cas t) → Undisturbed s (p.down (t.width / 8)) → Memory.wf s →
    let old := leNat (fetchBytes (myAsid s) (p.down (t.width / 8)) (t.width / 8) s).1
    let new := if old = (sGet (me s) b).toNat % 2 ^ t.width then (sGet (me s) (sreg b 1)).toNat % 2 ^ t.width else old
    ∃ u, exec (.slr d a b i) s = .next u ∧ WentOn s u ∧ OthersSame s u ∧ StoredAt (p.down (t.width / 8)) (t.width / 8) new s u ∧
      PairSet d (BitVec.ofNat 64 old) (BitVec.ofNat 64 new) (me s).regs (slotAt u s.issue.gid).regs) ∧
  (∀ s d a b i p, Ready (.slr d a b i) s → Served s .write (sGet (me s) a) p → atomicFault s (sGet (me s) a) p = none →
    builtinOf i.toNat = some .cas2 → Undisturbed s (p.down 16) → Memory.wf s →
    let old := leNat (fetchBytes (myAsid s) (p.down 16) 16 s).1
    ∃ u, exec (.slr d a b i) s = .next u ∧ WentOn s u ∧ OthersSame s u ∧
      StoredAt (p.down 16) 16
        (if old = (sGet (me s) b).toNat + 2 ^ 64 * (sGet (me s) (sreg b 1)).toNat
          then (sGet (me s) (sreg b 2)).toNat + 2 ^ 64 * (sGet (me s) (sreg b 3)).toNat else old) s u ∧
      PairSet d (BitVec.ofNat 64 old) (BitVec.ofNat 64 (old / 2 ^ 64)) (me s).regs (slotAt u s.issue.gid).regs) ∧
  (∀ s d a b i p c img, Ready (.slr d a b i) s → Served s .write (sGet (me s) a) p → atomicFault s (sGet (me s) a) p = none →
    builtinOf i.toNat = none → 48 ≤ i.toNat → foreign p = false → ctxAt s (myAsid s) = some c → tfind c.routines i.toNat = some img →
    Undisturbed s (p.down 128) → Memory.wf s →
    let r : RoutineSt := {
      g := #v[sGet (me s) b, sGet (me s) (sreg b 1), sGet (me s) (sreg b 2), sGet (me s) (sreg b 3),
        BitVec.ofNat 64 ((sGet (me s) a).toNat % 128), 0, 0, 0]
      line := leNat (fetchBytes (myAsid s) (p.down 128) 128 s).1 }
    let z := (imageWords img (img.head?.getD 0).toNat).foldl sliceStep r
    ∃ u, exec (.slr d a b i) s = .next u ∧ WentOn s u ∧ OthersSame s u ∧ StoredAt (p.down 128) 128 z.line s u ∧
      PairSet d z.g[0] z.g[1] (me s).regs (slotAt u s.issue.gid).regs) ∧
  (∀ s d a b i p c, Ready (.slr d a b i) s → Served s .write (sGet (me s) a) p → placeFault (sGet (me s) a) p = none →
    builtinOf i.toNat = none → ctxAt s (myAsid s) = some c →
    (i.toNat < 48 ∨ (foreign p = false ∧ tfind c.routines i.toNat = none)) →
    exec (.slr d a b i) s = .next (fault (fSlice 1 (sGet (me s) a)) s)) ∧
  (∀ s a i, Ready (.slrinst a i) s → (sGet (me s) a).toNat % 8 ≠ 0 →
    exec (.slrinst a i) s = .next (fault (fAlign (sGet (me s) a)) s)) ∧
  (∀ s a i, Ready (.slrinst a i) s → sGet (me s) a = 0 → vmemPending s s.issue.gid = false → s.fly = false → NoPosted s →
    ∃ t, exec (.slrinst a i) s = .next t ∧
      WroteNothing (withCtx s (myAsid s) fun c => { c with routines := tdel c.routines i.toNat }) t) ∧
  (∀ s a i h q1 s1, Ready (.slrinst a i) s → (sGet (me s) a).toNat % 8 = 0 → sGet (me s) a ≠ 0 →
    vmemPending s s.issue.gid = false → s.fly = false → NoPosted s →
    readImage (reqOf s (sGet (me s) a)) s.nextId (sGet (me s) a) 1 s = .ok h q1 s1 →
    let n := (h.head?.getD 0).toNat
    (n = 0 ∨ 32 < n → exec (.slrinst a i) s = .next (fault (fSlice 3 (sGet (me s) a)) s)) ∧
    ∀ bs q2 s2 c, 1 ≤ n → n ≤ 32 → readImage q1 s.nextId (sGet (me s) a + 8) ((n + 1) / 2) s1 = .ok bs q2 s2 →
      ctxAt s2 (myAsid s) = some c → (slotAt s2 s.issue.gid).ctl = (me s).ctl → s2.issue = s.issue →
      (imageOk (h ++ bs) = true → ∃ t d, exec (.slrinst a i) s = .next t ∧ t.issue.done = true ∧ ctxAt t (myAsid s) = some d ∧
        (slotAt t s.issue.gid).ctl = nextCtl (me s) ∧ tfind d.routines i.toNat = some ((h ++ bs).take (8 + 4 * n))) ∧
      (imageOk (h ++ bs) = false → exec (.slrinst a i) s = .next (fault (fSlice 3 (sGet (me s) a)) s))) ∧
  ∀ s a i, Ready (.slrinst a i) s → (sGet (me s) a).toNat % 8 = 0 → vmemPending s s.issue.gid = false → s.fly = true →
    ∃ t, exec (.slrinst a i) s = .next t ∧ ParkedFor .reply s t ∧ SameBytes s t ∧ OthersSame s t ∧
      tfind t.net s.nextId = some (.slrinst (reqOf s (sGet (me s) a)) i.toNat)

/-- R331 to R334, R327, R337: posted operations: what issues them, and what their home does. That a full count raises F.AMOFULL before the
operands' presence and the address are asked is log entry 28's reading (DEDUCED). -/
def Obligations.PostedOperations : Prop :=
  (∀ s a b o t, Ready (.amon a b o t) s → (me s).posted < 1024 → (sGet (me s) a).toNat % (t.width / 8) = 0 →
    addressFault s (sGet (me s) a) = none →
    ∃ u, exec (.amon a b o t) s = .next u ∧ PostedBy (.amo o t (sGet (me s) b)) (sGet (me s) a) s u) ∧
  (∀ s a b i, Ready (.slrn a b i) s → (me s).posted < 1024 → addressFault s (sGet (me s) a) = none →
    ∃ u, exec (.slrn a b i) s = .next u ∧ PostedBy (.routine i.toNat (routineArgs (me s) b)) (sGet (me s) a) s u) ∧
  (∀ s a b o t i, 1024 ≤ (me s).posted → exec (.amon a b o t) s = .next (fault fAmofull s) ∧
    exec (.slrn a b i) s = .next (fault fAmofull s)) ∧
  (∀ s a b i f, Ready (.slrn a b i) s → (me s).posted < 1024 → addressFault s (sGet (me s) a) = some f →
    exec (.slrn a b i) s = .next (fault f s)) ∧
  (∀ s k q d o t b pg p, tfind s.net k = some (.atomic q (some d) (.amo o t b) pg) → pageHeld s q = false →
    resolve s (reqWho s q) .write q.va = .go p → postedTo s q.gid (placeKey p / 128) k = [] → atomicFault s q.va p = none →
    UndisturbedFor q.asid s (p.down (t.width / 8)) → Memory.wf s →
    let old := leNat (fetchBytes q.asid (p.down (t.width / 8)) (t.width / 8) s).1
    ∃ u r, exec (.sliceRoutine k) s = .next (settle u) ∧
      StoredAt (p.down (t.width / 8)) (t.width / 8) (amoNew o t old b.toNat) s u ∧
      tfind u.net s.nextId = some (.reply r) ∧ r.gid = q.gid ∧ r.epoch = q.epoch ∧ r.ends = true ∧ r.fault = none ∧
      r.writes = [.s d (if t = .s32 then (BitVec.ofNat 32 old).signExtend 64 else BitVec.ofNat 64 old)]) ∧
  (∀ s k q o t b p, tfind s.net k = some (.atomic q none (.amo o t b) none) →
    resolve s (reqWho s q) .write q.va = .go p → (∀ l, reqLine s q = some l → postedTo s q.gid l k = []) →
    vmemBefore s q.gid k = false →
    atomicFault s q.va p = none → UndisturbedFor q.asid s (p.down (t.width / 8)) → Memory.wf s →
    let old := leNat (fetchBytes q.asid (p.down (t.width / 8)) (t.width / 8) s).1
    ∃ u, exec (.sliceRoutine k) s = .next (settle u) ∧ u.net = tdel s.net k ∧
      StoredAt (p.down (t.width / 8)) (t.width / 8) (amoNew o t old b.toNat) s u ∧
      ((slotAt s q.gid).ctl.epoch = q.epoch → (slotAt u q.gid).posted = (slotAt s q.gid).posted - 1 ∧
        (slotAt u q.gid).regs = (slotAt s q.gid).regs ∧ (slotAt u q.gid).pfail = (slotAt s q.gid).pfail)) ∧
  (∀ s k q op p t, tfind s.net k = some (.atomic q none op none) →
    resolve s (reqWho s q) .write q.va = .go p → (∀ l, reqLine s q = some l → postedTo s q.gid l k = []) →
    vmemBefore s q.gid k = false →
    (placeFault q.va p = some t ∨ (placeFault q.va p = none ∧ lineOp s q p op = none ∧ t = fSlice 1 q.va) ∨
      (placeFault q.va p = none ∧ lineOp s q p op ≠ none ∧ poisoned s p 1 = true ∧ t = fSlice 2 q.va)) →
    (slotAt s q.gid).ctl.epoch = q.epoch →
    ∃ u, exec (.sliceRoutine k) s = .next (settle u) ∧ u.net = tdel s.net k ∧ SameBytes s u ∧
      (slotAt u q.gid).posted = (slotAt s q.gid).posted - 1 ∧
      ((slotAt s q.gid).pfail = none →
        (slotAt u q.gid).pfail = some { code := t.code, status := t.status, addr := t.addr, count := 1 }) ∧
      ∀ f, (slotAt s q.gid).pfail = some f →
        (slotAt u q.gid).pfail = some { f with count := min 0xFFFFFFFF (f.count + 1) })

/-- R343, R344: LRW, SCH and SCHX. R188: JOIN: the counter falls by one; the last to come goes on, or wakes the keeper that
waits. Where requests travel, the slots of LRW and JOIN park until the reply. -/
def Obligations.ReservationsAndJoins : Prop :=
  (∀ s d a p, Ready (.lrw d a) s → (sGet (me s) a).toNat % 8 = 0 → Served s .write (sGet (me s) a) p →
    atomicFault s (sGet (me s) a) p = none →
    ((resvOf s (placeKey p)).holder = none → queueAway (placeKey p) = false → ∃ t, exec (.lrw d a) s = .next t ∧ WentOn s t ∧
      OthersSame s t ∧ ReadStamped p s t ∧ ((∀ c e o x, p ≠ .cached c e o x) → Undisturbed s p → SameBytes s t) ∧
      ScalarSet d (BitVec.ofNat 64 (leNat (fetchBytes (myAsid s) p 8 s).1)) (me s).regs (slotAt t s.issue.gid).regs ∧
      resvOf t (placeKey p) = { holder := some s.issue.gid, fifo := (resvOf s (placeKey p)).fifo }) ∧
    (resvOf s (placeKey p) = { holder := none, fifo := [] } → queueAway (placeKey p) = true → ∃ t, exec (.lrw d a) s = .next t ∧
      OthersSame s t ∧ SameBytes s t ∧
      ((WentOn s t ∧ ScalarSet d (BitVec.ofNat 64 (leNat (fetchBytes (myAsid s) p 8 s).1)) (me s).regs (slotAt t s.issue.gid).regs ∧
          resvOf t (placeKey p) = { holder := some s.issue.gid, fifo := [] }) ∨
        (ParkedFor (.reserve d (placeKey p)) s t ∧ resvOf t (placeKey p) = { holder := none, fifo := [s.issue.gid] }))) ∧
    (∀ h, (resvOf s (placeKey p)).holder = some h → h ≠ s.issue.gid → ∃ t, exec (.lrw d a) s = .next t ∧
      ParkedFor (.reserve d (placeKey p)) s t ∧ SameBytes s t ∧ OthersSame s t ∧
      resvOf t (placeKey p) = { holder := some h, fifo := (resvOf s (placeKey p)).fifo ++ [s.issue.gid] }) ∧
    ((resvOf s (placeKey p)).holder = some s.issue.gid → exec (.lrw d a) s = .next (fault (fPriv 0) s))) ∧
  (∀ s a b p, Ready (.sch a b) s → (sGet (me s) a).toNat % 8 = 0 → Served s .write (sGet (me s) a) p →
    atomicFault s (sGet (me s) a) p = none →
    ((resvOf s (placeKey p)).holder ≠ some s.issue.gid → exec (.sch a b) s = .next (fault (fPriv (sGet (me s) a)) s)) ∧
    (∀ l, tfind s.mem.resv (placeKey p) = some { holder := some s.issue.gid, fifo := l } → Undisturbed s p → Memory.wf s →
      ∃ t, exec (.sch a b) s = .next t ∧ WentOn s t ∧ OthersSame s t ∧ (slotAt t s.issue.gid).regs = (me s).regs ∧
        StoredAt p 8 (sGet (me s) b).toNat s t ∧
        (l = [] → keysFrom 0 s.mem.resv = true → resvOf t (placeKey p) = { holder := none, fifo := [] }) ∧
        ∀ h r, l = h :: r → h < 16384 → queueAway (placeKey p) = false → resvOf t (placeKey p) = { holder := some h, fifo := r } ∧
          ReplySent s t h [.s (lrwDest (slotAt s h)) (sGet (me s) b)])) ∧
  (∀ s a p, Ready (.schx a) s → (sGet (me s) a).toNat % 8 = 0 → Served s .write (sGet (me s) a) p →
    atomicFault s (sGet (me s) a) p = none →
    ((resvOf s (placeKey p)).holder ≠ some s.issue.gid → exec (.schx a) s = .next (fault (fPriv (sGet (me s) a)) s)) ∧
    (∀ l, tfind s.mem.resv (placeKey p) = some { holder := some s.issue.gid, fifo := l } →
      ∃ t, exec (.schx a) s = .next t ∧ WentOn s t ∧ OthersSame s t ∧ (slotAt t s.issue.gid).regs = (me s).regs ∧
        ((∀ c e o x, p ≠ .cached c e o x) → Undisturbed s p → SameBytes s t) ∧
        (l = [] → keysFrom 0 s.mem.resv = true → resvOf t (placeKey p) = { holder := none, fifo := [] }) ∧
        ∀ h r, l = h :: r → h < 16384 → queueAway (placeKey p) = false → resvOf t (placeKey p) = { holder := some h, fifo := r } ∧
          ReplySent s t h [.s (lrwDest (slotAt s h)) (BitVec.ofNat 64 (leNat (fetchBytes (myAsid s) p 8 s).1))])) ∧
  (∀ s d a, Ready (.lrw d a) s → (sGet (me s) a).toNat % 8 = 0 → vmemPending s s.issue.gid = false → s.fly = true →
    ∃ t, exec (.lrw d a) s = .next t ∧ ParkedFor .reply s t ∧ SameBytes s t ∧ OthersSame s t ∧
      tfind t.net s.nextId = some (.lrw (reqOf s (sGet (me s) a)) d)) ∧
  (∀ s a, Ready (.join a) s → (sGet (me s) a).toNat % 8 = 0 → vmemPending s s.issue.gid = false → s.fly = true →
    ∃ t, exec (.join a) s = .next t ∧ ParkedFor .reply s t ∧ SameBytes s t ∧ OthersSame s t ∧
      tfind t.net s.nextId = some (.join (reqOf s (sGet (me s) a)))) ∧
  (∀ s d a, Ready (.lrw d a) s → (sGet (me s) a).toNat % 8 ≠ 0 → exec (.lrw d a) s = .next (fault (fAlign (sGet (me s) a)) s)) ∧
  (∀ s a, Ready (.join a) s → (sGet (me s) a).toNat % 8 ≠ 0 → exec (.join a) s = .next (fault (fAlign (sGet (me s) a)) s)) ∧
  ∀ s a p, Ready (.join a) s → (sGet (me s) a).toNat % 8 = 0 → Served s .write (sGet (me s) a) p →
    atomicFault s (sGet (me s) a) p = none →
    let g := s.issue.gid
    let key := placeKey p
    let v : Word64 := BitVec.ofNat 64 (leNat (fetchBytes (myAsid s) p 8 s).1) - 1
    let none' := ∀ d, mayTake s (myCore s) d = true → (coreAt s d).deque = []
    (isKeeper g = true → (tfind s.mem.joins key).isSome = true → exec (.join a) s = .next (fault (fQueue 6) s)) ∧
    (Undisturbed s p → Memory.wf s →
      (v = 0 → tfind s.mem.joins key = none → ∃ t, exec (.join a) s = .next t ∧ WentOn s t ∧ OthersSame s t ∧
        (slotAt t g).regs = (me s).regs ∧ StoredAt p 8 0 s t) ∧
      (v ≠ 0 → isKeeper g = true → tfind s.mem.joins key = none → ∃ t, exec (.join a) s = .next t ∧
        ParkedFor (.join key) s t ∧ StoredAt p 8 v.toNat s t ∧ tfind t.mem.joins key = some g) ∧
      (v ≠ 0 → isKeeper g = false → none' → ∃ t, exec (.join a) s = .next t ∧ t.issue.done = true ∧ StoredAt p 8 v.toNat s t ∧
        (slotAt t g).ctl = { (me s).ctl with st := .idle, wait := .none, loops := [], pc := (me s).ctl.npc } ∧
        (slotAt t g).regs = (me s).regs ∧ t.mem.joins = s.mem.joins) ∧
      (∀ w, v = 0 → isKeeper g = false → tfind s.mem.joins key = some w → w < 16384 → none' → ∃ t, exec (.join a) s = .next t ∧
        t.issue.done = true ∧ StoredAt p 8 0 s t ∧ (slotAt t g).ctl.st = .idle ∧ t.mem.joins = tdel s.mem.joins key ∧
        ReplySent s t w []))

/-- R350 to R355, R304: hardware barriers: every arrival and every set takes a place in the single order after those before it. A slot that
has been killed arrives no more. Where requests travel, the slots of BARI, BARA and BARQ park until the reply. The number that the clock takes, one
past the barrier's and the slot's, is log entry 73's choice (DESIGN CHOICE). -/
def Obligations.Barriers : Prop :=
  (∀ s a n c, Ready (.bari a n) s → s.fly = false → vmemPending s s.issue.gid = false →
    ctxAt s (myAsid s) = some c → ∃ t, exec (.bari a n) s = .next t ∧ WentOn s t ∧ (slotAt t s.issue.gid).regs = (me s).regs ∧
      let b := barOf s (myAsid s) n.val
      let ts := max b.clock (me s).lclk + 1
      t.mem = s.mem ∧ OthersSame s t ∧ (slotAt t s.issue.gid).lclk = ts ∧
      barOf t (myAsid s) n.val = barAfter { b with c := (sGet (me s) a).toNat % 2 ^ 24, clock := ts }) ∧
  (∀ s d n c, Ready (.bara d n) s → s.fly = false → vmemPending s s.issue.gid = false →
    ctxAt s (myAsid s) = some c →
    let b := barOf s (myAsid s) n.val
    let ts := max b.clock (me s).lclk + 1
    ∃ t, exec (.bara d n) s = .next t ∧ WentOn s t ∧ t.mem = s.mem ∧ OthersSame s t ∧ (slotAt t s.issue.gid).lclk = ts ∧
      (b.c = 0 → ScalarSet d (BitVec.ofInt 64 (-1)) (me s).regs (slotAt t s.issue.gid).regs ∧
        barOf t (myAsid s) n.val = { b with clock := ts }) ∧
      (b.c ≠ 0 → ScalarSet d (BitVec.ofNat 64 b.g) (me s).regs (slotAt t s.issue.gid).regs ∧ s.time ≤ t.time ∧
        barOf t (myAsid s) n.val =
          barAfter { b with arr := b.arr ++ [{ gid := s.issue.gid, time := t.time }], clock := ts })) ∧
  (∀ s d a n, Ready (.barw d a n) s → vmemPending s s.issue.gid = false →
    let gen := (sGet (me s) a).toNat % 2 ^ 32
    let ahead := ((barOf s (myAsid s) n.val).g + 2 ^ 32 - gen) % 2 ^ 32
    (1 ≤ ahead ∧ ahead ≤ 2 ^ 31 → ∃ t, exec (.barw d a n) s = .next t ∧ WentOn s t ∧ OthersSame s t ∧ SameBytes s t ∧
      ScalarSet d 0 (me s).regs (slotAt t s.issue.gid).regs ∧
      (slotAt t s.issue.gid).lclk = max (barOf s (myAsid s) n.val).clock (me s).lclk + 1) ∧
    (¬ (1 ≤ ahead ∧ ahead ≤ 2 ^ 31) → ∃ t, exec (.barw d a n) s = .next t ∧ ParkedFor (.barrier d n.val gen) s t ∧ OthersSame s t)) ∧
  (∀ s a n, Ready (.bari a n) s → s.fly = true → vmemPending s s.issue.gid = false → ∃ t, exec (.bari a n) s = .next t ∧
    ParkedFor .reply s t ∧ tfind t.net s.nextId = some (.barInit (reqOf s 0) n.val (sGet (me s) a))) ∧
  (∀ s d n, Ready (.bara d n) s → s.fly = true → vmemPending s s.issue.gid = false → ∃ t, exec (.bara d n) s = .next t ∧
    ParkedFor .reply s t ∧ tfind t.net s.nextId = some (.barArrive (reqOf s 0) n.val d)) ∧
  (∀ s d a n, Ready (.barq d a n) s → s.fly = true → ∃ t, exec (.barq d a n) s = .next t ∧
    ParkedFor .reply s t ∧ tfind t.net s.nextId = some (.barQuery (reqOf s 0) n.val d (sGet (me s) a))) ∧
  (∀ s d a n, Ready (.barq d a n) s → s.fly = false → ∃ t v, exec (.barq d a n) s = .next t ∧ WroteS d v s t ∧
    let b := barOf s (myAsid s) n.val
    let k := (sGet (me s) a).toNat
    (b.last = none → v = BitVec.ofInt 64 (-1)) ∧
    ∀ r f, b.last = some r → r.arr.head? = some f →
      (∀ l, k = 0 → r.arr.getLast? = some l → r.g < 2 ^ 32 →
        bits v 0 32 = min 0xFFFFFFFF (l.time - f.time) ∧ bits v 32 32 = r.g) ∧
      (∀ q, 1 ≤ k → k ≤ 4 → k ≤ r.c → r.arr.reverse[k - 1]? = some q → q.gid < 16384 →
        bits v 0 4 = cellX (cellOf q.gid) ∧ bits v 4 4 = cellY (cellOf q.gid) ∧ bits v 8 2 = coreNo q.gid ∧
        bits v 10 4 = slotNo q.gid ∧ bits v 14 2 = 0 ∧ bits v 16 32 = min 0xFFFFFFFF (q.time - f.time) ∧ bits v 48 16 = 0) ∧
      (4 < k ∨ (k ≠ 0 ∧ r.c < k) → v = BitVec.ofInt 64 (-1))) ∧
  (∀ s k q n v c, tfind s.net k = some (.barInit q n v) → isOut s q.asid = false → ctxAt s q.asid = some c →
    ∃ u r, exec (.barrierUnitRequest k) s = .next (settle u) ∧
      barOf u q.asid n = barAfter { barOf s q.asid n with c := v.toNat % 2 ^ 24, clock := max (barOf s q.asid n).clock q.clock + 1 } ∧
      tfind u.net s.nextId = some (.reply r) ∧ r.gid = q.gid ∧ r.epoch = q.epoch ∧ r.writes = [] ∧ r.ends = true) ∧
  (∀ s k q n d c, tfind s.net k = some (.barArrive q n d) → owned s q.gid q.epoch = true → isOut s q.asid = false →
    ctxAt s q.asid = some c → (barOf s q.asid n).c ≠ 0 →
    ∃ u r, exec (.barrierUnitRequest k) s = .next (settle u) ∧
      barOf u q.asid n = barAfter { barOf s q.asid n with
        arr := (barOf s q.asid n).arr ++ [{ gid := q.gid, time := u.time }]
        clock := max (barOf s q.asid n).clock q.clock + 1 } ∧
      tfind u.net s.nextId = some (.reply r) ∧ r.gid = q.gid ∧ r.epoch = q.epoch ∧
      r.writes = [.s d (BitVec.ofNat 64 (barOf s q.asid n).g)] ∧ r.ends = true) ∧
  (∀ s g d n gen, (slotAt s g).ctl.wait = .barrier d n gen → (slotAt s g).ctl.st = .parked →
    let x := slotAt s g
    let y := slotAt (settleSlot g s) g
    let b := barOf s x.ctl.asid n
    let ahead := (b.g + 2 ^ 32 - gen) % 2 ^ 32
    ((1 ≤ ahead ∧ ahead ≤ 2 ^ 31) → y.ctl = { nextCtl x with st := .running, wait := .none } ∧ ScalarSet d 0 x.regs y.regs ∧
      y.lclk = max x.lclk (b.clock + 1)) ∧
    (¬ (1 ≤ ahead ∧ ahead ≤ 2 ^ 31) → settleSlot g s = s)) ∧
  ∀ s k q n d, tfind s.net k = some (.barArrive q n d) → owned s q.gid q.epoch = false →
    exec (.barrierUnitRequest k) s = .next (settle { s with net := tdel s.net k })

/-- R116 to R119: CHSEND and CHRECV, at a ring whose cell is not switched out. A send or receive clause in which a tag changes is about
words that no slot waits for (R347 says who is served there). -/
def Obligations.Channels : Prop :=
  (∀ s d a b, Ready (.chsend d a b) s → vmemPending s s.issue.gid = false →
    (chanOf s (myAsid s) (sGet (me s) a) = none → ∃ t, exec (.chsend d a b) s = .next t ∧ WroteS d (BitVec.ofInt 64 (-4)) s t) ∧
    ∀ r, chanOf s (myAsid s) (sGet (me s) a) = some r →
      let n := (sGet (me s) b).toNat
      let pos := r.widx % r.size
      let pad := if r.whole = true ∧ r.size < pos + n then r.size - pos else 0
      ((n < 8 ∨ n % 8 ≠ 0 ∨ r.allow < n) → exec (.chsend d a b) s = .next (fault fRing s)) ∧
      (8 ≤ n → n % 8 = 0 → n ≤ r.allow →
        (r.st = 1 → ∃ t, exec (.chsend d a b) s = .next t ∧ WroteS d (BitVec.ofInt 64 (-1)) s t) ∧
        (r.st = 2 → ∃ t, exec (.chsend d a b) s = .next t ∧ WroteS d (BitVec.ofInt 64 (-2)) s t) ∧
        (r.st = 0 → pad = 0 → isAway s (myAsid s) r.cell = false → ringDiff r.widx r.ridx + n ≤ r.allow → (me s).ctl.wait = .none → RingFits r →
          ∃ t v, exec (.chsend d a b) s = .next t ∧ WentOn s t ∧ SameBytes s t ∧
            ScalarSet d v (me s).regs (slotAt t s.issue.gid).regs ∧ NamesStash v r.cell (r.off + pos) ∧
            ringOf t (myAsid s) (bits (sGet (me s) a) 0 10) = some { r with widx := (r.widx + n) % 2 ^ 32 }) ∧
        (r.st = 0 → pad ≠ 0 → isAway s (myAsid s) r.cell = false → r.widx ≠ r.ridx →
          ringDiff r.widx r.ridx + pad + n ≤ r.allow → (me s).ctl.wait = .none → RingFits r →
          bytesWf (cellAt s r.cell).stash = true → feqOf s (stashLoc r.cell (r.off + pos)) = ([], []) →
          ∃ t v, exec (.chsend d a b) s = .next t ∧ WentOn s t ∧ StoredAt (.stash r.cell (r.off + pos)) 8 (pad + 2 ^ 16) s t ∧
            tagAt t r.cell (r.off + pos) = true ∧
            ScalarSet d v (me s).regs (slotAt t s.issue.gid).regs ∧ NamesStash v r.cell (r.off + (pos + pad) % r.size) ∧
            ringOf t (myAsid s) (bits (sGet (me s) a) 0 10) = some { r with widx := (r.widx + pad + n) % 2 ^ 32 }) ∧
        (r.st = 0 → isAway s (myAsid s) r.cell = false → (pad = 0 ∨ r.widx ≠ r.ridx) → r.allow < ringDiff r.widx r.ridx + pad + n →
          ∃ t, exec (.chsend d a b) s = .next t ∧ WaitsFor (.channel (bits (sGet (me s) a) 0 10) true n) s t))) ∧
  (∀ s d a b, Ready (.chrecv d a b) s → vmemPending s s.issue.gid = false →
    (chanOf s (myAsid s) (sGet (me s) a) = none → ∃ t, exec (.chrecv d a b) s = .next t ∧ WroteS d (BitVec.ofInt 64 (-4)) s t) ∧
    ∀ r, chanOf s (myAsid s) (sGet (me s) a) = some r →
      let n := (sGet (me s) b).toNat
      let q := (r.ridx + n) % 2 ^ 32
      let h := headerOf s r q
      ((n % 8 ≠ 0 ∨ ringDiff r.widx r.ridx < n) → ∃ t, exec (.chrecv d a b) s = .next t ∧ WroteS d (BitVec.ofInt 64 (-6)) s t) ∧
      (n % 8 = 0 → n ≤ ringDiff r.widx r.ridx →
        (r.st = 1 → ∃ t, exec (.chrecv d a b) s = .next t ∧ WroteS d (BitVec.ofInt 64 (-1)) s t) ∧
        (r.st ≠ 1 → isAway s (myAsid s) r.cell = false → q ≠ r.widx → ringTag s r q = true → field h 16 1 = 0 →
          (me s).ctl.wait = .none → RingFits r → (cellAt s r.cell).feq = [] →
          ∃ t v, exec (.chrecv d a b) s = .next t ∧ WentOn s t ∧ SameBytes s t ∧
            ScalarSet d v (me s).regs (slotAt t s.issue.gid).regs ∧
            let l := field h 0 16
            let ok := 8 ≤ l ∧ l % 8 = 0 ∧ l ≤ ringDiff r.widx q
            (ok → NamesStash v r.cell (r.off + q % r.size) ∧
              ringOf t (myAsid s) (bits (sGet (me s) a) 0 10) = some { r with ridx := q }) ∧
            (¬ ok → v = BitVec.ofInt 64 (-1) ∧
              ringOf t (myAsid s) (bits (sGet (me s) a) 0 10) = some { r with ridx := q, st := 1 })) ∧
        (r.st = 2 → isAway s (myAsid s) r.cell = false → q = r.widx → (me s).ctl.wait = .none → RingFits r →
          (cellAt s r.cell).feq = [] → ∃ t, exec (.chrecv d a b) s = .next t ∧ WentOn s t ∧ SameBytes s t ∧
          ScalarSet d (BitVec.ofInt 64 (-2)) (me s).regs (slotAt t s.issue.gid).regs ∧
          ringOf t (myAsid s) (bits (sGet (me s) a) 0 10) = some { r with ridx := q }) ∧
        (r.st = 0 → isAway s (myAsid s) r.cell = false → (q = r.widx ∨ ringTag s r q = false) →
          ∃ t, exec (.chrecv d a b) s = .next t ∧ WaitsFor (.channel (bits (sGet (me s) a) 0 10) false n) s t)))

/-- R120, R121: the six operations of CHCTL, which share one word and are told apart by sA[15:12]: each constructor, the one that a word decodes to among
them, does the operation that sA[15:12] names. -/
def Obligations.ChannelControl : Prop :=
  ∀ i s d a b row, Ready i s → ctlWord i = some (d, a, b, row) → vmemPending s s.issue.gid = false →
    let v := sGet (me s) a
    let w := sGet (me s) b
    let ch := bits v 0 10
    let op := bits v 12 4
    ((bits v 10 2 ≠ 0 ∨ bits v 16 48 ≠ 0) → ∃ t, exec i s = .next t ∧ WroteS d (BitVec.ofInt 64 (-3)) s t) ∧
    (bits v 10 2 = 0 → bits v 16 48 = 0 → ringOf s (myAsid s) ch = none →
      ∃ t, exec i s = .next t ∧ WroteS d (BitVec.ofInt 64 (-4)) s t) ∧
    (∀ r, bits v 10 2 = 0 → bits v 16 48 = 0 → ringOf s (myAsid s) ch = some r →
      (5 < op → ∃ t, exec i s = .next t ∧ WroteS d (BitVec.ofInt 64 (-3)) s t) ∧
      (isAway s (myAsid s) r.cell = false → op ∈ [0, 2, 3, 5] → ∃ t x, exec i s = .next t ∧ WroteS d x s t ∧
        (op = 0 → r.st < 4 → r.log2 < 256 → r.allow < 2 ^ 32 →
          bits x 0 2 = r.st ∧ bit x 2 = r.whole ∧ bits x 3 5 = 0 ∧ bits x 8 8 = r.log2 ∧ bits x 16 16 = 0 ∧ bits x 32 32 = r.allow) ∧
        (op = 2 → x = BitVec.ofNat 64 r.widx) ∧ (op = 3 → x = BitVec.ofNat 64 r.ridx) ∧
        (op = 5 → RingFits r → NamesStash x r.cell r.off)) ∧
      (isAway s (myAsid s) r.cell = false → op = 1 → (me s).ctl.wait = .none →
        let new := bits w 0 2
        ((new = 3 ∨ (r.st = 2 ∧ new = 0)) → ∃ t, exec i s = .next t ∧ WroteS d (BitVec.ofInt 64 (-3)) s t) ∧
        (new < 3 → ¬ (r.st = 2 ∧ new = 0) → ∃ t, exec i s = .next t ∧ WentOn s t ∧ SameBytes s t ∧
          ScalarSet d (BitVec.ofNat 64 r.st) (me s).regs (slotAt t s.issue.gid).regs ∧
          ringOf t (myAsid s) ch = some { r with st := new })) ∧
      (isAway s (myAsid s) r.cell = false → op = 4 → (me s).ctl.wait = .none → RingFits r →
        (cellAt s r.cell).feq = [] →
        let n := bits w 0 32
        let fits := r.st = 1 ∧ bits w 32 32 = 0 ∧ n % 8 = 0 ∧ ringDiff n r.ridx ≤ ringDiff r.widx r.ridx
        (¬ fits → ∃ t, exec i s = .next t ∧ WroteS d (BitVec.ofInt 64 (-5)) s t) ∧
        (fits → ∃ t, exec i s = .next t ∧ WentOn s t ∧ SameBytes s t ∧
          ScalarSet d 0 (me s).regs (slotAt t s.issue.gid).regs ∧ ringOf t (myAsid s) ch = some { r with ridx := n })))

/-- R262 to R269: CPY, CPYX, CPYW and CPYQ, and the steps of the copy engine. That CPYW raises the slot's clock to the channel's, whatever
progress it waited for, is log entry 24's reading (DEDUCED); the order of the channels is log entry 64's choice. -/
def Obligations.Copies : Prop :=
  (∀ i s d a acq rel sc ch ix, Ready i s → ((i = .cpy d a acq rel sc ch ∧ ix = false) ∨ (i = .cpyx d a acq rel sc ch ∧ ix = true)) →
    let desc := sGet (me s) a
    let k := chanAt s (myCore s) ch.val
    (desc.toNat % 64 ≠ 0 → exec i s = .next (fault (fAlign desc) s)) ∧
    (desc.toNat % 64 = 0 → k.cur ≠ none → exec i s = .next (fault (fQueue 3) s)) ∧
    (desc.toNat % 64 = 0 → k.cur = none → vmemPending s s.issue.gid = false → ∃ t q, exec i s = .next t ∧ OwesScalar d s t ∧
      chanAt t (myCore s) ch.val = { k with w0 := k.wp, status := 0, cur := some q } ∧ q.gid = s.issue.gid ∧ q.asid = myAsid s ∧
      q.d = d ∧ q.desc = desc ∧ q.indexed = ix ∧ q.acq = acq ∧ q.rel = rel ∧ q.scope = sc ∧ q.read = none ∧ q.row = 0 ∧
      q.col = 0 ∧ q.page = none ∧ q.outcome = none)) ∧
  (∀ s d a b, Ready (.cpyw d a b) s → vmemPending s s.issue.gid = false →
    let want := (sGet (me s) b).toNat
    let k := chanAt s (myCore s) (bits (sGet (me s) a) 0 7)
    (bits (sGet (me s) a) 7 57 ≠ 0 → ∃ t, exec (.cpyw d a b) s = .next t ∧ WroteS d (BitVec.ofInt 64 (-2)) s t) ∧
    (bits (sGet (me s) a) 7 57 = 0 → want ≤ k.wp → ∃ t, exec (.cpyw d a b) s = .next t ∧ WentOn s t ∧ OthersSame s t ∧ SameBytes s t ∧
      (slotAt t s.issue.gid).lclk = max (me s).lclk k.clock ∧
      ScalarSet d (if want ≤ k.w0 ∨ 0 ≤ k.status ∨ want ≤ k.failAt then 0 else BitVec.ofInt 64 k.status) (me s).regs
        (slotAt t s.issue.gid).regs) ∧
    (bits (sGet (me s) a) 7 57 = 0 → k.wp < want → ∃ t, exec (.cpyw d a b) s = .next t ∧
      ParkedFor (.copy d (bits (sGet (me s) a) 0 7) (sGet (me s) b)) s t)) ∧
  (∀ s d a, Ready (.cpyq d a) s → ∃ t, exec (.cpyq d a) s = .next t ∧
    WroteS d (if bits (sGet (me s) a) 7 57 ≠ 0 then BitVec.ofInt 64 (-2)
      else BitVec.ofNat 64 (chanAt s (myCore s) (bits (sGet (me s) a) 0 7)).wp) s t) ∧
  (∀ s c ch q bs z, copyAt s c ch.val = some (none, q) → q.outcome = none → q.page = none → q.read = none →
    copyRead q q.desc 64 s = .ok (bs, z) → ∃ u, exec (.copySegment c ch) s = .next (settle u) ∧
      (chanAt u c ch.val).cur = some (if descOk q.indexed (leNat bs) then { q with read := some (leNat bs) }
        else { q with outcome := some (-2) })) ∧
  (∀ s c ch q d p p', copyAt s c ch.val = some (none, q) → q.outcome = none → q.page = none → q.read = some d → q.indexed = false →
    q.col = 0 → q.undo = [] → dRowLen d = 2 ^ dEw d → dEw d ≤ 3 → copyTurn s (c / 4) = some (128 * (c % 4) + ch.val) →
    let n := 2 ^ dEw d
    let src : Word64 := BitVec.ofInt 64 (dSrc d + q.row * dSStride d)
    let dst : Word64 := BitVec.ofInt 64 (dDst d + q.row * dDStride d)
    dst.toNat % n = 0 → copyPlace s q .read src n = .ok p → copyPlace s q .write dst n = .ok p' →
    (∀ a b o x, p ≠ .cached a b o x) → (∀ a, p' ≠ .view a) → (∀ f o, p' ≠ .vf f o) → UndisturbedFor q.asid s p' → Memory.wf s →
    ∃ u q', exec (.copySegment c ch) s = .next (settle u) ∧ StoredAt p' n (leNat (fetchBytes q.asid p n s).1) s u ∧
      chanAt u c ch.val = { chanAt s c ch.val with
        wp := (chanAt s c ch.val).wp + n, clock := (chanAt u c ch.val).clock, cur := some q' } ∧
      q'.row = q.row + 1 ∧ q'.col = 0 ∧ (q'.outcome = if q.row + 1 = dRows d then some 0 else none)) ∧
  (∀ s c ch q st, copyAt s c ch.val = some (none, q) → q.outcome = some st →
    let k := chanAt s c ch.val
    let total := match q.read with | some d => dRows d * dRowLen d | none => 0
    ∃ u r, exec (.copyComplete c ch) s = .next (settle u) ∧ SameBytes s u ∧
      tfind u.net s.nextId = some (.reply r) ∧ r.gid = q.gid ∧ r.epoch = q.epoch ∧ r.ends = false ∧
      (st = 0 → r.writes = [.s q.d (BitVec.ofNat 64 (k.w0 + total))] ∧
        chanAt u c ch.val = { k with status := 0, cur := none }) ∧
      (st = -2 → r.writes = [.s q.d (BitVec.ofInt 64 (-2))] ∧
        chanAt u c ch.val = { k with failAt := k.w0, status := -2, cur := none }) ∧
      (st ≠ 0 → st ≠ -2 → r.writes = [.s q.d (BitVec.ofInt 64 st)] ∧
        chanAt u c ch.val = { k with failAt := k.wp, wp := k.w0 + total, status := st, cur := none }))

/-- R256, R258 to R260, R304: prefetches and stash mappings. A written line comes to its address when it is flushed. STMAP stands in the
single order after what was done to its stash range, STUNMAP and STFLUSH after what was done to the lines that the mapping holds; plain
accesses to the range stand after the STUNMAP. Where requests travel, the slots park until the work is done. -/
def Obligations.StashMappings : Prop :=
  (∀ s a h o, Ready (.pref a h o) s → ∃ t, exec (.pref a h o) s = .next t ∧ t.issue.done = true ∧ OthersSame s t ∧
    slotAt t s.issue.gid = { me s with ctl := nextCtl (me s), ctr := (slotAt t s.issue.gid).ctr } ∧
    ((h ≠ .stash ∨ ∀ l, ∀ x ∈ holdersOf s l, x.2.2.2 = false) → t.mem.bytes = s.mem.bytes) ∧ t.mem.ext = s.mem.ext ∧
    ∀ p, h = .code → resolve s (whoIs s s.issue.gid) .exec (BitVec.ofInt 64 ((sGet (me s) a).toInt + o.toInt)) = .go p →
      placeKey p / 128 ∈ (coreAt t (myCore s)).lines) ∧
  (∀ s d a b, Ready (.stmap d a b) s → s.fly = false → vmemPending s s.issue.gid = false →
    let av := (sGet (me s) a).toNat
    let bv := sGet (me s) b
    let off := bits bv 0 19
    let len := bits bv 20 20
    let mine := mapsOf s (myAsid s) (myCell s)
    let formed := av % 128 = 0 ∧ off % 128 = 0 ∧ len % 128 = 0 ∧ 128 ≤ len ∧ len ≤ 0x80000 ∧ bit bv 19 = false ∧
      bits bv 40 24 = 0 ∧ off + len ≤ tenantStash s (myCell s)
    let globally := bits (sGet (me s) a) 57 7 = 0 ∧ av + len ≤ 2 ^ 57
    let meets := ∃ m ∈ mine, m.off < off + len ∧ off < m.off + m.len
    (¬ formed → ∃ t, exec (.stmap d a b) s = .next t ∧ WroteS d (BitVec.ofInt 64 (-3)) s t) ∧
    (formed → ¬ globally → ∃ t, exec (.stmap d a b) s = .next t ∧ WroteS d (BitVec.ofInt 64 (-4)) s t) ∧
    (formed → globally → meets → ∃ t, exec (.stmap d a b) s = .next t ∧ WroteS d (BitVec.ofInt 64 (-2)) s t) ∧
    (formed → globally → ¬ meets → 16 ≤ mine.length → ∃ t, exec (.stmap d a b) s = .next t ∧
      WroteS d (BitVec.ofInt 64 (-1)) s t) ∧
    (formed → globally → ¬ meets → mine.length < 16 → ∃ t e n, exec (.stmap d a b) s = .next t ∧ WentOn s t ∧ OthersSame s t ∧
      SameBytes s t ∧ e < 16 ∧ (∀ m ∈ mine, m.entry ≠ e) ∧
      ScalarSet d (BitVec.ofNat 64 e) (me s).regs (slotAt t s.issue.gid).regs ∧
      mapsOf t (myAsid s) (myCell s) =
        mine ++ [{ asid := myAsid s, entry := e, va := av, off := off, len := len, present := [], dirty := [], place := n }] ∧
      (slotAt t s.issue.gid).lclk = n ∧ (me s).lclk < n ∧
      (∀ k, k < len / 8 → (stamps s (stashLoc (myCell s) (off + 8 * k))).1 < n ∧ (stamps s (stashLoc (myCell s) (off + 8 * k))).2 < n) ∧
      ∀ k, off ≤ 8 * k → 8 * k < off + len → k ∉ (cellAt t (myCell s)).tags)) ∧
  (∀ i s d a, Ready i s → (i = .stunmap d a ∨ i = .stflush d a) → s.fly = false → vmemPending s s.issue.gid = false →
    mapNamed s (myAsid s) (myCell s) (sGet (me s) a) = none → ∃ t, exec i s = .next t ∧ WroteS d (BitVec.ofInt 64 (-1)) s t) ∧
  (∀ i s, Ready i s → s.fly = true → vmemPending s s.issue.gid = false →
    (match i with | .stmap _ _ _ | .stunmap _ _ | .stflush _ _ => True | _ => False) →
    ∃ t q, exec i s = .next t ∧ HeldFor i .visit s t ∧ SameBytes s t ∧ OthersSame s t ∧ tfind t.net s.nextId = some (.visit q) ∧
      q.gid = s.issue.gid ∧ q.epoch = (me s).ctl.epoch) ∧
  (∀ s d a m, Ready (.stunmap d a) s → s.fly = false → vmemPending s s.issue.gid = false →
    mapNamed s (myAsid s) (myCell s) (sGet (me s) a) = some m → m.dirty = [] →
    ∃ t, exec (.stunmap d a) s = .next t ∧ WentOn s t ∧ OthersSame s t ∧
      ScalarSet d 0 (me s).regs (slotAt t s.issue.gid).regs ∧ t.mem.bytes = s.mem.bytes ∧ t.mem.ext = s.mem.ext ∧
      (∀ q ∈ m.present, (stamps s (128 * q.2)).1 < (slotAt t s.issue.gid).lclk ∧ (stamps s (128 * q.2)).2 < (slotAt t s.issue.gid).lclk) ∧
      (∀ k, k < m.len / 8 → (slotAt t s.issue.gid).lclk ≤ (stamps t (stashLoc (myCell s) (m.off + 8 * k))).1) ∧
      (∀ n ∈ (cellAt t (myCell s)).maps, n.asid ≠ m.asid ∨ n.entry ≠ m.entry) ∧
      ∀ x, (x < m.off ∨ m.off + m.len ≤ x ∨ (tfind m.present ((x - m.off) / 128)).isSome = true) → m.len % 128 = 0 →
        getByte (cellAt t (myCell s)).stash x = getByte (cellAt s (myCell s)).stash x) ∧
  (∀ s d a m k line, Ready (.stflush d a) s → s.fly = false → vmemPending s s.issue.gid = false →
    mapNamed s (myAsid s) (myCell s) (sGet (me s) a) = some m → m.dirty = [k] → tfind m.present k = some line →
    128 * line < 2 ^ 60 → Memory.wf s →
    ∃ t, exec (.stflush d a) s = .next t ∧ WentOn s t ∧ OthersSame s t ∧
      ScalarSet d 0 (me s).regs (slotAt t s.issue.gid).regs ∧ (∀ c, (cellAt t c).stash = (cellAt s c).stash) ∧
      (∀ q ∈ m.present, (stamps s (128 * q.2)).1 < (slotAt t s.issue.gid).lclk ∧ (stamps s (128 * q.2)).2 < (slotAt t s.issue.gid).lclk) ∧
      getBytes t.mem.bytes (128 * line) 128 = getBytes (cellAt s (myCell s)).stash (m.off + 128 * k) 128 ∧
      (∀ x, x < 128 * line ∨ 128 * line + 128 ≤ x → getByte t.mem.bytes x = getByte s.mem.bytes x))

/-- R279, R280, R296, R297: claims, releases, MXWAIT and capabilities. -/
def Obligations.OperandItems : Prop :=
  (∀ s d a, Ready (.oclaim d a) s →
    let v := sGet (me s) a
    let dest := if clAcc v then 16 * myCore s + clSlot v else s.issue.gid
    let x := cellAt s (myCell s)
    let allowed := clOk v (blockSlots s s.issue.gid) = true ∧ (clAcc v = true → isKeeper s.issue.gid = true)
    let free := itemsFree x (clAcc v) (clItems v) dest = true
    (¬ allowed → exec (.oclaim d a) s = .next (fault fWindow s)) ∧
    (allowed → free → ∃ t m, exec (.oclaim d a) s = .next t ∧ WentOn s t ∧ OthersSame s t ∧ SameBytes s t ∧
      ScalarSet d m (me s).regs (slotAt t s.issue.gid).regs ∧
      (∀ n ∈ clItems v, holds (holders (cellAt t (myCell s)) (clAcc v)) n dest = true) ∧
      ∀ n, n < 64 → (m.getLsbD n = true ↔ n < 32 ∧ holds (holders (cellAt t (myCell s)) (clAcc v)) n dest = true)) ∧
    (allowed → ¬ free → ∃ t q, exec (.oclaim d a) s = .next t ∧ ParkedFor (.operand d) s t ∧
      (cellAt t (myCell s)).claims = x.claims ++ [q] ∧ q.gid = s.issue.gid ∧ q.d = d ∧ q.tiles = clAcc v ∧ q.start = clFirst v ∧
      q.count = clCount v ∧ q.dest = dest)) ∧
  (∀ s a, Ready (.orel a) s →
    let v := sGet (me s) a
    let dest := if clAcc v then 16 * myCore s + clSlot v else s.issue.gid
    let h := holders (cellAt s (myCell s)) (clAcc v)
    let allowed := clOk v (blockSlots s s.issue.gid) = true ∧ (isKeeper s.issue.gid = true ∨ dest = s.issue.gid) ∧
      ∀ n ∈ clItems v, holds h n dest = true
    (¬ allowed → exec (.orel a) s = .next (fault fWindow s)) ∧
    (allowed → keysFrom 0 h = true → ∃ t, exec (.orel a) s = .next t ∧ WentOn s t ∧ OthersSame s t ∧ SameBytes s t ∧
      (slotAt t s.issue.gid).regs = (me s).regs ∧
      ∀ n ∈ clItems v, holds (holders (cellAt t (myCell s)) (clAcc v)) n dest = false)) ∧
  (∀ s d a b, Ready (.mxwait d a b) s →
    let v := sGet (me s) a
    let n := bits v 0 3
    let want := (sGet (me s) b).toNat
    ((bits v 3 61 ≠ 0 ∨ holds (cellAt s (myCell s)).thold n s.issue.gid = false) →
      exec (.mxwait d a b) s = .next (fault fWindow s)) ∧
    (bits v 3 61 = 0 → holds (cellAt s (myCell s)).thold n s.issue.gid = true →
      (tfind (cellAt s (myCell s)).lastMma n = none → ∃ t, exec (.mxwait d a b) s = .next t ∧ WroteS d 0 s t) ∧
      ∀ q total, tfind (cellAt s (myCell s)).lastMma n = some (q, total) →
        (min want total ≤ stepsDone s s.issue.gid q total → ∃ t, exec (.mxwait d a b) s = .next t ∧
          WroteS d (BitVec.ofNat 64 (stepsDone s s.issue.gid q total)) s t) ∧
        (stepsDone s s.issue.gid q total < min want total → ∃ t, exec (.mxwait d a b) s = .next t ∧
          ParkedFor (.sequencer d q total want) s t))) ∧
  (∀ s d a, Ready (.mxcap d a) s → isKeeper s.issue.gid = true →
    let v := sGet (me s) a
    let old := (tfind (cellAt s (myCell s)).mxgen (myAsid s)).getD 0
    let bad := v.toNat % 512 ≠ v.toNat ∨ bits v 2 6 ≠ 0 ∨ (bit v 8 = true ∧ old = 0xFFFF)
    (bad → exec (.mxcap d a) s = .next (fault fCap s)) ∧
    (¬ bad → old < 2 ^ 16 → myAsid s < 2 ^ 16 → myCell s < 256 → ∃ t c, exec (.mxcap d a) s = .next t ∧ WentOn s t ∧ OthersSame s t ∧
      SameBytes s t ∧ ScalarSet d c (me s).regs (slotAt t s.issue.gid).regs ∧
      bits c 0 4 = cellX (myCell s) ∧ bits c 4 4 = cellY (myCell s) ∧ bits c 8 16 = 0 ∧ bit c 24 = bit v 0 ∧ bit c 25 = bit v 1 ∧
      bits c 26 6 = 0 ∧ bits c 32 16 = myAsid s ∧ bits c 48 16 = (if bit v 8 then old + 1 else old) ∧
      (tfind (cellAt t (myCell s)).mxgen (myAsid s)).getD 0 = if bit v 8 then old + 1 else old)) ∧
  (∀ s c q, claimPick (cellAt s c) = some q → q.gid < 16384 →
    ∃ u m, exec (.operandClaimGrant c) s = .next (settle u) ∧ q ∉ (cellAt u c).claims ∧
      (∀ k, k < q.count → holds (holders (cellAt u c) q.tiles) (q.start + k) q.dest = true) ∧ ReplySent s u q.gid [.s q.d m])

/-- R50, R151, R152, R298 to R301: remote register writes, block sums and matrix commands, as they leave and as they arrive. That the
TRAPADDR of a target outside the partition is 0 is log entry 28's reading (DEDUCED). -/
def Obligations.RemoteMessages : Prop :=
  (∀ s a x c, Ready (.rput a x) s → targetAt s s.issue.gid x = .ok c → vmemPending s s.issue.gid = false →
    ∃ t, exec (.rput a x) s = .next t ∧
      WroteNothing (withMsg s (.rput (reqOf s 0) c x.core.val x.slot.val x.reg (sGet (me s) a))) t) ∧
  (∀ s a x f, Ready (.rput a x) s → targetAt s s.issue.gid x = .error f → exec (.rput a x) s = .next (fault f s)) ∧
  (∀ s d a b x r c, Ready (.bsum d a b) s → Target.ofCode (bits (sGet (me s) d) 0 32) = some x → x.reg = .s r →
    bits (sGet (me s) d) 32 32 = 0 → bits (sGet (me s) d) 0 7 = 0 → pairReg r = true → x.wf = true →
    targetAt s s.issue.gid x = .ok c → vmemPending s s.issue.gid = false →
    ∃ t m e, exec (.bsum d a b) s = .next t ∧ WroteNothing (withMsg s (.bsum (reqOf s 0) c x.core.val x.slot.val r m e)) t ∧
      m.natAbs < 2 ^ 47 ∧ e ≤ 32767 ∧
      ((sGet (me s) a).toInt.natAbs < 2 ^ 47 → m = (sGet (me s) a).toInt ∧ e = ((sGet (me s) b).setWidth 16).toInt)) ∧
  (∀ s d a b, Ready (.bsum d a b) s → bits (sGet (me s) d) 32 32 ≠ 0 → exec (.bsum d a b) s = .next (fault fIll s)) ∧
  (∀ s d a, Ready (.bsacc d a) s → 2 ≤ d.val → d.val ≤ 30 →
    let n := (sGet (me s) a).toNat % 2 ^ 16
    (n = 0 → ∃ t, exec (.bsacc d a) s = .next t ∧ WentOn s t ∧ OthersSame s t ∧ SameBytes s t ∧
      PairSet d 0 0 (me s).regs (slotAt t s.issue.gid).regs) ∧
    (n ≠ 0 → 4 ≤ (me s).bsaccs.length → exec (.bsacc d a) s = .next (fault (fQueue 5) s)) ∧
    (n ≠ 0 → (me s).bsaccs.length < 4 → ∃ t, exec (.bsacc d a) s = .next t ∧ t.issue.done = true ∧
      (slotAt t s.issue.gid).ctl = nextCtl (me s) ∧ (slotAt t s.issue.gid).regs.s = (me s).regs.s ∧
      (slotAt t s.issue.gid).bsaccs = (me s).bsaccs ++ [{ reg := d, left := n, m := 0, e := 0 }] ∧
      presOf t s.issue.gid (.s d) = .owed ∧ presOf t s.issue.gid (.s (sreg d 1)) = .owed ∧
      ∀ l, l ≠ .s d → l ≠ .s (sreg d 1) → presOf t s.issue.gid l = presOf s s.issue.gid l)) ∧
  (∀ s d a c, Ready (.tmmar d a c) s →
    let k := sGet (me s) a
    let cell := 16 * bits k 4 4 + bits k 0 4
    let formed := bits k 26 6 = 0 ∧ bits k 8 16 = 0 ∧ bits k 32 16 = myAsid s
    (¬ formed → exec (.tmmar d a c) s = .next (fault fCap s)) ∧
    (formed → inPart s (myAsid s) cell = false → exec (.tmmar d a c) s = .next (fault (fPage 4 0) s)) ∧
    (formed → inPart s (myAsid s) cell = true → ∃ t, exec (.tmmar d a c) s = .next t ∧ OwesScalar d s t ∧
      tfind t.net s.nextId = some (.tmmar (reqOf s 0) cell d k c))) ∧
  (∀ s k q cell core slot (n : SReg) v, tfind s.net k = some (.rput q cell core slot (.s n) v) →
    remoteFirst s k (.rput q cell core slot (.s n) v) = true →
    let t := targetSlot cell core slot
    (slotAt s t).arrs = [] →
    (n ≠ 0 → (slotAt s t).ctl.asid = q.asid → (slotAt s t).ctl.gone = false → (slotAt s t).ctl.st ≠ .spilled →
      bit (slotAt s t).trap.cause 11 = false → (slotAt s t).regs.sp[n.val] ≠ .owed →
      ∃ u, exec (.rputArrival k) s = .next (settle u) ∧ u.net = tdel s.net k ∧
        (slotAt u t).regs.s = (slotAt s t).regs.s.set n.val v ∧ (slotAt u t).regs.sp = (slotAt s t).regs.sp.set n.val .full ∧
        ∀ h, h ≠ t → slotAt u h = slotAt s h) ∧
    ((slotAt s t).ctl.gone = true → tfind s.saves (saveKey q.asid t) = none → (slotAt s q.gid).ctl.epoch = q.epoch →
      ∃ u, exec (.rputArrival k) s = .next (settle u) ∧ u.net = tdel s.net k ∧
        (slotAt u q.gid).ctr[6] = ((slotAt s q.gid).ctr[6] + 1) % 2 ^ 64 ∧ ∀ h, h ≠ q.gid → slotAt u h = slotAt s h)) ∧
  (∀ s k q cell core slot (r : SReg) m e, tfind s.net k = some (.bsum q cell core slot r m e) →
    remoteFirst s k (.bsum q cell core slot r m e) = true → 2 ≤ r.val → r.val ≤ 30 →
    let t := targetSlot cell core slot
    (slotAt s t).ctl.asid = q.asid → (slotAt s t).ctl.gone = false → (slotAt s t).ctl.st ≠ .spilled →
    bit (slotAt s t).trap.cause 11 = false →
    ((∀ b ∈ (slotAt s t).bsaccs, b.reg ≠ r) → ∃ u, exec (.bsumArrival k) s = .next (settle u) ∧ u.net = tdel s.net k ∧
      (slotAt u t).regs.s[r.val] = BitVec.ofInt 64 m ∧ (slotAt u t).regs.s[(sreg r 1).val] = BitVec.ofInt 64 e) ∧
    (∀ b, (slotAt s t).bsaccs = [b] → b.reg = r →
      let p := bsacc (b.m, b.e) (m, e)
      ∃ u, exec (.bsumArrival k) s = .next (settle u) ∧ u.net = tdel s.net k ∧
        (2 ≤ b.left → (slotAt u t).bsaccs = [{ b with left := b.left - 1, m := p.1, e := p.2 }] ∧
          (slotAt u t).regs = (slotAt s t).regs) ∧
        (b.left ≤ 1 → (slotAt u t).bsaccs = [] ∧ (slotAt u t).regs.s[r.val] = BitVec.ofInt 64 p.1 ∧
          (slotAt u t).regs.s[(sreg r 1).val] = BitVec.ofInt 64 p.2))) ∧
  (∀ s k q c d cap cmd, tfind s.net k = some (.tmmar q c d cap cmd) → isAway s q.asid c = false →
    (∀ m ∈ s.net, m.1 < k → ∀ p c' d' cap' cmd', m.2 = .tmmar p c' d' cap' cmd' → p.gid ≠ q.gid ∨ c' ≠ c) →
    let op : MxOp :=
      { seq := k, gid := q.gid, epoch := q.epoch, asid := q.asid, priv := q.priv, clock := q.clock, remote := some d,
        kind := commandKind cmd, srcs := [], steps := 0, page := none, data := 0, fail := none }
    (commandStatus s c cap cmd op = 0 → ∃ u, exec (.tmmarCommandArrival k) s = .next (settle u) ∧
      (cellAt u c).mx = (cellAt s c).mx ++ [op]) ∧
    (commandStatus s c cap cmd op ≠ 0 → ∃ u r, exec (.tmmarCommandArrival k) s = .next (settle u) ∧
      tfind u.net s.nextId = some (.reply r) ∧ r.gid = q.gid ∧ r.epoch = q.epoch ∧
      r.writes = [.s d (BitVec.ofInt 64 (commandStatus s c cap cmd op))]))

/-- R141, R146, R309, R310, R322, R339, R371: results come to their slots, and homes perform loads and stores. That the reply to the handler's
own parked word goes to the live register while IN is 1 is log entry 38's reading (DEDUCED). -/
def Obligations.Deliveries : Prop :=
  (∀ s k r, tfind s.net k = some (.reply r) → replyReady s r = true → writesVector r.writes = false →
    (slotAt s r.gid).ctl.epoch = r.epoch → (slotAt s r.gid).ctl.gone = false → (slotAt s r.gid).arrs = [] →
    (slotAt s r.gid).ctl.st ≠ .idle →
    let x := slotAt s r.gid
    (∀ d v, x.ctl.st ≠ .spilled → r.fault = none → r.idle = false → r.writes = [.s d v] → d ≠ 0 →
      (r.ends = true ∨ bit x.trap.cause 11 = false) → x.regs.sp[d.val] ≠ .owed →
      ∃ u, exec (.resultArrival k) s = .next (settle u) ∧ u.net = tdel s.net k ∧
        (slotAt u r.gid).regs = { x.regs with s := x.regs.s.set d.val v, sp := x.regs.sp.set d.val .full } ∧
        (slotAt u r.gid).lclk = max x.lclk r.clock ∧ (∀ h, h ≠ r.gid → slotAt u h = slotAt s h) ∧
        (r.ends = true → x.ctl.st = .parked → (slotAt u r.gid).ctl = { nextCtl x with st := .running, wait := .none })) ∧
    (∀ d v, x.ctl.st ≠ .spilled → r.fault = none → r.ends = false → r.idle = false → r.writes = [.s d v] → 1 ≤ d.val → d.val ≤ 3 →
      bit x.trap.cause 11 = true →
      ∃ u, exec (.resultArrival k) s = .next (settle u) ∧ (slotAt u r.gid).regs = x.regs ∧
        (slotAt u r.gid).shadow.s[d.val - 1]? = some v) ∧
    (∀ t, x.ctl.st = .parked → x.ctl.wait = .reply → r.fault = some t → r.writes = [] → x.trap.vec ≠ 0 →
      bit x.trap.cause 11 = false → t.code < 256 →
      ∃ u, exec (.resultArrival k) s = .next (settle u) ∧ TrapEntered t t.half x.ctl.pc
        { x with ctr := (slotAt u r.gid).ctr, lclk := max x.lclk r.clock } (slotAt u r.gid)) ∧
    (x.ctl.st = .parked → r.fault = none → r.ends = true → r.idle = true → r.writes = [] →
      (∀ d, mayTake s (coreOf r.gid) d = true → (coreAt s d).deque = []) →
      ∃ u, exec (.resultArrival k) s = .next (settle u) ∧ (slotAt u r.gid).regs = x.regs ∧
        (slotAt u r.gid).ctl = { x.ctl with st := .idle, wait := .none, loops := [], pc := x.ctl.npc }) ∧
    (x.ctl.st = .spilled → ∃ u, exec (.resultArrival k) s = .next (settle u) ∧
      slotAt u r.gid = { x with inbox := x.inbox ++ [.result r] })) ∧
  (∀ s k r, tfind s.net k = some (.reply r) → replyReady s r = true → writesVector r.writes = false →
    (slotAt s r.gid).ctl.epoch ≠ r.epoch → savedSlot s r.gid r.epoch = none → r.handle = none →
    (slotAt s r.gid).arrs = [] → NoTask s r.gid →
    ∃ u, exec (.resultArrival k) s = .next (settle u) ∧ u = { s with net := tdel s.net k }) ∧
  (∀ s k q d w p, tfind s.net k = some (.load q d w) → pageHeld s q = false → resolve s (reqWho s q) .read q.va = .go p →
    postedTo s q.gid (placeKey p / 128) k = [] →
    (poisoned s p (ldBytes w) = false → ∃ u r, exec (.homeAccess k) s = .next (settle u) ∧ tfind u.net s.nextId = some (.reply r) ∧
      r.gid = q.gid ∧ r.epoch = q.epoch ∧ r.ends = true ∧ r.fault = none ∧
      r.writes = [.s d (loadedValue w (leNat (fetchBytes q.asid p (ldBytes w) s).1))] ∧
      ((∀ c e o x, p ≠ .cached c e o x) → UndisturbedFor q.asid s p → SameBytes s u)) ∧
    (poisoned s p (ldBytes w) = true → ∃ u r, exec (.homeAccess k) s = .next (settle u) ∧ SameBytes s u ∧
      tfind u.net s.nextId = some (.reply r) ∧ r.gid = q.gid ∧ r.epoch = q.epoch ∧ r.writes = [] ∧ r.fault = some (fPage 2 q.va))) ∧
  (∀ s k q w v p, tfind s.net k = some (.store q w v) → pageHeld s q = false → resolve s (reqWho s q) .write q.va = .go p →
    postedTo s q.gid (placeKey p / 128) k = [] → (∀ a, p ≠ .view a) → (∀ f o, p ≠ .vf f o) → (∀ a, p ≠ .peer a) →
    (∀ a, p ≠ .host a) → (∀ a, p ≠ .own a) → UndisturbedFor q.asid s p → Memory.wf s →
    ∃ u r, exec (.homeAccess k) s = .next (settle u) ∧ StoredAt p (stBytes w) v.toNat s u ∧
      tfind u.net s.nextId = some (.reply r) ∧ r.gid = q.gid ∧ r.epoch = q.epoch ∧ r.writes = [] ∧ r.ends = true ∧ r.fault = none) ∧
  (∀ s k q w v p pa, tfind s.net k = some (.store q w v) → pageHeld s q = false → resolve s (reqWho s q) .write q.va = .go p →
    postedTo s q.gid (placeKey p / 128) k = [] → (p = .peer pa ∨ p = .host pa ∨ ∃ a, p = .own a ∧ pa = ownAddr s a) →
    ∃ u r, exec (.homeAccess k) s = .next (settle u) ∧ SameBytes s u ∧
      tfind u.net s.nextId = some (.remoteStore q.gid pa (leBytes (stBytes w) v.toNat)) ∧
      tfind u.net (s.nextId + 1) = some (.reply r) ∧ r.gid = q.gid ∧ r.epoch = q.epoch ∧ r.writes = [] ∧ r.ends = true ∧ r.fault = none) ∧
  (∀ s k g pa bs, tfind s.net k = some (.remoteStore g pa bs) → postedTo s g (pa / 128) k = [] → ownOff s pa = none →
    ∃ u, exec (.homeAccess k) s = .next (settle u) ∧ u.net = tdel s.net k ∧ u.mem.bytes = s.mem.bytes ∧
      getExts u.mem.ext pa bs.length = bs ∧ (∀ a, a < pa ∨ pa + bs.length ≤ a → getExt u.mem.ext a = getExt s.mem.ext a) ∧
      ∀ c, (cellAt u c).stash = (cellAt s c).stash)

/-- R99, R110, R113, R132 to R136: LAUNCH, GCANCEL, GSTAT, TNEXT, and the home dealer. What another device's root answers is free (log entry
12, DESIGN CHOICE), and that DEALER_NEXT is the step that answers a request with OP = 3 is log entry 23's reading (DEDUCED). -/
def Obligations.GridWords : Prop :=
  (∀ s d a, Ready (.launch d a) s →
    let v := sGet (me s) a
    (v.toNat % 64 ≠ 0 → exec (.launch d a) s = .next (fault (fAlign v) s)) ∧
    (v.toNat % 64 = 0 → releaseReady s s.issue.gid = true → ∃ t, exec (.launch d a) s = .next t ∧ OwesScalar d s t ∧
      tfind t.net s.nextId = some (.launch (reqOf s v) d v)) ∧
    (v.toNat % 64 = 0 → releaseReady s s.issue.gid = false → ∃ t, exec (.launch d a) s = .next t ∧
      ParkedFor (.release d v) s t ∧ OthersSame s t)) ∧
  (∀ i s a kill, Ready i s → ((i = .gcancelDrain a ∧ kill = false) ∨ (i = .gcancelKill a ∧ kill = true)) →
    let v := sGet (me s) a
    ∃ t, exec i s = .next t ∧ WroteNothing
      (if bits v 48 16 = 0 ∧ bits v 10 13 = 0 ∧ bits v 23 9 = s.boot.device
        then withMsg s (.cancel (myAsid s) (bits v 0 10) (bits v 32 16) kill) else s) t) ∧
  (∀ s d a, Ready (.gstat d a) s →
    let v := sGet (me s) a
    let formed := bits v 48 16 = 0 ∧ bits v 10 13 = 0
    (s.fly = true → ∃ t, exec (.gstat d a) s = .next t ∧ ParkedFor .reply s t ∧ OthersSame s t ∧ SameBytes s t ∧
      tfind t.net s.nextId = some (.gstat (reqOf s 0) d v)) ∧
    (s.fly = false → formed → bits v 23 9 = s.boot.device → ∀ g, tfind s.grids (bits v 0 10) = some g → g.gen = bits v 32 16 →
      g.asid = myAsid s → ∃ t, exec (.gstat d a) s = .next t ∧
        WroteS d (BitVec.ofNat 64 (g.phase + 2 ^ 32 * min 0xFFFFFFFF (g.finished + g.killed))) s t) ∧
    (s.fly = false → (¬ formed ∨ (bits v 23 9 = s.boot.device ∧ (tfind s.grids (bits v 0 10) = none ∨
        ∃ g, tfind s.grids (bits v 0 10) = some g ∧ (g.gen ≠ bits v 32 16 ∨ g.asid ≠ myAsid s)))) →
      ∃ t, exec (.gstat d a) s = .next t ∧ WroteS d 4 s t) ∧
    (s.fly = false → formed → bits v 23 9 ≠ s.boot.device → ∃ t x, exec (.gstat d a) s = .next t ∧
      WroteS d x { s with fresh := s.fresh + 1 } t ∧ bits x 0 32 ≤ 4)) ∧
  (∀ s k q d v, tfind s.net k = some (.gstat q d v) → bits v 48 16 = 0 → bits v 10 13 = 0 → bits v 23 9 = s.boot.device →
    ∀ g, tfind s.grids (bits v 0 10) = some g → g.gen = bits v 32 16 → g.asid = q.asid →
      ∃ u r, exec (.homeAccess k) s = .next (settle u) ∧ tfind u.net s.nextId = some (.reply r) ∧ r.gid = q.gid ∧ r.epoch = q.epoch ∧
        r.ends = true ∧ r.writes = [.s d (BitVec.ofNat 64 (g.phase + 2 ^ 32 * min 0xFFFFFFFF (g.finished + g.killed)))]) ∧
  (∀ s d a c, Ready (.tnext d a) s → s.fly = false → ctxAt s (myAsid s) = some c →
    let ask := sGet (me s) a
    let r := dealerRule (dealerQueue s (myAsid s) ask) ask (dealWeight s (myCell s)) (dealTotal s (myAsid s))
    ∃ t, exec (.tnext d a) s = .next t ∧
      WroteS d r.1 (withCtx s (myAsid s) fun c => { c with dealq := tput c.dealq (bits ask 0 6) r.2 }) t) ∧
  (∀ i s k q d ask c, tfind s.net k = some (.dealer q d ask) → isOut s q.asid = false → ctxAt s q.asid = some c →
    ((i = .dealerNext k ∧ (bits ask 6 2 = 0 ∨ bits ask 6 2 = 3)) ∨ (i = .dealerSet k ∧ bits ask 6 2 = 1) ∨
      (i = .dealerQuery k ∧ bits ask 6 2 = 2)) →
    let r := dealerRule (dealerQueue s q.asid ask) ask (dealWeight s (cellOf q.gid)) (dealTotal s q.asid)
    ∃ u p, exec i s = .next (settle u) ∧ tfind u.net s.nextId = some (.reply p) ∧ p.gid = q.gid ∧ p.epoch = q.epoch ∧
      p.writes = [.s d r.1] ∧ p.ends = true ∧ ctxAt u q.asid = some { c with dealq := tput c.dealq (bits ask 0 6) r.2 })

/-- R100 to R112, R128: what happens to a grid from its launch to its completion. -/
def Obligations.GridEvents : Prop :=
  (∀ s k id q d v, nextLaunch s = some (id, q, d, v) → ending s q.asid = true →
    exec (.rootDispatchLaunch k) s = .next (settle { s with net := tdel s.net id })) ∧
  (∀ s k id q d v b devs e, nextLaunch s = some (id, q, d, v) → ending s q.asid = false →
    readVirt s (ctxWho q.asid q.priv (coreOf q.gid)) 2 v.toNat 64 = some b →
    let w := ctxWho q.asid q.priv (coreOf q.gid)
    let dn := leNat b
    let z := seenDescriptor w q.clock v.toNat dn s
    (launchStatus z w true dn ≠ 0 → ∃ u, exec (.rootDispatchLaunch k) s = .next (settle u) ∧ u.grids = s.grids ∧
      Answered q d (BitVec.ofInt 64 (launchStatus z w true dn)) s u) ∧
    (launchStatus z w true dn = 0 → recordsFull s = true → ∃ u, exec (.rootDispatchLaunch k) s = .next (settle u) ∧
      u.grids = s.grids ∧ Answered q d (BitVec.ofInt 64 (-4)) s u) ∧
    (launchStatus z w true dn = 0 → recordsFull s = false → k < 1024 → gridLive s k = false → launchDevs z w dn = some devs →
      codeEntry z q.asid (dField dn 8 1) (dField dn 0 8) = some e →
      ∃ u g, exec (.rootDispatchLaunch k) s = .next (settle u) ∧ tfind u.grids k = some g ∧ g.live = true ∧ g.phase = 0 ∧
        g.asid = q.asid ∧ g.entry = e ∧ g.devs = devs ∧ g.gx = dField dn 16 4 ∧ g.gy = dField dn 20 4 ∧ g.gz = dField dn 24 4 ∧
        g.left = g.gx * g.gy * g.gz ∧ g.next = 0 ∧ g.slots = dField dn 10 1 ∧ g.vwin = dField dn 11 1 ∧
        (∀ j, j ≠ k → tfind u.grids j = tfind s.grids j) ∧
        Answered q d (BitVec.ofNat 64 (k + s.boot.device * 2 ^ 23 + g.gen * 2 ^ 32)) s u)) ∧
  (∀ s k sec g, tfind s.grids k = some g → g.live = true → g.phase = 0 → g.graph = none → isOut s g.asid = false →
    s.boot.device ∈ g.devs → (∀ x ∈ g.devs, x = s.boot.device) → launchWaits s g = false → (∀ h ∈ g.held, h.1 ≠ sec.val) →
    (∃ c ∈ sectorPart s g.asid sec.val, cellDry s k g c = true) → (g.range.2 ≠ 0 ∨ g.left ≠ 0) →
    let dry := g.range.2 = 0
    let w := weightOf s (sectorPart s g.asid sec.val)
    let first := if dry then g.next else g.range.1
    let n := if dry then g.left else g.range.2
    let l := nextRange n 1 w (dealTotal s g.asid)
    w ≠ 0 → ∃ u, exec (.dispatcherRequest k sec none) s = .next (settle u) ∧
      u = { s with grids := tput s.grids k { g with
        held := g.held ++ [(sec.val, first, l)]
        range := (first + l, n - l)
        next := if dry then g.next + g.left else g.next
        left := if dry then 0 else g.left } }) ∧
  (∀ s k sec g c, tfind s.grids k = some g → (g.devs.contains s.boot.device = false ∨ launchWaits s g = true) →
    exec (.dispatcherRequest k sec c) s = .next (settle s)) ∧
  (∀ s k sec c g first n, tfind s.grids k = some g → g.live = true → g.phase = 0 → g.graph = none → isOut s g.asid = false →
    s.boot.device ∈ g.devs → launchWaits s g = false → g.held = [(sec.val, first, n)] → cellDry s k g c = true → sectorOf c = sec.val →
    let l := nextRange n 1 (dealWeight s c) (max 1 (weightOf s (sectorPart s g.asid sec.val)))
    ∃ u, exec (.dispatcherRequest k sec (some c)) s = .next (settle u) ∧ (cellAt u c).held = (cellAt s c).held ++ [(k, first, l)] ∧
      tfind u.grids k = some { g with held := if l = n then [] else [(sec.val, first + l, n - l)], dealt := g.dealt + l }) ∧
  (∀ s c k i n g q rs, (cellAt s c).held = [(k, i, n)] → tfind s.grids k = some g → (cellAt s c).joined = true →
    inPart s g.asid c = true → isOut s g.asid = false → (coresOf c).find? (coreFree s) = some q →
    reserveWindows (poolTaken s c) g.vwin g.slots = some rs → rs.length = g.slots → 1 ≤ g.slots →
    ∃ u b, exec (.blockStart c) s = .next (settle u) ∧ (coreAt u q).block = some b ∧ b.grid = k ∧ b.index = i ∧ b.asid = g.asid ∧
      b.slots = g.slots ∧ b.vwin = g.vwin ∧ b.resv = rs ∧ b.begun = false ∧ (coreAt u q).deque = [] ∧
      (cellAt u c).held = (if n ≤ 1 then [] else [(k, i + 1, n - 1)]) ∧
      let y := slotAt u (16 * q)
      y.ctl.st = .running ∧ y.ctl.pc = g.entry ∧ y.ctl.loops = [] ∧ y.ctl.asid = g.asid ∧ y.trap.vec = 0 ∧ y.trap.cause = 0 ∧
      y.waitlim = 0 ∧ y.win.size = g.vwin ∧ sGet y 4 = g.args ∧ sGet y 5 = BitVec.ofNat 64 i ∧
      sGet y 6 = BitVec.ofNat 64 (g.gx * g.gy * g.gz) ∧ sGet y 7 = BitVec.ofNat 64 s.boot.device ∧
      (∀ r : SReg, r.val < 4 ∨ 8 ≤ r.val → sGet y r = 0) ∧ ∀ r : SReg, y.regs.sp[r.val] = .full) ∧
  (∀ s k g peers z, tfind s.grids k = some g → gridOver s k g = true →
    peers.length = (g.devs.filter (· != s.boot.device)).length → peers.all reportOk = true →
    (if g.phase = 0 ∧ g.devs ≠ [] then (peers.map (·.dealt)).sum = g.left else (peers.map (·.dealt)).sum ≤ g.left) →
    let h := addPeers peers g
    (h.mute = true → ∃ u, exec (.gridComplete k peers) s = .next (settle u) ∧
      tfind u.grids k = some { h with live := false, phase := 3 } ∧ u.mem = s.mem) ∧
    (g.mute = false → recordWaits s g.asid g.priv g.compl = true → exec (.gridComplete k peers) s = .next (settle s)) ∧
    (h.mute = false → recordWaits s g.asid g.priv g.compl = false → writeRecord h.asid h.priv h.compl
        (completionBytes (gridStatus h) h.dealt h.started h.finished h.killed (h.devs.length + h.lost.length) h.nfault 0
          (gridId s.boot.device h.gen k) h.faults) s = z →
      ∃ u, exec (.gridComplete k peers) s = .next (settle u) ∧
        tfind u.grids k = some { h with live := false, phase := 3 } ∧ u.mem = z.mem ∧ u.cells = z.cells)) ∧
  (∀ s k a r gen kill g, tfind s.net k = some (.cancel a r gen kill) → tfind s.grids r = some g → g.gen = gen → g.asid = a →
    g.live = true → g.phase < 2 → ∃ u h, exec (.cancelArrival k) s = .next (settle u) ∧ tfind u.grids r = some h ∧
      h.phase = (if kill then 2 else 1) ∧ h.held = [] ∧ (kill = true → h.wasKilled = true) ∧ (kill = false → h.wasDrained = true) ∧
      (∀ c, ∀ q ∈ (cellAt u c).held, q.1 ≠ r) ∧
      (kill = true → ∀ c b, (coreAt u c).block = some b → b.grid ≠ r)) ∧
  (∀ s k r f g, tfind s.net k = some (.gfault r f) → tfind s.grids r = some g →
    (g.coop = false → g.fstop = false → ∃ u, exec (.gridFaultReport (.own k)) s = .next (settle u) ∧ u.net = tdel s.net k ∧
      tfind u.grids r = some { g with nfault := g.nfault + 1, faults := addFault f g.faults }) ∧
    (g.coop = true → g.live = true → g.phase < 3 → ∃ u h, exec (.gridFaultReport (.own k)) s = .next (settle u) ∧
      tfind u.grids r = some h ∧ h.phase = 2 ∧ h.nfault = g.nfault + 1)) ∧
  (∀ s k f g, tfind s.grids k = some g → g.live = true → g.phase < 3 → f.dev ≠ s.boot.device → f.dev ∈ g.devs → g.coop = false →
    g.fstop = false → ∃ u, exec (.gridFaultReport (.peer k f)) s = .next (settle u) ∧
      u = { s with grids := tput s.grids k { g with nfault := g.nfault + 1, faults := addFault f g.faults } }) ∧
  (∀ s dev (reports : List (Nat × PeerReport)), dev ≠ s.boot.device →
    (∀ r ∈ reports, r.2.started ≤ r.2.dealt ∧ r.2.finished + r.2.killed ≤ r.2.started ∧
      ∀ g, tfind s.grids r.1 = some g → r.2.dealt ≤ g.left) → ∃ u, exec (.deviceUnreachable dev reports) s = .next (settle u) ∧
    dev ∉ u.boot.reach ∧ (∀ d, d ≠ dev → (d ∈ u.boot.reach ↔ d ∈ s.boot.reach)) ∧
    ∀ k g, tfind s.grids k = some g → ∃ h, tfind u.grids k = some h ∧
      ((g.live = true ∧ g.phase < 3 ∧ dev ∈ g.devs) → h.devs = g.devs.filter (· != dev) ∧ h.lost = g.lost ++ [dev] ∧
        ∀ p, reports = [(k, p)] → h.dealt = g.dealt + p.dealt ∧ h.started = g.started + p.started ∧
          h.finished = g.finished + p.finished ∧ h.killed = g.killed + (p.started - p.finished) ∧ h.left = g.left - p.dealt) ∧
      (¬ (g.live = true ∧ g.phase < 3 ∧ dev ∈ g.devs) → h = g))

/-- R199 to R206, R278: what the specialiser answers, and the residual it makes: the examples of R205 (27 steps; one addition, one load
and one multiplication are left) and of R278. Which registers other code takes is free (log entry 9, DESIGN CHOICE). -/
def Obligations.Specialisation : Prop :=
  (∀ s n id q d h b lim, workCore s 2 ≠ none → nextSpec s = some (id, q, d, h, b, lim) →
    (templateOf s q.asid h = none → ∃ u, exec (.specialise n) s = .next (settle u) ∧
      Answered q d (BitVec.ofInt 64 (-1)) s u ∧ u.ctxs = s.ctxs) ∧
    (∀ c t, templateOf s q.asid h = some (c, t) →
      let w := ctxWho q.asid q.priv (coreOf q.gid)
      (b.toNat % 8 ≠ 0 → ∃ u, exec (.specialise n) s = .next (settle u) ∧ u.ctxs = s.ctxs ∧
        Answered q d (BitVec.ofInt 64 (-2)) s u) ∧
      ∀ l vals regs, b.toNat % 8 = 0 → specReads s w id [(b.toNat, 8 * (earlyParams t).length)] = .ok l →
        specWords (earlyParams t).length l.flatten = some vals →
        specReads s w id (regionsOf (earlyParams t) vals) = .ok regs →
        let code := residualFor t.body vals ((regionsOf (earlyParams t) vals).map Prod.fst) regs lim
        let m := unitsFor code.1.length
        (residualRoom (spentUnits s q.asid 1) c m = false → ∃ u, exec (.specialise n) s = .next (settle u) ∧ u.ctxs = s.ctxs ∧
          Answered q d (BitVec.ofInt 64 (-3)) s u) ∧
        (residualRoom (spentUnits s q.asid 1) c m = true → residualFits (spentUnits s q.asid 1) c m n = true →
          unitsFetched s q.asid c n m = false → n < 2 ^ 30 → q.asid < 2 ^ 16 → genOf s q.asid 1 n < 2 ^ 16 →
          ∃ u v, exec (.specialise n) s = .next (settle u) ∧ bits v 0 30 = n ∧ bits v 30 16 = q.asid ∧
            bits v 46 16 = genOf s q.asid 1 n ∧ bits v 62 2 = 0 ∧
            (∃ c', ctxAt u q.asid = some c' ∧
              c'.resids = c.resids ++ [{ off := n, units := m, gen := genOf s q.asid 1 n, bytes := code.1.length, info := code.2,
                                         tmpl := t.off }]) ∧
            Answered q d v s u))) ∧
  (let x := itemsOfBody (fun _ _ => 0) (bodyIn dotBody [2, 0x3000] [(0x3000, [some 0, some 3])] speclimReset true true);
    x.2.steps + 27 = 4194304 ∧ leftIn x = 0 ∧ x.2.stepsHit = false ∧ x.2.unrollHit = false ∧ x.2.sizeHit = false ∧
    x.1.filterMap (fun q => match q.2 with | .op r _ _ => decodeAlone (kindLen (r.hdr / 2 ^ 14)) r.native | _ => none) =
      [.add 0 0 0, .ldOff 0 0 .s8 0, .mul 0 0 0]) ∧
  ∀ b, (residualFor dotBody [4, b] [b.toNat] [[some 2, some 0, some 255, some 3]] speclimReset).1 =
    [(.ldOff 5 4 .s8 0 : Instr), .add 5 5 5, .ldOff 6 4 .s8 2, .sub 5 5 6, .ldOff 7 4 .s8 3, .addiS 8 0 3, .madd 4 7 8 5, .ret].flatMap
      fun i => (encode i).flatMap fun g => [BitVec.ofNat 8 g.toNat, BitVec.ofNat 8 (g.toNat / 256)]

/-- R42, R149, R150, R210, R213, R279: every word of the vector class enters its core's queue with the scalars it captures, and
owes its destinations. -/
def Obligations.VectorIssue : Prop :=
  ∀ i s, isVector i = true →
    (Enters i s → ∃ t, exec i s = .next t ∧ t.issue.done = true ∧ (slotAt t s.issue.gid).ctl = nextCtl (me s) ∧
      (coreAt t (myCore s)).queue = (coreAt s (myCore s)).queue ++
        [{ seq := s.nextId, gid := s.issue.gid, epoch := (me s).ctl.epoch, instr := i, scal := (scalars i).map (sGet (me s)) }] ∧
      (∀ l ∈ owes i, l ≠ .s 0 → l ≠ .p 0 → l ≠ .m 0 → presOf t s.issue.gid l = .owed) ∧
      (∀ l, l ∉ owes i → presOf t s.issue.gid l = presOf s s.issue.gid l) ∧
      (slotAt t s.issue.gid).regs.s = (me s).regs.s ∧ (slotAt t s.issue.gid).regs.p = (me s).regs.p ∧
      (slotAt t s.issue.gid).regs.m = (me s).regs.m ∧ (cellAt t (myCell s)).pool = (cellAt s (myCell s)).pool ∧
      (cellAt t (myCell s)).tile = (cellAt s (myCell s)).tile ∧ SameBytes s t ∧ OthersSame s t) ∧
    ((∃ n ∈ vfields i, (me s).win.size ≤ n) → exec i s = .next (fault fWindow s)) ∧
    ((∃ n ∈ osFields i, holds (cellAt s (myCell s)).ohold n s.issue.gid = false) → exec i s = .next (fault fWindow s)) ∧
    ((∃ n ∈ tileFields i, holds (cellAt s (myCell s)).thold n s.issue.gid = false) → exec i s = .next (fault fWindow s)) ∧
    (vectorFault i s = none → blocked s s.issue.gid (reads i) [] = false → OperandsGood i s →
      (vfields i ≠ [] → bankAwake s (myCell s) (me s).win.base = true) → 16 ≤ (coreAt s (myCore s)).queue.length →
      ∃ t, exec i s = .next t ∧ WaitsFor .queue s t)

/-- R215, R226, R228 to R241: what the operations of the wide unit compute, lane by lane, where no floating-point arithmetic takes
part: FloatVectorResults has the rest. -/
def Obligations.VectorResults : Prop :=
  (∀ r i d m w f, i.wf = true → laneRule r i = some (d, m, w, f) → ∃ x, vecResult r i = [.v d x] ∧ ∀ k, k < 2048 / w →
    elem x.toNat w k = if (r.m m).getLsbD (w * k / 8) = true then f k else elem (r.v d.val).toNat w k) ∧
  (∀ r d a b m t, Instr.wf (.vsel d a b m t) = true → ∃ x, vecResult r (.vsel d a b m t) = [.v d x] ∧ ∀ k, k < 2048 / t.width →
    elem x.toNat t.width k = if (r.m m).getLsbD (t.width * k / 8) = true then r.el t a k else r.el t b k) ∧
  (∀ r d a m t, Instr.wf (.vcomp d a m t) = true → ∃ x, vecResult r (.vcomp d a m t) = [.v d x] ∧ ∀ k, k < 2048 / t.width →
    elem x.toNat t.width k = match ((List.range (2048 / t.width)).filter fun j => (r.m m).getLsbD (t.width * j / 8))[k]? with
      | some j => r.el t a j
      | none => 0) ∧
  (∀ r d a b m t c, Instr.wf (.vcmp d a b m t c) = true → t.isInt = true → ∃ x, vecResult r (.vcmp d a b m t c) = [.m d x] ∧
    ∀ k j, k < 2048 / t.width → j < t.width / 8 → x.getLsbD (t.width / 8 * k + j) =
      if (r.m m).getLsbD (t.width * k / 8) = true then
        (let p := intVal t (r.el t a k)
         let q := intVal t (r.el t b k)
         match c with
          | .eq => decide (p = q)
          | .ne => decide (p ≠ q)
          | .lt => decide (p < q)
          | .le => decide (p ≤ q)
          | .un => false)
      else (r.m d).getLsbD (t.width / 8 * k + j)) ∧
  (∀ r d a c m t rm, Instr.wf (.vredadd d a c m t rm) = true → t.isInt = true →
    vecResult r (.vredadd d a c m t rm) =
      [.s d (extended t ((r.sca + (activeEls r t m a (2048 / t.width)).sum) % 2 ^ t.width))]) ∧
  (∀ r d a c m t, Instr.wf (.vredmin d a c m t) = true → t.isInt = true →
    let all := r.sca % 2 ^ t.width :: activeEls r t m a (2048 / t.width)
    (∃ y ∈ all, vecResult r (.vredmin d a c m t) = [.s d (extended t y)] ∧ ∀ x ∈ all, intVal t y ≤ intVal t x) ∧
    ∃ y ∈ all, vecResult r (.vredmax d a c m t) = [.s d (extended t y)] ∧ ∀ x ∈ all, intVal t x ≤ intVal t y) ∧
  (∀ r d a m td ts rm part sat, Instr.wf (.vcvt d a m td ts rm part sat) = true → td.isInt = true → ts.isInt = true →
    ∃ x, vecResult r (.vcvt d a m td ts rm part sat) = [.v d x] ∧ ∀ k, k < 2048 / td.width →
      elem x.toNat td.width k = convertRule r d a m td ts part.toNat k (intConvert td ts sat)) ∧
  (∀ r d a b, vecResult r (.mand d a b) = [.m d (r.m a &&& r.m b)] ∧ vecResult r (.mor d a b) = [.m d (r.m a ||| r.m b)] ∧
    vecResult r (.mxor d a b) = [.m d (r.m a ^^^ r.m b)] ∧ vecResult r (.mnot d a) = [.m d (~~~(r.m a))]) ∧
  (∀ r d a t, Instr.wf (.mpopc d a t) = true → vecResult r (.mpopc d a t) =
    [.s d (BitVec.ofNat 64 ((List.range (2048 / t.width)).countP fun j => (r.m a).getLsbD (t.width * j / 8)))]) ∧
  (∀ r d a t, Instr.wf (.mfirst d a t) = true → ∃ v : Word64, vecResult r (.mfirst d a t) = [.s d v] ∧
    ((∀ j, j < 2048 / t.width → (r.m a).getLsbD (t.width * j / 8) = false) → v = BitVec.ofInt 64 (-1)) ∧
    ∀ j, j < 2048 / t.width → (r.m a).getLsbD (t.width * j / 8) = true →
      (∀ k, k < j → (r.m a).getLsbD (t.width * k / 8) = false) → v = BitVec.ofNat 64 j) ∧
  (∀ r d a t k, Instr.wf (.vext d a t k) = true → ∃ v : Word64, vecResult r (.vext d a t k) = [.s d v] ∧
    v = if t.isSigned then BitVec.ofInt 64 (intVal t (r.el t a k.toNat)) else BitVec.ofNat 64 (r.el t a k.toNat))

/-- R216 to R220, R226: the floating-point arithmetic of the device: every result is the exact one rounded once, with the zeros,
infinities and NaNs of R217, R219 and R220. -/
def Obligations.FloatRounding : Prop :=
  (∀ t ∈ convertTypes, ∀ rm sat neg m e x, m ≠ 0 → valueIs (.fin neg m e) x →
    isRnd (fmtOf t) rm sat x (pack (fmtOf t) rm sat (.fin neg m e))) ∧
  ∀ t ∈ floatTypes, ∀ rm a b, let f := fmtOf t
    (∀ x y, valueIs (unpack f a) x → valueIs (unpack f b) y →
      isRnd f rm false (x + y) (fAdd f rm a b) ∧ isRnd f rm false (x - y) (fSub f rm a b) ∧ isRnd f rm false (x * y) (fMul f rm a b) ∧
      (y ≠ 0 → isRnd f rm false (x / y) (fDiv f rm a b)) ∧ (0 < x → isRnd f rm false (Real.sqrt x) (fSqrt f rm a)) ∧
      ∀ c z, valueIs (unpack f c) z →
        isRnd f rm false (x * y + z) (fFma f rm false false a b c) ∧ isRnd f rm false (x * y - z) (fFma f rm false true a b c) ∧
        isRnd f rm false (-(x * y) + z) (fFma f rm true false a b c)) ∧
    (∀ n m e k p q x y, unpack f a = .fin n m e → unpack f b = .fin k p q → valueIs (.fin n m e) x → valueIs (.fin k p q) y →
      (x + y = 0 → fAdd f rm a b = zeroBits f (if n = k then n else decide (rm = .rdn))) ∧
      (x - y = 0 → fSub f rm a b = zeroBits f (if n ≠ k then n else decide (rm = .rdn))) ∧
      (x * y = 0 → fMul f rm a b = zeroBits f (n != k)) ∧ (m = 0 → p ≠ 0 → fDiv f rm a b = zeroBits f (n != k)) ∧
      (m ≠ 0 → p = 0 → fDiv f rm a b = infBits f (n != k)) ∧ (m = 0 → p = 0 → fDiv f rm a b = nanBits f) ∧
      (m = 0 → fSqrt f rm a = zeroBits f n) ∧ (m ≠ 0 → n = true → fSqrt f rm a = nanBits f)) ∧
    (∀ n k m e, unpack f a = .inf n → unpack f b = .fin k m e →
      fAdd f rm a b = infBits f n ∧ fSub f rm a b = infBits f n ∧ fAdd f rm b a = infBits f n ∧ fSub f rm b a = infBits f (!n) ∧
      fMul f rm a b = (if m = 0 then nanBits f else infBits f (n != k)) ∧ fDiv f rm a b = infBits f (n != k) ∧
      fDiv f rm b a = zeroBits f (n != k) ∧ fSqrt f rm a = if n then nanBits f else infBits f false) ∧
    (∀ n k, unpack f a = .inf n → unpack f b = .inf k →
      fAdd f rm a b = (if n = k then infBits f n else nanBits f) ∧ fSub f rm a b = (if n = k then nanBits f else infBits f n) ∧
      fMul f rm a b = infBits f (n != k) ∧ fDiv f rm a b = nanBits f) ∧
    ((unpack f a = .nan ∨ unpack f b = .nan) → fAdd f rm a b = nanBits f ∧ fSub f rm a b = nanBits f ∧ fMul f rm a b = nanBits f ∧
      fDiv f rm a b = nanBits f ∧ ∀ c p q, fFma f rm p q a b c = nanBits f ∧ fFma f rm p q c a b = nanBits f) ∧
    (unpack f a = .nan → fSqrt f rm a = nanBits f)

/-- R226 to R228, R233, R239, R240: what the operations of the wide unit on floating-point types compute, lane by lane, over the
arithmetic of FloatRounding. The approximations are free values of the model (log entry 8, DESIGN CHOICE): a result that keeps the bound is kept, any
other is replaced by the rounded function. -/
def Obligations.FloatVectorResults : Prop :=
  (∀ r i d m t f, i.wf = true → t.isFloat = true → floatLaneRule r i = some (d, m, t, f) → ∃ x, vecResult r i = [.v d x] ∧
    ∀ k, k < 2048 / t.width → elem x.toNat t.width k =
      if (r.m m).getLsbD (t.width * k / 8) = true then f k else elem (r.v d.val).toNat t.width k) ∧
  (∀ t ∈ floatTypes, ∀ a b, let f := fmtOf t
    (∀ x y, valueIs (unpack f a) x → valueIs (unpack f b) y → x < y → minNumber f a b = a ∧ maxNumber f a b = b ∧
      minNumber f b a = a ∧ maxNumber f b a = b) ∧
    (∀ n k e q, unpack f a = .fin n 0 e → unpack f b = .fin k 0 q →
      (minNumber f a b = if n then a else b) ∧ maxNumber f a b = if n then b else a) ∧
    (∀ n, unpack f a = .inf n → unpack f b ≠ .nan → unpack f b ≠ .inf n →
      minNumber f a b = (if n then a else b) ∧ maxNumber f a b = (if n then b else a) ∧
      minNumber f b a = (if n then a else b) ∧ maxNumber f b a = (if n then b else a)) ∧
    (unpack f a = .nan → unpack f b ≠ .nan → minNumber f a b = b ∧ maxNumber f a b = b ∧ minNumber f b a = b ∧ maxNumber f b a = b) ∧
    (unpack f a = .nan → unpack f b = .nan → minNumber f a b = nanBits f ∧ maxNumber f a b = nanBits f)) ∧
  (∀ r d a b m t c, Instr.wf (.vcmp d a b m t c) = true → t.isFloat = true → ∃ x, vecResult r (.vcmp d a b m t c) = [.m d x] ∧
    ∀ k j, k < 2048 / t.width → j < t.width / 8 →
      let on := x.getLsbD (t.width / 8 * k + j) = true
      let p := unpack (fmtOf t) (r.el t a k)
      let q := unpack (fmtOf t) (r.el t b k)
      ((r.m m).getLsbD (t.width * k / 8) = false → x.getLsbD (t.width / 8 * k + j) = (r.m d).getLsbD (t.width / 8 * k + j)) ∧
      ((r.m m).getLsbD (t.width * k / 8) = true →
        (p = .nan ∨ q = .nan → (on ↔ c = .ne ∨ c = .un)) ∧
        (∀ y z, valueIs p y → valueIs q z →
          (on ↔ match c with | .eq => y = z | .ne => y ≠ z | .lt => y < z | .le => y ≤ z | .un => False)) ∧
        (∀ n y, p = .inf n → valueIs q y →
          (on ↔ match c with | .eq | .un => False | .ne => True | .lt | .le => n = true)) ∧
        (∀ n y, valueIs p y → q = .inf n →
          (on ↔ match c with | .eq | .un => False | .ne => True | .lt | .le => n = false)) ∧
        ∀ n l, p = .inf n → q = .inf l →
          (on ↔ match c with
            | .eq => n = l | .ne => n ≠ l | .lt => n = true ∧ l = false | .le => n = true ∨ l = false | .un => False))) ∧
  (∀ r d a c m t rm, Instr.wf (.vredadd d a c m t rm) = true → t.isFloat = true →
    let x := r.sca % 2 ^ t.width
    let l := fun k => if k < 2048 / t.width ∧ (r.m m).getLsbD (t.width * k / 8) = true then some (r.el t a k) else none
    let tree := fun f => match treeAt f l (2048 / t.width).log2 0 with | some y => f x y | none => x
    vecResult r (.vredadd d a c m t rm) = [.s d (BitVec.ofNat 64 (tree (fAdd (fmtOf t) rm)))] ∧
    vecResult r (.vredmin d a c m t) = [.s d (BitVec.ofNat 64 (tree (minNumber (fmtOf t))))] ∧
    vecResult r (.vredmax d a c m t) = [.s d (BitVec.ofNat 64 (tree (maxNumber (fmtOf t))))]) ∧
  (∀ r d a m td ts rm part sat, Instr.wf (.vcvt d a m td ts rm part sat) = true → ¬ (td.isInt = true ∧ ts.isInt = true) →
    ∃ x, vecResult r (.vcvt d a m td ts rm part sat) = [.v d x] ∧ ∀ k, k < 2048 / td.width →
      elem x.toNat td.width k = convertRule r d a m td ts part.toNat k (convert td ts rm sat)) ∧
  (∀ td ∈ convertTypes, ∀ rm sat v,
    (∀ ts ∈ convertTypes,
      (∀ q, valueIs (unpack (fmtOf ts) v) q → isRnd (fmtOf td) rm sat q (convert td ts rm sat v)) ∧
      (∀ n e, unpack (fmtOf ts) v = .fin n 0 e → convert td ts rm sat v = zeroBits (fmtOf td) n) ∧
      (unpack (fmtOf ts) v = .nan → convert td ts rm sat v = if td = .e2m1 then 0 else nanBits (fmtOf td)) ∧
      ∀ n, unpack (fmtOf ts) v = .inf n → convert td ts rm sat v =
        if sat = true ∨ td = .e4m3 ∨ td = .e2m1 then maxBits (fmtOf td) n else infBits (fmtOf td) n) ∧
    ∀ ts, ts.isInt = true → isRnd (fmtOf td) rm sat (intVal ts v : ℝ) (convert td ts rm sat v) ∧
      (intVal ts v = 0 → convert td ts rm sat v = 0)) ∧
  (∀ td ts rm sat v, td.isInt = true → ts ∈ convertTypes →
    (∀ q, valueIs (unpack (fmtOf ts) v) q → ∃ n, roundsToInt rm q n ∧ convert td ts rm sat v = intBits td (clampTo td n)) ∧
    (unpack (fmtOf ts) v = .nan → convert td ts rm sat v = 0) ∧
    ∀ n, unpack (fmtOf ts) v = .inf n → convert td ts rm sat v = intBits td (clampTo td (if n then -(2 ^ 80) else 2 ^ 80))) ∧
  (∀ t v op, (t = .f32 ∨ t = .f64) → op < 4 →
    let f := fmtOf t
    let p := unpack f v
    let y := approxElem op t v
    (p = .nan → y = nanBits f) ∧
    (∀ n, p = .inf n → y = match op with
      | 0 => zeroBits f n
      | 1 => if n then nanBits f else zeroBits f false
      | 2 => if n then zeroBits f false else infBits f false
      | _ => if n then nanBits f else infBits f false) ∧
    (∀ n e, p = .fin n 0 e → op ≠ 2 → y = infBits f (if op = 3 then true else n)) ∧
    (∀ m e, p = .fin true m e → m ≠ 0 → (op = 1 ∨ op = 3) → y = nanBits f) ∧
    (∀ k : Int, (valueIs p ((2 : ℝ) ^ k) ∨ valueIs p (-(2 : ℝ) ^ k)) → op = 0 → ∀ x, valueIs p x → isRnd f .rne false (1 / x) y) ∧
    (∀ k : Int, op = 1 → valueIs p ((2 : ℝ) ^ (2 * k)) → isRnd f .rne false ((2 : ℝ) ^ (-k)) y) ∧
    (∀ k : Int, op = 2 → valueIs p k → isRnd f .rne false ((2 : ℝ) ^ k) y) ∧
    (∀ k : Int, op = 3 → valueIs p ((2 : ℝ) ^ k) → isRnd f .rne false k y) ∧
    (approxSpecial op p = none →
      keepsBound op t (approxExact op p) (unpack f y) = true ∨ y = pack f .rne false (approxExact op p))) ∧
  ∀ t v op, (t = .h16 ∨ t = .bf16) →
    approxElem op t v = convert t .f32 .rne false (approxElem op .f32 (convert .f32 t .rne false v))

/-- R288 to R292, R295, R327: the matrix unit on floating-point types and with BX, the one alignment rule, what ASTORE stores, and the
floating-point atomics. -/
def Obligations.MatrixResults : Prop :=
  (∀ (acc : AccNo) (oa ob : OSlot) t rm z xb q (x : Cell), t ∈ [Ty.e4m3, .e5m2, .h16, .bf16] → oa.val + q / 64 < 32 →
    ob.val + q / 64 < 32 → (xb = true → t = .e4m3 ∨ t = .e5m2) →
    let y := engineStep acc oa ob none t rm z xb q x
    let a := (opndAt x (oa.val + q / 64)).toNat
    let b := (opndAt x (ob.val + q / 64)).toNat
    let tb : Ty := if xb then (if t = .e4m3 then .e5m2 else .e4m3) else t
    let row := fun (z : Cell) (i : Nat) => (tileAt z acc.val).toNat / 2 ^ (2048 * i)
    (∀ j, j < 64 → ∃ cs : Nat → Nat,
      cs 0 = (if z = true ∧ q < 64 then 0 else elem (row x (q % 64)) 32 j) ∧ elem (row y (q % 64)) 32 j = cs (1024 / t.width / 32) ∧
      ∀ g, g < 1024 / t.width / 32 → groupAdds rm (cs g) ((List.range 32).map fun k =>
        fvMul (unpack (fmtOf t) (elem a t.width (q % 64 * (1024 / t.width) + (32 * g + k))))
          (unpack (fmtOf tb) (elem b t.width ((32 * g + k) * 64 + j)))) (cs (g + 1))) ∧
    (∀ i j, i < 64 → j < 64 → i ≠ q % 64 → elem (row y i) 32 j = elem (row x i) 32 j) ∧
    ∀ n, n ≠ acc.val → tileAt y n = tileAt x n) ∧
  (∀ (acc : AccNo) (oa ob : OSlot) rm z q (x : Cell), acc.val % 2 = 0 → oa.val + q / 64 < 32 → ob.val + q / 64 < 32 →
    let y := engineStep acc oa ob none .f64 rm z false q x
    let a := (opndAt x (oa.val + q / 64)).toNat
    let b := (opndAt x (ob.val + q / 64)).toNat
    let at' := fun (z : Cell) (i j : Nat) => elem ((tileAt z acc.val).toNat / 2 ^ (2048 * i)) 32 j +
      2 ^ 32 * elem ((tileAt z (acc.val + 1)).toNat / 2 ^ (2048 * i)) 32 j
    (∀ j, j < 64 → at' y (q % 64) j = (List.range 16).foldl
      (fun c k => fFma (fmtOf .f64) rm false false (elem a 64 (q % 64 * 16 + k)) (elem b 64 (k * 64 + j)) c)
      (if z = true ∧ q < 64 then 0 else at' x (q % 64) j)) ∧
    (∀ i j, i < 64 → j < 64 → i ≠ q % 64 → at' y i j = at' x i j) ∧
    ∀ n, n ≠ acc.val → n ≠ acc.val + 1 → tileAt y n = tileAt x n) ∧
  (∀ (acc : AccNo) (oa ob : OSlot) w rm z q (x : Cell), acc.val % 2 = 0 → oa.val + q / 64 < 32 → ob.val + q / 64 < 32 →
    let y := engineStep acc oa ob (some w) .s8 rm z false q x
    let a := (opndAt x (oa.val + q / 64)).toNat
    let b := (opndAt x (ob.val + q / 64)).toNat
    let pair := fun (z : Cell) (i j : Nat) =>
      let lo := elem ((tileAt z acc.val).toNat / 2 ^ (2048 * i)) 32 j
      let hi := elem ((tileAt z (acc.val + 1)).toNat / 2 ^ (2048 * i)) 32 j
      ((BitVec.ofNat 48 (lo + 2 ^ 32 * hi)).toInt, (BitVec.ofNat 16 (hi / 2 ^ 16)).toInt)
    let e := (BitVec.ofNat 8 (w.toNat / 2 ^ (8 * (q / 64)))).toInt
    ∀ j, j < 64 →
      let block := fun (h : Nat) => ((List.range 64).map fun k =>
        (BitVec.ofNat 8 (elem a 8 (q % 64 * 128 + (64 * h + k)))).toInt * (BitVec.ofNat 8 (elem b 8 ((64 * h + k) * 64 + j))).toInt).sum
      pair y (q % 64) j = bsacc (bsacc (if z = true ∧ q < 64 then (0, 0) else pair x (q % 64) j) (block 0, e)) (block 1, e)) ∧
  ((∀ p f, bsacc p (0, f) = p) ∧ (∀ e a f, a ≠ 0 → bsacc (0, e) (a, f) = (a, f)) ∧
    (∀ m e a f : Int, m ≠ 0 → a ≠ 0 → ∃ m' a', roundsToInt .rne ((m : ℝ) / 2 ^ (max e f - e).toNat) m' ∧
      roundsToInt .rne ((a : ℝ) / 2 ^ (max e f - f).toNat) a' ∧
      ((m' + a').natAbs < 2 ^ 47 → max e f ≤ 32767 → bsacc (m, e) (a, f) = (m' + a', max e f)) ∧
      (32767 < max e f → bsacc (m, e) (a, f) = ((if m' + a' < 0 then -(2 ^ 47 - 1) else 2 ^ 47 - 1), 32767))) ∧
    [(1, 0), (2, 0), (1, 2)].foldl bsacc (0, 0) = (2, 2) ∧ [(1, 2), (1, 0), (2, 0)].foldl bsacc (0, 0) = (1, 2) ∧
    bsacc (2 ^ 47 - 1, 0) (1, 0) = (2 ^ 46, 1)) ∧
  (∀ x acc (scale : Option VVal) t rm sat src i j, storeElem x acc scale t rm sat src i j =
    let lo := elem ((tileAt x acc.val).toNat / 2 ^ (2048 * i) % 2 ^ 2048) 32 j
    let hi := elem ((tileAt x (acc.val + 1)).toNat / 2 ^ (2048 * i) % 2 ^ 2048) 32 j
    storeConvert t rm sat (match scale with
      | some c => fvMul (srcValue src lo hi) (unpack (fmtOf .f32) (elem c.toNat 32 j))
      | none => srcValue src lo hi)) ∧
  (∀ lo hi, valueIs (srcValue .s32 lo hi) ((BitVec.ofNat 32 lo).toInt : ℝ) ∧ srcValue .f32 lo hi = unpack (fmtOf .f32) lo ∧
    srcValue .f64 lo hi = unpack (fmtOf .f64) (lo + 2 ^ 32 * hi) ∧
    (lo < 2 ^ 32 → hi < 2 ^ 32 → valueIs (srcValue .bx lo hi)
      (((BitVec.ofNat 48 (lo + 2 ^ 32 * hi)).toInt : ℝ) * (2 : ℝ) ^ (BitVec.ofNat 16 (hi / 2 ^ 16)).toInt))) ∧
  (∀ a b x y, valueIs a x → valueIs b y → valueIs (fvMul a b) (x * y)) ∧
  (∀ t rm sat v,
    (t ∈ [Ty.e4m3, .e5m2, .h16, .bf16, .f32, .f64] → (∀ q, valueIs v q → isRnd (fmtOf t) rm sat q (storeConvert t rm sat v)) ∧
      (∀ n e, v = .fin n 0 e → storeConvert t rm sat v = zeroBits (fmtOf t) n) ∧
      (v = .nan → storeConvert t rm sat v = nanBits (fmtOf t)) ∧
      ∀ n, v = .inf n → storeConvert t rm sat v = if sat = true ∨ t = .e4m3 then maxBits (fmtOf t) n else infBits (fmtOf t) n) ∧
    (t.isInt = true → (∀ q, valueIs v q → ∃ n, roundsToInt rm q n ∧
        storeConvert t rm sat v = if sat then intBits t (clampTo t n) else intBits t n) ∧
      (v = .nan → storeConvert t rm sat v = 0) ∧
      ∀ n, v = .inf n → storeConvert t rm sat v = intBits t (clampTo t (if n then -(2 ^ 80) else 2 ^ 80)))) ∧
  ∀ o old b, let f := fun (t : Ty) x y => match o with
      | AmoOp.add => fAdd (fmtOf t) .rne x y
      | .sub => fSub (fmtOf t) .rne x y
      | .min => minNumber (fmtOf t) x y
      | _ => maxNumber (fmtOf t) x y
    o ∈ [AmoOp.add, .sub, .min, .max] →
      (∀ t ∈ [Ty.bf16, .f32, .f64], old < 2 ^ t.width → amoNew o t old b = f t old (b % 2 ^ t.width)) ∧
      (∀ i, i < 2 → elem (amoNew o .f32x2 old b) 32 i = f .f32 (elem old 32 i) (elem b 32 i)) ∧
      ∀ i, i < 2 → elem (amoNew o .bf16x2 old b) 16 i = f .bf16 (elem old 16 i) (elem b 16 i)

/-- R211, R253, R283, R286 to R294: the units of a cell start operations, run them and read for them. -/
def Obligations.WideUnits : Prop :=
  (∀ s c k e rest, nextQueue s c = some k → (coreAt s (4 * c + k)).queue = e :: rest →
    (vfields e.instr = [] ∨ bankAwake s c (slotAt s e.gid).win.base = true) → (cellAt s c).mx = [] → repliesTo s e.gid = [] →
    cellOf e.gid = c → isMatrix e.instr = false → isVmem e.instr = false → isVector e.instr = true →
    ∃ u r, exec (.wideUnitStart c) s = .next (settle u) ∧ (coreAt u (4 * c + k)).queue = rest ∧ (cellAt u c).wide = k ∧
      (cellAt u c).mx = [] ∧ tfind u.net s.nextId = some (.reply r) ∧ r.gid = e.gid ∧ r.epoch = e.epoch ∧ r.op = some e.seq ∧
      r.ends = false ∧
      r.writes = vecResult
        { regs := (reads e.instr).filterMap fun l => match l with
            | .v n => some (.v n (vGet s e.gid n.val))
            | .m n => if n = 0 then none else some (.m n (mGet (slotAt s e.gid) n))
            | _ => none
          s := e.scal } e.instr) ∧
  (∀ s c m, seqPick (cellAt s c) = some m → m.remote = none →
    (∀ acc, m.kind = .zero acc → keysFrom 0 (cellAt s c).tile = true →
      ∃ u, exec (.sequencerStep c) s = .next (settle u) ∧ (tileAt (cellAt u c) acc.val).toNat = 0 ∧
        ∀ q ∈ (cellAt u c).mx, q.seq ≠ m.seq) ∧
    (∀ d acc row, m.kind = .vec d acc row → ∃ u r, exec (.sequencerStep c) s = .next (settle u) ∧
      (∀ q ∈ (cellAt u c).mx, q.seq ≠ m.seq) ∧ tfind u.net s.nextId = some (.reply r) ∧ r.gid = m.gid ∧ r.epoch = m.epoch ∧
      r.writes = [.v d (BitVec.ofNat 2048 ((tileAt (cellAt s c) acc.val).toNat / 2 ^ (2048 * row)))]) ∧
    (∀ acc oa ob bx t rm z xb n, m.kind = .mma acc oa ob bx t rm z xb n → ∃ u, exec (.sequencerStep c) s = .next (settle u) ∧
      (cellAt u c).tile = (engineStep acc oa ob bx t rm z xb m.steps (cellAt s c)).tile ∧
      (m.steps + 1 = 64 * n → ∀ q ∈ (cellAt u c).mx, q.seq ≠ m.seq) ∧
      (m.steps + 1 ≠ 64 * n → mxAt u c m.seq = some { m with
        steps := m.steps + 1
        before := if m.steps % 64 = 63 then []
          else if m.steps % 64 = 0 then (mxTiles m).map fun k => (k, tileAt (cellAt s c) k) else m.before }))) ∧
  (∀ (acc : AccNo) (oa ob : OSlot) rm q (x : Cell), oa.val + q / 64 < 32 → ob.val + q / 64 < 32 →
    let y := engineStep acc oa ob none .s8 rm false false q x
    let a := (opndAt x (oa.val + q / 64)).toNat
    let b := (opndAt x (ob.val + q / 64)).toNat
    let row := fun (z : Cell) (i : Nat) => (tileAt z acc.val).toNat / 2 ^ (2048 * i)
    (∀ j, j < 64 → elem (row y (q % 64)) 32 j =
      ((elem (row x (q % 64)) 32 j : Int) +
        ((List.range 128).map fun k => (BitVec.ofNat 8 (elem a 8 (q % 64 * 128 + k))).toInt * (BitVec.ofNat 8 (elem b 8 (k * 64 + j))).toInt).sum)
        % 2 ^ 32) ∧
    (∀ i j, i < 64 → j < 64 → i ≠ q % 64 → elem (row y i) 32 j = elem (row x i) 32 j) ∧
    ∀ n, n ≠ acc.val → tileAt y n = tileAt x n) ∧
  (∀ s c m o base stride t sh tr acq p, loaderPick (cellAt s c) = some m → mxAt s c m.seq = some m → s.fly = true →
    m.kind = .load o base stride t sh tr acq → m.steps + 1 < loadReads t →
    let va := loadAddr base stride t sh tr m.steps
    elemFault s (mxWho s m) (t.width / 8) va = none → resolve s (mxWho s m) .read va = .go p → poisoned s p (t.width / 8) = false →
    postedTo s m.gid (placeKey p / 128) m.seq = [] →
    ∃ u, exec (.operandLoaderFill c) s = .next (settle u) ∧ mxAt u c m.seq = some { m with
      steps := m.steps + 1
      data := BitVec.ofNat 65536 (m.data.toNat +
        leNat (fetchBytes m.asid p (t.width / 8) s).1 * 2 ^ (8 * (t.width / 8 * m.steps))) }) ∧
  (∀ x m i scal e j, memJob x m = some j → m.kind = .vop i scal → (actives (srcMask m i) (vmemTy i))[m.steps]? = some e →
    j.n = (vmemTy i).width / 8 ∧
    (match i with
      | .vld _ _ _ _ o | .vst _ _ _ _ o =>
        j.va = BitVec.ofInt 64 (((scal[0]?).getD 0).toInt + 8 * o.toInt + e * j.n)
      | .vlds .. | .vsts .. => j.va = (scal[0]?).getD 0 + BitVec.ofNat 64 e * (scal[1]?).getD 0
      | .vgath _ a _ _ t h => j.va = (scal[0]?).getD 0 + (BitVec.ofNat 64 (elem (srcV m a) t.width e)) <<< h.toNat
      | .vscat _ b _ _ t h => j.va = (scal[0]?).getD 0 + (BitVec.ofNat 64 (elem (srcV m b) t.width e)) <<< h.toNat
      | _ => True) ∧
    (match i with
      | .vst a _ _ t _ | .vsts a _ _ _ t | .vscat a _ _ _ t _ => j.data.map leNat = some (elem (srcV m a) t.width e % 2 ^ (8 * j.n))
      | _ => j.data = none))

/-- R137, R150, R246, R349, R378: fills, the ends of waits that a unit or the page service brings, and banks of the pool. -/
def Obligations.FillsAndWaits : Prop :=
  (∀ s c line, ∃ u, exec (.instructionCacheFill c line) s = .next (settle u) ∧ line ∈ (coreAt u c).lines ∧
    (∀ l ∈ (coreAt u c).lines, l = line ∨ l ∈ (coreAt s c).lines) ∧
    ((coreAt s c).lines.length ≤ 512 → (coreAt u c).lines.length ≤ 512) ∧
    (line ∈ (coreAt s c).lines ∨ (coreAt s c).lines.length < 512 → ∀ l ∈ (coreAt s c).lines, l ∈ (coreAt u c).lines) ∧
    (∀ g, coreOf g = c → (slotAt s g).ctl.wait = .fetch line → (slotAt s g).ctl.st = .parked →
      slotAt u g = { slotAt s g with ctl := { (slotAt s g).ctl with st := .running, wait := .none } }) ∧
    (∀ g, coreOf g ≠ c ∨ (slotAt s g).ctl.wait ≠ .fetch line → slotAt u g = slotAt s g)) ∧
  (∀ s g, (slotAt s g).ctl.st = .parked → LimitedWait s g → (slotAt s g).parkLim ≠ 0 →
    ((slotAt s g).parkLim < (slotAt s g).parkCnt → (slotAt s g).trap.vec ≠ 0 → bit (slotAt s g).trap.cause 11 = false →
      ∃ u, exec (.waitlimExpiry g) s = .next (settle u) ∧
        TrapEntered { code := 6, status := (slotAt s g).ctl.wait.code } false (slotAt s g).ctl.pc (slotAt s g) (slotAt u g) ∧
        ∀ h, h ≠ g → slotAt u h = slotAt s h) ∧
    ((slotAt s g).parkCnt ≤ (slotAt s g).parkLim → exec (.waitlimExpiry g) s = .next (settle s))) ∧
  (∀ s g size b, (slotAt s g).ctl.wait = .resize size → (slotAt s g).ctl.st = .parked → opsPending s g = false →
    windowFor s g size = some b → (size = 0 ∨ bankAwake s (cellOf g) b = true) →
    ∃ u, exec (.vwinResizeGrant g) s = .next (settle u) ∧ (slotAt u g).win = { base := b, size := size } ∧
      (slotAt u g).ctl = { nextCtl (slotAt s g) with st := .running, wait := .none } ∧
      (slotAt u g).regs.s = (slotAt s g).regs.s ∧ ∀ k : Fin 32, k.val < size →
        vGet u g k.val = (if k.val < (slotAt s g).win.size then vGet s g k.val else 0) ∧
        (slotAt u g).regs.vp[k.val] = if k.val < (slotAt s g).win.size then (slotAt s g).regs.vp[k.val] else .full) ∧
  (∀ s c b, b.val ∉ (cellAt s c).retained → b.val ∉ (cellAt s c).waking → (∃ t ∈ poolTaken s c, t.1 / 32 = b.val) →
    ((tfind (cellAt s c).lastUse b.val).getD 0 + 8192 ≤ cellCycle s c →
      exec (.bankRetention c b) s = .next (settle (withCell s c fun x => { x with retained := sadd x.retained b.val }))) ∧
    (cellCycle s c < (tfind (cellAt s c).lastUse b.val).getD 0 + 8192 → exec (.bankRetention c b) s = .next (settle s))) ∧
  (∀ s c b, b.val ∈ (cellAt s c).waking →
    exec (.bankWake c b) s = .next (settle (withCell s c fun x =>
      { x with waking := sdel x.waking b.val, lastUse := tput x.lastUse b.val (cellCycle s c) }))) ∧
  (∀ s id r, tfind s.pages id = some r → r.done = none → r.kind = 0 → (workCore s 1).isSome = true →
    exec (.pageService id .unrecoverable) s = .next (settle { s with pages := tput s.pages id { r with done := some false } }) ∧
    (leafHole s r = true → ∀ es, exec (.pageService id (.repaired es)) s =
      .next (settle { s with pages := tput s.pages id { r with done := some false } })) ∧
    ∀ a e, leafHole s r = false → PlainMemory s (a / 8 * 8) 8 → Memory.wf s → ∃ u,
      exec (.pageService id (.repaired [(a, e)])) s = .next (settle u) ∧
      StoredAt (.mem (a / 8 * 8)) 8 e.toNat s u ∧
      tfind u.pages id = some { r with done := some (!leafHole u r) } ∧
      ∀ c, ctxAt s r.asid = some c → ∃ d, ctxAt u r.asid = some d ∧ ∀ q ∈ d.tlb, q ∈ c.tlb ∧ q.key ≠ tlbKey (q.key % 64) (failedVa s r).toNat)

/-- R313, R368 to R375, R125: spills and restores of slots, gang switches, the save deadline, a change of partition, and the
rebase of clocks. Readings of the model's own: a tick event begins a switch, and each later one passes the cells that are ready (log
entry 43, DEDUCED); save areas stand at physical SAVEBASE, and a restore takes from them what log entry 32 says (DEDUCED); what a passed
cell held is kept in the context as `savedPart` (log entry 63, DESIGN CHOICE); a context whose new partition another context runs on is
switched out there (log entry 72, DESIGN CHOICE). -/
def Obligations.SpillsAndSwitches : Prop :=
  (∀ s g, let x := slotAt s g
    let a := saveArea s x.ctl.asid g
    x.ctl.st = .spilled → x.ctl.req.spill = true → drainedForSpill s g = true →
    (x.win.size = 0 ∨ bankAwake s (cellOf g) x.win.base = true) → x.win.size ≤ 32 → inboxCount x.inbox ≤ 1024 → PlainMemory s a 53248 →
    Memory.wf s →
    ∃ u, exec (.skinkSpill g) s = .next (settle u) ∧
      slotAt u g = { x with ctl := { x.ctl with req := { x.ctl.req with spill := false } }
                            ctr := x.ctr.set 9 ((x.ctr[9] + 1) % 2 ^ 64) } ∧
      ImageOf u a (slotAt u g) (vGet s g) ∧
      ∀ k, k < a ∨ a + 53248 ≤ k → getByte u.mem.bytes k = getByte s.mem.bytes k) ∧
  (∀ s g b, let x := slotAt s g
    let a := saveArea s x.ctl.asid g
    x.ctl.st = .spilled → x.ctl.req.spill = false → x.ctl.req.restore = true → x.inbox = [] → x.ctl.under ≠ .idle →
    windowFor s g (areaWindow s a x) = some b →
    ∃ u, exec (.skinkRestore g) s = .next (settle u) ∧ (slotAt u g).win = { base := b, size := areaWindow s a x } ∧
      (slotAt u g).ctl.st = (if x.ctl.held then .halted else x.ctl.under) ∧ (slotAt u g).ctl.wait = x.ctl.wait ∧
      (slotAt u g).ctl.req.restore = false ∧ (slotAt u g).waitlim.toNat = areaNat s a 0x20 4 ∧
      (slotAt u g).trap.vec = BitVec.ofNat 64 (areaNat s a 0x28 8) &&& 0xFFFFFFFFFFFFFFFE ∧
      (slotAt u g).trap.cause = BitVec.ofNat 64 (areaNat s a 0x30 8) &&& 0x3FFF00FF0FFF ∧
      (slotAt u g).trap.addr.toNat = areaNat s a 0x38 8 ∧
      (slotAt u g).trap.pc = BitVec.ofNat 64 (areaNat s a 0x40 8) &&& 0xFFFFFFFFFFFFFFFE ∧
      (∀ n : SReg, (slotAt u g).regs.s[n.val].toNat = elem (areaNat s a 0x100 256) 64 n.val) ∧
      (∀ n : MReg, (slotAt u g).regs.m[n.val].toNat = elem (areaNat s a 0x240 256) 256 n.val) ∧
      (∀ k, k < areaWindow s a x → (vGet u g k).toNat = areaNat s a (0x400 + 256 * k) 256)) ∧
  (∀ s a c, ctxAt s a = some c → tfind s.switches c.part.curBase = none →
    let cs := partOf c.part.curBase c.part.curLen
    let next := (nextOf a (sharers s c.part.curBase c.part.curLen)).getD a
    let inn := if partPending c = true ∧ next = a then 0 else next
    (c.out = true ∨ c.rcd.tick = 0 → exec (.gangSwitchTick a) s = .next (settle s)) ∧
    (c.out = false → c.rcd.tick ≠ 0 → ∃ u, exec (.gangSwitchTick a) s = .next (settle u) ∧
      tfind u.tickNo c.part.curBase = some ((tfind s.tickNo c.part.curBase).getD 0 + 1) ∧
      tfind u.switches c.part.curBase =
        some { out := a, inn := inn, left := cs, late := [], deadline := none, part := partPending c } ∧
      ctxAt u a = some { c with out := decide (inn ≠ a ∧ inn ≠ 0) } ∧
      (inn ≠ a → ∀ d, ctxAt s inn = some d → ctxAt u inn = some { d with out := false }) ∧
      (∀ k ∈ cs, cellAt u k = { cellAt s k with joined := false }) ∧
      (∀ k ∈ cs, ∀ g ∈ ctxSlots s a k, (slotAt s g).ctl.st ≠ .spilled → (slotAt u g).ctl.req.spill = true) ∧
      ∀ g, slotAt u g = { slotAt s g with ctl := { (slotAt s g).ctl with req := (slotAt u g).ctl.req } })) ∧
  (∀ s a c w k d e, ctxAt s a = some c → tfind s.switches c.part.curBase = some w → ctxAt s w.out = some d → ctxAt s w.inn = some e →
    w.out ≠ w.inn → w.left.filter (cellQuiet s w.out) = [k] → (∃ j ∈ w.left, j ≠ k) → k < 256 → (cellAt s k).mx = [] →
    mapsOf s w.out k = [] → Memory.wf s → keysFrom 0 s.saves = true →
    (∀ q ∈ s.saves, q.1 / 16384 = w.inn → cellOf (q.1 % 16384) = k → q.2.inbox = [] ∧ q.2.ctl.under ≠ .idle) →
    ∃ u, exec (.gangSwitchTick a) s = .next (settle u) ∧
      tfind u.switches c.part.curBase = some { w with left := w.left.filter (· ≠ k) } ∧
      (∀ g ∈ ctxSlots s w.out k, tfind u.saves (saveKey w.out g) = some (slotAt s g)) ∧
      (∃ z, ctxAt u w.out = some z ∧ k ∈ z.away ∧
        tfind z.saved (hilbert k - d.part.curBase) = some (savedPart w.out (tenantStash s k) (cellAt s k))) ∧
      (∃ z, ctxAt u w.inn = some z ∧ k ∉ z.away ∧ tfind z.saved (hilbert k - e.part.curBase) = none) ∧
      (∀ o, o < tenantStash s k → getByte (cellAt u k).stash o =
        getByte ((tfind e.saved (hilbert k - e.part.curBase)).getD Cell.reset).stash o) ∧
      (∀ q ∈ s.saves, q.1 / 16384 = w.inn → cellOf (q.1 % 16384) = k →
        tfind u.saves q.1 = none ∧ (slotAt u (q.1 % 16384)).ctl.epoch = q.2.ctl.epoch) ∧
      (∀ t, w.deadline = none ∨ (w.deadline = some t ∧ k ∉ w.late) → (cellAt u k).joined = decide (w.deadline = some t)) ∧
      ∀ t, w.deadline = some t → k ∈ w.late → (∀ j ∈ w.left, j ≠ k → dieOf j ≠ dieOf k) →
        (cellAt u k).joined = true ∧ ∃ r, u.boot.log.getLast? = some r ∧ r.cls = 4 ∧
          field r.detail 0 32 = (tfind s.tickNo c.part.curBase).getD 0 % 2 ^ 32 ∧ field r.detail 32 8 = dieOf k ∧
          field r.detail 40 8 = (w.late.countP fun j => dieOf j = dieOf k) % 256 ∧ field r.detail 96 16 = w.out % 65536 ∧
          field r.detail 112 16 = w.inn % 65536) ∧
  (∀ s a e c, ctxAt s a = some c →
    let cs := partOf c.part.curBase c.part.curLen
    (tfind s.switches c.part.curBase = none → c.out = false → ∃ u, exec (.saveDeadline a e) s = .next (settle u) ∧
      u = { s with cells := u.cells } ∧ ∀ k ∈ cs, cellAt u k = { cellAt s k with joined := true }) ∧
    ∀ w, tfind s.switches c.part.curBase = some w → w.inn = a → w.deadline = none → w.left ≠ [] →
      ∃ u, exec (.saveDeadline a e) s = .next (settle u) ∧ u.time = s.time + e ∧
        tfind u.switches c.part.curBase = some { w with deadline := some (s.time + e), late := w.left } ∧
        (∀ k ∈ cs, k ∉ w.left → (cellAt u k).joined = true) ∧ ∀ k ∈ w.left, cellAt u k = cellAt s k) ∧
  (∀ s a c, ctxAt s a = some c → (c.part.base ≠ c.part.curBase ∨ c.part.len ≠ c.part.curLen) → c.rcd.tick = 0 →
    (hasLiveGrid s a = false → (∀ k, k < 256 → mapsOf s a k = []) →
      let busy := runsElse s a c.part.base c.part.len
      let old := fun k => c.out = false ∧ k ∈ partOf c.part.curBase c.part.curLen
      let new := fun k => busy = false ∧ k ∈ partOf c.part.base c.part.len
      ∃ u d, exec (.partitionChange a) s = .next (settle u) ∧ ctxAt u a = some d ∧
        d.part = { c.part with curBase := c.part.base, curLen := c.part.len } ∧
        d.out = busy ∧ d.away = (if busy then partOf c.part.base c.part.len else []) ∧
        (∀ k, k < 256 → ¬ (old k ↔ new k) →
          cellAt u k = { leftPart a (tenantStash s k) (cellAt s k) with joined := true, mxgen := (cellAt s k).mxgen } ∧
          ∀ j, j / 4 = k → j ∉ fwCores s → (coreAt u j).chans = []) ∧
        ∀ k, k < 256 → (old k ↔ new k) → cellAt u k = cellAt s k ∧ ∀ j, j / 4 = k → coreAt u j = coreAt s j) ∧
    (hasLiveGrid s a = true → exec (.partitionChange a) s = .next (settle s))) ∧
  (∀ s, (∀ k m, (k, m) ∈ s.net → sentAccess m = false) →
    ((∃ g, 2 ^ 62 < (slotAt s g).lclk) ∨ 2 ^ 62 < s.linkClk → ∃ u, exec .clockRebase s = .next (settle u) ∧
      (∀ g, (slotAt u g).lclk = 0 ∧ (slotAt u g).renew = [] ∧ (slotAt u g).regs = (slotAt s g).regs ∧
        (slotAt u g).ctl = (slotAt s g).ctl) ∧
      (∀ l, stamps u l = (0, 0)) ∧ u.linkClk = 0 ∧ ∃ r, u.boot.log.getLast? = some r ∧ r.cls = 8 ∧ r.detail = 0) ∧
    ((∀ q ∈ s.slots, q.2.lclk ≤ 2 ^ 62) → (∀ q ∈ s.saves, q.2.lclk ≤ 2 ^ 62) →
      (∀ q ∈ s.mem.stamps, q.2.1 ≤ 2 ^ 62 ∧ q.2.2 ≤ 2 ^ 62) → s.linkClk ≤ 2 ^ 62 → exec .clockRebase s = .next (settle s)))

/-- R91 to R98, R395, R396: wakes, tokens, registration, scans and the reset of a virtual function. -/
def Obligations.QueueEvents : Prop :=
  (∀ s f q, (queueOwner s f.val q.val = none → exec (.wake f q) s = .next (settle s)) ∧
    ∀ a c x, queueOwner s f.val q.val = some a → ctxAt s a = some c → tfind c.queues q.val = some x →
      ((s.boot.handover = false ∧ 0 < tokensOf s f.val) → exec (.wake f q) s = .next (settle
        (withQueue { s with tokens := tput s.tokens f.val (tokensOf s f.val - 1) } a q.val c { x with scans := x.scans + 1 }))) ∧
      ((s.boot.handover = true ∨ tokensOf s f.val = 0) →
        exec (.wake f q) s = .next (settle (withQueue s a q.val c { x with wake := true })))) ∧
  (∀ s f, (∀ a c, ctxOfVf s f.val = some (a, c) → exec (.tokenBucketRefill f) s = .next (settle
      { s with tokens := tput s.tokens f.val (min c.rcd.bdepth (tokensOf s f.val + c.rcd.brate)) })) ∧
    (ctxOfVf s f.val = none → exec (.tokenBucketRefill f) s = .next (settle
      { s with tokens := tput s.tokens f.val (min 32 (tokensOf s f.val + 4)) }))) ∧
  (∀ s f q v a c, ctxOfVf s f.val = some (a, c) → ctxAt s a = some c →
    (v.toNat % 64 ≠ 0 → exec (.qreg f q v) s = .next (settle s)) ∧
    (v.toNat % 64 = 0 →
      (∀ x, tfind c.queues q.val = some x → exec (.qreg f q v) s = .next (settle (withQueue s a q.val c { x with next := some v }))) ∧
      (tfind c.queues q.val = none → v ≠ 0 → exec (.qreg f q v) s = .next (settle (withQueue s a q.val c
        { cb := v, next := some v, wake := false, scans := 0, barrier := false, fault := false }))) ∧
      (tfind c.queues q.val = none → v = 0 → exec (.qreg f q v) s = .next (settle s)))) ∧
  (∀ s f q skip a c x w b, ctxOfVf s f.val = some (a, c) → tfind c.queues q.val = some x → queueWho s a c q.val = some w →
    readBlock s w x.cb = some b →
    let seen := noteVirt w (lastClock s) 2 x.cb.toNat 64 s
    (dField b 9 1 ≠ 1 → exec (.qclear f q skip) s = .next (settle s)) ∧
    (dField b 9 1 = 1 → (skip = false ∨ dField b 10 2 = 0 ∨ 3 < dField b 10 2) → exec (.qclear f q skip) s =
      .next (settle (hostWake f.val q.val (writeBlock w x.cb [(10, 2, 0), (9, 1, 0)] seen)))) ∧
    (dField b 9 1 = 1 → skip = true → 1 ≤ dField b 10 2 → dField b 10 2 ≤ 3 → exec (.qclear f q skip) s =
      .next (settle (hostWake f.val q.val (writeBlock w x.cb
        [(24, 8, (dField b 32 8 + 1) % 2 ^ 64), (10, 2, 0), (9, 1, 0)] seen))))) ∧
  (∀ s f q a c x w, ctxOfVf s f.val = some (a, c) → ctxAt s a = some c → tfind c.queues q.val = some x →
    queueWho s a c q.val = some w → s.boot.handover = false →
    (x.scans = 0 → x.barrier = false → x.wake = false → exec (.queueScan f q) s = .next (settle s)) ∧
    (0 < x.scans → x.next = some 0 → ∃ u, exec (.queueScan f q) s = .next (settle u) ∧
      ctxAt u a = some { c with queues := tdel c.queues q.val }) ∧
    ∀ cb, 0 < x.scans → cb = x.next.getD x.cb → x.next ≠ some 0 →
      let y := { x with cb := cb, next := none, wake := false, barrier := false, scans := x.scans - 1 }
      (readBlock s w cb = none → ∃ u, exec (.queueScan f q) s = .next (settle u) ∧
        ctxAt u a = some { c with queues := tput c.queues q.val { y with fault := true } }) ∧
      ∀ b, readBlock s w cb = some b →
        let z := withQueue s a q.val c { y with fault := false }
        let seen := noteVirt w (lastClock z) 2 cb.toNat 64 z
        ((dField b 9 1 = 1 ∨ (blockOk b = true ∧ dField b 16 8 = dField b 24 8)) → ∃ u, exec (.queueScan f q) s = .next (settle u) ∧
          ctxAt u a = some { c with queues := tput c.queues q.val { y with fault := false } } ∧ u.mem = seen.mem) ∧
        (dField b 9 1 ≠ 1 → blockOk b = false → ∃ u, exec (.queueScan f q) s = .next (settle u) ∧
          u.mem = (stopQueue w cb 4 (dField b 24 8) seen).mem) ∧
        ∀ bs, dField b 9 1 ≠ 1 → blockOk b = true → dField b 16 8 = dField b 24 8 + 1 →
          let at' := dField b 0 8 + 64 * (dField b 24 8 % 2 ^ dField b 8 1)
          readVirt seen w 2 at' 64 = some bs →
          let read := noteVirt w (lastClock seen) 2 at' 64 seen
          (packetError (leNat bs) ≠ 0 → ∃ u, exec (.queueScan f q) s = .next (settle u) ∧
            u.mem = (stopQueue w cb (packetError (leNat bs)) (dField b 24 8) read).mem) ∧
          (packetError (leNat bs) = 0 → (dField (leNat bs) 1 1 % 2 = 0 ∨ packetsPending s a q.val = false) →
            ∃ u, exec (.queueScan f q) s = .next (settle u) ∧
              u.mem = (writeBlock w cb [(24, 8, (dField b 24 8 + 1) % 2 ^ 64)]
                { read with ctxs := u.ctxs, nextId := s.nextId + 1 }).mem ∧
              ctxAt u a = some { c with
                queues := tput c.queues q.val { y with fault := false }
                packets := c.packets ++ [{ id := s.nextId, q := q.val, index := dField b 24 8, ty := dField (leNat bs) 0 1
                                           ptr := BitVec.ofNat 64 (dField (leNat bs) 8 8), grid := none }] })) ∧
  (∀ s f a c, ctxOfVf s f.val = some (a, c) → ctxAt s a = some c → ∃ u d, exec (.functionLevelReset f) s = .next (settle u) ∧
    ctxAt u a = some d ∧ d.packets = c.packets.filter (fun p => p.grid.isSome) ∧
    (∀ q x, tfind c.queues q = some x → tfind d.queues q = some { x with wake := false, scans := 0, barrier := false }) ∧
    ∀ k g, tfind s.grids k = some g → g.live = true → g.asid = a → g.phase < 3 →
      ∃ h, tfind u.grids k = some h ∧ h.phase = 2 ∧ h.mute = true ∧ h.wasKilled = true ∧ h.held = [])

/-- R60, R64 to R71, R93, R101, R114, R115: what firmware and the loader make of accepted packets. OBJID 0 in the record of a failed load is
log entry 40's choice (DESIGN CHOICE), no record at a misaligned COMPL log entry 70's, and that a record at a cell where the context is
switched out waits is log entry 35's reading (DEDUCED). -/
def Obligations.PacketEvents : Prop :=
  (∀ s k rcd a c p w b, PacketDue s k 1 a c p → queueWho s a c p.q = some w → readVirt s w 2 p.ptr.toNat 64 = some b →
    let d := leNat b
    let st := if p.ptr.toNat % 64 ≠ 0 then -1 else launchStatus s w false d
    let compl := BitVec.ofNat 64 (dField d 40 8)
    let seen := seenDescriptor w (lastClock s) p.ptr.toNat d s
    ((st ≠ 0 ∨ recordsFull s = true) →
      (recordWaits s a c.rcd.priv compl = true → exec (.launchPacket k rcd) s = .next (settle s)) ∧
      (recordWaits s a c.rcd.priv compl = false → ∃ u, exec (.launchPacket k rcd) s = .next (settle u) ∧ PacketEnded s u a k c ∧
        (dField d 40 8 % 64 = 0 → u.mem = (writeRecord a c.rcd.priv compl
          (completionBytes 6 0 0 0 0 0 0 (if st ≠ 0 then st else -4) 0 []) seen).mem) ∧
        (dField d 40 8 % 64 ≠ 0 → u.mem = seen.mem))) ∧
    ∀ devs e, st = 0 → recordsFull s = false → rcd < 1024 → gridLive s rcd = false → launchDevs s w d = some devs →
      codeEntry s a (dField d 8 1) (dField d 0 8) = some e → ∃ u g, exec (.launchPacket k rcd) s = .next (settle u) ∧
        tfind u.grids rcd = some g ∧ g.live = true ∧ g.phase = 0 ∧ g.asid = a ∧ g.entry = e ∧ g.devs = devs ∧ g.packet = some k ∧
        g.gx = dField d 16 4 ∧ g.gy = dField d 20 4 ∧ g.gz = dField d 24 4 ∧ g.left = g.gx * g.gy * g.gz ∧ g.next = 0 ∧
        g.slots = dField d 10 1 ∧ g.vwin = dField d 11 1 ∧ g.compl.toNat = dField d 40 8 ∧ g.clock = lastClock s ∧
        (∀ j, j ≠ rcd → tfind u.grids j = tfind s.grids j) ∧
        ctxAt u a = some { c with packets := c.packets.map fun q => if q.id = k then { q with grid := some rcd } else q }) ∧
  (∀ s k rcd a c p w h d, PacketDue s k 2 a c p → queueWho s a c p.q = some w → readGraph s w p.ptr = some (h, some d) →
    let xs := (entriesOf d 32 32 (dField d 0 2)).filterMap (stageOf s a)
    ((graphFields d = false ∨ xs.length < dField d 0 2 ∨ bindStages (fun _ => []) (graphCores s a) xs = none) →
      (recordWaits s a c.rcd.priv (BitVec.ofNat 64 (dField d 8 8)) = true → exec (.stageGraphPacket k rcd) s = .next (settle s)) ∧
      (recordWaits s a c.rcd.priv (BitVec.ofNat 64 (dField d 8 8)) = false →
        ∃ u, exec (.stageGraphPacket k rcd) s = .next (settle u) ∧ PacketEnded s u a k c)) ∧
    (graphFields d = true → xs.length = dField d 0 2 → (bindStages (fun _ => []) (graphCores s a) xs).isSome = true →
      recordsFull s = false → rcd < 1024 → gridLive s rcd = false →
      ∃ u g t, exec (.stageGraphPacket k rcd) s = .next (settle u) ∧ tfind u.grids rcd = some g ∧ g.live = true ∧ g.phase = 0 ∧
        g.asid = a ∧ g.packet = some k ∧ g.compl.toNat = dField d 8 8 ∧ g.graph = some t ∧ t.bound = false ∧ t.stages = xs ∧
        t.chans.length = dField d 2 2 ∧ (∀ j, j ≠ rcd → tfind u.grids j = tfind s.grids j))) ∧
  (∀ s k g t c, tfind s.grids k = some g → g.graph = some t → ctxAt s g.asid = some c → g.live = true → g.phase = 0 →
    t.bound = false → (workCore s 0).isSome = true →
    let free := (graphCores s g.asid).filter (bindable s g.asid)
    (bindStages (poolTaken s) free t.stages = none → exec (.stageGraphBind k) s = .next (settle s)) ∧
    ∀ bs first rings, bindStages (poolTaken s) free t.stages = some bs →
      freeRun ((c.rings.filter fun r => gridLive s r.2.grid).map Prod.fst) t.chans.length = some first →
      placeRings bs k first t.chans c.rings = some rings →
      (sinksFirst 64 (t.chans.map fun x => (x.1, x.2.1)) (List.range t.stages.length)).2 = [] →
      ∃ u g', exec (.stageGraphBind k) s = .next (settle u) ∧ tfind u.grids k = some g' ∧
        g'.graph = some { t with stages := boundStages t.stages bs, first := first, bound := true } ∧ g'.dealt = bs.length ∧
        (∃ c', ctxAt u g.asid = some c' ∧ c'.rings = rings) ∧
        ∀ b ∈ bs, ∀ x, t.stages[b.stage]? = some x → ∃ blk, (coreAt u b.core).block = some blk ∧ blk.grid = k ∧
          blk.slots = x.slots ∧ blk.vwin = x.vwin ∧ blk.resv = b.resv ∧ (slotAt u (16 * b.core)).ctl.st = .running ∧
          (slotAt u (16 * b.core)).ctl.pc = x.entry ∧ sGet (slotAt u (16 * b.core)) 4 = x.args ∧
          sGet (slotAt u (16 * b.core)) 5 = BitVec.ofNat 64 first ∧ sGet (slotAt u (16 * b.core)) 6 = BitVec.ofNat 64 b.stage) ∧
  (∀ s k places a c p core req bs, LoadDue s k 3 a c p core req → dField req 24 8 % 8 = 0 → dField req 36 4 = 0 →
    readVirt s (ctxWho a c.rcd.priv core) (dField req 8 8 / 64 + 2) (dField req 0 8) (dField req 8 8) = some bs →
    let w := ctxWho a c.rcd.priv core
    let seen := noteVirt w (lastClock s) (dField req 8 8 / 64 + 2) (dField req 0 8) (dField req 8 8)
      (noteVirt w (lastClock s) 2 p.ptr.toNat 40 s)
    (∀ st i, readObject (leNat bs) (dField req 8 8) = .error (st, i) → ∃ u, exec (.load k places) s = .next (settle u) ∧
      ctxAt u a = some { c with loads := c.loads + 1, packets := packetsBut c p.id } ∧
      (dField req 16 8 % 8 = 0 → u.mem = (placeBytes w .write 3 (lastClock seen) (dField req 16 8) (resultBytes st i (c.loads + 1) 0)
        (withCtx seen a fun x => { x with loads := x.loads + 1 })).2.mem)) ∧
    ∀ o xs st ims, readObject (leNat bs) (dField req 8 8) = .ok o → xs = itemsOf o →
      (∀ i, duplicateSym c o = some i → ∃ u, exec (.load k places) s = .next (settle u) ∧
        ctxAt u a = some { c with loads := c.loads + 1, packets := packetsBut c p.id }) ∧
      (duplicateSym c o = none → exportCount o ≤ dField req 32 4 →
        stashPlaces (c.objs.flatMap fun x => x.stash) o.sects.zipIdx = .ok st →
        placesFit (spentUnits s a 0) c (storeTaken c 0) (storeTaken c 1) xs places = true →
        unresolvedSym seen a c o (placedAt c xs places st) = none →
        imagesOf o (placedAt c xs places st) (resolveSym seen a c o (placedAt c xs places st)) (placedAt c xs places st).sects = .ok ims →
        ∃ u, exec (.load k places) s = .next (settle u) ∧ ctxAt u a = some { c with
          objs := c.objs ++ [newObj seen a c o (placedAt c xs places st) xs places st (c.loads + 1)]
          tmpls := c.tmpls ++ newTemplates seen a c o (placedAt c xs places st) (c.loads + 1)
          loads := c.loads + 1, packets := packetsBut c p.id })) ∧
  (∀ s k a c p core req, LoadDue s k 4 a c p core req →
    let id := dField req 0 8
    (((∀ o ∈ c.objs, o.id ≠ id) ∨ (∃ o ∈ c.objs, o.id ≠ id ∧ id ∈ o.deps)) → ∃ u, exec (.unload k) s = .next (settle u) ∧
      ctxAt u a = some { c with loads := c.loads + 1, packets := packetsBut c p.id }) ∧
    ((∃ o ∈ c.objs, o.id = id) → (∀ o ∈ c.objs, o.id ≠ id → id ∉ o.deps) → ∃ u d, exec (.unload k) s = .next (settle u) ∧
      ctxAt u a = some d ∧ d.objs = c.objs.filter (fun o => o.id != id) ∧ d.tmpls = c.tmpls.filter (fun t => t.obj != id) ∧
      d.resids = c.resids.filter (fun r => !(c.tmpls.any fun t => t.obj == id && t.off == r.tmpl)) ∧ d.loads = c.loads + 1 ∧
      d.packets = packetsBut c p.id))

/-- R92 to R94, R397 to R401: the admin queue; creating, destroying, invalidating and migrating contexts. The number of a context whose
request leaves it to firmware is log entry 37's choice; addresses of PF0 are physical by log entry 36, DEDUCED. That a CREATE on a partition
where another context runs starts switched out, and that a MIGRATE waits until its context can be moved, is log entry 43's reading (DEDUCED);
which status is reported first is log entry 74's choice (DESIGN CHOICE). -/
def Obligations.AdminEvents : Prop :=
  (∀ s cb asid q t b, AdminDue s cb 16 q t → readPhys t (dField q 8 8) 128 = some b →
    let r := leNat b
    let a := if dField q 16 2 = 0 then nextAsid t else dField q 16 2
    let base := dField r 44 1
    let len := dField r 46 2
    ((dField q 8 8 % 64 ≠ 0 ∨ recordOk r = false) → exec (.create cb asid) s = .next (settle (adminResult q 1 0 t))) ∧
    (dField q 8 8 % 64 = 0 → recordOk r = true →
      ((256 ≤ t.ctxs.length ∨ a = 0 ∨ (ctxAt t a).isSome = true) →
        exec (.create cb asid) s = .next (settle (adminResult q 2 0 t))) ∧
      (t.ctxs.length < 256 → a ≠ 0 → ctxAt t a = none →
        (mayShare t 0 base len (dField r 48 4) (dField r 52 4) = false →
          exec (.create cb asid) s = .next (settle (adminResult q 3 0 t))) ∧
        (mayShare t 0 base len (dField r 48 4) (dField r 52 4) = true → (dField q 16 2 ≠ 0 ∨ asid = a) →
          ∃ u c z, exec (.create cb asid) s = .next (settle u) ∧ u = adminResult q 0 a z ∧
            ctxAt u a = some c ∧ (∀ x, x ≠ a → ctxAt u x = ctxAt t x) ∧
            c.rcd = recordOf (dField q 8 8) r ∧ c.part.base = base ∧ c.part.len = len ∧
            c.part.curBase = base ∧ c.part.curLen = len ∧ c.llease = 256 ∧ c.speclim = speclimReset ∧
            c.objs = [] ∧ c.tmpls = [] ∧ c.resids = [] ∧ c.queues = [] ∧ c.rings = [] ∧ c.bars = [] ∧ c.dealq = [] ∧ c.tlb = [] ∧
            c.attached = false ∧ c.pending = none ∧ c.saved = [] ∧ c.out = (runner t base len).isSome ∧
            c.away = (if c.out then partOf base len else []) ∧
            (c.out = false → (∀ k ∈ partOf base len, mapsOf t a k = []) → z.mem.bytes = t.mem.bytes ∧
              ∀ k ∈ partOf base len, cellAt z k = { leftPart a (tenantStash t k) (cellAt t k) with joined := true } ∧
                ∀ j, j / 4 = k → j ∉ fwCores t → (coreAt z j).chans = []))))) ∧
  (∀ s cb q t, AdminDue s cb 17 q t → NonePending t →
    let a := dField q 16 2
    (ctxAt t a = none → exec (.destroy cb) s = .next (settle (adminResult q 1 0 t))) ∧
    ∀ c, ctxAt t a = some c →
      (ctxQuiet t a c = true → switching t a = false → sharers t c.part.curBase c.part.curLen = [a] →
        ∃ u z, exec (.destroy cb) s = .next (settle u) ∧
        u = adminResult q 0 a z ∧ (List.Pairwise (fun x y => x.1 < y.1) t.ctxs → ctxAt u a = none) ∧
        (∀ x, x ≠ a → ctxAt u x = ctxAt t x) ∧ (∀ k x, (k, x) ∈ u.saves → k / 16384 ≠ a) ∧
        (∀ k x, (k, x) ∈ u.pages → x.asid ≠ a) ∧ ∀ g, (slotAt t g).ctl.asid = a → slotAt u g = Slot.reset) ∧
      (hasLiveGrid t a = true → ∃ u d, exec (.destroy cb) s = .next (settle u) ∧ ctxAt u a = some d ∧ d.packets = [] ∧
        d.queues = [] ∧ d.pending = some (17, q) ∧ ∀ k g, tfind t.grids k = some g → g.live = true → g.asid = a → g.phase < 3 →
          ∃ h, tfind u.grids k = some h ∧ h.phase = 2 ∧ h.mute = true)) ∧
  (∀ s cb q t, AdminDue s cb 18 q t →
    let a := dField q 16 2
    (ctxAt t a = none → exec (.invalidate cb) s = .next (settle (adminResult q 1 0 t))) ∧
    ∀ c, ctxAt t a = some c → ∃ u d, exec (.invalidate cb) s = .next (settle u) ∧ ctxAt u a = some d ∧
      d = { c with tlb := d.tlb } ∧ u = adminResult q 0 a (withCtx t a fun x => { x with tlb := d.tlb }) ∧
      (dField q 32 8 = 0 → d.tlb = []) ∧
      (dField q 32 8 ≠ 0 → ∀ e, e ∈ d.tlb ↔ e ∈ c.tlb ∧
        (dField q 24 8 + dField q 32 8 ≤ e.key / 64 * 2 ^ (e.key % 64) ∨
          e.key / 64 * 2 ^ (e.key % 64) + 2 ^ (e.key % 64) ≤ dField q 24 8))) ∧
  (∀ s cb q t, AdminDue s cb 19 q t → NonePending t →
    let a := dField q 16 2
    ((ctxAt t a = none ∨ migrateGoal t q = none) → exec (.migrate cb) s = .next (settle (adminResult q 1 0 t))) ∧
    ∀ c base len, ctxAt t a = some c → migrateGoal t q = some (base, len) →
      let bad := len ≠ c.part.len ∨ partPending c = true ∨ mayShare t a base len c.rcd.tick c.rcd.deadline = false
      (bad → exec (.migrate cb) s = .next (settle (adminResult q 3 a t))) ∧
      (¬ bad → movable t a c = true → ∃ u d z, exec (.migrate cb) s = .next (settle u) ∧ u = adminResult q 0 a z ∧
        ctxAt u a = some d ∧ d.part.base = base ∧ d.part.curBase = base ∧ d.part.curLen = c.part.curLen ∧ d.pending = none) ∧
      (¬ bad → movable t a c = false → c.out = false → ∃ u, exec (.migrate cb) s = .next (settle u) ∧
        u = { t with slots := u.slots, ctxs := u.ctxs } ∧ ctxAt u a = some { c with pending := some (19, q) } ∧
        ∀ k ∈ partOf c.part.curBase c.part.curLen, ∀ g ∈ ctxSlots t a k,
          (slotAt t g).ctl.st ≠ .spilled → (slotAt u g).ctl.req.spill = true)) ∧
  (∀ s cb q t c m, ctxAt t (dField q 16 2) = some c → c.pending = some m →
    (AdminDue s cb 17 q t → exec (.destroy cb) s =
      .next (settle ((tkeys t.ctxs).foldl finishDestroy (adminResult q 4 (dField q 16 2) t)))) ∧
    (AdminDue s cb 19 q t → (migrateGoal t q).isSome = true → exec (.migrate cb) s =
      .next (settle ((tkeys t.ctxs).foldl finishMigrate (adminResult q 4 (dField q 16 2) t))))) ∧
  ∀ s cb asid bs, readPhys s cb 64 = some bs → cb % 64 = 0 → (workCore s 0).isSome = true → dField (leNat bs) 9 1 ≠ 1 →
    let b := leNat bs
    let i := dField b 24 8
    let stopped := fun code => .next (settle (writeAdmin cb [(10, 2, code), (32, 8, i), (9, 1, 1)] s))
    (blockOk b = false → exec (.create cb asid) s = stopped 4 ∧ exec (.invalidate cb) s = stopped 4) ∧
    (blockOk b = true → i < dField b 16 8 →
      (readPhys s (dField b 0 8 + 64 * (i % 2 ^ dField b 8 1)) 64 = none →
        exec (.create cb asid) s = stopped 3 ∧ exec (.invalidate cb) s = stopped 3) ∧
      ∀ ps, readPhys s (dField b 0 8 + 64 * (i % 2 ^ dField b 8 1)) 64 = some ps → adminError (leNat ps) ≠ 0 →
        exec (.create cb asid) s = stopped (adminError (leNat ps)) ∧ exec (.invalidate cb) s = stopped (adminError (leNat ps)))

/-- R39, R365, R377: the debug port. What PC and the shared control registers do when they are written is log entry 33's choice; that
the save area that RDSAVE reads stands at physical SAVEBASE is log entry 32's reading (DEDUCED). -/
def Obligations.DebugPort : Prop :=
  (∀ s a on c, ctxAt s a = some c → exec (.debuggerAttach a on) s = .next (settle
    { s with ctxs := tput s.ctxs a { c with attached := on && c.rcd.debug } })) ∧
  (∀ s g, debugged s g = false → exec (.halt g) s = .next (settle s) ∧ exec (.resume g) s = .next (settle s) ∧
    exec (.step g) s = .next (settle s) ∧ exec (.dbgflush g) s = .next (settle s) ∧ exec (.spill g) s = .next (settle s) ∧
    exec (.restore g) s = .next (settle s) ∧ exec (.rdsave g) s = .next (settle s) ∧
    ∀ i v p, exec (.rdreg g i) s = .next (settle s) ∧ exec (.wrreg g i v p) s = .next (settle s)) ∧
  (∀ s g, debugged s g = true →
    let st := (slotAt s g).ctl.st
    ((st = .running ∨ st = .parked ∨ st = .idle ∨ st = .spilled) →
      exec (.halt g) s = .next (settle (withReq s g fun r => { r with halt := true }))) ∧
    (st ≠ .free → st ≠ .spilled → exec (.spill g) s = .next (settle (withReq s g fun r => { r with spill := true }))) ∧
    ((st = .spilled ∨ (slotAt s g).ctl.req.spill = true) →
      exec (.restore g) s = .next (settle (withReq s g fun r => { r with restore := true })))) ∧
  (∀ s g, AtProbe s g → (slotAt s g).ctl.under ≠ .idle →
    (∃ u, exec (.resume g) s = .next (settle u) ∧
      slotAt u g = { slotAt s g with ctl := { (slotAt s g).ctl with st := (slotAt s g).ctl.under } } ∧ SlotAlone g s u) ∧
    ((slotAt s g).ctl.req.step = 0 → ∃ u, exec (.step g) s = .next (settle u) ∧ (slotAt u g).ctl.st = (slotAt s g).ctl.under ∧
      (slotAt u g).ctl.req.step = 1 ∧ (slotAt u g).regs = (slotAt s g).regs ∧ (slotAt u g).ctl.pc = (slotAt s g).ctl.pc ∧
      SlotAlone g s u)) ∧
  (∀ s g, debugged s g = true → (slotAt s g).ctl.req.step ≠ 0 →
    exec (.step g) s = .next (settle (withReq s g fun r => { r with more := r.more + 1 }))) ∧
  (∀ s g, AtProbe s g →
    let x := slotAt s g
    (∀ n, exec (.rdreg g (.reg (.s n))) s = .next (settle { s with port := [(sGet x n).toNat, Pres.num (presOf s g (.s n))] })) ∧
    (∀ n, exec (.rdreg g (.reg (.p n))) s = .next (settle { s with port := [(pGet x n).toNat, Pres.num (presOf s g (.p n))] })) ∧
    (∀ n, exec (.rdreg g (.reg (.m n))) s = .next (settle { s with port := [(mGet x n).toNat, Pres.num (presOf s g (.m n))] })) ∧
    (∀ n : VRegNo, n.val < x.win.size → exec (.rdreg g (.reg (.v n))) s =
      .next (settle { s with port := [(vGet s g n.val).toNat, Pres.num (presOf s g (.v n))] })) ∧
    exec (.rdreg g .pc) s = .next (settle { s with port := [(nextWord x).2.toNat] }) ∧
    (∀ n, cregListed n = true → exec (.rdreg g (.creg n)) s = .next (settle { s with port := [(cregValue s g n).toNat] })) ∧
    ∀ va gs, fetchWord (modCtl g (fun c => { c with buf := [] }) s) g va = .word gs →
      exec (.rdreg g (.cached va)) s = .next (settle { s with port := [(expandWord gs).toNat] })) ∧
  (∀ s g v pres, AtProbe s g →
    (∀ n : SReg, n ≠ 0 → ∃ u, exec (.wrreg g (.reg (.s n)) [v] pres) s = .next (settle u) ∧
      (slotAt u g).regs = { (slotAt s g).regs with s := (slotAt s g).regs.s.set n.val (BitVec.ofNat 64 v)
                                                   sp := (slotAt s g).regs.sp.set n.val (pres.getD .full) } ∧ SlotAlone g s u) ∧
    (∀ n : GReg, n ≠ 0 → ∃ u, exec (.wrreg g (.reg (.p n)) [v] pres) s = .next (settle u) ∧
      (slotAt u g).regs = { (slotAt s g).regs with p := (slotAt s g).regs.p.set n.val (v % 2 == 1)
                                                   pp := (slotAt s g).regs.pp.set n.val (pres.getD .full) } ∧ SlotAlone g s u) ∧
    (∃ u, exec (.wrreg g (.creg 0x020) [v] pres) s = .next (settle u) ∧ SlotAlone g s u ∧
      slotAt u g = { slotAt s g with trap := { (slotAt s g).trap with vec := BitVec.ofNat 64 v &&& 0xFFFFFFFFFFFFFFFE } }) ∧
    (∃ u, exec (.wrreg g (.creg 0x010) [v] pres) s = .next (settle u) ∧ SlotAlone g s u ∧
      slotAt u g = { slotAt s g with lclk := v % 2 ^ 64 }) ∧
    (∃ u, exec (.wrreg g (.creg 0x021) [v] pres) s = .next (settle u) ∧ SlotAlone g s u ∧
      slotAt u g = { slotAt s g with trap := { (slotAt s g).trap with cause := BitVec.ofNat 64 v &&& 0x3FFF00FF0FFF } }) ∧
    (∃ u, exec (.wrreg g (.creg 0x022) [v] pres) s = .next (settle u) ∧ SlotAlone g s u ∧
      slotAt u g = { slotAt s g with trap := { (slotAt s g).trap with addr := BitVec.ofNat 64 v } }) ∧
    (∀ a b c p q, exec (.wrreg g .shadow [a, b, c, p, q] pres) s = .next (settle (modSlot g (fun x => { x with shadow :=
      { s := #v[BitVec.ofNat 64 a, BitVec.ofNat 64 b, BitVec.ofNat 64 c]
        sp := #v[presOfNum (q % 4), presOfNum (q / 4 % 4), presOfNum (q / 16 % 4)]
        p1 := p % 2 == 1, pp1 := presOfNum (q / 64 % 4), loops := [] } }) s))) ∧
    ((slotAt s g).ctl.under = .running → (slotAt s g).ctl.wait = .none → ∃ u, exec (.wrreg g .pc [v] pres) s = .next (settle u) ∧
      (slotAt u g).ctl = { (slotAt s g).ctl with pc := BitVec.ofNat 64 v &&& 0xFFFFFFFFFFFFFFFE } ∧ SlotAlone g s u) ∧
    ((slotAt s g).ctl.wait.restarts = false → ∃ u, exec (.wrreg g .pc [v] pres) s = .next (settle u) ∧
      (slotAt u g).ctl.npc = BitVec.ofNat 64 v &&& 0xFFFFFFFFFFFFFFFE ∧ (slotAt u g).ctl.loops = (nextWord (slotAt s g)).1 ∧
      (slotAt u g).ctl.wait = (slotAt s g).ctl.wait ∧ (slotAt u g).regs = (slotAt s g).regs ∧ SlotAlone g s u)) ∧
  (∀ s g, AtProbe s g → ∃ u, exec (.dbgflush g) s = .next (settle u) ∧
    (coreAt u (coreOf g)).queue = (coreAt s (coreOf g)).queue.filter (fun e => e.gid != g) ∧
    (∀ e ∈ (coreAt s (coreOf g)).queue, e.gid = g → ∀ k ∈ owes e.instr, k ≠ .s 0 → k ≠ .p 0 → k ≠ .m 0 → presOf u g k = .empty) ∧
    (∀ h, h ≠ g → slotAt u h = slotAt s h) ∧ (slotAt u g).ctl = (slotAt s g).ctl) ∧
  (∀ s g, debugged s g = true → (slotAt s g).ctl.st = .spilled → (slotAt s g).ctl.req.spill = false →
    ∃ u, exec (.rdsave g) s = .next (settle u) ∧ u.port.length = 53248 ∧
      u.port = (peekPhys u (saveArea s (slotAt s g).ctl.asid g) 53248).map (fun b => b.toNat))

/-- R23 to R26, R316, R323, R325, R395, R402 to R409: accesses from outside, boot, firmware, sensors, power, errors and links. By how
much a hot cell slows down is a free value of the model (log entry 42, DESIGN CHOICE). The model's own are also: what a cold boot keeps (log
entry 31, DEDUCED) and the reset values it leaves (log entry 1, DESIGN CHOICE), the clock and stamps of the link agent (log entry 45, DEDUCED),
an error in a register that traps at once (log entry 47, DEDUCED), a hand-over in two events (log entry 51, DEDUCED), which image a boot takes
and how a refusal is numbered (log entry 61, DESIGN CHOICE), and the names and grants of peers' slots in a queue (log entry 10, DESIGN
CHOICE). -/
def Obligations.OutsideAndManagement : Prop :=
  (∀ s pa n, 1 ≤ n → pa % 128 + n ≤ 128 → readsWell s pa n = true →
    ∃ u, exec (.linkAgentAccess (.read pa n)) s = .next (settle u) ∧ u.port = (readMem s pa n).map (fun b => b.toNat) ∧
      u.linkClk = max (s.linkClk + 1) (stamps s pa).1 ∧ stamps u pa = ((stamps s pa).1, max (stamps s pa).2 u.linkClk) ∧
      (∀ c, (cellAt u c).stash = (cellAt s c).stash) ∧ u.mem.ext = s.mem.ext ∧ (PlainMemory s pa n → SameBytes s u)) ∧
  (∀ s pa bs acc, (acc = Instr.linkAgentAccess (.write pa bs) ∨ acc = Instr.hostAccess (.write pa bs)) → 1 ≤ bs.length →
    pa % 128 + bs.length ≤ 128 → PlainMemory s pa bs.length → Memory.wf s →
    ∃ u, exec acc s = .next (settle u) ∧ StoredAt (.mem pa) bs.length (leNat bs) s u ∧
      u.linkClk = max s.linkClk (stamps s pa).2 + 1 ∧ stamps u pa = (u.linkClk, u.linkClk)) ∧
  (∀ s pa n, readsWell s pa n = false → exec (.linkAgentAccess (.read pa n)) s = .next (settle { s with port := [] })) ∧
  (∀ s pa bs, isLocal pa bs.length = false → exec (.linkAgentAccess (.write pa bs)) s = .next (settle s)) ∧
  (∀ s pa op acc n new out, Outside pa op acc → pa % n = 0 → PlainMemory s pa n → poisoned s (.mem pa) 1 = false →
    OutsideDoes op (memNat s pa n) n new out → Memory.wf s →
    ∃ u, exec acc s = .next (settle u) ∧ StoredAt (.mem pa) n new s u ∧ u.port = out ∧
      u.linkClk = max s.linkClk (stamps s pa).2 + 1 ∧ stamps u pa = (u.linkClk, u.linkClk)) ∧
  (∀ s pa a id g c img, isLocal pa 1 = true → PlainMemory s (pa / 128 * 128) 128 → poisoned s (.mem pa) 1 = false → 48 ≤ id →
    ctxAt s a = some c → tfind c.routines id = some img → Memory.wf s →
    let r := (imageWords img (img.head?.getD 0).toNat).foldl sliceStep
      { g := #v[g[0], g[1], g[2], g[3], BitVec.ofNat 64 (pa % 128), 0, 0, 0], line := memNat s (pa / 128 * 128) 128 }
    ∃ u, exec (.linkAgentAccess (.routine pa a id g)) s = .next (settle u) ∧
      StoredAt (.mem (pa / 128 * 128)) 128 r.line s u ∧ u.port = [r.g[0].toNat, r.g[1].toNat]) ∧
  (∀ s pa id, PlainMemory s pa 8 → pa % 8 = 0 → atomicFault s (BitVec.ofNat 64 pa) (.mem pa) = none →
    let name := 2 ^ 64 + id
    let r := resvOf s pa
    (r.holder = none → ∃ u, exec (.linkAgentAccess (.lrw pa id)) s = .next (settle u) ∧ u.port = [memNat s pa 8] ∧ SameBytes s u ∧
      u.slots = s.slots ∧ resvOf u pa = { r with holder := some name }) ∧
    (∀ h, r.holder = some h → h ≠ name → ∃ u, exec (.linkAgentAccess (.lrw pa id)) s = .next (settle u) ∧ u.port = [] ∧
      SameBytes s u ∧ u.slots = s.slots ∧ resvOf u pa = { holder := some h, fifo := r.fifo ++ [name] }) ∧
    (r.holder ≠ some name → ∀ v, exec (.linkAgentAccess (.sch pa id v)) s = .next (settle s) ∧
      exec (.linkAgentAccess (.schx pa id)) s = .next (settle s)) ∧
    (r.holder = some name → Memory.wf s →
      (∀ v, ∃ u, exec (.linkAgentAccess (.sch pa id v)) s = .next (settle u) ∧ StoredAt (.mem pa) 8 v.toNat s u ∧ u.slots = s.slots ∧
        (r.fifo = [] → keysFrom 0 s.mem.resv = true → resvOf u pa = { holder := none, fifo := [] }) ∧
        ∀ h l, r.fifo = h :: l → h < 16384 → resvOf u pa = { holder := some h, fifo := l } ∧
          ReplySent s u h [.s (lrwDest (slotAt s h)) v]) ∧
      ∃ u, exec (.linkAgentAccess (.schx pa id)) s = .next (settle u) ∧ SameBytes s u ∧ u.slots = s.slots ∧
        (r.fifo = [] → keysFrom 0 s.mem.resv = true → resvOf u pa = { holder := none, fifo := [] }) ∧
        ∀ h l, r.fifo = h :: l → h < 16384 → resvOf u pa = { holder := some h, fifo := l } ∧
          ReplySent s u h [.s (lrwDest (slotAt s h)) (BitVec.ofNat 64 (memNat s pa 8))])) ∧
  (∀ s id b, ∃ u, exec (.linkAgentAccess (.leave id b)) s = .next (settle u) ∧ SameBytes s u ∧
    (∀ q ∈ u.mem.resv, 2 ^ 64 + id ∉ q.2.fifo)) ∧
  (∀ s pa v h l, queueAway pa = true → tfind s.mem.resv pa = some { holder := none, fifo := h :: l } → h < 16384 →
    ∃ u, exec (.linkAgentAccess (.grant pa v)) s = .next (settle u) ∧ resvOf u pa = { holder := some h, fifo := l } ∧
      u.slots = s.slots ∧ ReplySent s u h [.s (lrwDest (slotAt s h)) v] ∧ leNat (getExts u.mem.ext pa 8) = v.toNat) ∧
  (∀ s pa n, 1 ≤ n → pa % 128 + n ≤ 128 → readsWell s pa n = true → ∃ u, exec (.hostAccess (.read pa n)) s = .next (settle u) ∧
    u.port = (getBytes s.mem.bytes pa n).map (fun b => b.toNat) ∧ SameBytes s u) ∧
  (∀ s f q bs, f < 128 → q < 64 → exec (.hostAccess (.write (0x028000000000 + 0x10000 * f + 8 * q) bs)) s =
    .next (settle (hostWake f q s))) ∧
  (∀ s f q v, f < 128 → q < 64 → exec (.hostAccess (.write (0x028000000000 + 0x10000 * f + 0x200 + 8 * q) (leBytes 8 v))) s =
    .next (settle (writeQreg f q (BitVec.ofNat 64 (v % 2 ^ 64)) s))) ∧
  (∀ s t img, (refusal s t img = 0 ↔ t.signatureOk = true ∧ s.boot.fuse ≤ t.version ∧ t.device < 512 ∧ columnsOk t.fwColumns = true ∧
    t.roles.length = 16 * t.fwColumns.length ∧ (∀ r ∈ t.roles, r ≤ 4) ∧ (∀ r, r < 4 → r ∈ t.roles) ∧ img.digest = t.digest)) ∧
  (∀ s t im, let img := bootImage s t im
    ∃ u, exec (.coldBoot { table := t, image := im }) s = .next (settle u) ∧ (∀ a, getByte u.mem.bytes a = 0) ∧ (∀ g, slotAt u g = Slot.reset) ∧
    (∀ c, coreAt u c = Core.reset) ∧ u.ctxs = [] ∧ u.grids = [] ∧ u.net = [] ∧ u.fwin = [] ∧ u.boot.fuse = s.boot.fuse ∧
    u.boot.flash = s.boot.flash ∧ u.boot.stopped = false ∧ (u.boot.booted = true ↔ refusal s t img = 0) ∧
    (refusal s t img = 0 → u.boot.device = t.device ∧ u.boot.columns = t.fwColumns ∧ u.boot.roles = t.roles ∧
      u.boot.routes = t.routes ∧ u.boot.digest = t.digest ∧ u.boot.bank = 0 ∧ u.boot.image = some img ∧ u.boot.log = s.boot.log ∧
      ∀ c, c < 256 → (cellAt u c).live = (cellAt u c).tested ∧ (cellAt u c).tested = testedCode c ∧ testedCode c ≤ 32) ∧
    (refusal s t img ≠ 0 → ∃ r, u.boot.log.getLast? = some r ∧ r.cls = 7 ∧ r.detail = refusal s t img)) ∧
  (∀ s t img, s.boot.booted = true →
    (s.boot.handover = false → refusal s t img = 0 → t.fwColumns = s.boot.columns → exec (.leapfrogHandover t img false) s =
      .next (settle { s with boot := { s.boot with handover := true, idle := some (img, t.roles) } })) ∧
    (s.boot.handover = false → (refusal s t img ≠ 0 ∨ t.fwColumns ≠ s.boot.columns) →
      exec (.leapfrogHandover t img false) s = .next (settle s)) ∧
    (∀ b, s.boot.handover ≠ b → exec (.leapfrogHandover t img b) s = .next (settle s)) ∧
    (s.boot.handover = true → quiescent s = false → exec (.leapfrogHandover t img true) s = .next (settle s)) ∧
    ∀ new roles old, s.boot.handover = true → quiescent s = true → s.boot.idle = some (new, roles) → s.boot.image = some old →
      ∃ u r, exec (.leapfrogHandover t img true) s = .next (settle u) ∧ u = { s with boot := u.boot, time := u.time, fresh := u.fresh } ∧
        u.boot.handover = false ∧ u.boot.idle = none ∧ u.boot.block = some old.writes ∧ u.boot.log.getLast? = some r ∧ r.cls = 6 ∧
        (old.writes ∈ new.accepts → u.boot.bank = 1 - s.boot.bank ∧ u.boot.image = some new ∧ u.boot.roles = roles ∧ r.detail = 1) ∧
        (old.writes ∉ new.accepts → u.boot.bank = s.boot.bank ∧ u.boot.image = some old ∧ u.boot.roles = s.boot.roles ∧
          r.detail = 0)) ∧
  (∀ s image, exec (.firmwareUpdate image true) s = .next (settle { s with boot := { s.boot with flash := some image } }) ∧
    exec (.firmwareUpdate image false) s = .next (settle s)) ∧
  (∀ s c t p, c < 256 → ∃ u, exec (.sensorSample { temps := [(c, t)], plant := p }) s = .next (settle u) ∧ (cellAt u c).temp = t ∧ u.boot.plant = p ∧
    (1050 < t → 0 < (cellAt s c).live → (cellAt u c).live < (cellAt s c).live) ∧
    (railPower p ≤ s.boot.cap * 10 ^ 6 → t ≤ 1050 → (cellAt s c).live ≤ (cellAt u c).live) ∧
    (s.boot.cap * 10 ^ 6 < railPower p → ∀ d ∈ tkeys s.cells, 0 < (cellAt s d).live → (cellAt u d).live < (cellAt s d).live) ∧
    (∀ d, (cellAt s d).live ≤ (cellAt s d).tested → (cellAt u d).live ≤ (cellAt u d).tested ∧ (cellAt u d).tested = (cellAt s d).tested) ∧
    (u.boot.stopped = true ↔ s.boot.stopped = true ∨ 1150 ≤ t) ∧
    (1150 ≤ t → ∃ r, u.boot.log.getLast? = some r ∧ r.cls = 3 ∧ r.detail = 1150)) ∧
  (∀ s w c t p, 1200 ≤ w → w ≤ 2000 → c < 256 → ∃ u, exec (.setPowerCap w { temps := [(c, t)], plant := p }) s = .next (settle u) ∧
    u.boot.cap = w ∧ u.boot.plant = p ∧ (cellAt u c).temp = t ∧ (u.boot.stopped = true ↔ s.boot.stopped = true ∨ 1150 ≤ t) ∧
    (1050 < t → 0 < (cellAt s c).live → (cellAt u c).live < (cellAt s c).live) ∧
    (w * 10 ^ 6 < railPower p → ∀ d ∈ tkeys s.cells, 0 < (cellAt s d).live → (cellAt u d).live < (cellAt s d).live)) ∧
  (∀ s w p, (w < 1200 ∨ 2000 < w) → exec (.setPowerCap w p) s = .next (settle s)) ∧
  (∀ s c, c < 256 → ∃ u, exec (.softError (.corrected c)) s = .next (settle u) ∧
    cellAt u c = { cellAt s c with ce := (cellAt s c).ce + 1 } ∧ u.slots = s.slots ∧
    ∃ r, u.boot.log.getLast? = some r ∧ r.cls = 1 ∧ r.detail = c) ∧
  (∀ s pa, isLocal pa 1 = true → ∃ u, exec (.softError (.line pa)) s = .next (settle u) ∧ pa / 128 ∈ u.mem.poison ∧
    u.mem.bytes = s.mem.bytes ∧ ∃ r, u.boot.log.getLast? = some r ∧ r.cls = 2 ∧ r.detail = pa / 128 % 2 ^ 192) ∧
  (∀ s pa, isLocal pa 1 = true → ∃ u, exec (.softError (.slice pa)) s = .next (settle u) ∧ pa / 128 ∈ u.mem.poison ∧
    (cellAt u (cellOfSlice (homeSlice pa))).ue = (cellAt s (cellOfSlice (homeSlice pa))).ue + 1) ∧
  (∀ s c off, c < 256 → off < 0x80000 → ∃ u, exec (.softError (.stash c off)) s = .next (settle u) ∧
    stashLoc c off / 128 ∈ u.mem.poison ∧ (cellAt u c).ue = (cellAt s c).ue + 1) ∧
  (∀ s g, g < 16384 → (slotAt s g).ctl.st = .running → (slotAt s g).ctl.gone = false → (slotAt s g).trap.vec ≠ 0 →
    bit (slotAt s g).trap.cause 11 = false →
    ∃ u, exec (.softError (.register g)) s = .next (settle u) ∧ bits (slotAt u g).trap.cause 0 8 = 3 ∧
      bits (slotAt u g).trap.cause 16 8 = 2 ∧ bit (slotAt u g).trap.cause 11 = true ∧
      (slotAt u g).ctl.pc = (slotAt s g).trap.vec ∧ (slotAt u g).trap.pc = (slotAt s g).ctl.pc &&& 0xFFFFFFFFFFFFFFFE ∧
      (cellAt u (cellOf g)).ue = (cellAt s (cellOf g)).ue + 1) ∧
  (∀ s g, g < 16384 → ∃ u, exec (.softError (.operand g)) s = .next (settle u) ∧
    (cellAt u (cellOf g)).ue = (cellAt s (cellOf g)).ue + 1) ∧
  (∀ s, exec .hbmScrub s = .next (settle s)) ∧
  (∀ s (p : Fin 24), ∃ u, exec (.linkDown p) s = .next (settle u) ∧ p.val ∉ u.boot.linksUp ∧
    (∀ k, k ≠ p.val → (k ∈ u.boot.linksUp ↔ k ∈ s.boot.linksUp)) ∧ ∃ r, u.boot.log.getLast? = some r ∧ r.cls = 5 ∧ r.detail = p.val) ∧
  (∀ s p, exec (.flitReplay p) s = .next (settle s))

/-- R404, R142, R146: the machine after a cold reset, before a boot: memory reads zero, every slot is FREE with no block on its
core, no context, no grid and nothing on its way. Zero in the registers is log entry 1's choice; p0 and m0 are R146's. -/
def Obligations.ResetState : Prop :=
  (∀ a, getByte State.reset.mem.bytes a = 0) ∧
  (∀ g, (slotAt State.reset g).ctl.st = .free ∧ (slotAt State.reset g).trap.vec = 0 ∧ (slotAt State.reset g).waitlim = 0 ∧
    (∀ n, sGet (slotAt State.reset g) n = 0) ∧ pGet (slotAt State.reset g) 0 = true ∧
    mGet (slotAt State.reset g) 0 = BitVec.allOnes 256) ∧
  (∀ c, (coreAt State.reset c).block = none ∧ (coreAt State.reset c).queue = [] ∧ (coreAt State.reset c).deque = []) ∧
  (∀ a, ctxAt State.reset a = none) ∧ (∀ k, gridLive State.reset k = false) ∧ State.reset.net = [] ∧
  State.reset.boot.booted = false ∧ State.reset.boot.stopped = false

/-- R42, R43, R140, R367: in a core cycle the word at the pc of the slot whose turn it is issues, if the slot is RUNNING: its
guard decides, an instruction without one has its effect, and what does not decode raises F.ILL. A pair has the effect of both halves,
each on the operands that stood before the word, or of neither (R37, R43). The state before is the one with
what is pending for the slot dealt with, the state after has the fetch buffer aged and what has come to an end settled. R143, R144: a word
that has issued and waits for its access makes it in its slot's turn, with the operands that it has read (log entry 59, DEDUCED). An event
at the head of the agenda (log entry 3, DESIGN CHOICE) is performed by itself. -/
def Obligations.StepRunsDecodedWord : Prop :=
  (∀ s c rest gs, s.boot.stopped = false → s.boot.booted = true → s.agenda = .core c :: rest →
    let g := turnOf s c
    let x := cycle c (between g (expireWaits c { s with agenda := rest }))
    let y := atIssue g gs.length x
    (slotAt x g).ctl.st = .running → (slotAt x g).ctl.caught = none → (cellAt x (cellOf g)).joined = true → fetchWord x g (slotAt x g).ctl.pc = .word gs →
    let goes := fun (gd : Option GuardField) => ∀ q, gd = some q → presOf y g (.p q.reg) = .full ∧ pGet (slotAt y g) q.reg ≠ q.neg
    (∀ q b, decodeWord gs = .ok { guard := some q, body := b } →
      (readBlocks y g (.p q.reg) = true → step s = .next (afterWord g (park g (.presence [.p q.reg] []) y))) ∧
      (presOf y g (.p q.reg) = .full → pGet (slotAt y g) q.reg = q.neg → ∃ t, step s = .next (afterWord g t) ∧ WroteNothing y t)) ∧
    (∀ gd i, decodeWord gs = .ok { guard := gd, body := .single i } → goes gd →
      step s = match exec i y with | .next t => .next (afterWord g t) | r => r) ∧
    (∀ gd i j, decodeWord gs = .ok { guard := gd, body := .pair i j } → goes gd → PairRuns g i j (step s) y) ∧
    (∀ e, decodeWord gs = .error e → vectorIllegal gs = false → step s = .next (afterWord g (fault fIll y)))) ∧
  (∀ s c rest w, s.boot.stopped = false → s.boot.booted = true → s.agenda = .core c :: rest →
    let g := turnOf s c
    let x := cycle c (between g (expireWaits c { s with agenda := rest }))
    let y := { modSlot g uncount (unpark g .running (leaveWait g x)) with issue := { gid := g, half := .whole, done := false } }
    (cellAt x (cellOf g)).joined = true → (slotAt x g).ctl.caught = some w →
    (accessReady x g = true → step s = match exec w.instr y with
      | .next t => .next (settle (stepAfter g (dropCaught g t)))
      | r => r) ∧
    (accessReady x g = false → step s = .next x)) ∧
  ∀ s e rest, s.boot.stopped = false → s.boot.booted = true → s.agenda = .event e :: rest → isEvent e = true →
    step s = exec e { s with agenda := rest }

/-- R27 to R39, R48 to R51: words of each class written out from their encodings decode to the instructions they stand for. -/
def Obligations.WordsDecode : Prop :=
  decodeTableWord 32 (1 * 2 ^ 24 + 5 * 2 ^ 19 + 6 * 2 ^ 14 + 7 * 2 ^ 9) = some (.add 5 6 7) ∧
  decodeTableWord 32 (4 * 2 ^ 24 + 5 * 2 ^ 19 + 6 * 2 ^ 14 + 0x3FFF) = some (.addiS 5 6 (-1)) ∧
  decodeTableWord 32 (21 * 2 ^ 24 + 0xFFFFFE) = some (.br (-2)) ∧
  decodeTableWord 32 (42 * 2 ^ 24 + 9 * 2 ^ 19 + 10 * 2 ^ 14 + 6 * 2 ^ 11 + 8) = some (.ldOff 9 10 .b64 8) ∧
  decodeTableWord 32 (30 * 2 ^ 24 + 2) = some .done ∧
  decodeTableWord 32 0 = none ∧
  decodeTableWord 48 (2 ^ 47 + 1 * 2 ^ 38 + 1 * 2 ^ 33 + 2 * 2 ^ 28 + 3 * 2 ^ 23 + 6 * 2 ^ 10) = some (.vadd 1 2 3 0 .s32 .rne) ∧
  decodeTableWord 64 (2 ^ 63 + 2 ^ 62 + 1 * 2 ^ 53 + 3 * 2 ^ 48 + 0xFFFFFFFF) = some (.li 3 0xFFFFFFFF)

/-- R27 to R56: decoding what the encoder makes of a well-formed instruction gives the instruction back, alone or after a guard.
The six CHCTL rows share one encoding, which decodes to the first of them (R120). So does a pair of a well-formed scalar instruction of a
major operation from 0x01 to 0x10 and a well-formed vector instruction, where the halves do not write one scalar register (R37, R38). -/
def Obligations.DecodeEncode : Prop :=
  (∀ i : Instr, i.wf = true → isEvent i = false →
    (∀ d a b, i ≠ .setstate d a b ∧ i ≠ .getwidx d a b ∧ i ≠ .getridx d a b ∧ i ≠ .setridx d a b ∧ i ≠ .getbase d a b) →
    decodeWord (encode i) = .ok { guard := none, body := .single i } ∧
    ∀ q, i ≠ .nop16 → decodeWord (encodeWord { guard := some q, body := .single i }) = .ok { guard := some q, body := .single i }) ∧
  ∀ (i j : Instr) v w, i.wf = true → j.wf = true → encodeValue i = some (2, v) → 1 ≤ v / 2 ^ 24 % 64 → v / 2 ^ 24 % 64 ≤ 0x10 →
    encodeValue j = some (3, w) → (∀ d, scalarDestS i = some d → scalarDestV j ≠ some d) →
    ∀ q, decodeWord (encodeWord { guard := q, body := .pair i j }) = .ok { guard := q, body := .pair i j }

/-- Memory, every stash and the saved stashes keep their canonical form in every step. -/
def Obligations.MemoryWfKept : Prop := ∀ s t, Memory.wf s → step s = .next t → Memory.wf t
end

