-- ==== Sys2Proof/Laws/State.lean ====
section
/-! SUPPORT. What each update of the state leaves alone, field by field, and what the accessors read after an update. -/

namespace Sys2Proof.Machine

/-! ### Tables -/

@[simp] theorem tfind_tput_self {α : Type} (t : Tab α) (k : Nat) (x : α) : tfind (tput t k x) k = some x := by
  induction t with
  | nil => simp [tput, tfind]
  | cons p r ih =>
    obtain ⟨j, y⟩ := p
    simp only [tput]
    split
    · simp [tfind]
    · split
      · simp [tfind]
      · next h1 h2 => simpa [tfind, h2] using ih

theorem tfind_tput_ne {α : Type} (t : Tab α) {k l : Nat} (x : α) (h : k ≠ l) : tfind (tput t k x) l = tfind t l := by
  induction t with
  | nil => simp [tput, tfind, h]
  | cons p r ih =>
    obtain ⟨j, y⟩ := p
    simp only [tput]
    split
    · simp [tfind, h]
    · split
      · next h1 h2 => subst h2; simp [tfind, h]
      · simp only [tfind, ih]

theorem mem_tput {α : Type} {t : Tab α} {k : Nat} {x : α} {p : Nat × α} (h : p ∈ tput t k x) : p = (k, x) ∨ p ∈ t := by
  induction t with
  | nil => simpa [tput] using h
  | cons q r ih =>
    obtain ⟨j, y⟩ := q
    simp only [tput] at h
    split at h
    · simp only [List.mem_cons] at h ⊢; tauto
    · split at h
      · simp only [List.mem_cons] at h ⊢; tauto
      · simp only [List.mem_cons] at h ⊢
        rcases h with h | h
        · exact .inr (.inl h)
        · rcases ih h with h | h
          · exact .inl h
          · exact .inr (.inr h)

theorem mem_tdel {α : Type} {t : Tab α} {k : Nat} {p : Nat × α} (h : p ∈ tdel t k) : p ∈ t := by
  induction t with
  | nil => simp [tdel] at h
  | cons q r ih =>
    obtain ⟨j, y⟩ := q
    simp only [tdel] at h
    split at h
    · exact List.mem_cons_of_mem _ h
    · simp only [List.mem_cons] at h ⊢
      exact h.imp id ih

theorem mem_of_tfind {α : Type} {t : Tab α} {k : Nat} {x : α} (h : tfind t k = some x) : (k, x) ∈ t := by
  induction t with
  | nil => simp [tfind] at h
  | cons q r ih =>
    obtain ⟨j, y⟩ := q
    simp only [tfind] at h
    split at h
    · next e => subst e; simp only [Option.some.injEq] at h; subst h; exact List.mem_cons_self
    · exact List.mem_cons_of_mem _ (ih h)

/-! ### Accessors after an update -/

@[simp] theorem slotAt_setSlot_self (g : SlotKey) (x : Slot) (s : State) : slotAt (setSlot g x s) g = x := by
  simp [slotAt, setSlot]
theorem slotAt_setSlot_ne {g h : SlotKey} (x : Slot) (s : State) (n : h ≠ g) : slotAt (setSlot g x s) h = slotAt s h := by
  simp [slotAt, setSlot, tfind_tput_ne _ _ (Ne.symm n)]
@[simp] theorem slotAt_modSlot_self (g : SlotKey) (f : Slot → Slot) (s : State) : slotAt (modSlot g f s) g = f (slotAt s g) := by
  simp [modSlot]
theorem slotAt_modSlot_ne {g h : SlotKey} (f : Slot → Slot) (s : State) (n : h ≠ g) : slotAt (modSlot g f s) h = slotAt s h := by
  simp [modSlot, slotAt_setSlot_ne _ _ n]
@[simp] theorem slotAt_modCtl_self (g : SlotKey) (f : Ctl → Ctl) (s : State) :
    slotAt (modCtl g f s) g = { slotAt s g with ctl := f (slotAt s g).ctl } := by simp [modCtl]
theorem slotAt_modCtl_ne {g h : SlotKey} (f : Ctl → Ctl) (s : State) (n : h ≠ g) : slotAt (modCtl g f s) h = slotAt s h := by
  simp [modCtl, slotAt_modSlot_ne _ _ n]
@[simp] theorem coreAt_modCore_self (c : CoreKey) (f : Core → Core) (s : State) : coreAt (modCore c f s) c = f (coreAt s c) := by
  simp [modCore, coreAt]
theorem coreAt_modCore_ne {c d : CoreKey} (f : Core → Core) (s : State) (n : d ≠ c) : coreAt (modCore c f s) d = coreAt s d := by
  simp [modCore, coreAt, tfind_tput_ne _ _ (Ne.symm n)]
@[simp] theorem cellAt_modCell_self (c : CellKey) (f : Cell → Cell) (s : State) : cellAt (modCell c f s) c = f (cellAt s c) := by
  simp [modCell, cellAt]
theorem cellAt_modCell_ne {c d : CellKey} (f : Cell → Cell) (s : State) (n : d ≠ c) : cellAt (modCell c f s) d = cellAt s d := by
  simp [modCell, cellAt, tfind_tput_ne _ _ (Ne.symm n)]
theorem slotAt_congr {s t : State} (h : t.slots = s.slots) (g : SlotKey) : slotAt t g = slotAt s g := by simp [slotAt, h]
theorem coreAt_congr {s t : State} (h : t.cores = s.cores) (c : CoreKey) : coreAt t c = coreAt s c := by simp [coreAt, h]
theorem cellAt_congr {s t : State} (h : t.cells = s.cells) (c : CellKey) : cellAt t c = cellAt s c := by simp [cellAt, h]
theorem ctxAt_congr {s t : State} (h : t.ctxs = s.ctxs) (a : Nat) : ctxAt t a = ctxAt s a := by simp [ctxAt, h]

/-! ### setSlot -/

@[simp] theorem setSlot_cores (g : SlotKey) (x : Slot) (s : State) : (setSlot g x s).cores = s.cores := rfl
@[simp] theorem setSlot_cells (g : SlotKey) (x : Slot) (s : State) : (setSlot g x s).cells = s.cells := rfl
@[simp] theorem setSlot_fwin (g : SlotKey) (x : Slot) (s : State) : (setSlot g x s).fwin = s.fwin := rfl
@[simp] theorem setSlot_ctxs (g : SlotKey) (x : Slot) (s : State) : (setSlot g x s).ctxs = s.ctxs := rfl
@[simp] theorem setSlot_grids (g : SlotKey) (x : Slot) (s : State) : (setSlot g x s).grids = s.grids := rfl
@[simp] theorem setSlot_mem (g : SlotKey) (x : Slot) (s : State) : (setSlot g x s).mem = s.mem := rfl
@[simp] theorem setSlot_net (g : SlotKey) (x : Slot) (s : State) : (setSlot g x s).net = s.net := rfl
@[simp] theorem setSlot_pages (g : SlotKey) (x : Slot) (s : State) : (setSlot g x s).pages = s.pages := rfl
@[simp] theorem setSlot_gens (g : SlotKey) (x : Slot) (s : State) : (setSlot g x s).gens = s.gens := rfl
@[simp] theorem setSlot_tokens (g : SlotKey) (x : Slot) (s : State) : (setSlot g x s).tokens = s.tokens := rfl
@[simp] theorem setSlot_boot (g : SlotKey) (x : Slot) (s : State) : (setSlot g x s).boot = s.boot := rfl
@[simp] theorem setSlot_saves (g : SlotKey) (x : Slot) (s : State) : (setSlot g x s).saves = s.saves := rfl
@[simp] theorem setSlot_linkClk (g : SlotKey) (x : Slot) (s : State) : (setSlot g x s).linkClk = s.linkClk := rfl
@[simp] theorem setSlot_lastAsid (g : SlotKey) (x : Slot) (s : State) : (setSlot g x s).lastAsid = s.lastAsid := rfl
@[simp] theorem setSlot_nextId (g : SlotKey) (x : Slot) (s : State) : (setSlot g x s).nextId = s.nextId := rfl
@[simp] theorem setSlot_tickNo (g : SlotKey) (x : Slot) (s : State) : (setSlot g x s).tickNo = s.tickNo := rfl
@[simp] theorem setSlot_switches (g : SlotKey) (x : Slot) (s : State) : (setSlot g x s).switches = s.switches := rfl
@[simp] theorem setSlot_agenda (g : SlotKey) (x : Slot) (s : State) : (setSlot g x s).agenda = s.agenda := rfl
@[simp] theorem setSlot_fly (g : SlotKey) (x : Slot) (s : State) : (setSlot g x s).fly = s.fly := rfl
@[simp] theorem setSlot_copies (g : SlotKey) (x : Slot) (s : State) : (setSlot g x s).copies = s.copies := rfl
@[simp] theorem setSlot_issue (g : SlotKey) (x : Slot) (s : State) : (setSlot g x s).issue = s.issue := rfl
@[simp] theorem setSlot_port (g : SlotKey) (x : Slot) (s : State) : (setSlot g x s).port = s.port := rfl
@[simp] theorem setSlot_fresh (g : SlotKey) (x : Slot) (s : State) : (setSlot g x s).fresh = s.fresh := rfl
@[simp] theorem setSlot_time (g : SlotKey) (x : Slot) (s : State) : (setSlot g x s).time = s.time := rfl
@[simp] theorem setSlot_turn (g : SlotKey) (x : Slot) (s : State) : (setSlot g x s).turn = s.turn := rfl
@[simp] theorem coreAt_setSlot (g : SlotKey) (x : Slot) (s : State) (k : CoreKey) : coreAt (setSlot g x s) k = coreAt s k := coreAt_congr (by simp) k
@[simp] theorem cellAt_setSlot (g : SlotKey) (x : Slot) (s : State) (k : CellKey) : cellAt (setSlot g x s) k = cellAt s k := cellAt_congr (by simp) k
@[simp] theorem ctxAt_setSlot (g : SlotKey) (x : Slot) (s : State) (k : Nat) : ctxAt (setSlot g x s) k = ctxAt s k := ctxAt_congr (by simp) k

/-! ### modSlot -/

@[simp] theorem modSlot_cores (g : SlotKey) (f : Slot → Slot) (s : State) : (modSlot g f s).cores = s.cores := rfl
@[simp] theorem modSlot_cells (g : SlotKey) (f : Slot → Slot) (s : State) : (modSlot g f s).cells = s.cells := rfl
@[simp] theorem modSlot_fwin (g : SlotKey) (f : Slot → Slot) (s : State) : (modSlot g f s).fwin = s.fwin := rfl
@[simp] theorem modSlot_ctxs (g : SlotKey) (f : Slot → Slot) (s : State) : (modSlot g f s).ctxs = s.ctxs := rfl
@[simp] theorem modSlot_grids (g : SlotKey) (f : Slot → Slot) (s : State) : (modSlot g f s).grids = s.grids := rfl
@[simp] theorem modSlot_mem (g : SlotKey) (f : Slot → Slot) (s : State) : (modSlot g f s).mem = s.mem := rfl
@[simp] theorem modSlot_net (g : SlotKey) (f : Slot → Slot) (s : State) : (modSlot g f s).net = s.net := rfl
@[simp] theorem modSlot_pages (g : SlotKey) (f : Slot → Slot) (s : State) : (modSlot g f s).pages = s.pages := rfl
@[simp] theorem modSlot_gens (g : SlotKey) (f : Slot → Slot) (s : State) : (modSlot g f s).gens = s.gens := rfl
@[simp] theorem modSlot_tokens (g : SlotKey) (f : Slot → Slot) (s : State) : (modSlot g f s).tokens = s.tokens := rfl
@[simp] theorem modSlot_boot (g : SlotKey) (f : Slot → Slot) (s : State) : (modSlot g f s).boot = s.boot := rfl
@[simp] theorem modSlot_saves (g : SlotKey) (f : Slot → Slot) (s : State) : (modSlot g f s).saves = s.saves := rfl
@[simp] theorem modSlot_linkClk (g : SlotKey) (f : Slot → Slot) (s : State) : (modSlot g f s).linkClk = s.linkClk := rfl
@[simp] theorem modSlot_lastAsid (g : SlotKey) (f : Slot → Slot) (s : State) : (modSlot g f s).lastAsid = s.lastAsid := rfl
@[simp] theorem modSlot_nextId (g : SlotKey) (f : Slot → Slot) (s : State) : (modSlot g f s).nextId = s.nextId := rfl
@[simp] theorem modSlot_tickNo (g : SlotKey) (f : Slot → Slot) (s : State) : (modSlot g f s).tickNo = s.tickNo := rfl
@[simp] theorem modSlot_switches (g : SlotKey) (f : Slot → Slot) (s : State) : (modSlot g f s).switches = s.switches := rfl
@[simp] theorem modSlot_agenda (g : SlotKey) (f : Slot → Slot) (s : State) : (modSlot g f s).agenda = s.agenda := rfl
@[simp] theorem modSlot_fly (g : SlotKey) (f : Slot → Slot) (s : State) : (modSlot g f s).fly = s.fly := rfl
@[simp] theorem modSlot_copies (g : SlotKey) (f : Slot → Slot) (s : State) : (modSlot g f s).copies = s.copies := rfl
@[simp] theorem modSlot_issue (g : SlotKey) (f : Slot → Slot) (s : State) : (modSlot g f s).issue = s.issue := rfl
@[simp] theorem modSlot_port (g : SlotKey) (f : Slot → Slot) (s : State) : (modSlot g f s).port = s.port := rfl
@[simp] theorem modSlot_fresh (g : SlotKey) (f : Slot → Slot) (s : State) : (modSlot g f s).fresh = s.fresh := rfl
@[simp] theorem modSlot_time (g : SlotKey) (f : Slot → Slot) (s : State) : (modSlot g f s).time = s.time := rfl
@[simp] theorem modSlot_turn (g : SlotKey) (f : Slot → Slot) (s : State) : (modSlot g f s).turn = s.turn := rfl
@[simp] theorem coreAt_modSlot (g : SlotKey) (f : Slot → Slot) (s : State) (k : CoreKey) : coreAt (modSlot g f s) k = coreAt s k := coreAt_congr (by simp) k
@[simp] theorem cellAt_modSlot (g : SlotKey) (f : Slot → Slot) (s : State) (k : CellKey) : cellAt (modSlot g f s) k = cellAt s k := cellAt_congr (by simp) k
@[simp] theorem ctxAt_modSlot (g : SlotKey) (f : Slot → Slot) (s : State) (k : Nat) : ctxAt (modSlot g f s) k = ctxAt s k := ctxAt_congr (by simp) k

/-! ### modCtl -/

@[simp] theorem modCtl_cores (g : SlotKey) (f : Ctl → Ctl) (s : State) : (modCtl g f s).cores = s.cores := rfl
@[simp] theorem modCtl_cells (g : SlotKey) (f : Ctl → Ctl) (s : State) : (modCtl g f s).cells = s.cells := rfl
@[simp] theorem modCtl_fwin (g : SlotKey) (f : Ctl → Ctl) (s : State) : (modCtl g f s).fwin = s.fwin := rfl
@[simp] theorem modCtl_ctxs (g : SlotKey) (f : Ctl → Ctl) (s : State) : (modCtl g f s).ctxs = s.ctxs := rfl
@[simp] theorem modCtl_grids (g : SlotKey) (f : Ctl → Ctl) (s : State) : (modCtl g f s).grids = s.grids := rfl
@[simp] theorem modCtl_mem (g : SlotKey) (f : Ctl → Ctl) (s : State) : (modCtl g f s).mem = s.mem := rfl
@[simp] theorem modCtl_net (g : SlotKey) (f : Ctl → Ctl) (s : State) : (modCtl g f s).net = s.net := rfl
@[simp] theorem modCtl_pages (g : SlotKey) (f : Ctl → Ctl) (s : State) : (modCtl g f s).pages = s.pages := rfl
@[simp] theorem modCtl_gens (g : SlotKey) (f : Ctl → Ctl) (s : State) : (modCtl g f s).gens = s.gens := rfl
@[simp] theorem modCtl_tokens (g : SlotKey) (f : Ctl → Ctl) (s : State) : (modCtl g f s).tokens = s.tokens := rfl
@[simp] theorem modCtl_boot (g : SlotKey) (f : Ctl → Ctl) (s : State) : (modCtl g f s).boot = s.boot := rfl
@[simp] theorem modCtl_saves (g : SlotKey) (f : Ctl → Ctl) (s : State) : (modCtl g f s).saves = s.saves := rfl
@[simp] theorem modCtl_linkClk (g : SlotKey) (f : Ctl → Ctl) (s : State) : (modCtl g f s).linkClk = s.linkClk := rfl
@[simp] theorem modCtl_lastAsid (g : SlotKey) (f : Ctl → Ctl) (s : State) : (modCtl g f s).lastAsid = s.lastAsid := rfl
@[simp] theorem modCtl_nextId (g : SlotKey) (f : Ctl → Ctl) (s : State) : (modCtl g f s).nextId = s.nextId := rfl
@[simp] theorem modCtl_tickNo (g : SlotKey) (f : Ctl → Ctl) (s : State) : (modCtl g f s).tickNo = s.tickNo := rfl
@[simp] theorem modCtl_switches (g : SlotKey) (f : Ctl → Ctl) (s : State) : (modCtl g f s).switches = s.switches := rfl
@[simp] theorem modCtl_agenda (g : SlotKey) (f : Ctl → Ctl) (s : State) : (modCtl g f s).agenda = s.agenda := rfl
@[simp] theorem modCtl_fly (g : SlotKey) (f : Ctl → Ctl) (s : State) : (modCtl g f s).fly = s.fly := rfl
@[simp] theorem modCtl_copies (g : SlotKey) (f : Ctl → Ctl) (s : State) : (modCtl g f s).copies = s.copies := rfl
@[simp] theorem modCtl_issue (g : SlotKey) (f : Ctl → Ctl) (s : State) : (modCtl g f s).issue = s.issue := rfl
@[simp] theorem modCtl_port (g : SlotKey) (f : Ctl → Ctl) (s : State) : (modCtl g f s).port = s.port := rfl
@[simp] theorem modCtl_fresh (g : SlotKey) (f : Ctl → Ctl) (s : State) : (modCtl g f s).fresh = s.fresh := rfl
@[simp] theorem modCtl_time (g : SlotKey) (f : Ctl → Ctl) (s : State) : (modCtl g f s).time = s.time := rfl
@[simp] theorem modCtl_turn (g : SlotKey) (f : Ctl → Ctl) (s : State) : (modCtl g f s).turn = s.turn := rfl
@[simp] theorem coreAt_modCtl (g : SlotKey) (f : Ctl → Ctl) (s : State) (k : CoreKey) : coreAt (modCtl g f s) k = coreAt s k := coreAt_congr (by simp) k
@[simp] theorem cellAt_modCtl (g : SlotKey) (f : Ctl → Ctl) (s : State) (k : CellKey) : cellAt (modCtl g f s) k = cellAt s k := cellAt_congr (by simp) k
@[simp] theorem ctxAt_modCtl (g : SlotKey) (f : Ctl → Ctl) (s : State) (k : Nat) : ctxAt (modCtl g f s) k = ctxAt s k := ctxAt_congr (by simp) k

/-! ### modCore -/

@[simp] theorem modCore_slots (c : CoreKey) (f : Core → Core) (s : State) : (modCore c f s).slots = s.slots := rfl
@[simp] theorem modCore_cells (c : CoreKey) (f : Core → Core) (s : State) : (modCore c f s).cells = s.cells := rfl
@[simp] theorem modCore_fwin (c : CoreKey) (f : Core → Core) (s : State) : (modCore c f s).fwin = s.fwin := rfl
@[simp] theorem modCore_ctxs (c : CoreKey) (f : Core → Core) (s : State) : (modCore c f s).ctxs = s.ctxs := rfl
@[simp] theorem modCore_grids (c : CoreKey) (f : Core → Core) (s : State) : (modCore c f s).grids = s.grids := rfl
@[simp] theorem modCore_mem (c : CoreKey) (f : Core → Core) (s : State) : (modCore c f s).mem = s.mem := rfl
@[simp] theorem modCore_net (c : CoreKey) (f : Core → Core) (s : State) : (modCore c f s).net = s.net := rfl
@[simp] theorem modCore_pages (c : CoreKey) (f : Core → Core) (s : State) : (modCore c f s).pages = s.pages := rfl
@[simp] theorem modCore_gens (c : CoreKey) (f : Core → Core) (s : State) : (modCore c f s).gens = s.gens := rfl
@[simp] theorem modCore_tokens (c : CoreKey) (f : Core → Core) (s : State) : (modCore c f s).tokens = s.tokens := rfl
@[simp] theorem modCore_boot (c : CoreKey) (f : Core → Core) (s : State) : (modCore c f s).boot = s.boot := rfl
@[simp] theorem modCore_saves (c : CoreKey) (f : Core → Core) (s : State) : (modCore c f s).saves = s.saves := rfl
@[simp] theorem modCore_linkClk (c : CoreKey) (f : Core → Core) (s : State) : (modCore c f s).linkClk = s.linkClk := rfl
@[simp] theorem modCore_lastAsid (c : CoreKey) (f : Core → Core) (s : State) : (modCore c f s).lastAsid = s.lastAsid := rfl
@[simp] theorem modCore_nextId (c : CoreKey) (f : Core → Core) (s : State) : (modCore c f s).nextId = s.nextId := rfl
@[simp] theorem modCore_tickNo (c : CoreKey) (f : Core → Core) (s : State) : (modCore c f s).tickNo = s.tickNo := rfl
@[simp] theorem modCore_switches (c : CoreKey) (f : Core → Core) (s : State) : (modCore c f s).switches = s.switches := rfl
@[simp] theorem modCore_agenda (c : CoreKey) (f : Core → Core) (s : State) : (modCore c f s).agenda = s.agenda := rfl
@[simp] theorem modCore_fly (c : CoreKey) (f : Core → Core) (s : State) : (modCore c f s).fly = s.fly := rfl
@[simp] theorem modCore_copies (c : CoreKey) (f : Core → Core) (s : State) : (modCore c f s).copies = s.copies := rfl
@[simp] theorem modCore_issue (c : CoreKey) (f : Core → Core) (s : State) : (modCore c f s).issue = s.issue := rfl
@[simp] theorem modCore_port (c : CoreKey) (f : Core → Core) (s : State) : (modCore c f s).port = s.port := rfl
@[simp] theorem modCore_fresh (c : CoreKey) (f : Core → Core) (s : State) : (modCore c f s).fresh = s.fresh := rfl
@[simp] theorem modCore_time (c : CoreKey) (f : Core → Core) (s : State) : (modCore c f s).time = s.time := rfl
@[simp] theorem modCore_turn (c : CoreKey) (f : Core → Core) (s : State) : (modCore c f s).turn = s.turn := rfl
@[simp] theorem slotAt_modCore (c : CoreKey) (f : Core → Core) (s : State) (h : SlotKey) : slotAt (modCore c f s) h = slotAt s h := slotAt_congr (by simp) h
@[simp] theorem cellAt_modCore (c : CoreKey) (f : Core → Core) (s : State) (k : CellKey) : cellAt (modCore c f s) k = cellAt s k := cellAt_congr (by simp) k
@[simp] theorem ctxAt_modCore (c : CoreKey) (f : Core → Core) (s : State) (k : Nat) : ctxAt (modCore c f s) k = ctxAt s k := ctxAt_congr (by simp) k

/-! ### modCell -/

@[simp] theorem modCell_slots (c : CellKey) (f : Cell → Cell) (s : State) : (modCell c f s).slots = s.slots := rfl
@[simp] theorem modCell_cores (c : CellKey) (f : Cell → Cell) (s : State) : (modCell c f s).cores = s.cores := rfl
@[simp] theorem modCell_fwin (c : CellKey) (f : Cell → Cell) (s : State) : (modCell c f s).fwin = s.fwin := rfl
@[simp] theorem modCell_ctxs (c : CellKey) (f : Cell → Cell) (s : State) : (modCell c f s).ctxs = s.ctxs := rfl
@[simp] theorem modCell_grids (c : CellKey) (f : Cell → Cell) (s : State) : (modCell c f s).grids = s.grids := rfl
@[simp] theorem modCell_mem (c : CellKey) (f : Cell → Cell) (s : State) : (modCell c f s).mem = s.mem := rfl
@[simp] theorem modCell_net (c : CellKey) (f : Cell → Cell) (s : State) : (modCell c f s).net = s.net := rfl
@[simp] theorem modCell_pages (c : CellKey) (f : Cell → Cell) (s : State) : (modCell c f s).pages = s.pages := rfl
@[simp] theorem modCell_gens (c : CellKey) (f : Cell → Cell) (s : State) : (modCell c f s).gens = s.gens := rfl
@[simp] theorem modCell_tokens (c : CellKey) (f : Cell → Cell) (s : State) : (modCell c f s).tokens = s.tokens := rfl
@[simp] theorem modCell_boot (c : CellKey) (f : Cell → Cell) (s : State) : (modCell c f s).boot = s.boot := rfl
@[simp] theorem modCell_saves (c : CellKey) (f : Cell → Cell) (s : State) : (modCell c f s).saves = s.saves := rfl
@[simp] theorem modCell_linkClk (c : CellKey) (f : Cell → Cell) (s : State) : (modCell c f s).linkClk = s.linkClk := rfl
@[simp] theorem modCell_lastAsid (c : CellKey) (f : Cell → Cell) (s : State) : (modCell c f s).lastAsid = s.lastAsid := rfl
@[simp] theorem modCell_nextId (c : CellKey) (f : Cell → Cell) (s : State) : (modCell c f s).nextId = s.nextId := rfl
@[simp] theorem modCell_tickNo (c : CellKey) (f : Cell → Cell) (s : State) : (modCell c f s).tickNo = s.tickNo := rfl
@[simp] theorem modCell_switches (c : CellKey) (f : Cell → Cell) (s : State) : (modCell c f s).switches = s.switches := rfl
@[simp] theorem modCell_agenda (c : CellKey) (f : Cell → Cell) (s : State) : (modCell c f s).agenda = s.agenda := rfl
@[simp] theorem modCell_fly (c : CellKey) (f : Cell → Cell) (s : State) : (modCell c f s).fly = s.fly := rfl
@[simp] theorem modCell_copies (c : CellKey) (f : Cell → Cell) (s : State) : (modCell c f s).copies = s.copies := rfl
@[simp] theorem modCell_issue (c : CellKey) (f : Cell → Cell) (s : State) : (modCell c f s).issue = s.issue := rfl
@[simp] theorem modCell_port (c : CellKey) (f : Cell → Cell) (s : State) : (modCell c f s).port = s.port := rfl
@[simp] theorem modCell_fresh (c : CellKey) (f : Cell → Cell) (s : State) : (modCell c f s).fresh = s.fresh := rfl
@[simp] theorem modCell_time (c : CellKey) (f : Cell → Cell) (s : State) : (modCell c f s).time = s.time := rfl
@[simp] theorem modCell_turn (c : CellKey) (f : Cell → Cell) (s : State) : (modCell c f s).turn = s.turn := rfl
@[simp] theorem slotAt_modCell (c : CellKey) (f : Cell → Cell) (s : State) (h : SlotKey) : slotAt (modCell c f s) h = slotAt s h := slotAt_congr (by simp) h
@[simp] theorem coreAt_modCell (c : CellKey) (f : Cell → Cell) (s : State) (k : CoreKey) : coreAt (modCell c f s) k = coreAt s k := coreAt_congr (by simp) k
@[simp] theorem ctxAt_modCell (c : CellKey) (f : Cell → Cell) (s : State) (k : Nat) : ctxAt (modCell c f s) k = ctxAt s k := ctxAt_congr (by simp) k

/-! ### send -/

@[simp] theorem send_slots (m : Msg) (s : State) : (send m s).slots = s.slots := rfl
@[simp] theorem send_cores (m : Msg) (s : State) : (send m s).cores = s.cores := rfl
@[simp] theorem send_cells (m : Msg) (s : State) : (send m s).cells = s.cells := rfl
@[simp] theorem send_fwin (m : Msg) (s : State) : (send m s).fwin = s.fwin := rfl
@[simp] theorem send_ctxs (m : Msg) (s : State) : (send m s).ctxs = s.ctxs := rfl
@[simp] theorem send_grids (m : Msg) (s : State) : (send m s).grids = s.grids := rfl
@[simp] theorem send_mem (m : Msg) (s : State) : (send m s).mem = s.mem := rfl
@[simp] theorem send_pages (m : Msg) (s : State) : (send m s).pages = s.pages := rfl
@[simp] theorem send_gens (m : Msg) (s : State) : (send m s).gens = s.gens := rfl
@[simp] theorem send_tokens (m : Msg) (s : State) : (send m s).tokens = s.tokens := rfl
@[simp] theorem send_boot (m : Msg) (s : State) : (send m s).boot = s.boot := rfl
@[simp] theorem send_saves (m : Msg) (s : State) : (send m s).saves = s.saves := rfl
@[simp] theorem send_linkClk (m : Msg) (s : State) : (send m s).linkClk = s.linkClk := rfl
@[simp] theorem send_lastAsid (m : Msg) (s : State) : (send m s).lastAsid = s.lastAsid := rfl
@[simp] theorem send_tickNo (m : Msg) (s : State) : (send m s).tickNo = s.tickNo := rfl
@[simp] theorem send_switches (m : Msg) (s : State) : (send m s).switches = s.switches := rfl
@[simp] theorem send_agenda (m : Msg) (s : State) : (send m s).agenda = s.agenda := rfl
@[simp] theorem send_fly (m : Msg) (s : State) : (send m s).fly = s.fly := rfl
@[simp] theorem send_copies (m : Msg) (s : State) : (send m s).copies = s.copies := rfl
@[simp] theorem send_issue (m : Msg) (s : State) : (send m s).issue = s.issue := rfl
@[simp] theorem send_port (m : Msg) (s : State) : (send m s).port = s.port := rfl
@[simp] theorem send_fresh (m : Msg) (s : State) : (send m s).fresh = s.fresh := rfl
@[simp] theorem send_time (m : Msg) (s : State) : (send m s).time = s.time := rfl
@[simp] theorem send_turn (m : Msg) (s : State) : (send m s).turn = s.turn := rfl
@[simp] theorem slotAt_send (m : Msg) (s : State) (h : SlotKey) : slotAt (send m s) h = slotAt s h := slotAt_congr (by simp) h
@[simp] theorem coreAt_send (m : Msg) (s : State) (k : CoreKey) : coreAt (send m s) k = coreAt s k := coreAt_congr (by simp) k
@[simp] theorem cellAt_send (m : Msg) (s : State) (k : CellKey) : cellAt (send m s) k = cellAt s k := cellAt_congr (by simp) k
@[simp] theorem ctxAt_send (m : Msg) (s : State) (k : Nat) : ctxAt (send m s) k = ctxAt s k := ctxAt_congr (by simp) k

/-! ### took -/

@[simp] theorem took_slots (k : Nat) (s : State) : (took k s).slots = s.slots := rfl
@[simp] theorem took_cores (k : Nat) (s : State) : (took k s).cores = s.cores := rfl
@[simp] theorem took_cells (k : Nat) (s : State) : (took k s).cells = s.cells := rfl
@[simp] theorem took_fwin (k : Nat) (s : State) : (took k s).fwin = s.fwin := rfl
@[simp] theorem took_ctxs (k : Nat) (s : State) : (took k s).ctxs = s.ctxs := rfl
@[simp] theorem took_grids (k : Nat) (s : State) : (took k s).grids = s.grids := rfl
@[simp] theorem took_mem (k : Nat) (s : State) : (took k s).mem = s.mem := rfl
@[simp] theorem took_pages (k : Nat) (s : State) : (took k s).pages = s.pages := rfl
@[simp] theorem took_gens (k : Nat) (s : State) : (took k s).gens = s.gens := rfl
@[simp] theorem took_tokens (k : Nat) (s : State) : (took k s).tokens = s.tokens := rfl
@[simp] theorem took_boot (k : Nat) (s : State) : (took k s).boot = s.boot := rfl
@[simp] theorem took_saves (k : Nat) (s : State) : (took k s).saves = s.saves := rfl
@[simp] theorem took_linkClk (k : Nat) (s : State) : (took k s).linkClk = s.linkClk := rfl
@[simp] theorem took_lastAsid (k : Nat) (s : State) : (took k s).lastAsid = s.lastAsid := rfl
@[simp] theorem took_nextId (k : Nat) (s : State) : (took k s).nextId = s.nextId := rfl
@[simp] theorem took_tickNo (k : Nat) (s : State) : (took k s).tickNo = s.tickNo := rfl
@[simp] theorem took_switches (k : Nat) (s : State) : (took k s).switches = s.switches := rfl
@[simp] theorem took_agenda (k : Nat) (s : State) : (took k s).agenda = s.agenda := rfl
@[simp] theorem took_fly (k : Nat) (s : State) : (took k s).fly = s.fly := rfl
@[simp] theorem took_copies (k : Nat) (s : State) : (took k s).copies = s.copies := rfl
@[simp] theorem took_issue (k : Nat) (s : State) : (took k s).issue = s.issue := rfl
@[simp] theorem took_port (k : Nat) (s : State) : (took k s).port = s.port := rfl
@[simp] theorem took_fresh (k : Nat) (s : State) : (took k s).fresh = s.fresh := rfl
@[simp] theorem took_time (k : Nat) (s : State) : (took k s).time = s.time := rfl
@[simp] theorem took_turn (k : Nat) (s : State) : (took k s).turn = s.turn := rfl
@[simp] theorem slotAt_took (k : Nat) (s : State) (h : SlotKey) : slotAt (took k s) h = slotAt s h := slotAt_congr (by simp) h
@[simp] theorem coreAt_took (j : Nat) (s : State) (k : CoreKey) : coreAt (took j s) k = coreAt s k := coreAt_congr (by simp) k
@[simp] theorem cellAt_took (j : Nat) (s : State) (k : CellKey) : cellAt (took j s) k = cellAt s k := cellAt_congr (by simp) k
@[simp] theorem ctxAt_took (j : Nat) (s : State) (k : Nat) : ctxAt (took j s) k = ctxAt s k := ctxAt_congr (by simp) k

/-! ### setStamps -/

@[simp] theorem setStamps_slots (l : Nat) (x : Nat × Nat) (s : State) : (setStamps l x s).slots = s.slots := rfl
@[simp] theorem setStamps_cores (l : Nat) (x : Nat × Nat) (s : State) : (setStamps l x s).cores = s.cores := rfl
@[simp] theorem setStamps_cells (l : Nat) (x : Nat × Nat) (s : State) : (setStamps l x s).cells = s.cells := rfl
@[simp] theorem setStamps_fwin (l : Nat) (x : Nat × Nat) (s : State) : (setStamps l x s).fwin = s.fwin := rfl
@[simp] theorem setStamps_ctxs (l : Nat) (x : Nat × Nat) (s : State) : (setStamps l x s).ctxs = s.ctxs := rfl
@[simp] theorem setStamps_grids (l : Nat) (x : Nat × Nat) (s : State) : (setStamps l x s).grids = s.grids := rfl
@[simp] theorem setStamps_net (l : Nat) (x : Nat × Nat) (s : State) : (setStamps l x s).net = s.net := rfl
@[simp] theorem setStamps_pages (l : Nat) (x : Nat × Nat) (s : State) : (setStamps l x s).pages = s.pages := rfl
@[simp] theorem setStamps_gens (l : Nat) (x : Nat × Nat) (s : State) : (setStamps l x s).gens = s.gens := rfl
@[simp] theorem setStamps_tokens (l : Nat) (x : Nat × Nat) (s : State) : (setStamps l x s).tokens = s.tokens := rfl
@[simp] theorem setStamps_boot (l : Nat) (x : Nat × Nat) (s : State) : (setStamps l x s).boot = s.boot := rfl
@[simp] theorem setStamps_saves (l : Nat) (x : Nat × Nat) (s : State) : (setStamps l x s).saves = s.saves := rfl
@[simp] theorem setStamps_linkClk (l : Nat) (x : Nat × Nat) (s : State) : (setStamps l x s).linkClk = s.linkClk := rfl
@[simp] theorem setStamps_lastAsid (l : Nat) (x : Nat × Nat) (s : State) : (setStamps l x s).lastAsid = s.lastAsid := rfl
@[simp] theorem setStamps_nextId (l : Nat) (x : Nat × Nat) (s : State) : (setStamps l x s).nextId = s.nextId := rfl
@[simp] theorem setStamps_tickNo (l : Nat) (x : Nat × Nat) (s : State) : (setStamps l x s).tickNo = s.tickNo := rfl
@[simp] theorem setStamps_switches (l : Nat) (x : Nat × Nat) (s : State) : (setStamps l x s).switches = s.switches := rfl
@[simp] theorem setStamps_agenda (l : Nat) (x : Nat × Nat) (s : State) : (setStamps l x s).agenda = s.agenda := rfl
@[simp] theorem setStamps_fly (l : Nat) (x : Nat × Nat) (s : State) : (setStamps l x s).fly = s.fly := rfl
@[simp] theorem setStamps_copies (l : Nat) (x : Nat × Nat) (s : State) : (setStamps l x s).copies = s.copies := rfl
@[simp] theorem setStamps_issue (l : Nat) (x : Nat × Nat) (s : State) : (setStamps l x s).issue = s.issue := rfl
@[simp] theorem setStamps_port (l : Nat) (x : Nat × Nat) (s : State) : (setStamps l x s).port = s.port := rfl
@[simp] theorem setStamps_fresh (l : Nat) (x : Nat × Nat) (s : State) : (setStamps l x s).fresh = s.fresh := rfl
@[simp] theorem setStamps_time (l : Nat) (x : Nat × Nat) (s : State) : (setStamps l x s).time = s.time := rfl
@[simp] theorem setStamps_turn (l : Nat) (x : Nat × Nat) (s : State) : (setStamps l x s).turn = s.turn := rfl
@[simp] theorem slotAt_setStamps (l : Nat) (x : Nat × Nat) (s : State) (h : SlotKey) : slotAt (setStamps l x s) h = slotAt s h := slotAt_congr (by simp) h
@[simp] theorem coreAt_setStamps (l : Nat) (x : Nat × Nat) (s : State) (k : CoreKey) : coreAt (setStamps l x s) k = coreAt s k := coreAt_congr (by simp) k
@[simp] theorem cellAt_setStamps (l : Nat) (x : Nat × Nat) (s : State) (k : CellKey) : cellAt (setStamps l x s) k = cellAt s k := cellAt_congr (by simp) k
@[simp] theorem ctxAt_setStamps (l : Nat) (x : Nat × Nat) (s : State) (k : Nat) : ctxAt (setStamps l x s) k = ctxAt s k := ctxAt_congr (by simp) k

/-! ### raiseClock -/

@[simp] theorem raiseClock_cores (g : SlotKey) (c : Nat) (s : State) : (raiseClock g c s).cores = s.cores := rfl
@[simp] theorem raiseClock_cells (g : SlotKey) (c : Nat) (s : State) : (raiseClock g c s).cells = s.cells := rfl
@[simp] theorem raiseClock_fwin (g : SlotKey) (c : Nat) (s : State) : (raiseClock g c s).fwin = s.fwin := rfl
@[simp] theorem raiseClock_ctxs (g : SlotKey) (c : Nat) (s : State) : (raiseClock g c s).ctxs = s.ctxs := rfl
@[simp] theorem raiseClock_grids (g : SlotKey) (c : Nat) (s : State) : (raiseClock g c s).grids = s.grids := rfl
@[simp] theorem raiseClock_mem (g : SlotKey) (c : Nat) (s : State) : (raiseClock g c s).mem = s.mem := rfl
@[simp] theorem raiseClock_net (g : SlotKey) (c : Nat) (s : State) : (raiseClock g c s).net = s.net := rfl
@[simp] theorem raiseClock_pages (g : SlotKey) (c : Nat) (s : State) : (raiseClock g c s).pages = s.pages := rfl
@[simp] theorem raiseClock_gens (g : SlotKey) (c : Nat) (s : State) : (raiseClock g c s).gens = s.gens := rfl
@[simp] theorem raiseClock_tokens (g : SlotKey) (c : Nat) (s : State) : (raiseClock g c s).tokens = s.tokens := rfl
@[simp] theorem raiseClock_boot (g : SlotKey) (c : Nat) (s : State) : (raiseClock g c s).boot = s.boot := rfl
@[simp] theorem raiseClock_saves (g : SlotKey) (c : Nat) (s : State) : (raiseClock g c s).saves = s.saves := rfl
@[simp] theorem raiseClock_linkClk (g : SlotKey) (c : Nat) (s : State) : (raiseClock g c s).linkClk = s.linkClk := rfl
@[simp] theorem raiseClock_lastAsid (g : SlotKey) (c : Nat) (s : State) : (raiseClock g c s).lastAsid = s.lastAsid := rfl
@[simp] theorem raiseClock_nextId (g : SlotKey) (c : Nat) (s : State) : (raiseClock g c s).nextId = s.nextId := rfl
@[simp] theorem raiseClock_tickNo (g : SlotKey) (c : Nat) (s : State) : (raiseClock g c s).tickNo = s.tickNo := rfl
@[simp] theorem raiseClock_switches (g : SlotKey) (c : Nat) (s : State) : (raiseClock g c s).switches = s.switches := rfl
@[simp] theorem raiseClock_agenda (g : SlotKey) (c : Nat) (s : State) : (raiseClock g c s).agenda = s.agenda := rfl
@[simp] theorem raiseClock_fly (g : SlotKey) (c : Nat) (s : State) : (raiseClock g c s).fly = s.fly := rfl
@[simp] theorem raiseClock_copies (g : SlotKey) (c : Nat) (s : State) : (raiseClock g c s).copies = s.copies := rfl
@[simp] theorem raiseClock_issue (g : SlotKey) (c : Nat) (s : State) : (raiseClock g c s).issue = s.issue := rfl
@[simp] theorem raiseClock_port (g : SlotKey) (c : Nat) (s : State) : (raiseClock g c s).port = s.port := rfl
@[simp] theorem raiseClock_fresh (g : SlotKey) (c : Nat) (s : State) : (raiseClock g c s).fresh = s.fresh := rfl
@[simp] theorem raiseClock_time (g : SlotKey) (c : Nat) (s : State) : (raiseClock g c s).time = s.time := rfl
@[simp] theorem raiseClock_turn (g : SlotKey) (c : Nat) (s : State) : (raiseClock g c s).turn = s.turn := rfl
@[simp] theorem coreAt_raiseClock (g : SlotKey) (c : Nat) (s : State) (k : CoreKey) : coreAt (raiseClock g c s) k = coreAt s k := coreAt_congr (by simp) k
@[simp] theorem cellAt_raiseClock (g : SlotKey) (c : Nat) (s : State) (k : CellKey) : cellAt (raiseClock g c s) k = cellAt s k := cellAt_congr (by simp) k
@[simp] theorem ctxAt_raiseClock (g : SlotKey) (c : Nat) (s : State) (k : Nat) : ctxAt (raiseClock g c s) k = ctxAt s k := ctxAt_congr (by simp) k

/-! ### modCtx -/

@[simp] theorem modCtx_slots (a : Nat) (f : Ctx → Ctx) (s : State) : (modCtx a f s).slots = s.slots := by unfold modCtx; split <;> rfl
@[simp] theorem modCtx_cores (a : Nat) (f : Ctx → Ctx) (s : State) : (modCtx a f s).cores = s.cores := by unfold modCtx; split <;> rfl
@[simp] theorem modCtx_cells (a : Nat) (f : Ctx → Ctx) (s : State) : (modCtx a f s).cells = s.cells := by unfold modCtx; split <;> rfl
@[simp] theorem modCtx_fwin (a : Nat) (f : Ctx → Ctx) (s : State) : (modCtx a f s).fwin = s.fwin := by unfold modCtx; split <;> rfl
@[simp] theorem modCtx_grids (a : Nat) (f : Ctx → Ctx) (s : State) : (modCtx a f s).grids = s.grids := by unfold modCtx; split <;> rfl
@[simp] theorem modCtx_mem (a : Nat) (f : Ctx → Ctx) (s : State) : (modCtx a f s).mem = s.mem := by unfold modCtx; split <;> rfl
@[simp] theorem modCtx_net (a : Nat) (f : Ctx → Ctx) (s : State) : (modCtx a f s).net = s.net := by unfold modCtx; split <;> rfl
@[simp] theorem modCtx_pages (a : Nat) (f : Ctx → Ctx) (s : State) : (modCtx a f s).pages = s.pages := by unfold modCtx; split <;> rfl
@[simp] theorem modCtx_gens (a : Nat) (f : Ctx → Ctx) (s : State) : (modCtx a f s).gens = s.gens := by unfold modCtx; split <;> rfl
@[simp] theorem modCtx_tokens (a : Nat) (f : Ctx → Ctx) (s : State) : (modCtx a f s).tokens = s.tokens := by unfold modCtx; split <;> rfl
@[simp] theorem modCtx_boot (a : Nat) (f : Ctx → Ctx) (s : State) : (modCtx a f s).boot = s.boot := by unfold modCtx; split <;> rfl
@[simp] theorem modCtx_saves (a : Nat) (f : Ctx → Ctx) (s : State) : (modCtx a f s).saves = s.saves := by unfold modCtx; split <;> rfl
@[simp] theorem modCtx_linkClk (a : Nat) (f : Ctx → Ctx) (s : State) : (modCtx a f s).linkClk = s.linkClk := by unfold modCtx; split <;> rfl
@[simp] theorem modCtx_lastAsid (a : Nat) (f : Ctx → Ctx) (s : State) : (modCtx a f s).lastAsid = s.lastAsid := by unfold modCtx; split <;> rfl
@[simp] theorem modCtx_nextId (a : Nat) (f : Ctx → Ctx) (s : State) : (modCtx a f s).nextId = s.nextId := by unfold modCtx; split <;> rfl
@[simp] theorem modCtx_tickNo (a : Nat) (f : Ctx → Ctx) (s : State) : (modCtx a f s).tickNo = s.tickNo := by unfold modCtx; split <;> rfl
@[simp] theorem modCtx_switches (a : Nat) (f : Ctx → Ctx) (s : State) : (modCtx a f s).switches = s.switches := by unfold modCtx; split <;> rfl
@[simp] theorem modCtx_agenda (a : Nat) (f : Ctx → Ctx) (s : State) : (modCtx a f s).agenda = s.agenda := by unfold modCtx; split <;> rfl
@[simp] theorem modCtx_fly (a : Nat) (f : Ctx → Ctx) (s : State) : (modCtx a f s).fly = s.fly := by unfold modCtx; split <;> rfl
@[simp] theorem modCtx_copies (a : Nat) (f : Ctx → Ctx) (s : State) : (modCtx a f s).copies = s.copies := by unfold modCtx; split <;> rfl
@[simp] theorem modCtx_issue (a : Nat) (f : Ctx → Ctx) (s : State) : (modCtx a f s).issue = s.issue := by unfold modCtx; split <;> rfl
@[simp] theorem modCtx_port (a : Nat) (f : Ctx → Ctx) (s : State) : (modCtx a f s).port = s.port := by unfold modCtx; split <;> rfl
@[simp] theorem modCtx_fresh (a : Nat) (f : Ctx → Ctx) (s : State) : (modCtx a f s).fresh = s.fresh := by unfold modCtx; split <;> rfl
@[simp] theorem modCtx_time (a : Nat) (f : Ctx → Ctx) (s : State) : (modCtx a f s).time = s.time := by unfold modCtx; split <;> rfl
@[simp] theorem modCtx_turn (a : Nat) (f : Ctx → Ctx) (s : State) : (modCtx a f s).turn = s.turn := by unfold modCtx; split <;> rfl
@[simp] theorem slotAt_modCtx (a : Nat) (f : Ctx → Ctx) (s : State) (h : SlotKey) : slotAt (modCtx a f s) h = slotAt s h := slotAt_congr (by simp) h
@[simp] theorem coreAt_modCtx (a : Nat) (f : Ctx → Ctx) (s : State) (k : CoreKey) : coreAt (modCtx a f s) k = coreAt s k := coreAt_congr (by simp) k
@[simp] theorem cellAt_modCtx (a : Nat) (f : Ctx → Ctx) (s : State) (k : CellKey) : cellAt (modCtx a f s) k = cellAt s k := cellAt_congr (by simp) k

/-! ### modGrid -/

@[simp] theorem modGrid_slots (k : Nat) (f : Grid → Grid) (s : State) : (modGrid k f s).slots = s.slots := by unfold modGrid; split <;> rfl
@[simp] theorem modGrid_cores (k : Nat) (f : Grid → Grid) (s : State) : (modGrid k f s).cores = s.cores := by unfold modGrid; split <;> rfl
@[simp] theorem modGrid_cells (k : Nat) (f : Grid → Grid) (s : State) : (modGrid k f s).cells = s.cells := by unfold modGrid; split <;> rfl
@[simp] theorem modGrid_fwin (k : Nat) (f : Grid → Grid) (s : State) : (modGrid k f s).fwin = s.fwin := by unfold modGrid; split <;> rfl
@[simp] theorem modGrid_ctxs (k : Nat) (f : Grid → Grid) (s : State) : (modGrid k f s).ctxs = s.ctxs := by unfold modGrid; split <;> rfl
@[simp] theorem modGrid_mem (k : Nat) (f : Grid → Grid) (s : State) : (modGrid k f s).mem = s.mem := by unfold modGrid; split <;> rfl
@[simp] theorem modGrid_net (k : Nat) (f : Grid → Grid) (s : State) : (modGrid k f s).net = s.net := by unfold modGrid; split <;> rfl
@[simp] theorem modGrid_pages (k : Nat) (f : Grid → Grid) (s : State) : (modGrid k f s).pages = s.pages := by unfold modGrid; split <;> rfl
@[simp] theorem modGrid_gens (k : Nat) (f : Grid → Grid) (s : State) : (modGrid k f s).gens = s.gens := by unfold modGrid; split <;> rfl
@[simp] theorem modGrid_tokens (k : Nat) (f : Grid → Grid) (s : State) : (modGrid k f s).tokens = s.tokens := by unfold modGrid; split <;> rfl
@[simp] theorem modGrid_boot (k : Nat) (f : Grid → Grid) (s : State) : (modGrid k f s).boot = s.boot := by unfold modGrid; split <;> rfl
@[simp] theorem modGrid_saves (k : Nat) (f : Grid → Grid) (s : State) : (modGrid k f s).saves = s.saves := by unfold modGrid; split <;> rfl
@[simp] theorem modGrid_linkClk (k : Nat) (f : Grid → Grid) (s : State) : (modGrid k f s).linkClk = s.linkClk := by unfold modGrid; split <;> rfl
@[simp] theorem modGrid_lastAsid (k : Nat) (f : Grid → Grid) (s : State) : (modGrid k f s).lastAsid = s.lastAsid := by unfold modGrid; split <;> rfl
@[simp] theorem modGrid_nextId (k : Nat) (f : Grid → Grid) (s : State) : (modGrid k f s).nextId = s.nextId := by unfold modGrid; split <;> rfl
@[simp] theorem modGrid_tickNo (k : Nat) (f : Grid → Grid) (s : State) : (modGrid k f s).tickNo = s.tickNo := by unfold modGrid; split <;> rfl
@[simp] theorem modGrid_switches (k : Nat) (f : Grid → Grid) (s : State) : (modGrid k f s).switches = s.switches := by unfold modGrid; split <;> rfl
@[simp] theorem modGrid_agenda (k : Nat) (f : Grid → Grid) (s : State) : (modGrid k f s).agenda = s.agenda := by unfold modGrid; split <;> rfl
@[simp] theorem modGrid_fly (k : Nat) (f : Grid → Grid) (s : State) : (modGrid k f s).fly = s.fly := by unfold modGrid; split <;> rfl
@[simp] theorem modGrid_copies (k : Nat) (f : Grid → Grid) (s : State) : (modGrid k f s).copies = s.copies := by unfold modGrid; split <;> rfl
@[simp] theorem modGrid_issue (k : Nat) (f : Grid → Grid) (s : State) : (modGrid k f s).issue = s.issue := by unfold modGrid; split <;> rfl
@[simp] theorem modGrid_port (k : Nat) (f : Grid → Grid) (s : State) : (modGrid k f s).port = s.port := by unfold modGrid; split <;> rfl
@[simp] theorem modGrid_fresh (k : Nat) (f : Grid → Grid) (s : State) : (modGrid k f s).fresh = s.fresh := by unfold modGrid; split <;> rfl
@[simp] theorem modGrid_time (k : Nat) (f : Grid → Grid) (s : State) : (modGrid k f s).time = s.time := by unfold modGrid; split <;> rfl
@[simp] theorem modGrid_turn (k : Nat) (f : Grid → Grid) (s : State) : (modGrid k f s).turn = s.turn := by unfold modGrid; split <;> rfl
@[simp] theorem slotAt_modGrid (k : Nat) (f : Grid → Grid) (s : State) (h : SlotKey) : slotAt (modGrid k f s) h = slotAt s h := slotAt_congr (by simp) h
@[simp] theorem coreAt_modGrid (j : Nat) (f : Grid → Grid) (s : State) (k : CoreKey) : coreAt (modGrid j f s) k = coreAt s k := coreAt_congr (by simp) k
@[simp] theorem cellAt_modGrid (j : Nat) (f : Grid → Grid) (s : State) (k : CellKey) : cellAt (modGrid j f s) k = cellAt s k := cellAt_congr (by simp) k
@[simp] theorem ctxAt_modGrid (j : Nat) (f : Grid → Grid) (s : State) (k : Nat) : ctxAt (modGrid j f s) k = ctxAt s k := ctxAt_congr (by simp) k

/-! ### advance -/

@[simp] theorem advance_cores (g : SlotKey) (s : State) : (advance g s).cores = s.cores := rfl
@[simp] theorem advance_cells (g : SlotKey) (s : State) : (advance g s).cells = s.cells := rfl
@[simp] theorem advance_fwin (g : SlotKey) (s : State) : (advance g s).fwin = s.fwin := rfl
@[simp] theorem advance_ctxs (g : SlotKey) (s : State) : (advance g s).ctxs = s.ctxs := rfl
@[simp] theorem advance_grids (g : SlotKey) (s : State) : (advance g s).grids = s.grids := rfl
@[simp] theorem advance_mem (g : SlotKey) (s : State) : (advance g s).mem = s.mem := rfl
@[simp] theorem advance_net (g : SlotKey) (s : State) : (advance g s).net = s.net := rfl
@[simp] theorem advance_pages (g : SlotKey) (s : State) : (advance g s).pages = s.pages := rfl
@[simp] theorem advance_gens (g : SlotKey) (s : State) : (advance g s).gens = s.gens := rfl
@[simp] theorem advance_tokens (g : SlotKey) (s : State) : (advance g s).tokens = s.tokens := rfl
@[simp] theorem advance_boot (g : SlotKey) (s : State) : (advance g s).boot = s.boot := rfl
@[simp] theorem advance_saves (g : SlotKey) (s : State) : (advance g s).saves = s.saves := rfl
@[simp] theorem advance_linkClk (g : SlotKey) (s : State) : (advance g s).linkClk = s.linkClk := rfl
@[simp] theorem advance_lastAsid (g : SlotKey) (s : State) : (advance g s).lastAsid = s.lastAsid := rfl
@[simp] theorem advance_nextId (g : SlotKey) (s : State) : (advance g s).nextId = s.nextId := rfl
@[simp] theorem advance_tickNo (g : SlotKey) (s : State) : (advance g s).tickNo = s.tickNo := rfl
@[simp] theorem advance_switches (g : SlotKey) (s : State) : (advance g s).switches = s.switches := rfl
@[simp] theorem advance_agenda (g : SlotKey) (s : State) : (advance g s).agenda = s.agenda := rfl
@[simp] theorem advance_fly (g : SlotKey) (s : State) : (advance g s).fly = s.fly := rfl
@[simp] theorem advance_copies (g : SlotKey) (s : State) : (advance g s).copies = s.copies := rfl
@[simp] theorem advance_issue (g : SlotKey) (s : State) : (advance g s).issue = s.issue := rfl
@[simp] theorem advance_port (g : SlotKey) (s : State) : (advance g s).port = s.port := rfl
@[simp] theorem advance_fresh (g : SlotKey) (s : State) : (advance g s).fresh = s.fresh := rfl
@[simp] theorem advance_time (g : SlotKey) (s : State) : (advance g s).time = s.time := rfl
@[simp] theorem advance_turn (g : SlotKey) (s : State) : (advance g s).turn = s.turn := rfl
@[simp] theorem coreAt_advance (g : SlotKey) (s : State) (k : CoreKey) : coreAt (advance g s) k = coreAt s k := coreAt_congr (by simp) k
@[simp] theorem cellAt_advance (g : SlotKey) (s : State) (k : CellKey) : cellAt (advance g s) k = cellAt s k := cellAt_congr (by simp) k
@[simp] theorem ctxAt_advance (g : SlotKey) (s : State) (k : Nat) : ctxAt (advance g s) k = ctxAt s k := ctxAt_congr (by simp) k

/-! ### issued -/

@[simp] theorem issued_cores (g : SlotKey) (s : State) : (issued g s).cores = s.cores := rfl
@[simp] theorem issued_cells (g : SlotKey) (s : State) : (issued g s).cells = s.cells := rfl
@[simp] theorem issued_fwin (g : SlotKey) (s : State) : (issued g s).fwin = s.fwin := rfl
@[simp] theorem issued_ctxs (g : SlotKey) (s : State) : (issued g s).ctxs = s.ctxs := rfl
@[simp] theorem issued_grids (g : SlotKey) (s : State) : (issued g s).grids = s.grids := rfl
@[simp] theorem issued_mem (g : SlotKey) (s : State) : (issued g s).mem = s.mem := rfl
@[simp] theorem issued_net (g : SlotKey) (s : State) : (issued g s).net = s.net := rfl
@[simp] theorem issued_pages (g : SlotKey) (s : State) : (issued g s).pages = s.pages := rfl
@[simp] theorem issued_gens (g : SlotKey) (s : State) : (issued g s).gens = s.gens := rfl
@[simp] theorem issued_tokens (g : SlotKey) (s : State) : (issued g s).tokens = s.tokens := rfl
@[simp] theorem issued_boot (g : SlotKey) (s : State) : (issued g s).boot = s.boot := rfl
@[simp] theorem issued_saves (g : SlotKey) (s : State) : (issued g s).saves = s.saves := rfl
@[simp] theorem issued_linkClk (g : SlotKey) (s : State) : (issued g s).linkClk = s.linkClk := rfl
@[simp] theorem issued_lastAsid (g : SlotKey) (s : State) : (issued g s).lastAsid = s.lastAsid := rfl
@[simp] theorem issued_nextId (g : SlotKey) (s : State) : (issued g s).nextId = s.nextId := rfl
@[simp] theorem issued_tickNo (g : SlotKey) (s : State) : (issued g s).tickNo = s.tickNo := rfl
@[simp] theorem issued_switches (g : SlotKey) (s : State) : (issued g s).switches = s.switches := rfl
@[simp] theorem issued_agenda (g : SlotKey) (s : State) : (issued g s).agenda = s.agenda := rfl
@[simp] theorem issued_fly (g : SlotKey) (s : State) : (issued g s).fly = s.fly := rfl
@[simp] theorem issued_copies (g : SlotKey) (s : State) : (issued g s).copies = s.copies := rfl
@[simp] theorem issued_port (g : SlotKey) (s : State) : (issued g s).port = s.port := rfl
@[simp] theorem issued_fresh (g : SlotKey) (s : State) : (issued g s).fresh = s.fresh := rfl
@[simp] theorem issued_time (g : SlotKey) (s : State) : (issued g s).time = s.time := rfl
@[simp] theorem issued_turn (g : SlotKey) (s : State) : (issued g s).turn = s.turn := rfl
@[simp] theorem coreAt_issued (g : SlotKey) (s : State) (k : CoreKey) : coreAt (issued g s) k = coreAt s k := coreAt_congr (by simp) k
@[simp] theorem cellAt_issued (g : SlotKey) (s : State) (k : CellKey) : cellAt (issued g s) k = cellAt s k := cellAt_congr (by simp) k
@[simp] theorem ctxAt_issued (g : SlotKey) (s : State) (k : Nat) : ctxAt (issued g s) k = ctxAt s k := ctxAt_congr (by simp) k

/-! ### complete -/

@[simp] theorem complete_cores (g : SlotKey) (s : State) : (complete g s).cores = s.cores := rfl
@[simp] theorem complete_cells (g : SlotKey) (s : State) : (complete g s).cells = s.cells := rfl
@[simp] theorem complete_fwin (g : SlotKey) (s : State) : (complete g s).fwin = s.fwin := rfl
@[simp] theorem complete_ctxs (g : SlotKey) (s : State) : (complete g s).ctxs = s.ctxs := rfl
@[simp] theorem complete_grids (g : SlotKey) (s : State) : (complete g s).grids = s.grids := rfl
@[simp] theorem complete_mem (g : SlotKey) (s : State) : (complete g s).mem = s.mem := rfl
@[simp] theorem complete_net (g : SlotKey) (s : State) : (complete g s).net = s.net := rfl
@[simp] theorem complete_pages (g : SlotKey) (s : State) : (complete g s).pages = s.pages := rfl
@[simp] theorem complete_gens (g : SlotKey) (s : State) : (complete g s).gens = s.gens := rfl
@[simp] theorem complete_tokens (g : SlotKey) (s : State) : (complete g s).tokens = s.tokens := rfl
@[simp] theorem complete_boot (g : SlotKey) (s : State) : (complete g s).boot = s.boot := rfl
@[simp] theorem complete_saves (g : SlotKey) (s : State) : (complete g s).saves = s.saves := rfl
@[simp] theorem complete_linkClk (g : SlotKey) (s : State) : (complete g s).linkClk = s.linkClk := rfl
@[simp] theorem complete_lastAsid (g : SlotKey) (s : State) : (complete g s).lastAsid = s.lastAsid := rfl
@[simp] theorem complete_nextId (g : SlotKey) (s : State) : (complete g s).nextId = s.nextId := rfl
@[simp] theorem complete_tickNo (g : SlotKey) (s : State) : (complete g s).tickNo = s.tickNo := rfl
@[simp] theorem complete_switches (g : SlotKey) (s : State) : (complete g s).switches = s.switches := rfl
@[simp] theorem complete_agenda (g : SlotKey) (s : State) : (complete g s).agenda = s.agenda := rfl
@[simp] theorem complete_fly (g : SlotKey) (s : State) : (complete g s).fly = s.fly := rfl
@[simp] theorem complete_copies (g : SlotKey) (s : State) : (complete g s).copies = s.copies := rfl
@[simp] theorem complete_port (g : SlotKey) (s : State) : (complete g s).port = s.port := rfl
@[simp] theorem complete_fresh (g : SlotKey) (s : State) : (complete g s).fresh = s.fresh := rfl
@[simp] theorem complete_time (g : SlotKey) (s : State) : (complete g s).time = s.time := rfl
@[simp] theorem complete_turn (g : SlotKey) (s : State) : (complete g s).turn = s.turn := rfl
@[simp] theorem coreAt_complete (g : SlotKey) (s : State) (k : CoreKey) : coreAt (complete g s) k = coreAt s k := coreAt_congr (by simp) k
@[simp] theorem cellAt_complete (g : SlotKey) (s : State) (k : CellKey) : cellAt (complete g s) k = cellAt s k := cellAt_congr (by simp) k
@[simp] theorem ctxAt_complete (g : SlotKey) (s : State) (k : Nat) : ctxAt (complete g s) k = ctxAt s k := ctxAt_congr (by simp) k

/-! ### transfer -/

@[simp] theorem transfer_cores (g : SlotKey) (t : Word64) (s : State) : (transfer g t s).cores = s.cores := rfl
@[simp] theorem transfer_cells (g : SlotKey) (t : Word64) (s : State) : (transfer g t s).cells = s.cells := rfl
@[simp] theorem transfer_fwin (g : SlotKey) (t : Word64) (s : State) : (transfer g t s).fwin = s.fwin := rfl
@[simp] theorem transfer_ctxs (g : SlotKey) (t : Word64) (s : State) : (transfer g t s).ctxs = s.ctxs := rfl
@[simp] theorem transfer_grids (g : SlotKey) (t : Word64) (s : State) : (transfer g t s).grids = s.grids := rfl
@[simp] theorem transfer_mem (g : SlotKey) (t : Word64) (s : State) : (transfer g t s).mem = s.mem := rfl
@[simp] theorem transfer_net (g : SlotKey) (t : Word64) (s : State) : (transfer g t s).net = s.net := rfl
@[simp] theorem transfer_pages (g : SlotKey) (t : Word64) (s : State) : (transfer g t s).pages = s.pages := rfl
@[simp] theorem transfer_gens (g : SlotKey) (t : Word64) (s : State) : (transfer g t s).gens = s.gens := rfl
@[simp] theorem transfer_tokens (g : SlotKey) (t : Word64) (s : State) : (transfer g t s).tokens = s.tokens := rfl
@[simp] theorem transfer_boot (g : SlotKey) (t : Word64) (s : State) : (transfer g t s).boot = s.boot := rfl
@[simp] theorem transfer_saves (g : SlotKey) (t : Word64) (s : State) : (transfer g t s).saves = s.saves := rfl
@[simp] theorem transfer_linkClk (g : SlotKey) (t : Word64) (s : State) : (transfer g t s).linkClk = s.linkClk := rfl
@[simp] theorem transfer_lastAsid (g : SlotKey) (t : Word64) (s : State) : (transfer g t s).lastAsid = s.lastAsid := rfl
@[simp] theorem transfer_nextId (g : SlotKey) (t : Word64) (s : State) : (transfer g t s).nextId = s.nextId := rfl
@[simp] theorem transfer_tickNo (g : SlotKey) (t : Word64) (s : State) : (transfer g t s).tickNo = s.tickNo := rfl
@[simp] theorem transfer_switches (g : SlotKey) (t : Word64) (s : State) : (transfer g t s).switches = s.switches := rfl
@[simp] theorem transfer_agenda (g : SlotKey) (t : Word64) (s : State) : (transfer g t s).agenda = s.agenda := rfl
@[simp] theorem transfer_fly (g : SlotKey) (t : Word64) (s : State) : (transfer g t s).fly = s.fly := rfl
@[simp] theorem transfer_copies (g : SlotKey) (t : Word64) (s : State) : (transfer g t s).copies = s.copies := rfl
@[simp] theorem transfer_port (g : SlotKey) (t : Word64) (s : State) : (transfer g t s).port = s.port := rfl
@[simp] theorem transfer_fresh (g : SlotKey) (t : Word64) (s : State) : (transfer g t s).fresh = s.fresh := rfl
@[simp] theorem transfer_time (g : SlotKey) (t : Word64) (s : State) : (transfer g t s).time = s.time := rfl
@[simp] theorem transfer_turn (g : SlotKey) (t : Word64) (s : State) : (transfer g t s).turn = s.turn := rfl
@[simp] theorem coreAt_transfer (g : SlotKey) (t : Word64) (s : State) (k : CoreKey) : coreAt (transfer g t s) k = coreAt s k := coreAt_congr (by simp) k
@[simp] theorem cellAt_transfer (g : SlotKey) (t : Word64) (s : State) (k : CellKey) : cellAt (transfer g t s) k = cellAt s k := cellAt_congr (by simp) k
@[simp] theorem ctxAt_transfer (g : SlotKey) (t : Word64) (s : State) (k : Nat) : ctxAt (transfer g t s) k = ctxAt s k := ctxAt_congr (by simp) k

/-! ### park -/

@[simp] theorem park_cores (g : SlotKey) (w : Wait) (s : State) : (park g w s).cores = s.cores := rfl
@[simp] theorem park_cells (g : SlotKey) (w : Wait) (s : State) : (park g w s).cells = s.cells := rfl
@[simp] theorem park_fwin (g : SlotKey) (w : Wait) (s : State) : (park g w s).fwin = s.fwin := rfl
@[simp] theorem park_ctxs (g : SlotKey) (w : Wait) (s : State) : (park g w s).ctxs = s.ctxs := rfl
@[simp] theorem park_grids (g : SlotKey) (w : Wait) (s : State) : (park g w s).grids = s.grids := rfl
@[simp] theorem park_mem (g : SlotKey) (w : Wait) (s : State) : (park g w s).mem = s.mem := rfl
@[simp] theorem park_net (g : SlotKey) (w : Wait) (s : State) : (park g w s).net = s.net := rfl
@[simp] theorem park_pages (g : SlotKey) (w : Wait) (s : State) : (park g w s).pages = s.pages := rfl
@[simp] theorem park_gens (g : SlotKey) (w : Wait) (s : State) : (park g w s).gens = s.gens := rfl
@[simp] theorem park_tokens (g : SlotKey) (w : Wait) (s : State) : (park g w s).tokens = s.tokens := rfl
@[simp] theorem park_boot (g : SlotKey) (w : Wait) (s : State) : (park g w s).boot = s.boot := rfl
@[simp] theorem park_saves (g : SlotKey) (w : Wait) (s : State) : (park g w s).saves = s.saves := rfl
@[simp] theorem park_linkClk (g : SlotKey) (w : Wait) (s : State) : (park g w s).linkClk = s.linkClk := rfl
@[simp] theorem park_lastAsid (g : SlotKey) (w : Wait) (s : State) : (park g w s).lastAsid = s.lastAsid := rfl
@[simp] theorem park_nextId (g : SlotKey) (w : Wait) (s : State) : (park g w s).nextId = s.nextId := rfl
@[simp] theorem park_tickNo (g : SlotKey) (w : Wait) (s : State) : (park g w s).tickNo = s.tickNo := rfl
@[simp] theorem park_switches (g : SlotKey) (w : Wait) (s : State) : (park g w s).switches = s.switches := rfl
@[simp] theorem park_agenda (g : SlotKey) (w : Wait) (s : State) : (park g w s).agenda = s.agenda := rfl
@[simp] theorem park_fly (g : SlotKey) (w : Wait) (s : State) : (park g w s).fly = s.fly := rfl
@[simp] theorem park_copies (g : SlotKey) (w : Wait) (s : State) : (park g w s).copies = s.copies := rfl
@[simp] theorem park_issue (g : SlotKey) (w : Wait) (s : State) : (park g w s).issue = s.issue := rfl
@[simp] theorem park_port (g : SlotKey) (w : Wait) (s : State) : (park g w s).port = s.port := rfl
@[simp] theorem park_fresh (g : SlotKey) (w : Wait) (s : State) : (park g w s).fresh = s.fresh := rfl
@[simp] theorem park_time (g : SlotKey) (w : Wait) (s : State) : (park g w s).time = s.time := rfl
@[simp] theorem park_turn (g : SlotKey) (w : Wait) (s : State) : (park g w s).turn = s.turn := rfl
@[simp] theorem coreAt_park (g : SlotKey) (w : Wait) (s : State) (k : CoreKey) : coreAt (park g w s) k = coreAt s k := coreAt_congr (by simp) k
@[simp] theorem cellAt_park (g : SlotKey) (w : Wait) (s : State) (k : CellKey) : cellAt (park g w s) k = cellAt s k := cellAt_congr (by simp) k
@[simp] theorem ctxAt_park (g : SlotKey) (w : Wait) (s : State) (k : Nat) : ctxAt (park g w s) k = ctxAt s k := ctxAt_congr (by simp) k

/-! ### unpark -/

@[simp] theorem unpark_cores (g : SlotKey) (q : SlotSt) (s : State) : (unpark g q s).cores = s.cores := rfl
@[simp] theorem unpark_cells (g : SlotKey) (q : SlotSt) (s : State) : (unpark g q s).cells = s.cells := rfl
@[simp] theorem unpark_fwin (g : SlotKey) (q : SlotSt) (s : State) : (unpark g q s).fwin = s.fwin := rfl
@[simp] theorem unpark_ctxs (g : SlotKey) (q : SlotSt) (s : State) : (unpark g q s).ctxs = s.ctxs := rfl
@[simp] theorem unpark_grids (g : SlotKey) (q : SlotSt) (s : State) : (unpark g q s).grids = s.grids := rfl
@[simp] theorem unpark_mem (g : SlotKey) (q : SlotSt) (s : State) : (unpark g q s).mem = s.mem := rfl
@[simp] theorem unpark_net (g : SlotKey) (q : SlotSt) (s : State) : (unpark g q s).net = s.net := rfl
@[simp] theorem unpark_pages (g : SlotKey) (q : SlotSt) (s : State) : (unpark g q s).pages = s.pages := rfl
@[simp] theorem unpark_gens (g : SlotKey) (q : SlotSt) (s : State) : (unpark g q s).gens = s.gens := rfl
@[simp] theorem unpark_tokens (g : SlotKey) (q : SlotSt) (s : State) : (unpark g q s).tokens = s.tokens := rfl
@[simp] theorem unpark_boot (g : SlotKey) (q : SlotSt) (s : State) : (unpark g q s).boot = s.boot := rfl
@[simp] theorem unpark_saves (g : SlotKey) (q : SlotSt) (s : State) : (unpark g q s).saves = s.saves := rfl
@[simp] theorem unpark_linkClk (g : SlotKey) (q : SlotSt) (s : State) : (unpark g q s).linkClk = s.linkClk := rfl
@[simp] theorem unpark_lastAsid (g : SlotKey) (q : SlotSt) (s : State) : (unpark g q s).lastAsid = s.lastAsid := rfl
@[simp] theorem unpark_nextId (g : SlotKey) (q : SlotSt) (s : State) : (unpark g q s).nextId = s.nextId := rfl
@[simp] theorem unpark_tickNo (g : SlotKey) (q : SlotSt) (s : State) : (unpark g q s).tickNo = s.tickNo := rfl
@[simp] theorem unpark_switches (g : SlotKey) (q : SlotSt) (s : State) : (unpark g q s).switches = s.switches := rfl
@[simp] theorem unpark_agenda (g : SlotKey) (q : SlotSt) (s : State) : (unpark g q s).agenda = s.agenda := rfl
@[simp] theorem unpark_fly (g : SlotKey) (q : SlotSt) (s : State) : (unpark g q s).fly = s.fly := rfl
@[simp] theorem unpark_copies (g : SlotKey) (q : SlotSt) (s : State) : (unpark g q s).copies = s.copies := rfl
@[simp] theorem unpark_issue (g : SlotKey) (q : SlotSt) (s : State) : (unpark g q s).issue = s.issue := rfl
@[simp] theorem unpark_port (g : SlotKey) (q : SlotSt) (s : State) : (unpark g q s).port = s.port := rfl
@[simp] theorem unpark_fresh (g : SlotKey) (q : SlotSt) (s : State) : (unpark g q s).fresh = s.fresh := rfl
@[simp] theorem unpark_time (g : SlotKey) (q : SlotSt) (s : State) : (unpark g q s).time = s.time := rfl
@[simp] theorem unpark_turn (g : SlotKey) (q : SlotSt) (s : State) : (unpark g q s).turn = s.turn := rfl
@[simp] theorem coreAt_unpark (g : SlotKey) (q : SlotSt) (s : State) (k : CoreKey) : coreAt (unpark g q s) k = coreAt s k := coreAt_congr (by simp) k
@[simp] theorem cellAt_unpark (g : SlotKey) (q : SlotSt) (s : State) (k : CellKey) : cellAt (unpark g q s) k = cellAt s k := cellAt_congr (by simp) k
@[simp] theorem ctxAt_unpark (g : SlotKey) (q : SlotSt) (s : State) (k : Nat) : ctxAt (unpark g q s) k = ctxAt s k := ctxAt_congr (by simp) k

/-! ### finish -/

@[simp] theorem finish_cores (g : SlotKey) (s : State) : (finish g s).cores = s.cores := rfl
@[simp] theorem finish_cells (g : SlotKey) (s : State) : (finish g s).cells = s.cells := rfl
@[simp] theorem finish_fwin (g : SlotKey) (s : State) : (finish g s).fwin = s.fwin := rfl
@[simp] theorem finish_ctxs (g : SlotKey) (s : State) : (finish g s).ctxs = s.ctxs := rfl
@[simp] theorem finish_grids (g : SlotKey) (s : State) : (finish g s).grids = s.grids := rfl
@[simp] theorem finish_mem (g : SlotKey) (s : State) : (finish g s).mem = s.mem := rfl
@[simp] theorem finish_net (g : SlotKey) (s : State) : (finish g s).net = s.net := rfl
@[simp] theorem finish_pages (g : SlotKey) (s : State) : (finish g s).pages = s.pages := rfl
@[simp] theorem finish_gens (g : SlotKey) (s : State) : (finish g s).gens = s.gens := rfl
@[simp] theorem finish_tokens (g : SlotKey) (s : State) : (finish g s).tokens = s.tokens := rfl
@[simp] theorem finish_boot (g : SlotKey) (s : State) : (finish g s).boot = s.boot := rfl
@[simp] theorem finish_saves (g : SlotKey) (s : State) : (finish g s).saves = s.saves := rfl
@[simp] theorem finish_linkClk (g : SlotKey) (s : State) : (finish g s).linkClk = s.linkClk := rfl
@[simp] theorem finish_lastAsid (g : SlotKey) (s : State) : (finish g s).lastAsid = s.lastAsid := rfl
@[simp] theorem finish_nextId (g : SlotKey) (s : State) : (finish g s).nextId = s.nextId := rfl
@[simp] theorem finish_tickNo (g : SlotKey) (s : State) : (finish g s).tickNo = s.tickNo := rfl
@[simp] theorem finish_switches (g : SlotKey) (s : State) : (finish g s).switches = s.switches := rfl
@[simp] theorem finish_agenda (g : SlotKey) (s : State) : (finish g s).agenda = s.agenda := rfl
@[simp] theorem finish_fly (g : SlotKey) (s : State) : (finish g s).fly = s.fly := rfl
@[simp] theorem finish_copies (g : SlotKey) (s : State) : (finish g s).copies = s.copies := rfl
@[simp] theorem finish_issue (g : SlotKey) (s : State) : (finish g s).issue = s.issue := rfl
@[simp] theorem finish_port (g : SlotKey) (s : State) : (finish g s).port = s.port := rfl
@[simp] theorem finish_fresh (g : SlotKey) (s : State) : (finish g s).fresh = s.fresh := rfl
@[simp] theorem finish_time (g : SlotKey) (s : State) : (finish g s).time = s.time := rfl
@[simp] theorem finish_turn (g : SlotKey) (s : State) : (finish g s).turn = s.turn := rfl
@[simp] theorem coreAt_finish (g : SlotKey) (s : State) (k : CoreKey) : coreAt (finish g s) k = coreAt s k := coreAt_congr (by simp) k
@[simp] theorem cellAt_finish (g : SlotKey) (s : State) (k : CellKey) : cellAt (finish g s) k = cellAt s k := cellAt_congr (by simp) k
@[simp] theorem ctxAt_finish (g : SlotKey) (s : State) (k : Nat) : ctxAt (finish g s) k = ctxAt s k := ctxAt_congr (by simp) k

/-! ### reissue -/

@[simp] theorem reissue_cores (g : SlotKey) (s : State) : (reissue g s).cores = s.cores := rfl
@[simp] theorem reissue_cells (g : SlotKey) (s : State) : (reissue g s).cells = s.cells := rfl
@[simp] theorem reissue_fwin (g : SlotKey) (s : State) : (reissue g s).fwin = s.fwin := rfl
@[simp] theorem reissue_ctxs (g : SlotKey) (s : State) : (reissue g s).ctxs = s.ctxs := rfl
@[simp] theorem reissue_grids (g : SlotKey) (s : State) : (reissue g s).grids = s.grids := rfl
@[simp] theorem reissue_mem (g : SlotKey) (s : State) : (reissue g s).mem = s.mem := rfl
@[simp] theorem reissue_net (g : SlotKey) (s : State) : (reissue g s).net = s.net := rfl
@[simp] theorem reissue_pages (g : SlotKey) (s : State) : (reissue g s).pages = s.pages := rfl
@[simp] theorem reissue_gens (g : SlotKey) (s : State) : (reissue g s).gens = s.gens := rfl
@[simp] theorem reissue_tokens (g : SlotKey) (s : State) : (reissue g s).tokens = s.tokens := rfl
@[simp] theorem reissue_boot (g : SlotKey) (s : State) : (reissue g s).boot = s.boot := rfl
@[simp] theorem reissue_saves (g : SlotKey) (s : State) : (reissue g s).saves = s.saves := rfl
@[simp] theorem reissue_linkClk (g : SlotKey) (s : State) : (reissue g s).linkClk = s.linkClk := rfl
@[simp] theorem reissue_lastAsid (g : SlotKey) (s : State) : (reissue g s).lastAsid = s.lastAsid := rfl
@[simp] theorem reissue_nextId (g : SlotKey) (s : State) : (reissue g s).nextId = s.nextId := rfl
@[simp] theorem reissue_tickNo (g : SlotKey) (s : State) : (reissue g s).tickNo = s.tickNo := rfl
@[simp] theorem reissue_switches (g : SlotKey) (s : State) : (reissue g s).switches = s.switches := rfl
@[simp] theorem reissue_agenda (g : SlotKey) (s : State) : (reissue g s).agenda = s.agenda := rfl
@[simp] theorem reissue_fly (g : SlotKey) (s : State) : (reissue g s).fly = s.fly := rfl
@[simp] theorem reissue_copies (g : SlotKey) (s : State) : (reissue g s).copies = s.copies := rfl
@[simp] theorem reissue_issue (g : SlotKey) (s : State) : (reissue g s).issue = s.issue := rfl
@[simp] theorem reissue_port (g : SlotKey) (s : State) : (reissue g s).port = s.port := rfl
@[simp] theorem reissue_fresh (g : SlotKey) (s : State) : (reissue g s).fresh = s.fresh := rfl
@[simp] theorem reissue_time (g : SlotKey) (s : State) : (reissue g s).time = s.time := rfl
@[simp] theorem reissue_turn (g : SlotKey) (s : State) : (reissue g s).turn = s.turn := rfl
@[simp] theorem coreAt_reissue (g : SlotKey) (s : State) (k : CoreKey) : coreAt (reissue g s) k = coreAt s k := coreAt_congr (by simp) k
@[simp] theorem cellAt_reissue (g : SlotKey) (s : State) (k : CellKey) : cellAt (reissue g s) k = cellAt s k := cellAt_congr (by simp) k
@[simp] theorem ctxAt_reissue (g : SlotKey) (s : State) (k : Nat) : ctxAt (reissue g s) k = ctxAt s k := ctxAt_congr (by simp) k

/-! ### putS -/

@[simp] theorem putS_cores (d : SReg) (v : Word64) (s : State) : (putS d v s).cores = s.cores := rfl
@[simp] theorem putS_cells (d : SReg) (v : Word64) (s : State) : (putS d v s).cells = s.cells := rfl
@[simp] theorem putS_fwin (d : SReg) (v : Word64) (s : State) : (putS d v s).fwin = s.fwin := rfl
@[simp] theorem putS_ctxs (d : SReg) (v : Word64) (s : State) : (putS d v s).ctxs = s.ctxs := rfl
@[simp] theorem putS_grids (d : SReg) (v : Word64) (s : State) : (putS d v s).grids = s.grids := rfl
@[simp] theorem putS_mem (d : SReg) (v : Word64) (s : State) : (putS d v s).mem = s.mem := rfl
@[simp] theorem putS_net (d : SReg) (v : Word64) (s : State) : (putS d v s).net = s.net := rfl
@[simp] theorem putS_pages (d : SReg) (v : Word64) (s : State) : (putS d v s).pages = s.pages := rfl
@[simp] theorem putS_gens (d : SReg) (v : Word64) (s : State) : (putS d v s).gens = s.gens := rfl
@[simp] theorem putS_tokens (d : SReg) (v : Word64) (s : State) : (putS d v s).tokens = s.tokens := rfl
@[simp] theorem putS_boot (d : SReg) (v : Word64) (s : State) : (putS d v s).boot = s.boot := rfl
@[simp] theorem putS_saves (d : SReg) (v : Word64) (s : State) : (putS d v s).saves = s.saves := rfl
@[simp] theorem putS_linkClk (d : SReg) (v : Word64) (s : State) : (putS d v s).linkClk = s.linkClk := rfl
@[simp] theorem putS_lastAsid (d : SReg) (v : Word64) (s : State) : (putS d v s).lastAsid = s.lastAsid := rfl
@[simp] theorem putS_nextId (d : SReg) (v : Word64) (s : State) : (putS d v s).nextId = s.nextId := rfl
@[simp] theorem putS_tickNo (d : SReg) (v : Word64) (s : State) : (putS d v s).tickNo = s.tickNo := rfl
@[simp] theorem putS_switches (d : SReg) (v : Word64) (s : State) : (putS d v s).switches = s.switches := rfl
@[simp] theorem putS_agenda (d : SReg) (v : Word64) (s : State) : (putS d v s).agenda = s.agenda := rfl
@[simp] theorem putS_fly (d : SReg) (v : Word64) (s : State) : (putS d v s).fly = s.fly := rfl
@[simp] theorem putS_copies (d : SReg) (v : Word64) (s : State) : (putS d v s).copies = s.copies := rfl
@[simp] theorem putS_port (d : SReg) (v : Word64) (s : State) : (putS d v s).port = s.port := rfl
@[simp] theorem putS_fresh (d : SReg) (v : Word64) (s : State) : (putS d v s).fresh = s.fresh := rfl
@[simp] theorem putS_time (d : SReg) (v : Word64) (s : State) : (putS d v s).time = s.time := rfl
@[simp] theorem putS_turn (d : SReg) (v : Word64) (s : State) : (putS d v s).turn = s.turn := rfl
@[simp] theorem coreAt_putS (d : SReg) (v : Word64) (s : State) (k : CoreKey) : coreAt (putS d v s) k = coreAt s k := coreAt_congr (by simp) k
@[simp] theorem cellAt_putS (d : SReg) (v : Word64) (s : State) (k : CellKey) : cellAt (putS d v s) k = cellAt s k := cellAt_congr (by simp) k
@[simp] theorem ctxAt_putS (d : SReg) (v : Word64) (s : State) (k : Nat) : ctxAt (putS d v s) k = ctxAt s k := ctxAt_congr (by simp) k

/-! ### putP -/

@[simp] theorem putP_cores (d : GReg) (v : Bool) (s : State) : (putP d v s).cores = s.cores := rfl
@[simp] theorem putP_cells (d : GReg) (v : Bool) (s : State) : (putP d v s).cells = s.cells := rfl
@[simp] theorem putP_fwin (d : GReg) (v : Bool) (s : State) : (putP d v s).fwin = s.fwin := rfl
@[simp] theorem putP_ctxs (d : GReg) (v : Bool) (s : State) : (putP d v s).ctxs = s.ctxs := rfl
@[simp] theorem putP_grids (d : GReg) (v : Bool) (s : State) : (putP d v s).grids = s.grids := rfl
@[simp] theorem putP_mem (d : GReg) (v : Bool) (s : State) : (putP d v s).mem = s.mem := rfl
@[simp] theorem putP_net (d : GReg) (v : Bool) (s : State) : (putP d v s).net = s.net := rfl
@[simp] theorem putP_pages (d : GReg) (v : Bool) (s : State) : (putP d v s).pages = s.pages := rfl
@[simp] theorem putP_gens (d : GReg) (v : Bool) (s : State) : (putP d v s).gens = s.gens := rfl
@[simp] theorem putP_tokens (d : GReg) (v : Bool) (s : State) : (putP d v s).tokens = s.tokens := rfl
@[simp] theorem putP_boot (d : GReg) (v : Bool) (s : State) : (putP d v s).boot = s.boot := rfl
@[simp] theorem putP_saves (d : GReg) (v : Bool) (s : State) : (putP d v s).saves = s.saves := rfl
@[simp] theorem putP_linkClk (d : GReg) (v : Bool) (s : State) : (putP d v s).linkClk = s.linkClk := rfl
@[simp] theorem putP_lastAsid (d : GReg) (v : Bool) (s : State) : (putP d v s).lastAsid = s.lastAsid := rfl
@[simp] theorem putP_nextId (d : GReg) (v : Bool) (s : State) : (putP d v s).nextId = s.nextId := rfl
@[simp] theorem putP_tickNo (d : GReg) (v : Bool) (s : State) : (putP d v s).tickNo = s.tickNo := rfl
@[simp] theorem putP_switches (d : GReg) (v : Bool) (s : State) : (putP d v s).switches = s.switches := rfl
@[simp] theorem putP_agenda (d : GReg) (v : Bool) (s : State) : (putP d v s).agenda = s.agenda := rfl
@[simp] theorem putP_fly (d : GReg) (v : Bool) (s : State) : (putP d v s).fly = s.fly := rfl
@[simp] theorem putP_copies (d : GReg) (v : Bool) (s : State) : (putP d v s).copies = s.copies := rfl
@[simp] theorem putP_port (d : GReg) (v : Bool) (s : State) : (putP d v s).port = s.port := rfl
@[simp] theorem putP_fresh (d : GReg) (v : Bool) (s : State) : (putP d v s).fresh = s.fresh := rfl
@[simp] theorem putP_time (d : GReg) (v : Bool) (s : State) : (putP d v s).time = s.time := rfl
@[simp] theorem putP_turn (d : GReg) (v : Bool) (s : State) : (putP d v s).turn = s.turn := rfl
@[simp] theorem coreAt_putP (d : GReg) (v : Bool) (s : State) (k : CoreKey) : coreAt (putP d v s) k = coreAt s k := coreAt_congr (by simp) k
@[simp] theorem cellAt_putP (d : GReg) (v : Bool) (s : State) (k : CellKey) : cellAt (putP d v s) k = cellAt s k := cellAt_congr (by simp) k
@[simp] theorem ctxAt_putP (d : GReg) (v : Bool) (s : State) (k : Nat) : ctxAt (putP d v s) k = ctxAt s k := ctxAt_congr (by simp) k

/-! ### skip -/

@[simp] theorem skip_cores (s : State) : (skip s).cores = s.cores := rfl
@[simp] theorem skip_cells (s : State) : (skip s).cells = s.cells := rfl
@[simp] theorem skip_fwin (s : State) : (skip s).fwin = s.fwin := rfl
@[simp] theorem skip_ctxs (s : State) : (skip s).ctxs = s.ctxs := rfl
@[simp] theorem skip_grids (s : State) : (skip s).grids = s.grids := rfl
@[simp] theorem skip_mem (s : State) : (skip s).mem = s.mem := rfl
@[simp] theorem skip_net (s : State) : (skip s).net = s.net := rfl
@[simp] theorem skip_pages (s : State) : (skip s).pages = s.pages := rfl
@[simp] theorem skip_gens (s : State) : (skip s).gens = s.gens := rfl
@[simp] theorem skip_tokens (s : State) : (skip s).tokens = s.tokens := rfl
@[simp] theorem skip_boot (s : State) : (skip s).boot = s.boot := rfl
@[simp] theorem skip_saves (s : State) : (skip s).saves = s.saves := rfl
@[simp] theorem skip_linkClk (s : State) : (skip s).linkClk = s.linkClk := rfl
@[simp] theorem skip_lastAsid (s : State) : (skip s).lastAsid = s.lastAsid := rfl
@[simp] theorem skip_nextId (s : State) : (skip s).nextId = s.nextId := rfl
@[simp] theorem skip_tickNo (s : State) : (skip s).tickNo = s.tickNo := rfl
@[simp] theorem skip_switches (s : State) : (skip s).switches = s.switches := rfl
@[simp] theorem skip_agenda (s : State) : (skip s).agenda = s.agenda := rfl
@[simp] theorem skip_fly (s : State) : (skip s).fly = s.fly := rfl
@[simp] theorem skip_copies (s : State) : (skip s).copies = s.copies := rfl
@[simp] theorem skip_port (s : State) : (skip s).port = s.port := rfl
@[simp] theorem skip_fresh (s : State) : (skip s).fresh = s.fresh := rfl
@[simp] theorem skip_time (s : State) : (skip s).time = s.time := rfl
@[simp] theorem skip_turn (s : State) : (skip s).turn = s.turn := rfl
@[simp] theorem coreAt_skip (s : State) (k : CoreKey) : coreAt (skip s) k = coreAt s k := coreAt_congr (by simp) k
@[simp] theorem cellAt_skip (s : State) (k : CellKey) : cellAt (skip s) k = cellAt s k := cellAt_congr (by simp) k
@[simp] theorem ctxAt_skip (s : State) (k : Nat) : ctxAt (skip s) k = ctxAt s k := ctxAt_congr (by simp) k

end Sys2Proof.Machine
end

