-- ==== Sys2Proof/Laws/Memory.lean ====
section
/-! SUPPORT. Bytes read after they are written, and which operations keep the canonical form of memory. -/

namespace Sys2Proof.Machine

/-! ### Byte lists -/

theorem bytesFrom_mono {l : List Host.Cell} {lo k : Nat} (h : bytesFrom k l = true) (hk : lo ≤ k) : bytesFrom lo l = true := by
  cases l with
  | nil => rfl
  | cons p r =>
    obtain ⟨a, b⟩ := p
    simp only [bytesFrom, Bool.and_eq_true, decide_eq_true_eq] at h ⊢
    exact ⟨⟨by omega, h.1.2⟩, h.2⟩

theorem getByte_below {l : List Host.Cell} {lo a : Nat} (h : bytesFrom lo l = true) (ha : a < lo) : getByte l a = 0 := by
  induction l generalizing lo with
  | nil => rfl
  | cons p r ih =>
    obtain ⟨b, x⟩ := p
    simp only [bytesFrom, Bool.and_eq_true, decide_eq_true_eq] at h
    simp only [getByte, if_neg (show b ≠ a by omega)]
    exact ih h.2 (by omega)

/-- A written byte reads back. -/
theorem getByte_putByte_self {l : List Host.Cell} {lo : Nat} (h : bytesFrom lo l = true) (a : Nat) (x : Byte) :
    getByte (putByte l a x) a = x := by
  induction l generalizing lo with
  | nil => by_cases hx : x = 0#8 <;> simp [putByte, getByte, hx]
  | cons p r ih =>
    obtain ⟨b, y⟩ := p
    simp only [bytesFrom, Bool.and_eq_true, decide_eq_true_eq] at h
    simp only [putByte]
    split
    · next hab =>
      split
      · next hx =>
        simp only [getByte, if_neg (show b ≠ a by omega), hx]
        exact getByte_below h.2 (by omega)
      · simp [getByte]
    · split
      · next hab =>
        subst hab
        split
        · next hx => rw [hx]; exact getByte_below h.2 (by omega)
        · simp [getByte]
      · next h1 h2 => simp only [getByte, if_neg (Ne.symm h2)]; exact ih h.2

/-- Every other byte reads as before. -/
theorem getByte_putByte_ne {l : List Host.Cell} {a k : Nat} (x : Byte) (hk : k ≠ a) : getByte (putByte l a x) k = getByte l k := by
  induction l with
  | nil => by_cases hx : x = 0#8 <;> simp [putByte, getByte, hx, Ne.symm hk]
  | cons p r ih =>
    obtain ⟨b, y⟩ := p
    simp only [putByte]
    split
    · split
      · rfl
      · simp [getByte, Ne.symm hk]
    · split
      · next hab => subst hab; split <;> simp [getByte, Ne.symm hk]
      · simp only [getByte, ih]

theorem bytesFrom_putByte {l : List Host.Cell} {lo : Nat} (h : bytesFrom lo l = true) {a : Nat} (ha : lo ≤ a) (x : Byte) :
    bytesFrom lo (putByte l a x) = true := by
  induction l generalizing lo with
  | nil => by_cases hx : x = 0#8 <;> simp [putByte, bytesFrom, hx, ha]
  | cons p r ih =>
    obtain ⟨b, y⟩ := p
    have h' := h
    simp only [bytesFrom, Bool.and_eq_true, decide_eq_true_eq] at h
    simp only [putByte]
    split
    · next hab =>
      split
      · exact h'
      · next hx =>
        simp only [bytesFrom, Bool.and_eq_true, decide_eq_true_eq]
        exact ⟨⟨ha, by simpa using hx⟩, ⟨by omega, h.1.2⟩, h.2⟩
    · split
      · next hab =>
        subst hab
        split
        · exact bytesFrom_mono h.2 (by omega)
        · next hx =>
          simp only [bytesFrom, Bool.and_eq_true, decide_eq_true_eq]
          exact ⟨⟨ha, by simpa using hx⟩, h.2⟩
      · next h1 h2 =>
        simp only [bytesFrom, Bool.and_eq_true, decide_eq_true_eq]
        exact ⟨h.1, ih h.2 (by omega)⟩

@[simp] theorem bytesWf_putByte {l : List Host.Cell} (h : bytesWf l = true) (a : Nat) (x : Byte) : bytesWf (putByte l a x) = true :=
  bytesFrom_putByte h (Nat.zero_le a) x

theorem bytesWf_putBytes {l : List Host.Cell} (h : bytesWf l = true) (a : Nat) (bs : List Byte) :
    bytesWf (putBytes l a bs) = true := by
  induction bs generalizing l a with
  | nil => exact h
  | cons b r ih => exact ih (bytesWf_putByte h a b) (a + 1)

/-- Bytes outside those written read as before. -/
theorem getByte_putBytes_outside {l : List Host.Cell} {a k : Nat} (bs : List Byte) (hk : k < a ∨ a + bs.length ≤ k) :
    getByte (putBytes l a bs) k = getByte l k := by
  induction bs generalizing l a with
  | nil => rfl
  | cons b r ih =>
    simp only [List.length_cons] at hk
    rw [putBytes, ih (by omega), getByte_putByte_ne b (by omega)]

/-- The bytes written read back. -/
theorem getByte_putBytes_inside {l : List Host.Cell} (h : bytesWf l = true) (a : Nat) (bs : List Byte) {k : Nat} (hk : k < bs.length) :
    getByte (putBytes l a bs) (a + k) = bs[k] := by
  induction bs generalizing l a k with
  | nil => exact absurd hk (Nat.not_lt_zero k)
  | cons b r ih =>
    cases k with
    | zero => rw [putBytes, getByte_putBytes_outside r (by omega)]; exact getByte_putByte_self h a b
    | succ k =>
      have := ih (bytesWf_putByte h a b) (a + 1) (k := k) (by simpa using hk)
      rw [putBytes, show a + (k + 1) = a + 1 + k by omega, this]
      rfl

@[simp] theorem length_getBytes (l : List Host.Cell) (a n : Nat) : (getBytes l a n).length = n := by
  induction n generalizing a with
  | zero => rfl
  | succ n ih => simp [getBytes, ih]

/-- A whole piece reads back as it was written. -/
theorem getBytes_putBytes {l : List Host.Cell} (h : bytesWf l = true) (a : Nat) (bs : List Byte) :
    getBytes (putBytes l a bs) a bs.length = bs := by
  induction bs generalizing l a with
  | nil => rfl
  | cons b r ih =>
    simp only [List.length_cons, getBytes, putBytes]
    rw [ih (bytesWf_putByte h a b), getByte_putBytes_outside r (by omega), getByte_putByte_self h]

/-- Two canonical lists that read alike are one list. -/
theorem bytesFrom_ext {l m : List Host.Cell} {lo : Nat} (hl : bytesFrom lo l = true) (hm : bytesFrom lo m = true)
    (h : ∀ a, getByte l a = getByte m a) : l = m := by
  induction l generalizing m lo with
  | nil =>
    cases m with
    | nil => rfl
    | cons p r =>
      obtain ⟨b, y⟩ := p
      simp only [bytesFrom, Bool.and_eq_true, bne_iff_ne] at hm
      exact absurd (by simpa [getByte] using (h b).symm) hm.1.2
  | cons p r ih =>
    obtain ⟨a, x⟩ := p
    have hl' := hl
    simp only [bytesFrom, Bool.and_eq_true, decide_eq_true_eq, bne_iff_ne] at hl
    cases m with
    | nil => exact absurd (by simpa [getByte] using h a) hl.1.2
    | cons q t =>
      obtain ⟨b, y⟩ := q
      simp only [bytesFrom, Bool.and_eq_true, decide_eq_true_eq, bne_iff_ne] at hm
      have hab : a = b := by
        rcases Nat.lt_trichotomy a b with hlt | heq | hgt
        · have := h a
          simp only [getByte, if_neg (show b ≠ a by omega), if_true] at this
          exact absurd (this.trans (getByte_below hm.2 (by omega))) hl.1.2
        · exact heq
        · have := h b
          simp only [getByte, if_neg (show a ≠ b by omega), if_true] at this
          exact absurd (this.symm.trans (getByte_below hl.2 (by omega))) hm.1.2
      subst hab
      have hxy : x = y := by simpa [getByte] using h a
      subst hxy
      congr 1
      refine ih hl.2 hm.2 fun k => ?_
      by_cases hk : k = a
      · subst hk; rw [getByte_below hl.2 (by omega), getByte_below hm.2 (by omega)]
      · simpa [getByte, Ne.symm hk] using h k

/-- Bytes that stay are still canonical. -/
theorem bytesFrom_filter {l : List Host.Cell} {lo : Nat} (p : Host.Cell → Bool) (h : bytesFrom lo l = true) :
    bytesFrom lo (l.filter p) = true := by
  induction l generalizing lo with
  | nil => rfl
  | cons q r ih =>
    obtain ⟨a, b⟩ := q
    simp only [bytesFrom, Bool.and_eq_true, decide_eq_true_eq] at h
    simp only [List.filter]
    split
    · simp only [bytesFrom, Bool.and_eq_true, decide_eq_true_eq]; exact ⟨h.1, ih h.2⟩
    · exact bytesFrom_mono (ih h.2) (by omega)

/-! ### Tables and memory outside the device -/

theorem keysFrom_mono {α : Type} {t : Tab α} {lo k : Nat} (h : keysFrom k t = true) (hk : lo ≤ k) : keysFrom lo t = true := by
  cases t with
  | nil => rfl
  | cons p r =>
    obtain ⟨a, b⟩ := p
    simp only [keysFrom, Bool.and_eq_true, decide_eq_true_eq] at h ⊢
    exact ⟨by omega, h.2⟩

theorem keysFrom_tput {α : Type} {t : Tab α} {lo : Nat} (h : keysFrom lo t = true) {k : Nat} (hk : lo ≤ k) (x : α) :
    keysFrom lo (tput t k x) = true := by
  induction t generalizing lo with
  | nil => simp [tput, keysFrom, hk]
  | cons p r ih =>
    obtain ⟨j, y⟩ := p
    simp only [keysFrom, Bool.and_eq_true, decide_eq_true_eq] at h
    simp only [tput]
    split
    · simp only [keysFrom, Bool.and_eq_true, decide_eq_true_eq]; exact ⟨hk, by omega, h.2⟩
    · split
      · next hj => subst hj; simp only [keysFrom, Bool.and_eq_true, decide_eq_true_eq]; exact ⟨h.1, h.2⟩
      · simp only [keysFrom, Bool.and_eq_true, decide_eq_true_eq]; exact ⟨h.1, ih h.2 (by omega)⟩

theorem keysFrom_tdel {α : Type} {t : Tab α} {lo : Nat} (h : keysFrom lo t = true) (k : Nat) : keysFrom lo (tdel t k) = true := by
  induction t generalizing lo with
  | nil => rfl
  | cons p r ih =>
    obtain ⟨j, y⟩ := p
    simp only [keysFrom, Bool.and_eq_true, decide_eq_true_eq] at h
    simp only [tdel]
    split
    · exact keysFrom_mono h.2 (by omega)
    · simp only [keysFrom, Bool.and_eq_true, decide_eq_true_eq]; exact ⟨h.1, ih h.2⟩

theorem keysFrom_putExts {l : List Host.Cell} (h : keysFrom 0 l = true) (a : Nat) (bs : List Byte) :
    keysFrom 0 (putExts l a bs) = true := by
  induction bs generalizing l a with
  | nil => exact h
  | cons b r ih => exact ih (keysFrom_tput h (Nat.zero_le a) b) (a + 1)

theorem getExt_tput_ne {l : List Host.Cell} {a k : Nat} (x : Byte) (h : k ≠ a) : getExt (tput l a x) k = getExt l k := by
  induction l with
  | nil => simp [tput, getExt, Ne.symm h]
  | cons p r ih =>
    obtain ⟨b, y⟩ := p
    simp only [tput]
    split
    · simp [getExt, Ne.symm h]
    · split
      · next hb => subst hb; simp [getExt, Ne.symm h]
      · simp only [getExt, ih]

theorem getExt_tput_self (l : List Host.Cell) (a : Nat) (x : Byte) : getExt (tput l a x) a = x := by
  induction l with
  | nil => simp [tput, getExt]
  | cons p r ih =>
    obtain ⟨b, y⟩ := p
    simp only [tput]
    split
    · simp [getExt]
    · split
      · simp [getExt]
      · next h1 h2 => simp only [getExt, if_neg h2]; exact ih

theorem getExt_putExts_outside {l : List Host.Cell} {a k : Nat} (bs : List Byte) (hk : k < a ∨ a + bs.length ≤ k) :
    getExt (putExts l a bs) k = getExt l k := by
  induction bs generalizing l a with
  | nil => rfl
  | cons b r ih =>
    simp only [List.length_cons] at hk
    rw [putExts, ih (by omega), getExt_tput_ne b (by omega)]

theorem getExts_putExts (l : List Host.Cell) (a : Nat) (bs : List Byte) : getExts (putExts l a bs) a bs.length = bs := by
  induction bs generalizing l a with
  | nil => rfl
  | cons b r ih =>
    simp only [List.length_cons, getExts, putExts]
    rw [ih, getExt_putExts_outside r (by omega), getExt_tput_self]

/-! ### The canonical form of the whole state -/

/-- What does not touch memory, the cells or the contexts keeps the canonical form. -/
theorem wf_of_same {s t : State} (hm : t.mem.bytes = s.mem.bytes) (he : t.mem.ext = s.mem.ext) (hc : t.cells = s.cells)
    (hx : t.ctxs = s.ctxs) (h : Memory.wf s) : Memory.wf t := by
  unfold Memory.wf at *; rw [hm, he, hc, hx]; exact h

theorem bytesWf_cellAt {s : State} (h : Memory.wf s) (c : CellKey) : bytesWf (cellAt s c).stash = true := by
  unfold cellAt
  cases ht : tfind s.cells c with
  | none => rfl
  | some x => exact h.2.2.1 (c, x) (mem_of_tfind ht)

theorem wf_modCell {s : State} (h : Memory.wf s) (c : CellKey) {f : Cell → Cell}
    (hf : bytesWf (cellAt s c).stash = true → bytesWf (f (cellAt s c)).stash = true) : Memory.wf (modCell c f s) := by
  refine ⟨h.1, h.2.1, fun p hp => ?_, h.2.2.2⟩
  rcases mem_tput hp with rfl | hp
  · exact hf (bytesWf_cellAt h c)
  · exact h.2.2.1 p hp

theorem wf_modCtx {s : State} (h : Memory.wf s) (a : Nat) {f : Ctx → Ctx}
    (hf : ∀ x, (∀ c ∈ x.saved, bytesWf c.2.stash = true) → ∀ c ∈ (f x).saved, bytesWf c.2.stash = true) :
    Memory.wf (modCtx a f s) := by
  unfold modCtx ctxAt
  cases ht : tfind s.ctxs a with
  | none => exact h
  | some x =>
    refine ⟨h.1, h.2.1, h.2.2.1, fun p hp => ?_⟩
    rcases mem_tput hp with rfl | hp
    · exact hf x (h.2.2.2 (a, x) (mem_of_tfind ht))
    · exact h.2.2.2 p hp

theorem wf_setSlot {s : State} (h : Memory.wf s) (g : SlotKey) (x : Slot) : Memory.wf (setSlot g x s) := h
theorem wf_modSlot {s : State} (h : Memory.wf s) (g : SlotKey) (f : Slot → Slot) : Memory.wf (modSlot g f s) := h
theorem wf_modCore {s : State} (h : Memory.wf s) (c : CoreKey) (f : Core → Core) : Memory.wf (modCore c f s) := h
theorem wf_send {s : State} (h : Memory.wf s) (m : Msg) : Memory.wf (send m s) := h
theorem wf_took {s : State} (h : Memory.wf s) (k : Nat) : Memory.wf (took k s) := h
theorem wf_setStamps {s : State} (h : Memory.wf s) (l : Nat) (x : Nat × Nat) : Memory.wf (setStamps l x s) := h
theorem wf_stampLoad {s : State} (h : Memory.wf s) (g : SlotKey) (l : Nat) : Memory.wf (stampLoad g l s) := h
theorem wf_stampStore {s : State} (h : Memory.wf s) (g : SlotKey) (l : Nat) : Memory.wf (stampStore g l s) := h

theorem wf_writeLoc {s : State} (h : Memory.wf s) (l : Nat) (bs : List Byte) : Memory.wf (writeLoc l bs s) := by
  unfold writeLoc
  split
  · exact wf_modCell h _ fun hc => bytesWf_putBytes hc _ _
  · exact ⟨bytesWf_putBytes h.1 _ _, h.2⟩

theorem wf_modMap {s : State} (h : Memory.wf s) (c : CellKey) (a e : Nat) (f : StMap → StMap) : Memory.wf (modMap c a e f s) :=
  wf_modCell h c id

theorem wf_putLine {s : State} (h : Memory.wf s) (l : Nat) (bs : List Byte) : Memory.wf (putLine l bs s) :=
  ⟨bytesWf_putBytes h.1 _ _, h.2⟩

theorem wf_movePoison {s : State} (h : Memory.wf s) (a b : Nat) : Memory.wf (movePoison a b s) := h

theorem wf_writeBack {s : State} (h : Memory.wf s) (c : CellKey) (m : StMap) (k : Nat) : Memory.wf (writeBack c m k s) := by
  unfold writeBack
  split
  · exact wf_modMap (wf_movePoison (wf_putLine h _ _) _ _) _ _ _ _
  · exact h

theorem wf_foldl {α : Type} (f : State → α → State) (hf : ∀ s a, Memory.wf s → Memory.wf (f s a)) (l : List α) {s : State}
    (h : Memory.wf s) : Memory.wf (l.foldl f s) := by
  induction l generalizing s with
  | nil => exact h
  | cons a r ih => exact ih (hf s a h)

theorem wf_recallLine {s : State} (h : Memory.wf s) (keep : Option (CellKey × Nat × Nat × Nat)) (line : Nat) : Memory.wf (recallLine keep line s) := by
  unfold recallLine
  refine wf_foldl _ (fun s a hs => ?_) _ h
  dsimp only
  split
  · exact hs
  · refine wf_modMap ?_ _ _ _ _
    split
    · exact wf_writeBack hs _ _ _
    · exact hs

theorem wf_recallDirty {s : State} (h : Memory.wf s) (line : Nat) : Memory.wf (recallDirty line s) := by
  unfold recallDirty; split <;> first | exact wf_recallLine h _ _ | exact h

theorem wf_writeMem {s : State} (h : Memory.wf s) (pa : Nat) (bs : List Byte) : Memory.wf (writeMem pa bs s) :=
  wf_writeLoc (wf_recallLine h _ _) _ _

theorem wf_fillLine {s : State} (h : Memory.wf s) (c : CellKey) (a e off pa : Nat) : Memory.wf (fillLine c a e off pa s) := by
  unfold fillLine
  split
  · exact h
  · dsimp only
    split
    · exact h
    · exact wf_movePoison (wf_modMap (wf_modCell (wf_recallDirty h _) _ fun hc => bytesWf_putBytes hc _ _) _ _ _ _) _ _

theorem wf_damageTasks {s : State} (h : Memory.wf s) (c off : Nat) : Memory.wf (damageTasks c off s) := by
  unfold damageTasks; split <;> exact h

theorem wf_countUnit {s : State} (h : Memory.wf s) (c : CellKey) (a k n : Nat) : Memory.wf (countUnit c a k n s) :=
  wf_modCell h _ id

theorem wf_recallOthers {s : State} (h : Memory.wf s) (c : CellKey) (a off pa : Nat) : Memory.wf (recallOthers c a off pa s) := by
  unfold recallOthers; split <;> first | exact wf_recallLine h _ _ | exact h

theorem wf_agentRead (fuel pa n : Nat) {s : State} (h : Memory.wf s) : Memory.wf (agentRead fuel pa n s).2 := by
  induction fuel generalizing pa n s with
  | zero => exact h
  | succ k ih =>
    unfold agentRead
    split
    · exact h
    · refine ih _ _ (wf_recallDirty ?_ _)
      exact h

theorem wf_agentWrite (fuel pa : Nat) (bs : List Byte) {s : State} (h : Memory.wf s) : Memory.wf (agentWrite fuel pa bs s) := by
  induction fuel generalizing pa bs s with
  | zero => exact h
  | succ k ih =>
    unfold agentWrite
    split
    · exact h
    · refine ih _ _ (wf_writeMem ?_ _ _)
      exact h

theorem wf_writeOutside {s : State} (h : Memory.wf s) (pa : Nat) (bs : List Byte) : Memory.wf (writeOutside pa bs s) := by
  unfold writeOutside
  split
  · exact wf_agentWrite _ _ _ h
  · exact ⟨h.1, keysFrom_putExts h.2.1 _ _, h.2.2⟩

theorem wf_fetchBytes {s : State} (h : Memory.wf s) (a : Nat) (p : Place) (n : Nat) : Memory.wf (fetchBytes a p n s).2 := by
  unfold fetchBytes
  split <;> first | exact h | exact wf_recallDirty h _ | exact wf_fillLine h _ _ _ _ _

/-- Whatever is stored at a place, memory stays canonical. -/
theorem wf_storeBytes {s : State} (h : Memory.wf s) (a : Nat) (p : Place) (bs : List Byte) : Memory.wf (storeBytes a p bs s) := by
  unfold storeBytes
  split
  · exact wf_writeMem h _ _
  · exact wf_writeMem h _ _
  · exact wf_modCell (wf_damageTasks h _ _) _ fun hc => bytesWf_putBytes hc _ _
  · have hk := fun c off pa e => wf_recallOthers (wf_fillLine h c a e off pa) c a off pa
    dsimp only
    split
    · exact wf_modMap (wf_modCell (hk _ _ _ _) _ fun hc => bytesWf_putBytes hc _ _) _ _ _ _
    · exact hk _ _ _ _
  · exact ⟨h.1, keysFrom_putExts h.2.1 _ _, h.2.2⟩
  · exact ⟨h.1, keysFrom_putExts h.2.1 _ _, h.2.2⟩
  all_goals exact h

theorem wf_agentMoved {s : State} (h : Memory.wf s) (p : Place) (ts : Nat) : Memory.wf (agentMoved p ts s) := by
  unfold agentMoved; split <;> exact h

theorem wf_slotStamped {s : State} (h : Memory.wf s) (g : SlotKey) (p : Place) (f : SlotKey → Nat → State → State)
    (hf : ∀ g l s, Memory.wf s → Memory.wf (f g l s)) : Memory.wf (slotStamped g p f s) := by
  unfold slotStamped
  split
  · exact h
  · refine wf_agentMoved (hf _ _ _ ?_) _ _
    split <;> exact h

theorem wf_noteRemote {s : State} (h : Memory.wf s) (g : SlotKey) (p : Place) : Memory.wf (noteRemote g p s) := by
  unfold noteRemote noteRemoteBy
  split <;> first | exact h | (split <;> first | exact h | exact wf_countUnit h _ _ _ _)

theorem wf_keepCopy {s : State} (h : Memory.wf s) (g : SlotKey) (p : Place) : Memory.wf (keepCopy g p s) := by
  unfold keepCopy
  split
  · dsimp only
    split
    · exact h
    · exact wf_modSlot (wf_modCell h _ fun hc => hc) _ _
  · exact h

theorem wf_loadHomeAt {s : State} (h : Memory.wf s) (g : SlotKey) (p : Place) (n : Nat) : Memory.wf (loadHomeAt g p n s).2 := by
  unfold loadHomeAt
  dsimp only
  exact wf_fetchBytes (wf_slotStamped (wf_noteRemote h _ _) _ _ _ fun g l _ h => wf_stampLoad h g l) _ _ _

theorem wf_loadAt {s : State} (h : Memory.wf s) (g : SlotKey) (p : Place) (n : Nat) : Memory.wf (loadAt g p n s).2 := by
  unfold loadAt
  dsimp only
  split
  · exact wf_modSlot (wf_noteRemote h _ _) _ _
  · exact wf_keepCopy (wf_loadHomeAt h _ _ _) _ _

theorem wf_storeAt {s : State} (h : Memory.wf s) (g : SlotKey) (p : Place) (bs : List Byte) : Memory.wf (storeAt g p bs s) := by
  unfold storeAt
  dsimp only
  exact wf_storeBytes (wf_slotStamped (wf_noteRemote h _ _) _ _ _ fun g l _ h => wf_stampStore h g l) _ _ _

end Sys2Proof.Machine
end

