-- ==== Sys2Proof/Laws/Ops.lean ====
section
/-! SUPPORT. What the shared operations can do: one lemma says of each all its outcomes. -/

namespace Sys2Proof.Machine

/-! ### A word at issue -/

theorem whenReady_cases (rd wr : List Desig) (k : State → State) (s : State) :
    (blocked s s.issue.gid rd wr = true ∧ whenReady rd wr k s = park s.issue.gid (.presence rd wr) s) ∨
    (blocked s s.issue.gid rd wr = false ∧ whenReady rd wr k s = k s) := by
  unfold whenReady; cases blocked s s.issue.gid rd wr <;> simp

theorem word_ready {i : Instr} {s : State} (k : Slot → State → State) (h : Ready i s) : word i k s = .next (k (me s) s) := by
  simp [word, whenReady, h.1, h.2]

theorem guardedWord_ready {i : Instr} {s : State} {pre : State → Option TrapInfo} (k : Slot → State → State)
    (hp : pre s = none) (h : Ready i s) : guardedWord i pre k s = .next (k (me s) s) := by
  simp [guardedWord, hp, word_ready k h]

theorem guardedWord_fault {i : Instr} {s : State} {pre : State → Option TrapInfo} {t : TrapInfo} (k : Slot → State → State)
    (hp : pre s = some t) : guardedWord i pre k s = .next (fault t s) := by
  simp [guardedWord, hp]

/-! ### A word that completes -/

theorem onlySlot_complete (s : State) : OnlySlot s (complete s.issue.gid s) := by
  refine ⟨rfl, fun h hh => ?_⟩
  simp only [slotAt, complete, issued, advance, modCtl, modSlot, setSlot]
  rw [tfind_tput_ne _ _ (Ne.symm hh), tfind_tput_ne _ _ (Ne.symm hh)]

theorem onlySlot_modSlot {f : Slot → Slot} {s t : State} (h : OnlySlot (modSlot s.issue.gid f s) t) : OnlySlot s t := by
  refine ⟨?_, fun k hk => ?_⟩
  · have := h.1; simpa [modSlot, setSlot] using this
  · rw [h.2 k hk, slotAt_modSlot_ne _ _ hk]

theorem slotAt_complete (g : SlotKey) (s : State) :
    slotAt (complete g s) g = count 1 1 { slotAt s g with ctl :=
      { (slotAt s g).ctl with loops := (endCheck (slotAt s g).ctl.pc (slotAt s g).ctl.npc (slotAt s g).ctl.loops).1,
                              pc := (endCheck (slotAt s g).ctl.pc (slotAt s g).ctl.npc (slotAt s g).ctl.loops).2 } } := by
  simp [complete, issued, advance, modCtl, modSlot, setSlot, slotAt]

theorem goesOn_complete {f : Slot → Slot} (hc : ∀ x, (f x).ctl = x.ctl) (hr : ∀ x, (f x).ctr = x.ctr) (s : State) :
    GoesOn (me s) (slotAt (complete s.issue.gid (modSlot s.issue.gid f s)) s.issue.gid) := by
  simp [GoesOn, slotAt_complete, count, hc, hr]

theorem sameRest_complete {f : Slot → Slot} (hf : ∀ x, f x = { x with regs := (f x).regs }) (s : State) :
    SameRest (me s) (slotAt (complete s.issue.gid (modSlot s.issue.gid f s)) s.issue.gid) := by
  unfold SameRest
  rw [slotAt_complete, slotAt_modSlot_self]
  generalize hx : f (me s) = y
  have := hf (me s)
  rw [hx] at this
  generalize hr : y.regs = r at this
  subst this
  rfl

@[simp] theorem sSet_ctl (d : SReg) (v : Word64) (x : Slot) : (sSet d v x).ctl = x.ctl := by unfold sSet; split <;> rfl
@[simp] theorem sSet_ctr (d : SReg) (v : Word64) (x : Slot) : (sSet d v x).ctr = x.ctr := by unfold sSet; split <;> rfl
theorem sSet_rest (d : SReg) (v : Word64) (x : Slot) : sSet d v x = { x with regs := (sSet d v x).regs } := by
  unfold sSet; split <;> rfl
@[simp] theorem pSet_ctl (d : GReg) (v : Bool) (x : Slot) : (pSet d v x).ctl = x.ctl := by unfold pSet; split <;> rfl
@[simp] theorem pSet_ctr (d : GReg) (v : Bool) (x : Slot) : (pSet d v x).ctr = x.ctr := by unfold pSet; split <;> rfl
theorem pSet_rest (d : GReg) (v : Bool) (x : Slot) : pSet d v x = { x with regs := (pSet d v x).regs } := by
  unfold pSet; split <;> rfl

theorem scalarSet_sSet (d : SReg) (v : Word64) (x : Slot) : ScalarSet d v x.regs (sSet d v x).regs := by
  unfold sSet
  split
  · next h => subst h; exact ⟨rfl, fun _ _ => ⟨rfl, rfl⟩, by simp⟩
  · next h =>
    refine ⟨rfl, fun n hn => ?_, by simp [h]⟩
    have : d.val ≠ n.val := fun e => hn (Fin.ext e.symm)
    simp [Vector.getElem_set_ne, this]

theorem guardSet_pSet (d : GReg) (v : Bool) (x : Slot) : GuardSet d v x.regs (pSet d v x).regs := by
  unfold pSet
  split
  · next h => subst h; exact ⟨rfl, fun _ _ => ⟨rfl, rfl⟩, by simp⟩
  · next h =>
    refine ⟨rfl, fun n hn => ?_, by simp [h]⟩
    have : d.val ≠ n.val := fun e => hn (Fin.ext e.symm)
    simp [Vector.getElem_set_ne, this]

/-- What `putS` does: the scalar is written and the word goes on. -/
theorem wroteS_putS (d : SReg) (v : Word64) (s : State) : WroteS d v s (putS d v s) := by
  refine ⟨onlySlot_modSlot (onlySlot_complete _), goesOn_complete (by simp) (by simp) s,
    sameRest_complete (sSet_rest d v) s, ?_⟩
  simpa [putS, slotAt_complete, count] using scalarSet_sSet d v (me s)

/-- What `putP` does: the guard is written and the word goes on. -/
theorem wroteP_putP (d : GReg) (v : Bool) (s : State) : WroteP d v s (putP d v s) := by
  refine ⟨onlySlot_modSlot (onlySlot_complete _), goesOn_complete (by simp) (by simp) s,
    sameRest_complete (pSet_rest d v) s, ?_⟩
  simpa [putP, slotAt_complete, count] using guardSet_pSet d v (me s)

/-- What `skip` does: the word goes on. -/
theorem wroteNothing_skip (s : State) : WroteNothing s (skip s) := by
  refine ⟨onlySlot_complete s, ?_, ?_⟩
  · simp [GoesOn, skip, slotAt_complete, count]
  · simp [skip, slotAt_complete, count]

/-! ### A word that waits -/

/-- What `park` does: the slot is parked and its wait counts from 0; nothing else changes. -/
theorem slotAt_park (g : SlotKey) (w : Wait) (s : State) : slotAt (park g w s) g =
    { slotAt s g with
      ctl := { (slotAt s g).ctl with st := .parked, wait := w }, parkCnt := 0, parkLim := bits (slotAt s g).waitlim 0 32 } := by
  simp [park]

theorem waitsFor_park (w : Wait) (s : State) : WaitsFor w s (park s.issue.gid w s) := by
  refine ⟨rfl, fun h hh => ?_, ?_, ?_⟩
  · simp only [park]; exact slotAt_modSlot_ne _ _ hh
  · rw [slotAt_park]
  · rw [slotAt_park]

theorem parkedFor_parkIssued (w : Wait) (s : State) : ParkedFor w s (parkIssued s.issue.gid w s) := by
  refine ⟨rfl, ?_, ?_⟩ <;> simp [parkIssued, issued, modSlot, setSlot, slotAt, park, count]

/-- A wait for vector memory comes first, with the word issued and its operands kept, or the word goes on to its effect. -/
theorem afterVmem_cases (i : Instr) (k : State → State) (s : State) :
    (vmemPending s s.issue.gid = true ∧ afterVmem i k s = parkAccess i .vmem s) ∨
    (vmemPending s s.issue.gid = false ∧ afterVmem i k s = k s) := by
  unfold afterVmem; cases vmemPending s s.issue.gid <;> simp

/-- What becomes of an access of the word that issues. -/
theorem withPlace_eq (i : Instr) (need : Need) (va : Word64) (k : Place → State → State) (s : State) :
    withPlace i need va k s = match resolve s (whoIs s s.issue.gid) need va with
      | .go p => k p s
      | .trap t => fault t s
      | .page => pagePark i va need s
      | .away c => parkAccess i (.away c) s := rfl

/-! ### Traps -/

/-- A trap enters the handler, or is a grid fault. -/
theorem takeTrap_cases (g : SlotKey) (t : TrapInfo) (pc : Word64) (s : State) :
    (((slotAt s g).trap.vec = 0 ∨ inTrap (slotAt s g) = true) ∧ takeTrap g t pc s = gridFault g t (pc &&& ~~~(1 : Word64)) s) ∨
    ((slotAt s g).trap.vec ≠ 0 ∧ inTrap (slotAt s g) = false ∧ takeTrap g t pc s = modSlot g (trapEntry t pc) s) := by
  unfold takeTrap
  by_cases h : (slotAt s g).trap.vec = 0 ∨ inTrap (slotAt s g) = true
  · exact .inl ⟨h, by dsimp only; rw [if_pos h]⟩
  · have h' := h
    simp only [not_or, Bool.not_eq_true] at h'
    exact .inr ⟨h'.1, h'.2, by dsimp only; rw [if_neg h]⟩

theorem slotAlone_modSlot (g : SlotKey) (f : Slot → Slot) (s : State) : SlotAlone g s (modSlot g f s) :=
  ⟨rfl, fun _ h => slotAt_modSlot_ne f s h⟩

/-! ### Bytes -/

theorem sameBytes_refl (s : State) : SameBytes s s := ⟨rfl, rfl, fun _ => rfl⟩

theorem sameBytes_trans {s t u : State} (h : SameBytes s t) (k : SameBytes t u) : SameBytes s u :=
  ⟨k.1.trans h.1, k.2.1.trans h.2.1, fun c => (k.2.2 c).trans (h.2.2 c)⟩

theorem sameBytes_of {s t : State} (hm : t.mem = s.mem) (hc : t.cells = s.cells) : SameBytes s t :=
  ⟨by rw [hm], by rw [hm], fun c => by rw [cellAt_congr hc]⟩

theorem sameBytes_modCell (c : CellKey) {f : Cell → Cell} (hf : ∀ x, (f x).stash = x.stash) (s : State) :
    SameBytes s (modCell c f s) := by
  refine ⟨rfl, rfl, fun d => ?_⟩
  by_cases h : d = c
  · subst h; rw [cellAt_modCell_self, hf]
  · rw [cellAt_modCell_ne f s h]

end Sys2Proof.Machine
end

