-- ==== Sys2Proof/Laws/Step.lean ====
section
/-! SUPPORT. What a step can do: which of its parts is taken, and what each part leaves of memory's canonical form. -/

namespace Sys2Proof.Machine

/-! ### Which step is taken -/

/-- With something on the agenda, a step of a device that has not stopped is its head. -/
theorem step_agenda {s : State} {p : Pick} {rest : List Pick} (h : s.agenda = p :: rest) (hs : s.boot.stopped = false) :
    step s = takePick p { s with agenda := rest } := by
  simp [step, machineStep, beginStep, h, hs]

/-- Every step is a pick, taken in the state without it, or the stop of a stopped device. -/
theorem step_cases (s : State) :
    step s = .fault .deviceStopped ∨
    ∃ p u, step s = takePick p u ∧ (u = { s with agenda := s.agenda.tail } ∨ ∃ n, u = { s with turn := n }) := by
  unfold step machineStep
  dsimp only
  split
  · exact .inl rfl
  · refine .inr ⟨_, _, rfl, ?_⟩
    cases h : s.agenda with
    | nil => exact .inr ⟨_, by simp only [beginStep, h]; rfl⟩
    | cons p r => exact .inl (by simp [beginStep, h])

/-- What each pick does where it answers a next state. -/
theorem takePick_next {p : Pick} {s t : State} (h : takePick p s = .next t) :
    match p with
    | .core c => t = s ∨ coreTurn c s = .next t
    | .event i => t = s ∨ (isEvent i = true ∧ exec i s = .next t)
    | .prefetch g a => t = bufferFill g a s
    | .tlbFill u a va => t = tlbFill u a va s
    | .tlbDrop u a => t = tlbDrop u a s
    | .viewFill l => t = viewFill l s
    | .fly on => t = { s with fly := on }
    | .copies on => t = { s with copies := on, cells := if on then s.cells else tmap (fun x => { x with copies := [] }) s.cells }
    | .copyDrop c l => t = modCell c (fun x => { x with copies := tdel x.copies l }) s
    | .outside pa bs => t = outside pa bs s := by
  cases p <;> simp only [takePick] at h ⊢
  case core =>
    split at h
    · exact .inr h
    · cases h; exact .inl rfl
  case event =>
    split at h
    · next hi => exact .inr ⟨hi.1, h⟩
    · cases h; exact .inl rfl
  all_goals cases h; rfl

/-- A word whose granules decode is executed as its slot's. -/
theorem issueWord_word {g : SlotKey} {s : State} {gs : List (BitVec 16)} {w : IWord}
    (hf : fetchWord s g (slotAt s g).ctl.pc = .word gs) (hd : decodeWord gs = .ok w) :
    issueWord g s = thenNext (wordExec w (atIssue g gs.length s)) (afterWord g) := by
  simp [issueWord, hf, hd]

theorem thenNext_next {r : Res} {k : State → State} {t : State} (h : thenNext r k = .next t) : ∃ u, r = .next u ∧ t = k u := by
  cases r with
  | next u => exact ⟨u, rfl, by cases h; rfl⟩
  | fault f => cases h
  | refused f => cases h

/-! ### The canonical form under the shared operations -/

theorem wf_park {s : State} (h : Memory.wf s) (g : SlotKey) (w : Wait) : Memory.wf (park g w s) := h
theorem wf_complete {s : State} (h : Memory.wf s) (g : SlotKey) : Memory.wf (complete g s) := h
theorem wf_finish {s : State} (h : Memory.wf s) (g : SlotKey) : Memory.wf (finish g s) := h
theorem wf_reissue {s : State} (h : Memory.wf s) (g : SlotKey) : Memory.wf (reissue g s) := h
theorem wf_modGrid {s : State} (h : Memory.wf s) (k : Nat) (f : Grid → Grid) : Memory.wf (modGrid k f s) := by
  unfold modGrid; split <;> exact h

theorem wf_wakePresence {s : State} (h : Memory.wf s) (g : SlotKey) : Memory.wf (wakePresence g s) := by
  unfold wakePresence
  split
  · split <;> exact h
  · exact h

theorem wf_advanceGens {s : State} (h : Memory.wf s) (a store u n : Nat) : Memory.wf (advanceGens a store u n s) := by
  unfold advanceGens
  refine wf_foldl _ (fun s k hs => ?_) _ h
  exact hs

theorem wf_freeHandle {s : State} (h : Memory.wf s) (x : Word64) : Memory.wf (freeHandle x s) := by
  unfold freeHandle
  split
  · unfold freeResidual
    refine wf_advanceGens (wf_modCtx h _ fun x hx => ?_) _ _ _ _
    exact hx
  · exact h

theorem wf_freeInbox {s : State} (h : Memory.wf s) (l : List InboxEntry) : Memory.wf (freeInbox l s) := by
  refine wf_foldl _ (fun s e hs => ?_) _ h
  split
  · split
    · split
      · exact hs
      · exact wf_freeHandle hs _
    · exact hs
  · exact hs

theorem wf_passOn {s : State} (h : Memory.wf s) (loc : Nat) (r : Resv) (v : Word64) (c : Nat) : Memory.wf (passOn loc r v c s) := by
  unfold passOn
  split
  · exact h
  · dsimp only
    split
    · exact h
    · unfold grantLoad
      dsimp only
      split <;> exact h

theorem wf_handOver {s : State} (h : Memory.wf s) (loc : Nat) (v : Word64) (c : Nat) : Memory.wf (handOver loc v c s) := by
  unfold handOver
  split
  · exact h
  · split
    · dsimp only
      split
      · exact h
      · refine wf_passOn ?_ _ _ _ _; exact h
    · exact wf_passOn h _ _ _ _

theorem wf_leaveResv {s : State} (h : Memory.wf s) (g : SlotKey) : Memory.wf (leaveResv g s) := by
  refine wf_foldl _ (fun s k hs => ?_) _ h
  split
  · exact hs
  · split
    · exact wf_handOver hs _ _ _
    · exact hs

theorem wf_leaveFeq {s : State} (h : Memory.wf s) (a : Nat) (g : SlotKey) (ep loc : Nat) : Memory.wf (leaveFeq a g ep loc s) := by
  refine wf_modCell (wf_modCtx h _ fun x hx => ?_) _ fun hc => hc
  intro c hc
  obtain ⟨q, hq, rfl⟩ := List.mem_map.1 hc
  exact hx q hq

theorem wf_leaveWait {s : State} (h : Memory.wf s) (g : SlotKey) : Memory.wf (leaveWait g s) := by
  unfold leaveWait
  dsimp only
  split
  · exact wf_leaveFeq h _ _ _ _
  · exact h
  · exact h
  · exact wf_modCell h _ fun hc => hc
  all_goals exact h

theorem wf_stopSlot {s : State} (h : Memory.wf s) (g : SlotKey) : Memory.wf (stopSlot g s) := by
  unfold stopSlot
  split
  · exact h
  · dsimp only
    exact wf_modSlot (wf_modCell (wf_modCore (wf_freeInbox (wf_leaveResv (wf_leaveWait h _) _) _) _ _) _ fun hc => hc) _ _

theorem wf_releaseCore {s : State} (h : Memory.wf s) (c : CoreKey) : Memory.wf (releaseCore c s) :=
  wf_modCore (wf_modCell h _ fun hc => hc) _ _

theorem wf_killBlock {s : State} (h : Memory.wf s) (c : CoreKey) : Memory.wf (killBlock c s) := by
  unfold killBlock
  split
  · exact h
  · dsimp only
    exact wf_modGrid (wf_releaseCore (wf_foldl _ (fun s g hs => wf_stopSlot hs g) _ h) _) _ _

theorem wf_noteBegun {s : State} (h : Memory.wf s) (c : CoreKey) : Memory.wf (noteBegun c s) := by
  unfold noteBegun
  split
  · split
    · exact h
    · exact wf_modGrid (wf_modCore h _ _) _ _
  · exact h

theorem wf_takeTrap {s : State} (h : Memory.wf s) (g : SlotKey) (t : TrapInfo) (pc : Word64) : Memory.wf (takeTrap g t pc s) := by
  rcases takeTrap_cases g t pc s with ⟨-, he⟩ | ⟨-, -, he⟩ <;> rw [he]
  · unfold gridFault
    split
    · exact wf_killBlock (wf_noteBegun (wf_send h _) _) _
    · exact wf_stopSlot h g
  · exact h

theorem wf_fault {s : State} (h : Memory.wf s) (t : TrapInfo) : Memory.wf (fault t s) := wf_takeTrap h _ _ _

theorem wf_withPlace {s : State} (h : Memory.wf s) (i : Instr) (need : Need) (va : Word64) {k : Place → State → State}
    (hk : ∀ p, Memory.wf (k p s)) : Memory.wf (withPlace i need va k s) := by
  rw [withPlace_eq]
  split
  · exact hk _
  · exact wf_fault h _
  · exact h
  · exact h

theorem wf_setPres {s : State} (h : Memory.wf s) (g : SlotKey) (k : Desig) (p : Pres) : Memory.wf (setPres g k p s) := by
  unfold setPres
  split <;> first | exact h | exact wf_modCell h _ fun hc => hc | (split <;> exact h)

end Sys2Proof.Machine
end

