-- ==== Sys2Proof/Tests/Slice0.lean ====
section
/-! SUPPORT. Tests of the model against the manual: ill-formed instructions, words written out from their encodings, single
steps with values from the manual, and one state and operands for every statement with hypotheses. -/

namespace Sys2Proof.Machine

set_option Elab.async false

/-! ### Ill-formed instructions: one term for each check of `Instr.wf`, which refuses it -/

/-- None of the instructions is well formed. -/
def allIll (l : List Instr) : Bool := l.all fun i => !i.wf

theorem test_wf_scalar : allIll
    [.bfx 4 5 false 60 4, .bfi 4 5 63 1, .cget 4 0x005, .cset 4 0x016, .cset 4 0x004, .cset 4 0x011, .cset 4 0x105,
     .fwinConfigWrite 4 0 0, .fwinConfigWrite 4 0 5, .amo 4 5 6 .and .f32, .amon 5 6 .add .h16, .cas 4 5 6 .s32, .cas2 5 6 8,
     .cas2 0 6 8, .cas2 4 6 9, .slr 3 6 8 0, .slr 4 6 29 0, .slrn 6 29 0, .bsacc 7 6, .slrinst 6 47] = true := by decide

theorem test_wf_long : allIll
    [.rput 4 { rel := false, x := 16, y := 0, core := 0, slot := 0, reg := .s 4 },
     .rput 4 { rel := true, x := 16, y := 0, core := 0, slot := 0, reg := .p 1 }, .cpy 4 5 false false .dev 0,
     .cpyx 4 5 false false .sys 0, .tmmar 4 5 (.mma 0 30 0 2 .s8 .rne false false), .tmmar 4 5 (.mma 1 0 0 0 .f64 .rne false false),
     .tmmar 4 5 (.mma 0 0 0 0 .f32 .rne false false)] = true := by decide

theorem test_wf_vector : allIll
    [.vadd 1 2 3 0 .b32 .rne, .vsub 1 2 3 0 .s32 .rtz, .vmul 1 2 3 0 .e4m3 .rne, .vdiv 1 2 3 0 .s32 .rne,
     .vfma 1 2 3 4 0 .s32 .rne, .vsqrt 1 2 0 .z8 .rne, .vrcpa 1 2 0 .s32, .vmin 1 2 3 0 .b8, .vabs 1 2 0 .b8,
     .vcmp 1 2 3 0 .s32 .un, .vsel 1 2 3 0 .s32, .vnot 1 2 0 .s32, .vshl 1 2 (.vec 3) 0 .f32, .vadds 1 2 3 0 .f32,
     .vdot4 1 2 3 0 .s16 false, .vcvt 1 2 0 .s32 .s32 .rne 0 false, .vcvt 1 2 0 .b32 .s32 .rne 0 false,
     .vcvt 1 2 0 .f32 .e4m3 .rne 4 false, .vbcast 1 2 0 .s32, .vidx 1 2 0 .f32, .vslide 1 2 3 0 .b64 32, .vredadd 4 1 5 0 .s32 .rup,
     .vredmin 4 1 5 0 .b32, .vscan 1 2 0 .f32 .rtz .min, .vpack 1 2 3 0 .b32 true, .vpack 1 2 3 0 .s8 false, .vunpk 1 2 0 .z8 false,
     .vext 4 1 .b64 32, .vins 1 4 .s32x2 0, .mpopc 4 1 .s8, .vld 1 4 0 .f32 0, .vgath 1 2 4 0 .s32 0] = true := by decide

theorem test_wf_matrix : allIll
    [.oload 0 4 5 .b32 false false none, .ofill 0 1 31 1, .tmma 0 0 0 none .s8 .rtz false false 0, .tmma 0 0 0 none .s8 .rne false true 0,
     .tmma 0 0 0 (some 4) .s8 .rne false false 8, .tmma 1 0 0 (some 4) .s8 .rne false false 0, .tmma 0 31 0 none .s8 .rne false false 1,
     .tmma 1 0 0 none .f64 .rne false false 0, .tmma 0 0 0 none .h16 .rne false true 0, .astore 4 0 none 5 .z8 .rne false .s32,
     .astore 4 1 none 5 .f64 .rne false .f64] = true := by decide

/-! ### Words written out from their encodings -/

/-- The S32 of R30: major, d, a, b and func9. -/
def s32R (major d a b func9 : Nat) : List (BitVec 16) :=
  let v := major * 2 ^ 24 + d * 2 ^ 19 + a * 2 ^ 14 + b * 2 ^ 9 + func9
  [BitVec.ofNat 16 (v / 2 ^ 16), BitVec.ofNat 16 v]
/-- The same with imm14 in place of b and func9. -/
def s32I (major d a imm14 : Nat) : List (BitVec 16) := s32R major d a 0 imm14
/-- The V48 of R30. -/
def v48 (op vd va vb vc mask ty func10 : Nat) : List (BitVec 16) :=
  let v := 2 * 2 ^ 46 + op * 2 ^ 38 + vd * 2 ^ 33 + va * 2 ^ 28 + vb * 2 ^ 23 + vc * 2 ^ 18 + mask * 2 ^ 15 + ty * 2 ^ 10 + func10
  [BitVec.ofNat 16 (v / 2 ^ 32), BitVec.ofNat 16 (v / 2 ^ 16), BitVec.ofNat 16 v]
/-- The L64 of R30. -/
def l64 (op d a modifier imm32 : Nat) : List (BitVec 16) :=
  let v := 6 * 2 ^ 61 + op * 2 ^ 53 + d * 2 ^ 48 + a * 2 ^ 43 + modifier * 2 ^ 32 + imm32
  [BitVec.ofNat 16 (v / 2 ^ 48), BitVec.ofNat 16 (v / 2 ^ 32), BitVec.ofNat 16 (v / 2 ^ 16), BitVec.ofNat 16 v]

/-- Every word decodes to its instruction alone. -/
def allDecode (l : List (List (BitVec 16) × Instr)) : Bool :=
  l.all fun p => match decodeWord p.1 with
    | .ok w => decide (w = { guard := none, body := .single p.2 })
    | .error _ => false

/-- The encodings that the manual prints, as bytes or values. -/
theorem test_decode_printed : allDecode
    [([0x0129, 0x8E00], .add 5 6 7), ([0x0142, 0x5405], .divs 8 9 10), ([0x0321, 0x4C70], .madd 4 5 6 7), ([0x021B, 0x0000], .clz 3 12),
     ([0x0921, 0x4043], .shri 4 5 true 3), ([0xC026, 0x0000, 0x89AB, 0xCDEF], .li 6 0x89ABCDEF),
     ([0xC104, 0x2000, 0x0001, 0x86A0], .addiL 4 4 100000), ([0x0A31, 0xD2C8], .bfx 6 7 true 11 8), ([0x0C09, 0x0AC0], .cmp 1 4 5 .ltz),
     ([0x0D11, 0x5040], .cmpi 2 5 .lts 64), ([0x0E08, 0x8600], .pand 1 2 3), ([0x0E38, 0x8004], .movpFrom 7 2),
     ([0x0F21, 0x4CE0], .sel 4 5 6 3 true)] = true := by decide

theorem test_decode_printed_vector : allDecode
    [([0x8790, 0x2700, 0x4001], .vcvt 8 2 0 .e4m3 .f32 .rne 0 true), ([0x9008, 0x0018, 0x0820], .vld 4 6 0 .b32 32),
     ([0x9412, 0x0398, 0x0005], .oload 9 7 6 .b8 true true none), ([0x9480, 0x0400, 0x1001], .tmma 0 0 8 none .s8 .rne false false 1),
     ([0x94C6, 0x0000, 0x0800], .azero 3), ([0x9548, 0x1000, 0x0811], .avec 4 1 17),
     ([0x950E, 0x2018, 0x3410], .astore 7 2 none 6 .bf16 .rne false .f32),
     ([0xC0C9, 0x5000, 0x1214, 0x0C00], .tmmar 9 10 (.mma 4 16 20 1 .e4m3 .rne false false))] = true := by decide

/-- R46: major 0x01. -/
theorem test_decode_alu : allDecode
    [(s32R 1 5 6 7 0, .add 5 6 7), (s32R 1 31 0 1 1, .sub 31 0 1), (s32R 1 5 6 7 2, .mul 5 6 7), (s32R 1 5 6 7 3, .mulhs 5 6 7),
     (s32R 1 5 6 7 4, .mulhz 5 6 7), (s32R 1 5 6 7 5, .divs 5 6 7), (s32R 1 5 6 7 6, .divz 5 6 7), (s32R 1 5 6 7 7, .rems 5 6 7),
     (s32R 1 5 6 7 8, .remz 5 6 7), (s32R 1 5 6 7 9, .and 5 6 7), (s32R 1 5 6 7 10, .or 5 6 7), (s32R 1 5 6 7 11, .xor 5 6 7),
     (s32R 1 5 6 7 12, .andn 5 6 7), (s32R 1 5 6 7 13, .shl 5 6 7), (s32R 1 5 6 7 14, .shrz 5 6 7), (s32R 1 5 6 7 15, .shrs 5 6 7),
     (s32R 1 5 6 7 16, .rotl 5 6 7), (s32R 1 5 6 7 17, .mins 5 6 7), (s32R 1 5 6 7 18, .minz 5 6 7), (s32R 1 5 6 7 19, .maxs 5 6 7),
     (s32R 1 5 6 7 20, .maxz 5 6 7)] = true := by decide

/-- R46: majors 0x02 to 0x10. -/
theorem test_decode_scalar : allDecode
    [(s32R 2 5 6 0 1, .ctz 5 6), (s32R 2 5 6 0 2, .popc 5 6), (s32R 2 5 6 0 3, .bswap 5 6), (s32R 2 5 6 0 4, .sext8 5 6),
     (s32R 2 5 6 0 5, .sext16 5 6), (s32R 2 5 6 0 6, .sext32 5 6), (s32R 3 5 6 7 (8 * 16), .madd 5 6 7 8),
     (s32I 4 5 6 0x3FFF, .addiS 5 6 0x3FFF), (s32I 5 5 6 9, .andiS 5 6 9), (s32I 6 5 6 9, .oriS 5 6 9), (s32I 7 5 6 9, .xoriS 5 6 9),
     (s32I 8 5 6 63, .shli 5 6 63), (s32I 9 5 6 (64 + 3), .shri 5 6 true 3), (s32I 9 5 6 3, .shri 5 6 false 3),
     (s32I 0x0A 5 6 (4096 + 7 * 64 + 3), .bfx 5 6 true 7 3), (s32I 0x0B 5 6 (7 * 64 + 3), .bfi 5 6 7 3),
     (s32R 0x0C 3 6 7 (5 * 64), .cmp 3 6 7 .lez), (s32I 0x0D 3 6 (4 * 2048 + 2047), .cmpi 3 6 .les 2047),
     (s32R 0x0E 3 6 7 1, .por 3 6 7), (s32R 0x0E 3 6 7 2, .pxor 3 6 7), (s32R 0x0E 3 6 0 3, .pnot 3 6), (s32R 0x0E 3 31 0 5, .movpTo 3 31),
     (s32R 0x0F 5 6 7 (2 * 64), .sel 5 6 7 2 false), (s32R 0x10 5 6 7 (2 + 1), .xya 5 6 7 true true)] = true := by decide

/-- R46: majors 0x11 to 0x20. -/
theorem test_decode_control : allDecode
    [(s32I 0x11 5 0 0x21, .cget 5 0x21), (s32I 0x12 0 6 0x20, .cset 6 0x20), (s32I 0x12 0 6 4, .csetVwin 6), (s32I 0x12 0 6 0x30, .csetPbase 6),
     (s32I 0x12 0 6 0x31, .csetPlen 6), (s32I 0x12 0 6 0x14, .csetDeqbase 6), (s32I 0x12 0 6 0x15, .csetSpeclim 6),
     (s32I 0x12 0 6 0x11, .csetLlease 6), (s32I 0x12 0 6 (0x100 + 8 * 9), .fwinWord0Write 6 9),
     (s32I 0x12 0 6 (0x100 + 8 * 9 + 4), .fwinConfigWrite 6 9 4), (s32I 0x12 0 6 (0x100 + 8 * 9 + 5), .inval 6 9),
     (s32I 0x13 3 0 (2 * 32 + 9), .pres 3 (.v 9)), (s32I 0x14 0 0 (4 * 32 + 7), .drop (.acc 7)),
     ([0x15FF, 0xFFFE], .br 0xFFFFFE), ([0x1612, 0x3456], .call 0x123456), (s32R 0x17 0 6 0 0, .jr 6), (s32R 0x18 5 6 0 0, .callr 5 6),
     (s32R 0x19 0 0 0 0, .ret), (s32I 0x1A 0 6 9, .loop 6 9), ([0x1BFF, 0xC009], .loopi 1023 9), (s32I 0x1C 0 6 0x3FF0, .fork 6 0x3FF0),
     (s32R 0x1D 0 6 0 0, .join 6), (s32R 0x1E 0 0 0 0, .nop), (s32R 0x1E 0 0 0 1, .idle), (s32R 0x1E 0 0 0 2, .done),
     (s32R 0x1E 0 0 0 3, .ifence), (s32R 0x1E 0 0 0 4, .tret), (s32R 0x1E 0 0 0 5, .brk), (s32R 0x1E 0 0 0 6, .amow),
     (s32I 0x1F 0 0 9, .trap 9), (s32R 0x20 0 6 0 0, .callh 6), ([0xF000], .nop16)] = true := by decide

/-- R46: majors 0x21 to 0x2E. -/
theorem test_decode_grid : allDecode
    [(s32R 0x21 5 6 7 0, .spec 5 6 7), (s32R 0x22 0 6 0 0, .rfree 6), (s32R 0x23 5 6 0 0, .rinfo 5 6), (s32R 0x24 0 6 7 0, .sstart 6 7),
     (s32R 0x25 5 6 0 0, .sreap 5 6), (s32R 0x26 5 6 0 0, .sstat 5 6), (s32R 0x27 5 6 0 0, .tnext 5 6), (s32R 0x28 5 6 0 0, .launch 5 6),
     (s32R 0x28 0 6 0 1, .gcancelDrain 6), (s32R 0x28 0 6 0 2, .gcancelKill 6), (s32R 0x28 5 6 0 3, .gstat 5 6), (s32R 0x29 5 6 7 0, .chsend 5 6 7),
     (s32R 0x29 5 6 7 1, .chrecv 5 6 7), (s32R 0x29 5 6 7 2, .getstate 5 6 7), (s32I 0x2A 5 6 (4 * 2048 + 0x7F8), .ldOff 5 6 .z16 0x7F8),
     (s32R 0x2B 5 6 7 (6 * 64 + 3 * 8), .ldIdx 5 6 7 .b64 3), (s32I 0x2C 5 6 (3 * 2048 + 8), .stOff 5 6 .b64 8),
     (s32R 0x2D 5 6 7 (64 + 5 * 8), .stIdx 5 6 7 .b16 5), (s32I 0x2E 5 6 8, .ldf 5 6 8), (s32I 0x2E 5 6 (2048 + 8), .ldfk 5 6 8),
     (s32I 0x2E 5 6 (2 * 2048 + 8), .ste 5 6 8), (s32I 0x2E 5 6 (3 * 2048 + 8), .stff 5 6 8), (s32I 0x2E 0 6 (4 * 2048 + 8), .fclr 6 8),
     (s32I 0x2E 5 6 (5 * 2048 + 8), .feq 5 6 8)] = true := by decide

/-- R46: majors 0x2F to 0x3B. -/
theorem test_decode_sync : allDecode
    [(s32R 0x2F 5 6 7 (7 * 32 + 20), .amo 5 6 7 .swap .s32x2), (s32R 0x30 0 6 7 (2 * 32 + 14), .amon 6 7 .min .f32),
     (s32R 0x31 5 6 7 11, .cas 5 6 7 .z64), (s32R 0x32 4 6 8 0, .cas2 4 6 8), (s32R 0x33 4 6 8 63, .slr 4 6 8 63), (s32R 0x34 0 6 8 5, .slrn 6 8 5),
     (s32R 0x35 5 6 0 0, .lrw 5 6), (s32R 0x35 0 6 7 1, .sch 6 7), (s32R 0x35 0 6 0 2, .schx 6), (s32R 0x36 0 6 0 9, .bari 6 9),
     (s32R 0x36 5 0 0 (64 + 9), .bara 5 9), (s32R 0x36 5 6 0 (128 + 9), .barw 5 6 9), (s32R 0x36 5 6 0 (192 + 9), .barq 5 6 9),
     (s32R 0x37 0 0 0 3, .fence .pod), (s32R 0x38 5 6 7 0, .cpyw 5 6 7), (s32R 0x38 5 6 0 1, .cpyq 5 6), (s32I 0x39 0 6 (4096 + 128), .pref 6 .stash 128),
     (s32R 0x3A 5 6 7 0, .stmap 5 6 7), (s32R 0x3A 5 6 0 1, .stunmap 5 6), (s32R 0x3A 5 6 0 2, .stflush 5 6), (s32R 0x3B 5 6 0 0, .oclaim 5 6),
     (s32R 0x3B 0 6 0 1, .orel 6), (s32R 0x3B 5 6 7 2, .mxwait 5 6 7), (s32R 0x3B 5 6 0 3, .mxcap 5 6), (s32R 0x3B 5 6 7 4, .bsum 5 6 7),
     (s32R 0x3B 4 6 0 5, .bsacc 4 6)] = true := by decide

/-- R49, R50: the long forms. -/
theorem test_decode_long : allDecode
    [(l64 2 5 0 0 7, .lih 5 7), (l64 3 0 6 0 (2 ^ 31 + 31 * 2 ^ 26 + 2 * 2 ^ 21 + 3 * 2 ^ 19 + 9 * 2 ^ 15 + (2 * 32 + 5) * 2 ^ 7),
      .rput 6 { rel := true, x := 31, y := 2, core := 3, slot := 9, reg := .v 5 }),
     (l64 4 5 6 (1024 + 2 * 64) 127, .cpy 5 6 true false .dev 127), (l64 5 5 6 (512 + 4 * 64) 9, .cpyx 5 6 false true .sys 9),
     (l64 6 5 6 0 (2 ^ 29 + 7 * 2 ^ 26), .tmmar 5 6 (.zero 7)), (l64 7 0 6 0 48, .slrinst 6 48), (l64 9 5 6 0 0xFFFFFFFF, .andiL 5 6 0xFFFFFFFF),
     (l64 10 5 6 0 7, .oriL 5 6 7), (l64 11 5 6 0 7, .xoriL 5 6 7)] = true := by decide

/-- R48, R224: vector arithmetic. -/
theorem test_decode_vector : allDecode
    [(v48 1 1 2 3 0 4 14 0x300, .vadd 1 2 3 4 .f32 .rup), (v48 2 1 2 3 0 0 4 0, .vsub 1 2 3 0 .s8 .rne), (v48 3 1 2 3 0 7 15 0x100, .vmul 1 2 3 7 .f64 .rtz),
     (v48 4 1 2 3 4 0 12 0x200, .vfma 1 2 3 4 0 .h16 .rdn), (v48 5 1 2 3 4 0 13 0, .vfms 1 2 3 4 0 .bf16 .rne), (v48 6 1 2 3 31 0 14 0, .vfnma 1 2 3 31 0 .f32 .rne),
     (v48 7 1 2 3 0 0 8 0, .vmin 1 2 3 0 .z8), (v48 8 1 2 3 0 0 9 0, .vmax 1 2 3 0 .z16), (v48 9 1 2 0 0 0 7 0, .vabs 1 2 0 .s64), (v48 10 1 2 0 0 0 6 0, .vneg 1 2 0 .s32),
     (v48 11 1 2 3 0 0 14 0, .vdiv 1 2 3 0 .f32 .rne), (v48 12 1 2 0 0 0 15 0, .vsqrt 1 2 0 .f64 .rne), (v48 13 1 2 0 0 0 14 0, .vrcpa 1 2 0 .f32),
     (v48 14 1 2 0 0 0 14 0, .vrsqa 1 2 0 .f32), (v48 15 1 2 0 0 0 14 0, .vexpa 1 2 0 .f32), (v48 16 1 2 0 0 0 14 0, .vloga 1 2 0 .f32),
     (v48 0x11 5 2 3 0 4 14 4, .vcmp 5 2 3 4 .f32 .un), (v48 0x12 1 2 3 0 4 0 0, .vsel 1 2 3 4 .b8), (v48 0x13 1 2 3 0 4 0 0, .vand 1 2 3 4 .b8),
     (v48 0x14 1 2 3 0 4 1 0, .vor 1 2 3 4 .b16), (v48 0x15 1 2 3 0 4 2 0, .vxor 1 2 3 4 .b32), (v48 0x16 1 2 0 0 4 3 0, .vnot 1 2 4 .b64),
     (v48 0x17 1 2 3 0 4 6 0, .vshl 1 2 (.vec 3) 4 .s32), (v48 0x18 1 2 0 9 4 2 1, .vshrz 1 2 (.sca 9) 4 .b32),
     (v48 0x19 1 2 3 0 4 5 0, .vshrs 1 2 (.vec 3) 4 .s16)] = true := by decide

theorem test_decode_lanes : allDecode
    [(v48 0x1A 1 2 3 0 4 4 0, .vadds 1 2 3 4 .s8), (v48 0x1B 1 2 3 0 4 8 0, .vsubs 1 2 3 4 .z8), (v48 0x1C 1 2 3 0 4 6 0, .vmulh 1 2 3 4 .s32),
     (v48 0x1D 1 2 3 0 4 8 1, .vdot4 1 2 3 4 .z8 true), (v48 0x1F 1 0 0 9 4 2 0, .vbcast 1 9 4 .b32), (v48 0x20 1 0 0 9 4 6 0, .vidx 1 9 4 .s32),
     (v48 0x21 1 2 3 0 4 0 0, .vperm 1 2 3 4 .b8), (v48 0x22 1 2 3 0 4 0 255, .vslide 1 2 3 4 .b8 255), (v48 0x23 9 2 0 8 4 14 0x100, .vredadd 9 2 8 4 .f32 .rtz),
     (v48 0x24 9 2 0 8 4 6 0, .vredmin 9 2 8 4 .s32), (v48 0x25 9 2 0 8 4 6 0, .vredmax 9 2 8 4 .s32), (v48 0x26 1 2 0 0 4 6 2, .vscan 1 2 4 .s32 .rne .max),
     (v48 0x27 1 2 0 0 4 2 0, .vcomp 1 2 4 .b32), (v48 0x28 1 2 0 0 4 2 0, .vxpnd 1 2 4 .b32), (v48 0x29 1 2 3 0 4 5 1, .vpack 1 2 3 4 .s16 true),
     (v48 0x2A 1 2 0 0 4 9 1, .vunpk 1 2 4 .z16 true), (v48 0x2B 1 2 0 0 4 3 0, .vmov 1 2 4 .b64), (v48 0x2C 9 2 0 0 0 2 63, .vext 9 2 .b32 63),
     (v48 0x2D 1 0 0 9 0 2 63, .vins 1 9 .b32 63), (v48 0x2E 1 2 3 0 0 0 0, .mand 1 2 3), (v48 0x2F 1 2 3 0 0 0 0, .mor 1 2 3),
     (v48 0x30 1 2 3 0 0 0 0, .mxor 1 2 3), (v48 0x31 1 2 0 0 0 0 0, .mnot 1 2), (v48 0x32 9 2 0 0 0 2 0, .mpopc 9 2 .b32),
     (v48 0x33 9 2 0 0 0 2 0, .mfirst 9 2 .b32)] = true := by decide

/-- R250, R284: vector memory and OFILL. -/
theorem test_decode_vector_memory : allDecode
    [(v48 0x41 0 2 0 6 4 2 1023, .vst 2 6 4 .b32 1023), (v48 0x42 1 0 7 6 4 2 0, .vlds 1 7 6 4 .b32), (v48 0x43 0 2 7 6 4 2 0, .vsts 2 7 6 4 .b32),
     (v48 0x44 1 2 0 6 4 2 3, .vgath 1 2 6 4 .b32 3), (v48 0x45 0 2 3 6 4 2 3, .vscat 2 3 6 4 .b32 3),
     (v48 0x51 31 2 0 0 0 0 (5 * 32 + 3), .ofill 31 2 5 3)] = true := by decide

/-- R38, R47, R51: what is no instruction. -/
theorem test_decode_refused :
    ([[0x0000, 0x0000], s32R 1 5 6 7 21, s32R 2 5 6 1 0, s32I 0x0C 3 6 (6 * 64), s32I 0x2A 5 6 (7 * 2048), s32I 0x2C 5 6 (4 * 2048),
      s32R 0x2F 5 6 7 (8 * 32 + 6), s32R 0x37 0 0 0 5, [0x3C00, 0x0000], v48 0x34 0 0 0 0 0 0 0, v48 1 1 2 3 0 0 22 0, v48 2 1 2 3 0 0 4 0x100,
      l64 0 0 0 0 0, l64 1 5 1 0 7, l64 12 0 0 0 0, [0xF001], [0xF800, 0], [0xE500, 0xF000], [0xE500, 0xE500]] : List (List (BitVec 16))).all
      (fun g => match decodeWord g with | .ok _ => false | .error _ => true) = true := by decide

/-- R37, R38: a guarded pair, and one that writes one register twice. -/
theorem test_decode_pair :
    decodeWord (0xED00 :: s32R (64 + 4) 5 5 0 1 ++ v48 1 1 1 2 0 0 14 0) =
      .ok { guard := some { neg := true, reg := 5 }, body := .pair (.addiS 5 5 1) (.vadd 1 1 2 0 .f32 .rne) } ∧
    (match decodeWord (s32R (64 + 4) 5 5 0 1 ++ v48 0x2C 5 2 0 0 0 2 63) with | .ok _ => false | .error _ => true) = true := by
  decide

/-! ### Small states for tests and witnesses -/

/-- Slot 0 of core 0 at its first word, of 2 granules: privileged, alone, its first gigabyte mapped (log entry 2). -/
def tS : State := atIssue 0 2 { placeState State.reset 32 0 with agenda := [] }
/-- A scalar register of that slot set. -/
def sv (n : SReg) (v : Word64) (s : State) : State := modSlot 0 (sSet n v) s
/-- A guard of that slot set. -/
def pv (n : GReg) (v : Bool) (s : State) : State := modSlot 0 (pSet n v) s
/-- The context of that slot without privilege. -/
def user (s : State) : State := modCtx 1 (fun c => { c with rcd := { c.rcd with priv := false } }) s
/-- The trap registers of that slot. -/
def tv (vec cause pc : Word64) (s : State) : State := modSlot 0 (fun x => { x with trap := { vec := vec, cause := cause, addr := 0, pc := pc } }) s
/-- Its control state changed. -/
def cv (f : Ctl → Ctl) (s : State) : State := modCtl 0 f s

/-- A state that lists slot 0 alone. -/
theorem slotAt_other {s : State} {x : Slot} (h : s.slots = [(0, x)]) {k : SlotKey} (hk : k ≠ 0) : slotAt s k = Slot.reset := by
  simp [slotAt, h, tfind, Ne.symm hk]
theorem coreAt_other {s : State} {x : Core} (h : s.cores = [(0, x)]) {k : CoreKey} (hk : k ≠ 0) : coreAt s k = Core.reset := by
  simp [coreAt, h, tfind, Ne.symm hk]

/-- What the scalar s4 holds after an instruction with s1 and s2 as given. -/
def gives (i : Instr) (x y v : Word64) : Bool :=
  match exec i (sv 1 x (sv 2 y tS)) with
  | .next t => decide (sGet (me t) 4 = v)
  | _ => false

/-! ### The scalar class -/

/-- The table of R164. -/
theorem test_division :
    (gives (.divs 4 1 2) (-7) 2 (-3) && gives (.rems 4 1 2) (-7) 2 (-1) && gives (.divs 4 1 2) 7 (-2) (-3) && gives (.rems 4 1 2) 7 (-2) 1 &&
     gives (.divs 4 1 2) 0x8000000000000000 (-1) 0x8000000000000000 && gives (.rems 4 1 2) 0x8000000000000000 (-1) 0 &&
     gives (.divs 4 1 2) 5 0 0xFFFFFFFFFFFFFFFF && gives (.remz 4 1 2) 5 0 5 && gives (.mulhs 4 1 2) (-1) 3 0xFFFFFFFFFFFFFFFF &&
     gives (.mulhz 4 1 2) 0xFFFFFFFFFFFFFFFF 3 2) = true := by decide +kernel

/-- R165: counts are taken modulo 64. -/
theorem test_shift_counts :
    (gives (.shl 4 1 2) 3 64 3 && gives (.shl 4 1 2) 3 65 6 && gives (.shrs 4 1 2) 0x8000000000000000 63 (-1) &&
     gives (.rotl 4 1 2) 0x8000000000000001 1 3) = true := by decide +kernel

/-- R168, R170, R173: the values the manual works out. -/
theorem test_immediates :
    (gives (.andiS 4 1 0x3FF8) 0x1234567F 0 0x12345678 && gives (.li 4 0x89ABCDEF) 0 0 0xFFFFFFFF89ABCDEF &&
     gives (.bfx 4 1 true 11 8) 0xABC123 0 0xFFFFFFFFFFFFFBC1) = true := by decide +kernel

/-- An instruction issues at `s` with its operands full. -/
def isReady (i : Instr) (s : State) : Bool := (me s).ctl.caught.isNone && !blocked s s.issue.gid (reads i) (writes i)

theorem witness_IntegerResults :
    ([(.divs 4 1 2, -7, 2, -3), (.rems 4 1 2, -7, 2, -1), (.divs 4 1 2, 0x8000000000000000, -1, 0x8000000000000000), (.divs 0 1 2, 5, 0, -1),
      (.divz 4 1 2, 5, 0, -1), (.remz 4 1 2, 5, 0, 5)] : List (Instr × Word64 × Word64 × Word64)).all
      (fun (i, x, y, v) => let s := sv 1 x (sv 2 y tS)
        isReady i s && decide ((divisionValue (me s) i).map (·.2) = some v)) = true ∧
    ([(.add 4 1 2, -1, 1, 0), (.sub 4 1 2, 0, 1, -1), (.mul 4 1 2, 0x100000000, 0x100000000, 0), (.mulhs 4 1 2, -1, 3, -1), (.mulhz 4 1 2, -1, 3, 2),
      (.and 4 1 2, 12, 10, 8), (.or 4 1 2, 12, 10, 14), (.xor 4 1 2, 12, 10, 6), (.andn 4 1 2, 12, 10, 4), (.shl 4 1 2, 3, 65, 6),
      (.shrz 4 1 2, -1, 63, 1), (.shrs 4 1 2, -2, 127, -1), (.rotl 4 1 2, 0x8000000000000001, 1, 3), (.mins 4 1 2, -1, 1, -1),
      (.minz 4 1 2, -1, 1, 1), (.maxs 4 1 2, -1, 1, 1), (.maxz 0 1 2, -1, 1, -1)] : List (Instr × Word64 × Word64 × Word64)).all
      (fun (i, x, y, v) => let s := sv 1 x (sv 2 y tS)
        isReady i s && decide ((aluValue (me s) i).map (·.2) = some v)) = true := by decide +kernel

theorem witness_UnaryImmediateResults :
    ([(.madd 4 1 2 1, -1, 3, -4), (.clz 4 1, 0, 0, 64), (.ctz 4 1, 0, 0, 64), (.popc 4 1, -1, 0, 64), (.bswap 4 1, 1, 0, 0x0100000000000000),
      (.sext8 4 1, 0x80, 0, -128), (.sext16 4 1, 0x8000, 0, -32768), (.sext32 4 1, 0x7FFFFFFF, 0, 0x7FFFFFFF)] :
      List (Instr × Word64 × Word64 × Word64)).all
      (fun (i, x, y, v) => let s := sv 1 x (sv 2 y tS)
        isReady i s && decide ((unaryValue (me s) i).map (·.2) = some v)) = true ∧
    ([(.addiS 4 1 0x2000, 0, -8192), (.addiL 4 1 0x80000000, 0, -2147483648), (.andiS 4 1 0x3FF8, 0x7F, 0x78), (.andiL 4 1 0xFFFFFFFF, 5, 5),
      (.oriS 4 1 1, 2, 3), (.oriL 4 1 1, 2, 3), (.xoriS 4 1 3, 1, 2), (.xoriL 4 1 3, 1, 2), (.shli 4 1 63, 1, 0x8000000000000000),
      (.shri 4 1 true 63, -1, -1), (.shri 4 1 false 63, -1, 1), (.li 4 0x80000000, 0, -2147483648), (.lih 1 1, 5, 0x100000005)] :
      List (Instr × Word64 × Word64)).all
      (fun (i, x, v) => let s := sv 1 x tS
        isReady i s && decide ((immediateValue (me s) i).map (·.2) = some v)) = true := by decide +kernel

theorem witness_FieldSelectAddressResults :
    ([.bfx 4 1 true 63 0, .bfx 4 1 false 0 63, .bfi 4 1 63 0, .bfi 4 1 0 63, .sel 4 1 2 0 true, .sel 4 1 2 7 false, .xya 4 1 2 true true,
      .xya 4 1 2 false false] : List Instr).all (isReady · tS) = true := by decide +kernel

theorem witness_GuardResults :
    ([.cmp 0 1 2 .eq, .cmp 7 1 2 .lez, .cmpi 1 1 .ltz 0x7FF, .pand 1 2 3, .por 1 2 3, .pxor 1 2 3, .pnot 1 2, .movpFrom 4 1, .movpTo 1 4] :
      List Instr).all (isReady · tS) = true := by decide +kernel

/-- Every listed number, in privileged code, and the open ones in other code. -/
theorem witness_ControlRegisterReads :
    (([0x000, 0x001, 0x002, 0x003, 0x004, 0x010, 0x011, 0x012, 0x013, 0x014, 0x015, 0x020, 0x021, 0x022, 0x023, 0x030, 0x031, 0x100, 0x105, 0x17F] :
      List (BitVec 14)).all fun n => isReady (.cget 4 n) tS && cregListed n.toNat && privileged tS 0) = true ∧
    (isReady (.cget 4 0) (user tS) && !cregPriv 0 && !privileged (user tS) 0 && cregPriv 0x011) = true := by decide +kernel

theorem witness_SlotRegisterWrites :
    ([0x012, 0x020, 0x023, 0x000, 0x022] : List (BitVec 14)).all (fun n => isReady (.cset 4 n) tS && cregListed n.toNat && !cregPriv n.toNat) = true := by
  decide +kernel

theorem witness_ContextRegisterWrites :
    (isReady (.csetLlease 4) tS && privileged tS 0 && isReady (.csetSpeclim 4) (user tS) && isReady (.csetPbase 4) tS) = true ∧
    (let s := sv 4 0x00000FFF00000FC0 tS
     isReady (.csetDeqbase 4) s && decide ((coreAt s (myCore s)).area = 0) &&
      decide (bits (sGet (me s) 4) 6 13 * 64 + bits (sGet (me s) 4) 32 13 * 64 ≤ tenantStash s (myCell s))) = true := by decide +kernel

/-- A partition of 256 cells fits, one of 257 does not; the first waits while the context has ticks. -/
theorem witness_PartitionCommit :
    (isReady (.csetPlen 4) (sv 4 256 tS) && privileged (sv 4 256 tS) 0 && (ctxAt (sv 4 257 tS) 1).isSome && isReady (.csetPlen 4) (sv 4 257 tS) &&
     decide ((ctxAt tS 1).map (fun c => (c.part.base, c.rcd.tick)) = some (0, 0)) && !hasLiveGrid tS 1) = true ∧
    (ctxAt (modCtx 1 (fun c => { c with rcd := { c.rcd with tick := 100 } }) (sv 4 256 tS)) 1).map (·.rcd.tick) = some 100 := by decide +kernel

/-- Sizes 7 (refused), 32 (unchanged), 8 and 0 (given at once), 16 with an operation on its way (waits). -/
theorem witness_WindowResize :
    ([0x70000, 0x200000, 0x80000, 0, 0x100000] : List Word64).all (fun v => isReady (.csetVwin 4) (sv 4 v tS)) = true ∧
    (me tS).win.size = 32 ∧ opsPending tS 0 = false ∧ windowFor tS 0 8 = some 32 ∧ windowFor tS 0 0 = some 0 ∧ bankAwake tS 0 32 = true ∧
    opsPending (send (.reply { gid := 0, epoch := 0, op := some 3 }) tS) 0 = true := by decide +kernel

/-- A window of 64 rows and 128 columns that fits, words that do not, and a line invalidated. -/
theorem witness_FormatWindowWrites :
    (isReady (.fwinWord0Write 4 15) (sv 4 0 tS) && privileged tS 0 && !bit (sGet (me (sv 4 0 tS)) 4) 0) = true ∧
    (bit (sGet (me (sv 4 1 tS)) 4) 0 && !windowOk tS 0 15 1) = true ∧
    (let s := { tS with fwin := [(120, 0), (121, 0x20000000000), (122, 0x8000000040), (123, 0x100000)] }
     bit (5 : Word64) 0 && windowOk s 0 15 5) = true ∧
    ([1, 2, 3, 4, 6, 7] : List (Fin 8)).all (fun k => isReady (.fwinConfigWrite 4 15 k) tS && k != 5) = true ∧
    (isReady (.inval 4 15) tS && !bit (fwinWord tS 0 15 0) 0) = true ∧
    (withMsg tS (.inval 0 0 15)).net.any (fun m => decide (m.2 = .inval 0 0 15)) = true := by decide +kernel

theorem witness_PrivilegeFaults :
    privileged (user tS) 0 = false ∧
    ([0x011, 0x030, 0x031, 0x100, 0x17F] : List (BitVec 14)).all (fun n => cregListed n.toNat) = true := by decide +kernel

theorem witness_PresenceWords :
    (isReady (.pres 1 (.v 31)) tS && decide (desigFault (.pres 1 (.v 31)) tS = none) && isReady (.pres 0 (.s 0)) tS &&
     ([.s 0, .p 0, .m 0, .s 31, .v 31, .m 7] : List Desig).all fun k => decide (desigFault (.drop k) tS = none) && !writeBlocks tS 0 k) = true := by
  decide +kernel

/-- Even targets with and without a link, and odd ones. -/
theorem witness_BranchesTaken :
    (let s := sv 4 0x2000 (sv 31 0x3000 tS)
     ([(.br 0xFFFFFE, 0xFFC), (.call 2, 0x1004), (.jr 4, 0x2000), (.callr 5 4, 0x2000), (.callr 0 4, 0x2000), (.ret, 0x3000)] : List (Instr × Word64)).all
       fun (i, v) => isReady i s && decide ((branchOf s i).map (·.1) = some v)) = true ∧
    (let s := sv 4 0x2001 (sv 31 1 tS)
     ([.jr 4, .callr 5 4, .ret] : List Instr).all fun i => isReady i s && (branchOf s i).any fun p => p.1.getLsbD 0) = true := by decide +kernel

/-- A record of a loop, for the witnesses about loops. -/
def tLoop (stop count : Word64) : LoopRec := { start := 0x800, stop := stop, count := count }

/-- A loop may start; two are live; its end lies before its start; the word is an end word; and the count is 0. -/
theorem witness_LoopStarts :
    LoopLegal (sv 4 3 tS) 0x1004 ∧ isReady (.loop 4 2) (sv 4 3 tS) = true ∧
    (loopOf (sv 4 3 tS) (.loop 4 2)).map (fun p => (p.1.toNat, p.2.toNat)) = some (3, 0x1004) ∧
    (loopOf tS (.loopi 0 3)).map (fun p => (p.1.toNat, p.2.toNat)) = some (0, 0x1006) ∧
    (match fetchFrom tS 0 0x1006 [] 3 with | .word gs => gs.length == 2 | .stop _ => false) = true ∧
    ¬ LoopLegal (cv (fun c => { c with loops := [tLoop 0x900 1, tLoop 0x900 1] }) tS) 0x1004 ∧ ¬ LoopLegal tS 0x1002 ∧
    ¬ LoopLegal (cv (fun c => { c with loops := [tLoop 0x1000 2] }) tS) 0x1004 := by
  refine ⟨?_, by decide +kernel, by decide +kernel, by decide +kernel, by decide +kernel, ?_, ?_, ?_⟩
  · unfold LoopLegal; decide +kernel
  · intro h; exact absurd h.2.1 (by decide +kernel)
  · intro h; exact absurd h.1 (by decide +kernel)
  · intro h; exact h.2.2 (tLoop 0x1000 2) (by decide +kernel) (by decide +kernel)

theorem witness_LoopEnds :
    (∀ r ∈ [tLoop 0x900 1], r.stop ≠ 0x1000) ∧ (tLoop 0x1000 2).stop = 0x1000 ∧ 2 ≤ (tLoop 0x1000 2).count.toNat ∧ (tLoop 0x1000 1).count = 1 ∧
    presOf tS 0 (.p 3) = .full ∧ pGet (me tS) 3 = false ∧ (slotAt (park 0 .queue tS) 0).ctl.st = .parked := by decide +kernel

/-- A word of a three-level nest that ends where the two inner loops end (R185). -/
theorem test_end_check :
    endCheck 0x1000 0x1004 [tLoop 0x900 9, tLoop 0x1000 1, tLoop 0x1000 2] = ([tLoop 0x1000 1], 0x800) := by decide

theorem witness_TrapEntry :
    (me (tv 0x4000 0 0 tS)).trap.vec ≠ 0 ∧ bit (me (tv 0x4000 0 0 tS)).trap.cause 11 = false ∧ fIll.code < 256 := by decide +kernel

theorem witness_UnhandledTraps :
    (me tS).trap.vec = 0 ∧ bit (me (tv 0x4000 0x800 0 tS)).trap.cause 11 = true ∧ (coreAt tS (myCore tS)).block.isSome = true := by decide +kernel

/-- Without a debugger, and with one; in a handler, and outside one. -/
theorem witness_TrapsAskedAndLeft :
    (ctxAt (tv 0x4000 0 0 tS) 1).map (·.attached) = some false ∧
    (ctxAt (modCtx 1 (fun c => { c with attached := true }) (tv 0x4000 0 0 tS)) 1).map (·.attached) = some true ∧
    (me (tv 0x4000 0 0 tS)).trap.vec ≠ 0 ∧
    bit (me (tv 0x4000 0x801 0x2000 tS)).trap.cause 11 = true ∧ bit (me tS).trap.cause 11 = false := by decide +kernel

/-- R361, R364: a trap taken and returned from. -/
theorem test_trap_and_return :
    (match exec (.trap 5) (tv 0x4000 0 0 (sv 1 7 tS)) with
      | .next t => (me t).ctl.pc == 0x4000 && (me t).trap.cause == 0x50000080E && (me t).trap.pc == 0x1004 &&
        (match exec .tret (sv 1 9 t) with
          | .next u => (me u).ctl.pc == 0x1004 && sGet (me u) 1 == 7 && (me u).trap.cause == 0x50000000E
          | _ => false)
      | _ => false) = true := by decide +kernel

/-! ### Control flow, slots and handles -/

/-- Slot 1 of core 0 issues, beside a keeper that runs. -/
def tOne : State :=
  { modSlot 1 (fun _ => { slotAt tS 0 with win := { base := 32, size := 32 } }) tS with issue := { gid := 1, half := .whole, done := false } }
/-- A task. -/
def tTask : Task := { pc := 0x3000, ctr := 0x800, args := #v[1, 2, 3, 4], asid := 1, grid := 0, clock := 0 }
/-- Tasks on core 0's deque. -/
def dq (l : List Task) (s : State) : State := modCore 0 (fun c => { c with deque := l }) s
/-- A full deque, with an area of so many entries at the start of the stash. -/
def tDeq (cap : Nat) : State := modCore 0 (fun c => { c with deqbase := BitVec.ofNat 64 (cap * 2 ^ 32) }) (dq (List.replicate 64 tTask) tS)

theorem witness_ForkJoinIdle :
    (isReady (.fork 4 0x2000) tS = true ∧ vmemPending tS 0 = false ∧
      (coreAt (dq (List.replicate 63 tTask) tS) 0).deque.length - (coreAt (dq (List.replicate 63 tTask) tS) 0).area < 64 ∧
      ∀ d h, mayTake tS d (myCore tS) = true → coreOf h = d → (slotAt tS h).ctl.st ≠ .idle) ∧
    ([0, 31, 32, 64] : List Nat).all (fun cap =>
      let c := coreAt (tDeq cap) 0
      isReady (.fork 4 0x2000) (tDeq cap) && !vmemPending (tDeq cap) 0 && decide (64 ≤ c.deque.length - c.area) &&
      decide (bits c.deqbase 32 13 < c.area + 32) == decide (cap < 32) && bytesWf (cellAt (tDeq cap) (myCell (tDeq cap))).stash) = true ∧
    (∀ d h, mayTake (tDeq 64) d (myCore (tDeq 64)) = true → coreOf h = d → (slotAt (tDeq 64) h).ctl.st ≠ .idle) ∧
    isKeeper tS.issue.gid = true ∧ isKeeper tOne.issue.gid = false ∧
    (∀ d, mayTake tOne (myCore tOne) d = true → (coreAt tOne d).deque = []) ∧
    mayTake (dq [tTask] tOne) 0 0 = true ∧ (coreAt (dq [tTask] tOne) 0).deque = [] ++ [tTask] := by
  have idle : ∀ (s : State) (h : SlotKey), s.slots = [(0, slotAt tS 0)] → (slotAt s h).ctl.st ≠ .idle := fun s h e => by
    by_cases hk : h = 0
    · subst hk
      rw [show slotAt s 0 = slotAt tS 0 by simp [slotAt, e, tfind]]
      decide +kernel
    · rw [slotAt_other e hk]; decide
  refine ⟨⟨by decide +kernel, by decide +kernel, by decide +kernel, fun d h _ _ => idle tS h rfl⟩, by decide +kernel,
    fun d h _ _ => idle (tDeq 64) h rfl, by decide, by decide, fun d _ => ?_, by decide +kernel, by decide +kernel⟩
  · by_cases hk : d = 0
    · subst hk; decide +kernel
    · rw [coreAt_other (x := coreAt tOne 0) rfl hk]; rfl

/-- Slot 0 alone: every other slot is FREE. -/
theorem tS_free (h : SlotKey) (hk : isKeeper h = false) : (slotAt tS h).ctl.st = .free := by
  have : h ≠ 0 := fun e => by subst e; exact absurd hk (by decide)
  rw [slotAt_other (x := slotAt tS 0) rfl this]; rfl

/-- DONE of another slot, of a keeper with another slot running, of a keeper whose block is over, and of one that must wait. -/
theorem witness_DoneAndDrains :
    (isKeeper tOne.issue.gid = false ∧ ∀ d sel, (slotAt tOne (16 * myCore tOne)).ctl.wait ≠ .reap d sel) ∧
    (isKeeper 0 = true ∧ isKeeper 1 = false ∧ coreOf 1 = 0 ∧ (slotAt tOne 1).ctl.st ≠ .free) ∧
    (blockDrained tS 0 = true ∧ (me tS).pfail = none ∧ (coreAt tS 0).passed = [] ∧
      (coreAt (modCore 0 (fun c => { c with block := some { placeBlock with begun := true } }) tS) 0).block.map (·.begun) = some true) ∧
    blockDrained (send (.reply { gid := 0, epoch := 0, op := some 1 }) tS) 0 = false ∧
    (∀ h, isKeeper h = false → coreOf h = 0 → (slotAt (send (.reply { gid := 0, epoch := 0, op := some 1 }) tS) h).ctl.st = .free) ∧
    (storesFly tS 0 = false ∧ vmemPending tS 0 = false ∧ (me tS).posted = 0) ∧
    (me (modSlot 0 (fun x => { x with pfail := some { code := 4, status := 0, addr := 8, count := 1 } }) tS)).pfail.isSome = true ∧
    (me (modSlot 0 (fun x => { x with posted := 1 }) tS)).posted ≠ 0 ∧ fenceReady tS 0 .sys = true ∧ fenceReady tS 0 .cell = true := by
  refine ⟨⟨by decide, fun d sel => ?_⟩, by decide +kernel, by decide +kernel, by decide +kernel, fun h hk _ => tS_free h hk, by decide +kernel⟩
  rw [show (slotAt tOne (16 * myCore tOne)).ctl.wait = .none from by decide +kernel]
  exact fun h => by cases h

/-- A template of 128 bytes at unit 2, and a residual of one unit at unit 3, of the context of `tS`. -/
def tTmpl : Template := { off := 2, gen := 1, obj := 1, code := 2, units := 2, bytes := 128, body := [] }
def tResid : Residual := { off := 3, units := 1, gen := 1, bytes := 64, info := 7, tmpl := 2 }
def tHand : State := modCtx 1 (fun c => { c with tmpls := [tTmpl], resids := [tResid] }) tS
/-- Their handles (R70). -/
def hTm : Word64 := 0x4000400040000002
def hRe : Word64 := 0x0000400040000003

theorem witness_HandleWords :
    (let s := sv 4 hTm tHand
     isReady (.callh 4) s = true ∧ (ctxAt s 1).any (fun c => c.tmpls.contains tTmpl && decide (c.rcd.cstore % 2 = 0)) = true ∧
     (ctxAt s 1).any (fun c => decide (handleEntry s 1 (sGet (me s) 4) =
       some (BitVec.ofNat 64 (c.rcd.cstore + 64 * tTmpl.off), BitVec.ofNat 64 (tTmpl.bytes % 2 ^ 32 + 2 ^ 62)))) = true) ∧
    (handleEntry tS 1 0 = none ∧ bit (0x8000000000000000 : Word64) 63 = true ∧ hAsid hTm = 1) ∧
    (let s := sv 4 hRe tHand
     isReady (.rfree 4) s = true ∧ handleEntry s 1 (sGet (me s) 4) ≠ none ∧ residualOf s (sGet (me s) 4) = some tResid ∧
     hTmpl (sGet (me s) 4) = false ∧ (ctxAt s 1).any (fun c => decide (c.resids.Nodup)) = true) ∧
    hTmpl hTm = true ∧ isReady (.rinfo 4 5) tS = true ∧ (handleEntry tHand 1 hRe).isSome = true ∧
    (tHand.fly = false ∧ ([.callh 4, .rfree 4, .rinfo 4 5] : List Instr).all (isReady · { tHand with fly := true }) = true) ∧
    isReady (.spec 4 5 6) tS = true ∧ vmemPending tS 0 = false := by decide +kernel

/-- A block of 16 slots, the last of which is free, ended, or idle while the keeper reaps. -/
def tSixteen : State := modCore 0 (fun c => { c with block := some { placeBlock with slots := 16 } }) tS

theorem witness_SlotWords :
    (let s := sv 4 15 (sv 5 0x2000 tSixteen)
     isReady (.sstart 4 5) s = true ∧ (coreAt s 0).block.map (·.slots) = some 16 ∧ (sGet (me s) 4).toNat = 15 ∧
     (slotAt s 15).ctl.st = .free ∧ bit (sGet (me s) 5) 0 = false) ∧
    isKeeper 1 = false ∧ (isReady (.sreap 5 4) (sv 4 16 tS) = true ∧ 15 < (sGet (me (sv 4 16 tS)) 4).toNat) ∧
    (slotAt (modCtl 15 (fun c => { c with st := .ended }) (sv 4 15 tSixteen)) 15).ctl.st = .ended ∧
    (sGet (me tS) 4 = 0 ∧ ((List.range 15).all fun k => decide ((slotAt tS (k + 1)).ctl.st = .free)) = true) ∧
    (isReady (.sstat 5 4) (sv 4 15 tS) = true ∧ (slotAt tS 15).ctl.st ≠ .spilled ∧ (slotAt (park 0 .queue tS) 0).ctl.st = .parked) ∧
    idleEnds (modCtl 1 (fun c => { c with st := .idle }) (park 0 (.reap 4 0) tSixteen)) 0 = true := by decide +kernel

/-! ### Memory -/

/-- Bytes of memory. -/
def mb (a n v : Nat) (s : State) : State := writeLoc a (leBytes n v) s

/-- A vector memory operation of the slot that issues waits in its core's queue. -/
def tBusy (s : State) : State :=
  modCore 0 (fun k => { k with queue := [{ seq := 1, gid := s.issue.gid, epoch := 0, instr := .vld 1 5 0 .b32 0, scal := [0, 0] }] }) s

/-- In memory, in the own stash, misaligned, poisoned, and with accesses that travel. -/
theorem witness_Loads :
    Served (sv 5 0x3FFFFFF8 tS) .read 0x3FFFFFF8 (.mem 0x3FFFFFF8) ∧ Served tS .read 0xFF0000000007FFF8 (.stash 0 0x7FFF8) ∧
    ([.ldOff 4 5 .b64 0, .ldOff 0 5 .s8 0x7FF, .ldIdx 4 5 0 .z32 7] : List Instr).all
      (fun i => isReady i (sv 5 0x3FFFFFF8 tS) && (loadOf (me (sv 5 0x3FFFFFF8 tS)) i).isSome) = true ∧
    (0x3FFFFFF9 : Word64).toNat % ldBytes .s16 ≠ 0 ∧ poisoned tS (.mem 0x3FFFFFF8) 8 = false ∧ tS.copies = false ∧
    poisoned { tS with mem := { tS.mem with poison := [0x3FFFFFF8 / 128] } } (.mem 0x3FFFFFF8) 8 = true ∧
    resolve { tS with fly := true } (whoIs tS 0) .read 0x3FFFFFF8 = .go (.mem 0x3FFFFFF8) ∧
    vmemPending (tBusy tS) 0 = true ∧ (match resolve tS (whoIs tS 0) .read 0x0200000000000000 with | .trap _ => true | _ => false) = true := by
  unfold Served; decide +kernel

/-- An entry of a TLB of core 0: a gigabyte and its leaf (R13, R247). -/
def tTlb (va : Nat) (leaf : Word64) : TlbEntry := { unit := 0, key := tlbKey 30 va, leaf := leaf }

/-- The canonical form of memory, decided. -/
def isWf (s : State) : Bool := decide (Memory.wf s)

/-- A context with a registered queue 3, that of virtual function 255; its page is at 0x0000_0280_00FF_0000 (R391). -/
def tQueue : State :=
  modCtx 1 (fun c => { c with
    queues := [(3, { cb := 0x2000, next := none, wake := false, scans := 0, barrier := false, fault := false })]
    rcd := { c.rcd with vf := 127 }
    tlb := [tTlb 0 15, tTlb 0x028000000000 0x02800000000F] }) tS

theorem witness_Stores :
    Served (sv 5 0x3FFFFFF8 tS) .write 0x3FFFFFF8 (.mem 0x3FFFFFF8) ∧ Served tS .write 0xFF0000000007FFF8 (.stash 0 0x7FFF8) ∧
    ([.stOff 4 5 .b64 0, .stOff 4 5 .b8 0x7FF, .stIdx 4 5 0 .b32 7] : List Instr).all
      (fun i => isReady i (sv 5 0x3FFFFFF8 tS) && (storeOf (me (sv 5 0x3FFFFFF8 tS)) i).isSome) = true ∧
    (0x3FFFFFFC : Word64).toNat % stBytes .b64 ≠ 0 ∧ (∀ h ∈ holdersOf tS (0x3FFFFFF8 / 128), h.2.2.2 = false) ∧ isWf tS = true ∧
    Served { modCtx 1 (fun c => { c with tlb := [tTlb 0x020000000000 0x02000000000F] }) tS with
      fwin := [(0, 5), (1, 0x20000000000), (2, 0x8000000040), (3, 0)] } .write 0x020000000008 (.view 0x020000000008) ∧
    Served tQueue .write 0x0280007F0018 (.vf 127 0x18) ∧ queueOwner tQueue 127 3 = some 1 ∧ queueOwner tQueue 127 4 ≠ some 1 ∧
    (ctxAt tQueue 1).any (fun c => (tfind c.queues 3).isSome) = true ∧ tQueue.boot.handover = false ∧ 0 < tokensOf tQueue 127 ∧
    resolve { tS with fly := true } (whoIs tS 0) .write 0x3FFFFFF8 = .go (.mem 0x3FFFFFF8) := by
  unfold Served; decide +kernel

/-- R247, R248: a store and the load that reads it back. -/
theorem test_store_load :
    (match exec (.stOff 4 5 .b16 1) (sv 4 0x12345 (sv 5 0x1FFF tS)) with
      | .next t => (match exec (.ldOff 6 5 .s16 1) (sv 5 0x1FFF t) with
        | .next u => sGet (me u) 6 == 0x2345 && (getByte t.mem.bytes 0x2000 == 0x45) && (getByte t.mem.bytes 0x2002 == 0)
        | _ => false)
      | _ => false) = true := by decide +kernel

/-- The word's tag set, and a store that waits for it. -/
def tFull : State := modCell 0 (fun c => { c with tags := [0xFFFF] }) tS
def tWait : State := modCell 0 (fun c => { c with feq := [(stashLoc 0 0x7FFF8, [], [{ gid := 1, epoch := 0, op := 2, d := 0, v := 9, clock := 0 }])] }) tFull
/-- s5 such that the word is named. -/
def fe (s : State) : State := sv 5 0xFF0000000007FFF8 s

/-- The last word of the own stash: its tag empty, full, and full with a store that waits. -/
theorem witness_FullEmptyWords :
    (∀ s ∈ [tS, tFull, tWait], FullEmptyAt (fe s) (sGet (me (fe s)) 5 + (0 : BitVec 11).signExtend 64) 0 0x7FFF8) ∧
    (([.ldf 4 5 0, .ldfk 4 5 0, .ste 4 5 0, .stff 4 5 0, .fclr 5 0, .feq 4 5 0] : List Instr).all fun i => isReady i (fe tS)) = true ∧
    tagAt (fe tFull) 0 0x7FFF8 = true ∧ tagAt (fe tS) 0 0x7FFF8 = false ∧ feqOf (fe tFull) (stashLoc 0 0x7FFF8) = ([], []) ∧
    ((feqOf (fe tWait) (stashLoc 0 0x7FFF8)).1 = [] ∧ (feqOf (fe tWait) (stashLoc 0 0x7FFF8)).2.length = 1) ∧
    (let s := fe { tFull with mem := { tFull.mem with poison := [stashLoc 0 0x7FFF8 / 128] } }
     s.mem.poison.contains (stashLoc 0 0x7FFF8 / 128) = true ∧ (fe tFull).mem.poison.contains (stashLoc 0 0x7FFF8 / 128) = false ∧
     tagAt s 0 0x7FFF8 = true ∧ isReady (.ldf 4 5 0) s = true ∧ FullEmptyAt s (sGet (me s) 5 + (0 : BitVec 11).signExtend 64) 0 0x7FFF8) ∧
    (sGet (me (fe tS)) 5 + (4 : BitVec 11).signExtend 64).toNat % 8 ≠ 0 ∧ bits (sGet (me tS) 5 + (8 : BitVec 11).signExtend 64) 57 7 = 0 := by
  unfold FullEmptyAt; decide +kernel

/-- R328: a compare and swap that fails leaves the word and shows it. -/
theorem test_cas_fails :
    (match exec (.cas 4 5 6 .z64) (sv 4 1 (sv 5 0x2000 (sv 6 7 (mb 0x2000 8 2 tS)))) with
      | .next t => sGet (me t) 4 == 2 && getBytes t.mem.bytes 0x2000 8 == leBytes 8 2
      | _ => false) = true := by decide +kernel

/-- The last aligned places of the first gigabyte. -/
theorem witness_Atomics :
    Served (sv 5 0x3FFFFFFC tS) .write 0x3FFFFFFC (.mem 0x3FFFFFFC) ∧ Served (sv 5 0x3FFFFFF0 tS) .write 0x3FFFFFF0 (.mem 0x3FFFFFF0) ∧
    (isReady (.amo 4 5 6 .add .s32) (sv 5 0x3FFFFFFC tS) && amoLegal .add .s32 && amoLegal .add .f32 && isReady (.cas 4 5 6 .z32) (sv 5 0x3FFFFFFC tS) &&
      isReady (.cas2 4 5 6) (sv 5 0x3FFFFFF0 tS)) = true ∧
    atomicFault tS 0x3FFFFFFC (.mem 0x3FFFFFFC) = none ∧ atomicFault tS 0x3FFFFFF0 (.mem 0x3FFFFFF0) = none ∧
    ((Place.mem 0x3FFFFFFC).down 4 = .mem 0x3FFFFFFC ∧ ∀ h ∈ holdersOf tS (0x3FFFFFFC / 128), h.2.2.2 = false) ∧ isWf tS = true ∧
    (0x3FFFFFFE : Word64).toNat % (Ty.s32.width / 8) ≠ 0 ∧ (0x3FFFFFF8 : Word64).toNat % 16 ≠ 0 ∧
    (Served { modCtx 1 (fun c => { c with tlb := [tTlb 0x020000000000 0x02000000000F] }) tS with
      fwin := [(0, 5), (1, 0x20000000000), (2, 0x8000000040), (3, 0)] } .write 0x020000000010 (.view 0x020000000010)) ∧
    (atomicFault tS 0x020000000010 (.view 0x020000000010)).isSome = true := by
  unfold Served; decide +kernel


/-- A slice instruction (R336). -/
def slw (op d a b w t c imm : Nat) : Nat :=
  op * 2 ^ 26 + d * 2 ^ 23 + a * 2 ^ 20 + b * 2 ^ 17 + w * 2 ^ 13 + t * 2 ^ 9 + c * 2 ^ 8 + imm

/-- Every operation and type, at the ends of the fields; the conditional forms with g2 = 0 and with g2 = 1. -/
theorem witness_RoutineSteps :
    ([slw 1 0 0 0 15 0 0 0, slw 2 7 7 0 0 0 0 0, slw 3 0 0 1 15 0 0 0, slw 3 2 0 1 0 0 1 0, slw 4 2 1 0 0 0 1 0, slw 5 0 1 0 0 0 0 255, slw 5 0 1 0 0 6 0 1, slw 5 0 1 0 0 3 0 0,
      slw 6 0 1 0 0 3 0 128, slw 6 2 1 0 0 0 1 0, slw 7 0 0 0 8 0 0 0, slw 7 0 0 0 0 0 0 7, slw 8 7 1 0 0 0 0 0, slw 9 0 1 2 0 0 0 0, slw 9 0 1 2 0 1 0 0,
      slw 9 0 1 2 0 2 0 0, slw 10 0 1 2 0 0 0 0, slw 10 0 1 2 0 3 0 0, slw 11 0 1 2 0 1 0 0, slw 12 0 1 2 0 0 0 0, slw 13 0 1 2 0 1 0 0, slw 14 0 1 2 0 0 0 0,
      slw 15 0 1 2 0 0 0 0, slw 16 0 1 2 0 0 0 0, slw 17 0 1 2 0 0 0 0, slw 18 0 1 2 0 0 0 0, slw 19 0 1 2 0 0 0 0, slw 19 0 1 2 3 0 0 0,
      slw 20 0 1 2 7 0 0 0] : List Nat).all sliceOk = true ∧
    (([9, 10, 11, 12, 13] : List Nat).all (fun o => (List.range 10).all fun t => sliceOk (slw o 7 0 7 0 t 0 0)) &&
      ([0, 1, 2, 3, 5, 6, 7] : List Nat).all fun t => sliceOk (slw 19 7 0 7 3 t 0 0)) = true ∧
    (let r : RoutineSt := { g := #v[1, 2, 0, 4, 5, 6, 7, 8], line := 0 }
     iC (slw 3 2 0 1 0 0 1 0) = 1 ∧ rGet r (iD (slw 3 2 0 1 0 0 1 0)) = 0 ∧ rGet { r with g := #v[1, 2, 1, 4, 5, 6, 7, 8] } 2 ≠ 0 ∧
     iT (slw 6 0 1 0 0 3 0 128) = 3 ∧ 8 * 2 ^ (iT (slw 5 0 1 0 0 6 0 1) % 4) = 32) := by decide +kernel

/-- An image of one instruction, its third word (R335). -/
def tImage : List Byte := leBytes 8 1 ++ leBytes 4 (slw 1 0 0 0 0 0 0 0)
/-- An installed routine, and one in memory. -/
def tRoutine : State := modCtx 1 (fun c => { c with routines := [(48, tImage)] }) (mb 0x2000 12 (leNat tImage) tS)

/-- Built-in routines, an installed one and one that is not, and numbers of no routine; removal, images that are one and that are none,
at once and where requests travel. -/
theorem witness_Routines :
    Served (sv 5 0x3FFFFF80 tRoutine) .write 0x3FFFFF80 (.mem 0x3FFFFF80) ∧
    (let s := sv 5 0x3FFFFF80 tRoutine
     isReady (.slr 4 5 8 0) s = true ∧ atomicFault s (sGet (me s) 5) (.mem 0x3FFFFF80) = none ∧
     placeFault (sGet (me s) 5) (.mem 0x3FFFFF80) = none ∧ foreign (.mem 0x3FFFFF80) = false ∧
     (builtinOf 0 = some (.rmw .add .z32) ∧ builtinOf 37 = some (.cas .z32) ∧ builtinOf 39 = some .cas2) ∧ isWf s = true ∧
     builtinOf 48 = none ∧ builtinOf 47 = none ∧ (ctxAt s 1).map (fun c => (tfind c.routines 48, tfind c.routines 63)) = some (some tImage, none) ∧
     (∀ h ∈ holdersOf s (0x3FFFFF80 / 128), h.2.2.2 = false)) ∧
    (isReady (.slrinst 5 48) tS = true ∧ sGet (me (sv 5 0x2004 tS)) 5 % 8 ≠ 0 ∧ sGet (me tS) 5 = 0 ∧ vmemPending tS 0 = false ∧ tS.net = [] ∧
     ({ tS with fly := true }).fly = true) ∧
    ([(0x2000, true), (0x3000, false)] : List (Word64 × Bool)).all (fun (a, ok) =>
      let s := sv 5 a tRoutine
      match readImage (reqOf s a) s.nextId a 1 s with
      | .ok h q s1 => match readImage q s.nextId (a + 8) (((h.head?.getD 0).toNat + 1) / 2) s1 with
        | .ok bs _ s2 => imageOk (h ++ bs) == ok && (ctxAt s2 1).isSome && decide ((slotAt s2 0).ctl = (me s).ctl) && decide (s2.issue = s.issue)
        | _ => false
      | _ => false) = true := by
  unfold Served; decide +kernel

/-- The firmware cores of column 15, with every role (R89); the first gigabyte is in the TLBs of the first four, cores 63, 127, 191 and 255. -/
def tFw (s : State) : State :=
  { modCtx 1 (fun c => { c with tlb := [0, 63, 127, 191, 255].map fun u => { unit := u, key := tlbKey 30 0, leaf := 15 } }) s with
    boot := { s.boot with columns := [15], roles := [0, 1, 2, 3] ++ List.replicate 12 4 } }

/-- A message on its way, the first of the next numbers. -/
def netOf (m : Msg) (s : State) : State := withMsg { s with net := [], nextId := 5 } m

/-- At the limit of 1024, below it, at an address of no kind, and at the home, with and without an answer. -/
theorem witness_PostedOperations :
    (let s := modSlot 0 (fun x => { x with posted := 1023 }) (sv 5 0x3FFFFFF8 tS)
     isReady (.amon 5 6 .add .z64) s = true ∧ isReady (.slrn 5 6 63) s = true ∧ (me s).posted = 1023 ∧
     (sGet (me s) 5).toNat % (Ty.width .z64 / 8) = 0 ∧ addressFault s (sGet (me s) 5) = none ∧
     (addressFault s 0x0200000000000000).isSome = true) ∧
    1024 ≤ (me (modSlot 0 (fun x => { x with posted := 1024 }) tS)).posted ∧
    (let s := modSlot 0 (fun x => { x with posted := 1 }) tS
     let q := reqOf s 0x3FFFFFF8
     ([some 4, none] : List (Option SReg)).all (fun d =>
       let s := netOf (.atomic q d (.amo .add .z64 1) none) s
       decide (tfind s.net 5 = some (.atomic q d (.amo .add .z64 1) none)) && !pageHeld s q &&
       decide (lineOp s q (.mem 0x3FFFFFF8) (.amo .add .z64 1) ≠ none ∧ lineOp s q (.mem 0x3FFFFFF8) (.routine 47 #v[0, 0, 0, 0]) = none) &&
       decide (placeFault q.va (.mem 0x3FFFFFF8) = none) && poisoned { s with mem := { s.mem with poison := [0x3FFFFFF8 / 128] } } (.mem 0x3FFFFFF8) 1 &&
       decide (resolve s (reqWho s q) .write q.va = .go (.mem 0x3FFFFFF8)) && (postedTo s q.gid (0x3FFFFFF8 / 128) 5).isEmpty &&
       decide (reqLine s q = some (0x3FFFFFF8 / 128)) && !vmemBefore s q.gid 5 && (holdersOf s (0x3FFFFFF8 / 128)).isEmpty &&
       decide (atomicFault s q.va (.mem 0x3FFFFFF8) = none) && isWf s && decide ((slotAt s q.gid).ctl.epoch = q.epoch) &&
       (atomicFault { s with mem := { s.mem with poison := [0x3FFFFFF8 / 128] } } q.va (.mem 0x3FFFFFF8)).isSome) = true) := by decide +kernel

/-- A word reserved by a slot, with others that wait. -/
def resvBy (g : SlotKey) (l : List SlotKey) (s : State) : State :=
  { s with mem := { s.mem with resv := [(0x3FFFFFF8, { holder := some g, fifo := l })] } }

/-- Free and held; the own word with and without one that waits; the counter at 1 and at 2; a keeper that waits. -/
theorem witness_ReservationsAndJoins :
    Served (sv 5 0x3FFFFFF8 tS) .write 0x3FFFFFF8 (.mem 0x3FFFFFF8) ∧ Served (sv 5 0x3FFFFFF8 tOne) .write 0x3FFFFFF8 (.mem 0x3FFFFFF8) ∧
    ([.lrw 4 5, .sch 5 6, .schx 5, .join 5] : List Instr).all (fun i => isReady i (sv 5 0x3FFFFFF8 tS)) = true ∧
    atomicFault tS 0x3FFFFFF8 (.mem 0x3FFFFFF8) = none ∧ placeKey (.mem 0x3FFFFFF8) = 0x3FFFFFF8 ∧ (resvOf tS 0x3FFFFFF8).holder = none ∧
    tS.copies = false ∧ (resvOf (resvBy 1 [] tS) 0x3FFFFFF8).holder = some 1 ∧
    ([[], [16383]] : List (List SlotKey)).all (fun l =>
      decide (tfind (resvBy 0 l tS).mem.resv 0x3FFFFFF8 = some { holder := some 0, fifo := l })) = true ∧
    (0x3FFFFFFC : Word64).toNat % 8 ≠ 0 ∧ (∀ h ∈ holdersOf tS (0x3FFFFFF8 / 128), h.2.2.2 = false) ∧ isWf (mb 0x3FFFFFF8 8 2 tS) = true ∧
    (queueAway 0x3FFFFFF8 = false ∧ keysFrom 0 (resvBy 0 [] tS).mem.resv = true) ∧
    (let s := sv 5 0x020000000000 (modCtx 1 (fun c => { c with tlb := [tTlb 0x020000000000 0x402000000000F] }) tS)
     Served s .write 0x020000000000 (.peer 0x4020000000000) ∧ isReady (.lrw 4 5) s = true ∧ placeKey (.peer 0x4020000000000) = 0x4020000000000 ∧
     queueAway 0x4020000000000 = true ∧ resvOf s 0x4020000000000 = { holder := none, fifo := [] } ∧
     atomicFault s 0x020000000000 (.peer 0x4020000000000) = none) ∧
    leNat (fetchBytes 1 (.mem 0x3FFFFFF8) 8 (mb 0x3FFFFFF8 8 2 tS)).1 = 2 ∧ isKeeper tS.issue.gid = true ∧ isKeeper tOne.issue.gid = false ∧
    (∀ d, mayTake tOne (myCore tOne) d = true → (coreAt tOne d).deque = []) ∧
    (0x3FFFFFF8 : Word64).toNat % 8 = 0 ∧ ({ tS with fly := true }).fly = true ∧ tfind tOne.mem.joins 0x3FFFFFF8 = none ∧ tfind { tOne.mem with joins := [(0x3FFFFFF8, 0)] }.joins 0x3FFFFFF8 = some 0 := by
  unfold Served
  repeat refine ⟨by decide +kernel, ?_⟩
  refine ⟨fun d _ => ?_, by decide +kernel⟩
  by_cases hk : d = 0
  · subst hk; decide +kernel
  · rw [coreAt_other (x := coreAt tOne 0) rfl hk]; rfl

/-- A barrier 63 with a count, arrivals and a record. -/
def tBar (c : Nat) (arr : List Arrival) (g : Nat) : State :=
  modCtx 1 (fun x => { x with bars := [(63, { c := c, arr := arr, g := g, clock := 3, last := some { g := 0, c := 2, arr := [{ gid := 0, time := 5 }, { gid := 16383, time := 9 }] } })] }) tS

/-- Counts 0, 1 and 2; generations that wait and that go on, on both sides of the half; the record's questions 0, 1, 2, 3 and 5. -/
theorem witness_Barriers :
    ([.bari 4 63, .bara 4 63, .barw 4 5 63, .barq 4 5 63] : List Instr).all (fun i => isReady i tS) = true ∧
    tS.fly = false ∧ vmemPending tS 0 = false ∧ (me tS).ctl.wait = .none ∧ (ctxAt tS 1).isSome = true ∧
    (barOf (tBar 0 [] 0) 1 63).c = 0 ∧ (barOf (tBar 1 [] 0) 1 63).c = 1 ∧
    ((barOf (tBar 1 [] 1) 1 63).g + 2 ^ 32 - 0) % 2 ^ 32 = 1 ∧ ((barOf (tBar 1 [] 0x80000001) 1 63).g + 2 ^ 32 - 1) % 2 ^ 32 = 2 ^ 31 ∧
    ((barOf (tBar 1 [] 0x80000001) 1 63).g + 2 ^ 32 - 0) % 2 ^ 32 = 2 ^ 31 + 1 ∧ ((barOf (tBar 1 [] 7) 1 63).g + 2 ^ 32 - 7) % 2 ^ 32 = 0 ∧
    (barOf tS 1 63).last = none ∧
    (barOf (tBar 2 [] 1) 1 63).last.any (fun r => decide (r.arr.head? = some { gid := 0, time := 5 } ∧ r.g < 2 ^ 32 ∧
      r.arr.getLast? = some { gid := 16383, time := 9 } ∧ 2 ≤ r.c ∧ r.c < 3 ∧ r.arr.reverse[0]? = some { gid := 16383, time := 9 } ∧
      r.arr.reverse[1]? = some { gid := 0, time := 5 })) = true ∧
    ([.barInit (reqOf tS 0) 63 0xFFFFFF, .barArrive (reqOf tS 0) 63 4] : List Msg).all (fun m =>
      let s := netOf m (tBar 1 [] 0)
      decide (tfind s.net 5 = some m) && !isOut s 1 && (ctxAt s 1).isSome && decide ((barOf s 1 63).c = 1) && owned s 0 (reqOf tS 0).epoch &&
        !owned s 0 ((reqOf tS 0).epoch + 1)) = true ∧
    ([0, 1] : List Nat).all (fun gen =>
      let s := park 0 (.barrier 4 63 gen) (tBar 1 [] 1)
      decide ((slotAt s 0).ctl.st = .parked ∧ (slotAt s 0).ctl.wait = .barrier 4 63 gen) &&
        decide (((barOf s 1 63).g + 2 ^ 32 - gen) % 2 ^ 32 = 1 - gen)) = true ∧
    ({ tS with fly := true }).fly = true := by decide +kernel

/-- A ring of 64 bytes at the end of cell 0's stash, as channel 1023 of the context. -/
def tRing (st : Nat) (whole : Bool) (widx ridx : Nat) : State :=
  modCtx 1 (fun c => { c with rings := [(1023, { st := st, whole := whole, log2 := 6, allow := 64, widx := widx, ridx := ridx, cell := 0, off := 0x7FFC0, grid := 0 })] })
    (modCell 0 (fun x => { x with tags := [0xFFF8], stash := putBytes x.stash 0x7FFC0 [8] }) tS)
/-- With s5 the channel and s6 a length or an operand. -/
def rg (a b : Word64) (s : State) : State := sv 5 a (sv 6 b s)
def tRec (st : Nat) (widx ridx : Nat) : Ring :=
  { st := st, whole := false, log2 := 6, allow := 64, widx := widx, ridx := ridx, cell := 0, off := 0x7FFC0, grid := 0 }

/-- For CHSEND: no channel; lengths 0, 4, 8, 64 and 72; each state; room for exactly the message and too little; with and
without a pad. For CHRECV: no channel; lengths past what is held; each state; a message there, a length that is none, and an
empty place. -/
theorem witness_Channels :
    (isReady (.chsend 4 5 6) tS && isReady (.chrecv 4 5 6) tS && !vmemPending tS 0 && decide ((me tS).ctl.wait = .none)) = true ∧
    chanOf (rg 1023 8 tS) 1 1023 = none ∧ chanOf (tRing 0 false 0 0) 1 0x400 = none ∧
    chanOf (tRing 0 false 0 0) 1 1023 = some (tRec 0 0 0) ∧ chanOf (tRing 1 false 0 0) 1 1023 = some (tRec 1 0 0) ∧
    chanOf (tRing 2 false 0 0) 1 1023 = some (tRec 2 0 0) ∧
    ((0 : Nat) < 8 ∧ 12 % 8 ≠ 0 ∧ (tRec 0 0 0).allow < 72) ∧ ringDiff 0 0 + 64 ≤ (tRec 0 0 0).allow ∧
    (tRec 0 8 0).allow < ringDiff 8 0 + 0 + 64 ∧
    (let r : Ring := { tRec 0 56 8 with whole := true }
     (r.whole = true ∧ r.size < 56 % r.size + 8 + 8) ∧ r.size - 56 % r.size = 8 ∧ r.widx ≠ r.ridx ∧ ringDiff 56 8 + 8 + 8 ≤ r.allow ∧
     r.allow < ringDiff 56 8 + 8 + 16) ∧
    (RingFits (tRec 0 0 0) ∧ RingFits (tRec 0 (2 ^ 32 - 1) 0)) ∧ bytesWf (cellAt (tRing 0 false 0 0) 0).stash = true ∧
    (4 % 8 ≠ 0 ∧ ringDiff 8 0 < 16) ∧
    (let s := tRing 0 false 16 0
     ringTag s (tRec 0 16 0) 0 = true ∧ headerOf s (tRec 0 16 0) 0 = 8 ∧ field 8 16 1 = 0 ∧ 8 ≤ ringDiff 16 0 ∧
     ringTag s (tRec 0 16 0) 8 = false ∧ 0 ≠ (tRec 0 16 0).widx ∧ (0 + 16) % 2 ^ 32 = (tRec 2 16 0).widx) ∧
    headerOf (tRing 0 false 0 0) (tRec 0 0 0) 8 = 0 ∧ isAway (tRing 0 false 0 0) 1 0 = false ∧ feqOf (tRing 0 true 56 8) (stashLoc 0 0x7FFF8) = ([], []) := by
  unfold RingFits; decide +kernel

/-- Operands of no form; a channel that is not there; each operation, and one above them, of the word that is decoded and of every other
constructor; states 0 to 3; the index of a reader inside and outside what is held. -/
theorem witness_ChannelControl :
    ([.getstate 4 5 6, .setstate 4 5 6, .getwidx 4 5 6, .getridx 4 5 6, .setridx 4 5 6, .getbase 4 5 6] : List Instr).all
      (fun i => isReady i tS && (ctlWord i).isSome) = true ∧
    ([0x400, 0x800, 0x10000] : List Word64).all (fun v => bits v 10 2 != 0 || bits v 16 48 != 0) = true ∧
    ringOf (tRing 0 false 0 0) 1 0 = none ∧ (ringOf (tRing 1 false 16 0) 1 1023).map (fun r => (r.st, r.log2, r.allow)) = some (1, 6, 64) ∧
    ([0, 1, 2, 3, 4, 5, 6, 15] : List Nat).all (fun o =>
      let s := rg (BitVec.ofNat 64 (1023 + 4096 * o)) 16 (tRing 1 false 16 0)
      bits (sGet (me s) 5) 12 4 == o && bits (sGet (me s) 5) 0 10 == 1023 && isReady (.getstate 4 5 6) s && (ringOf s 1 1023).isSome &&
        !isAway s 1 0) = true ∧
    allDecode [(encode (.setridx 4 5 6), .getstate 4 5 6), (encode (.getbase 4 5 6), .getstate 4 5 6)] = true ∧
    bits (3 : Word64) 0 2 = 3 ∧ bits (0 : Word64) 0 2 = 0 ∧
    (ringDiff 16 0 ≤ ringDiff 16 0 ∧ 16 % 8 = 0 ∧ ¬ ringDiff 24 0 ≤ ringDiff 16 0 ∧ bits (0x100000000 : Word64) 32 32 ≠ 0) ∧
    RingFits (tRec 1 16 0) := by
  unfold RingFits; decide +kernel

/-- A copy of one row of 8 bytes that channel 127 makes for slot 0, before and after its descriptor is read. -/
def tCopy (read : Option Nat) (outcome : Option Int) : Copy :=
  { gid := 0, epoch := 0, blk := 0, asid := 1, priv := true, d := 4, desc := 0x2000, indexed := false, acq := false, rel := false, scope := .cell,
    clock := 0, read := read, row := 0, col := 0, idx := none, page := none, outcome := outcome, undo := [] }
/-- Its descriptor (R263): from 0x3000 to 0x4000, `n` rows of 8 bytes. -/
def tDesc (n : Nat) : Nat := leNat (leBytes 8 0x3000 ++ leBytes 8 0x4000 ++ leBytes 4 8 ++ leBytes 4 n ++ leBytes 4 8 ++ leBytes 4 8 ++ leBytes 1 3)
def tChan (wp : Nat) (cur : Option Copy) (s : State) : State :=
  setChan 0 127 { wp := wp, w0 := 0, failAt := 0, status := 0, clock := 0, cur := cur } s

/-- A free channel, a busy one, a misaligned descriptor; a position that is passed, that is not, and a channel number past
127; a descriptor that obeys R263 and one that does not; one row of one, and of two; a copy that ended, with each status. -/
theorem witness_Copies :
    (isReady (.cpy 4 5 true true .sys 127) tS && isReady (.cpyx 4 5 false false .cell 0) tS && isReady (.cpyw 4 5 6) tS && isReady (.cpyq 4 5) tS &&
      !vmemPending tS 0 && decide ((0x2020 : Word64).toNat % 64 ≠ 0) && decide ((0x2000 : Word64).toNat % 64 = 0)) = true ∧
    (chanAt tS 0 127).cur = none ∧ (chanAt (tChan 0 (some (tCopy none none)) tS) 0 127).cur ≠ none ∧
    (bits (0x80 : Word64) 7 57 ≠ 0 ∧ bits (127 : Word64) 7 57 = 0 ∧ (chanAt (tChan 8 none tS) 0 127).wp = 8) ∧
    (let s := mb 0x2000 64 (tDesc 1) (tChan 0 (some (tCopy none none)) tS)
     copyAt s 0 127 = some (none, tCopy none none) ∧ (tCopy none none).page = none ∧
     (match copyRead (tCopy none none) 0x2000 64 s with | .ok (bs, _) => decide (leNat bs = tDesc 1) | _ => false) = true ∧
     descOk false (tDesc 1) = true ∧ descOk false (tDesc 0) = false) ∧
    ([1, 2] : List Nat).all (fun n =>
      let q := tCopy (some (tDesc n)) none
      let s := tChan 0 (some q) tS
      decide (copyAt s 0 127 = some (none, q)) && decide (copyTurn s 0 = some 127) && decide (dRowLen (tDesc n) = 2 ^ dEw (tDesc n)) && decide (dRows (tDesc n) = n) &&
      decide (dSrc (tDesc n) = 0x3000 ∧ dDst (tDesc n) = 0x4000) &&
      (match copyPlace s q .read 0x3000 8, copyPlace s q .write 0x4000 8 with
        | .ok p, .ok p' => decide (p = .mem 0x3000) && decide (p' = .mem 0x4000) | _, _ => false) &&
      (holdersOf s (0x4000 / 128)).isEmpty && isWf s) = true ∧
    ([0, -2, -1] : List Int).all (fun st =>
      decide (copyAt (tChan 8 (some (tCopy (some (tDesc 1)) (some st))) tS) 0 127 = some (none, tCopy (some (tDesc 1)) (some st)))) = true := by
  decide +kernel

/-- Mappings of one line of cell 0, for the context: `n` of them from offset 0, each with its line present and, if asked, written. -/
def tMaps (n : Nat) (dirty : Bool) : State :=
  modCell 0 (fun x => { x with maps := (List.range n).map fun k =>
    { asid := 1, entry := k, va := 128 * k, off := 128 * k, len := 128, present := [(0, 64 + k)], dirty := if dirty then [0] else [] } }) tS

/-- Words of no form; past the global addresses; on a mapping; as the seventeenth; as the first and the sixteenth. An entry that
is not, one that is, and one with a written line. -/
theorem witness_StashMappings :
    ([.pref 5 .code 0, .pref 5 .slc 1, .pref 5 .stash 1, .stmap 4 5 6, .stunmap 4 5, .stflush 4 5] : List Instr).all (isReady · (sv 5 0x3FFFFF80 tS)) = true ∧
    resolve tS (whoIs tS 0) .exec 0x3FFFFF80 = .go (.mem 0x3FFFFF80) ∧ vmemPending tS 0 = false ∧ tenantStash tS 0 = 0x80000 ∧
    ((0x40 : Word64).toNat % 128 ≠ 0 ∧ bits (0x0006000000 : Word64) 20 20 < 128 ∧ bit (0x8080000 : Word64) 19 = true) ∧
    (let b : Word64 := 0x0807FF80
     bits b 0 19 = 0x7FF80 ∧ bits b 20 20 = 128 ∧ bit b 19 = false ∧ bits b 40 24 = 0 ∧ 0x7FF80 + 128 ≤ tenantStash tS 0 ∧
     ((mapsOf tS 1 0).length = 0 ∧ (mapsOf (tMaps 15 false) 1 0).length < 16 ∧ 16 ≤ (mapsOf (tMaps 16 false) 1 0).length) ∧
     (mapsOf (tMaps 16 false) 1 0).all (fun m => decide (¬ (m.off < 0x7FF80 + 128 ∧ 0x7FF80 < m.off + m.len))) = true ∧
     (mapsOf (tMaps 1 false) 1 0).any (fun m => decide (m.off < 0 + 128 ∧ 0 < m.off + m.len)) = true) ∧
    (bits (0x0200000000000000 : Word64) 57 7 ≠ 0 ∧ (0x01FFFFFFFFFFFF80 : Word64).toNat + 128 ≤ 2 ^ 57) ∧
    (mapNamed tS 1 0 0 = none ∧ mapNamed (tMaps 16 false) 1 0 16 = none) ∧
    (mapNamed (tMaps 16 false) 1 0 15).map (·.dirty) = some [] ∧
    (mapNamed (tMaps 1 true) 1 0 0).map (fun m => (m.dirty, tfind m.present 0)) = some ([0], some 64) ∧ isWf (tMaps 1 true) = true ∧
    (tS.fly = false ∧ ([.stmap 4 5 6, .stunmap 4 5, .stflush 4 5] : List Instr).all (isReady · { tS with fly := true }) = true) := by
  decide +kernel

/-- An operation of slot 0 that has started. -/
def tOp (seq : Nat) (remote : Option SReg) (k : MxKind) (steps : Nat) : MxOp :=
  { seq := seq, gid := 0, epoch := (slotAt tS 0).ctl.epoch, asid := 1, priv := true, clock := (slotAt tS 0).lclk, remote := remote, kind := k,
    srcs := [], steps := steps, page := none, data := 0, fail := none }
/-- Operand slot 31 and tile 7 of cell 0 held by slot 0, or by slot 1, of core 0; a claim that waits. -/
def tHeld (g : SlotKey) : State :=
  modCell 0 (fun x => { x with
    ohold := [(31, { asid := 1, core := 0, slot := g, left := false })], thold := [(7, { asid := 1, core := 0, slot := g, left := false })] }) tS
def tClaim : Claim := { gid := 0, epoch := 0, d := 4, tiles := false, start := 31, count := 1, dest := 0 }

/-- Words of no form; the last items, free and taken; a release of what is held and of what is not; MXWAIT of a tile not held,
with no operation, with one that has ended and with one that has not; every right, and a form that is none; a claim that comes first. -/
theorem witness_OperandItems :
    ([.oclaim 4 5, .orel 5, .mxwait 4 5 6, .mxcap 4 5] : List Instr).all (isReady · tS) = true ∧
    (clOk 0x1F01 1 = true ∧ clOk 0x10701 1 = true ∧ clOk 0x1F02 1 = false ∧ clOk 0 1 = false ∧ blockSlots tS 0 = 1 ∧ isKeeper tS.issue.gid = true) ∧
    (itemsFree (cellAt tS 0) false (clItems 0x1F01) 0 = true ∧ (cellAt tS 0).claims = [] ∧
      itemsFree (cellAt (tHeld 1) 0) false (clItems 0x1F01) 0 = false ∧ itemsFree (cellAt (tHeld 1) 0) true (clItems 0x10701) 0 = false) ∧
    ((∀ n ∈ clItems 0x1F01, holds (cellAt (tHeld 0) 0).ohold n 0 = true) ∧ keysFrom 0 (cellAt (tHeld 0) 0).ohold = true ∧
      (∀ n ∈ clItems 0x10701, holds (cellAt (tHeld 0) 0).thold n 0 = true) ∧ holds (cellAt (tHeld 1) 0).ohold 31 0 = false) ∧
    (bits (7 : Word64) 3 61 = 0 ∧ bits (8 : Word64) 3 61 ≠ 0 ∧ holds (cellAt tS 0).thold 7 0 = false ∧ tfind (cellAt (tHeld 0) 0).lastMma 7 = none) ∧
    (let s := modCell 0 (fun x => { x with lastMma := [(7, 9, 3)] }) (tHeld 0)
     let op := tOp 9 none (.zero 7) 2
     tfind (cellAt s 0).lastMma 7 = some (9, 3) ∧ stepsDone s 0 9 3 = 3 ∧ stepsDone (modCell 0 (fun x => { x with mx := [op] }) s) 0 9 3 = 2) ∧
    ((0x103 : Word64).toNat % 512 = 0x103 ∧ bits (0x103 : Word64) 2 6 = 0 ∧ (0x200 : Word64).toNat % 512 ≠ 0x200 ∧
      (tfind (cellAt tS 0).mxgen 1).getD 0 = 0 ∧
      (tfind (cellAt (modCell 0 (fun x => { x with mxgen := [(1, 0xFFFF)] }) tS) 0).mxgen 1).getD 0 = 0xFFFF) ∧
    claimPick (cellAt (modCell 0 (fun x => { x with claims := [tClaim] }) tS) 0) = some tClaim := by decide +kernel

/-- The own cell's core 3 and slot 15, and a cell past the edge. -/
def tTo (r : Desig) : Target := { rel := false, x := 0, y := 0, core := 3, slot := 15, reg := r }
/-- A command message; its capability allows both commands in cell 0. -/
def tCap : Word64 := 0x103000000

theorem witness_RemoteMessages :
    ([.rput 4 (tTo (.s 31)), .bsum 4 5 6, .bsacc 2 5, .bsacc 30 5, .tmmar 4 5 (.zero 7)] : List Instr).all (isReady · tS) = true ∧
    (match targetAt tS 0 (tTo (.s 31)), targetAt tS 0 { tTo (.s 31) with x := 16 } with
      | .ok c, .error _ => decide (c = 0) | _, _ => false) = true ∧ vmemPending tS 0 = false ∧
    (let s := sv 4 (BitVec.ofNat 64 ((tTo (.s 30)).code)) tS
     Target.ofCode (bits (sGet (me s) 4) 0 32) = some (tTo (.s 30)) ∧ bits (sGet (me s) 4) 32 32 = 0 ∧ bits (sGet (me s) 4) 0 7 = 0 ∧
     pairReg 30 = true ∧ (tTo (.s 30)).wf = true ∧ bits (0x100000000 : Word64) 32 32 ≠ 0) ∧
    ((0x10000 : Word64).toNat % 2 ^ 16 = 0 ∧ (0xFFFF : Word64).toNat % 2 ^ 16 ≠ 0 ∧ (me tS).bsaccs = [] ∧
      (me (modSlot 0 (fun x => { x with bsaccs := List.replicate 4 { reg := 4, left := 1, m := 0, e := 0 } }) tS)).bsaccs.length = 4) ∧
    (bits tCap 26 6 = 0 ∧ bits tCap 8 16 = 0 ∧ bits tCap 32 16 = myAsid tS ∧ inPart tS 1 0 = true ∧ inPart (modCtx 1 (fun c => { c with part := { c.part with curLen := 1 } }) tS) 1 1 = false ∧ bits (0 : Word64) 32 16 ≠ 1) := by
  decide +kernel

/-- At a slot that is there, not armed, armed for two more and for the last; at one that is not; and a command that may run, and
one whose tile is not held. -/
theorem witness_RemoteArrivals :
    (let q := reqOf tS 0
     let m : Msg := .rput q 0 0 0 (.s 31) 7
     let s := netOf m tS
     tfind s.net 5 = some m ∧ remoteFirst s 5 m = true ∧ targetSlot 0 0 0 = 0 ∧ targetSlot 0 0 15 = 15 ∧ (slotAt s 0).ctl.asid = q.asid ∧
     (slotAt s 0).ctl.gone = false ∧ bit (slotAt s 0).trap.cause 11 = false ∧ (slotAt s 0).regs.sp[31] ≠ .owed ∧
     (slotAt s 15).ctl.gone = true ∧ tfind s.saves (saveKey 1 15) = none ∧ (slotAt s 0).ctl.epoch = q.epoch) ∧
    (let q := reqOf tS 0
     let m : Msg := .bsum q 0 0 0 30 1 (-1)
     tfind (netOf m tS).net 5 = some m ∧ remoteFirst (netOf m tS) 5 m = true ∧ (me tS).bsaccs = [] ∧
     ([1, 2] : List Nat).all (fun n =>
       (slotAt (modSlot 0 (fun x => { x with bsaccs := [{ reg := 30, left := n, m := 0, e := 0 }] }) (netOf m tS)) 0).bsaccs.length == 1) = true) ∧
    (let q := reqOf tS 0
     let m : Msg := .tmmar q 0 4 tCap (.zero 7)
     let op := tOp 5 (some 4) (commandKind (.zero 7)) 0
     (op.gid = q.gid ∧ op.epoch = q.epoch ∧ op.asid = q.asid ∧ op.priv = q.priv ∧ op.clock = q.clock) ∧ tfind (netOf m tS).net 5 = some m ∧ (netOf m tS).net = [(5, m)] ∧ isOut (netOf m tS) 1 = false ∧
     commandStatus (netOf m (tHeld 1)) 0 tCap (.zero 7) op = 0 ∧ commandStatus (netOf m tS) 0 tCap (.zero 7) op = -3 ∧
     commandStatus (netOf m tS) 0 0x100000000 (.zero 7) op = -2 ∧ commandStatus (netOf m tS) 1 tCap (.zero 7) op = -1) := by decide +kernel

/-- A reply that writes s31; one with a fault; and the slot parked, in its trap handler, or spilled. -/
def tReply (f : Option TrapInfo) (ends : Bool) (ws : List RegWrite) : Reply := { gid := 0, epoch := 0, writes := ws, ends := ends, fault := f }

theorem witness_Deliveries :
    (let r := tReply none false [.s 31 7]
     let s := netOf (.reply r) tS
     tfind s.net 5 = some (.reply r) ∧ replyReady s r = true ∧ writesVector r.writes = false ∧ (slotAt s 0).ctl.epoch = r.epoch ∧
     (slotAt s 0).ctl.gone = false ∧ (slotAt s 0).ctl.st ≠ .spilled ∧ bit (slotAt s 0).trap.cause 11 = false ∧ (slotAt s 0).regs.sp[31] ≠ .owed ∧
     bit (slotAt (tv 0x4000 0x800 0 s) 0).trap.cause 11 = true ∧ (slotAt s 0).arrs = [] ∧ (slotAt s 0).ctl.st ≠ .idle) ∧
    (let r := tReply (some (fPage 2 8)) true []
     let s := netOf (.reply r) (park 0 .reply (tv 0x4000 0 0 tS))
     replyReady s r = true ∧ (slotAt s 0).ctl.st = .parked ∧ (slotAt s 0).ctl.wait = .reply ∧ (slotAt s 0).trap.vec ≠ 0 ∧
     bit (slotAt s 0).trap.cause 11 = false ∧ (fPage 2 8).code < 256 ∧ (slotAt (cv (fun c => { c with st := .spilled }) s) 0).ctl.gone = false) ∧
    (let s := netOf (.reply (tReply none false [])) (cv (fun c => { c with epoch := 1 }) tS)
     replyReady s (tReply none false []) = true ∧ (slotAt s 0).ctl.epoch ≠ (0 : Nat) ∧ savedSlot s 0 0 = none ∧ (slotAt s 0).arrs = [] ∧
     (slotAt s 0).ctl.st ≠ .idle) ∧
    (let r : Reply := { tReply none true [] with idle := true }
     let s := netOf (.reply r) (park 0 .reply tS)
     replyReady s r = true ∧ (slotAt s 0).ctl.st = .parked ∧ tfind s.cores 0 = some (coreAt tS 0) ∧ (coreAt s 0).deque = []) ∧
    ([.load (reqOf tS 0x3FFFFFF8) 4 .b64, .store (reqOf tS 0x3FFFFFF8) .b64 7] : List Msg).all (fun m =>
      let s := netOf m tS
      let q := reqOf tS 0x3FFFFFF8
      decide (tfind s.net 5 = some m) && !pageHeld s q && decide (resolve s (reqWho s q) .read q.va = .go (.mem 0x3FFFFFF8)) &&
      decide (resolve s (reqWho s q) .write q.va = .go (.mem 0x3FFFFFF8)) && (postedTo s 0 (0x3FFFFFF8 / 128) 5).isEmpty &&
      !poisoned s (.mem 0x3FFFFFF8) 8 && poisoned { s with mem := { s.mem with poison := [0x3FFFFFF8 / 128] } } (.mem 0x3FFFFFF8) 8 &&
      (holdersOf s (0x3FFFFFF8 / 128)).isEmpty && isWf s) = true ∧
    (let s := netOf (.remoteStore 0 0x4020000000000 [1]) tS
     tfind s.net 5 = some (.remoteStore 0 0x4020000000000 [1]) ∧ postedTo s 0 (0x4020000000000 / 128) 5 = [] ∧ ownOff s 0x4020000000000 = none) := by
  decide +kernel

/-- A grid record that deals a grid of 2 blocks of one slot. -/
def tGrid : Grid :=
  { gen := 1, live := true, asid := 1, priv := true, entry := 0x1000, coop := false, fstop := false, slots := 1, vwin := 32, cscope := 2, gx := 2, gy := 1,
    gz := 1, args := 7, compl := 0x2000, devs := [0], next := 0, left := 2, range := (0, 0), launcher := none, held := [], dealt := 0, started := 0, finished := 0, killed := 0, nfault := 0,
    faults := [], phase := 0, lost := [], wasDrained := false, wasKilled := false, graph := none, clock := 0, packet := none, mute := false }
/-- That record at number 1023. -/
def tDeal (f : Grid → Grid) : State := { tS with grids := [(1023, f tGrid)] }

/-- A descriptor that is aligned, with and without a release to wait for; an identifier of each form; the four questions to a
dealer queue. -/
theorem witness_GridWords :
    ([.launch 4 5, .gcancelDrain 5, .gcancelKill 5, .gstat 4 5, .tnext 4 5] : List Instr).all (isReady · tS) = true ∧
    ((0x20 : Word64).toNat % 64 ≠ 0 ∧ (0x40 : Word64).toNat % 64 = 0 ∧ releaseReady tS 0 = true ∧
      releaseReady (modSlot 0 (fun x => { x with posted := 1 }) tS) 0 = false) ∧
    (let v : Word64 := 0x1000003FF
     bits v 48 16 = 0 ∧ bits v 10 13 = 0 ∧ bits v 23 9 = tS.boot.device ∧ tfind (tDeal id).grids (bits v 0 10) = some tGrid ∧ tGrid.gen = bits v 32 16 ∧
     tGrid.asid = myAsid tS ∧ tfind tS.grids (bits v 0 10) = none ∧ bits (0x2000003FF : Word64) 32 16 ≠ tGrid.gen ∧ bits (0x400 : Word64) 10 13 ≠ 0 ∧
     bits (0x800000 : Word64) 23 9 ≠ tS.boot.device ∧ bits (0x800000 : Word64) 48 16 = 0 ∧ bits (0x800000 : Word64) 10 13 = 0 ∧
     tfind (netOf (.gstat (reqOf tS 0) 4 v) (tDeal id)).net 5 = some (.gstat (reqOf tS 0) 4 v) ∧ (reqOf tS 0).asid = 1) ∧
    ({ tS with fly := true }).fly = true ∧ tS.fly = false ∧ (ctxAt tS 1).isSome = true ∧
    ([0x3F, 0x7F, 0xBF, 0xFF] : List Word64).all (fun ask =>
      let m : Msg := .dealer (reqOf tS 0) 4 ask
      decide (tfind (netOf m tS).net 5 = some m) && !isOut (netOf m tS) 1) = true ∧
    (bits (0x3F : Word64) 6 2 = 0 ∧ bits (0x7F : Word64) 6 2 = 1 ∧ bits (0xBF : Word64) 6 2 = 2 ∧ bits (0xFF : Word64) 6 2 = 3) := by decide +kernel

/-- A launch descriptor (R100) at 0x2000: code address 0x1000, `slots` slots, windows of 32, scope DEV, 2 blocks, and its capability. -/
def tLaunch (slots : Nat) : Nat :=
  leNat (leBytes 8 0x1000 ++ [0, 0, BitVec.ofNat 8 slots, 32, 2, 0, 0, 0] ++ leBytes 4 2 ++ leBytes 4 1 ++ leBytes 4 1 ++ leBytes 4 0 ++ leBytes 8 7 ++
    leBytes 8 0x2000 ++ leBytes 8 0 ++ leBytes 8 9)
def tLaunching (slots : Nat) : State :=
  netOf (.launch (reqOf tS 0x2000) 4 0x2000) (modCtx 1 (fun c => { c with rcd := { c.rcd with lcap := 9 } }) (mb 0x2000 64 (tLaunch slots) tS))

/-- Every record in use. -/
def tAllLive : State := { tLaunching 1 with grids := (List.range' 0 1024).map fun k => (k, tGrid) }

theorem tfind_range {a n k : Nat} (h : a ≤ k) (hk : k < a + n) : tfind ((List.range' a n).map fun k => (k, tGrid)) k = some tGrid := by
  induction n generalizing a with
  | zero => omega
  | succ n ih =>
    rw [List.range'_succ, List.map_cons]
    by_cases e : a = k
    · simp [tfind, e]
    · simpa [tfind, e] using ih (a := a + 1) (by omega) (by omega)

theorem tAllLive_full : recordsFull tAllLive = true := by
  simp only [recordsFull, List.all_eq_true, List.mem_range]
  intro k hk
  have : tfind tAllLive.grids k = some tGrid := tfind_range (Nat.zero_le k) (by omega)
  simp [gridLive, this, tGrid]

/-- A launch that is refused, one that finds every record in use, and one that is not; a sector and a cell that ask; a block
that starts; a grid that is over, with and without a peer that took part; cancels; fault reports; a device that is lost. -/
theorem witness_GridEvents :
    ([(0, -1), (1, 0), (16, 0)] : List (Nat × Int)).all (fun (n, st) =>
      let s := tLaunching n
      let w := ctxWho 1 true 0
      decide (nextLaunch s = some (5, reqOf tS 0x2000, 4, 0x2000)) && decide (launchStatus s w true (tLaunch n) = st) &&
      decide ((readVirt s w 2 0x2000 64).map leNat = some (tLaunch n)) && !recordsFull s && !gridLive s 1023 &&
      decide (launchDevs s w (tLaunch n) = some [0]) && decide (codeEntry s 1 0 0x1000 = some 0x1000)) = true ∧
    (recordsFull tAllLive = true ∧ nextLaunch tAllLive = some (5, reqOf tS 0x2000, 4, 0x2000) ∧ launchStatus tAllLive (ctxWho 1 true 0) true (tLaunch 1) = 0) ∧
    (let s := tDeal id
     isOut s 1 = false ∧ weightOf s (sectorPart s 1 (sectorOf 0)) ≠ 0 ∧ sectorOf 0 < 8 ∧ inPart s 1 0 = true ∧ (cellAt s 0).joined = true ∧
     0 ∈ sectorPart s 1 (sectorOf 0) ∧ cellDry s 1023 tGrid 0 = true ∧ (cellAt s 0).held = [] ∧ launchWaits s tGrid = false ∧ s.boot.device ∈ tGrid.devs ∧
     tGrid.held = [] ∧ tGrid.range.2 = 0 ∧ tGrid.left ≠ 0 ∧ ({ tGrid with devs := [1] } : Grid).devs.contains s.boot.device = false) ∧
    (let g := { tGrid with held := [(sectorOf 0, 0, 2)], left := 0 }
     tfind (tDeal fun _ => g).grids 1023 = some g ∧ launchWaits (tDeal fun _ => g) g = false ∧ cellDry (tDeal fun _ => g) 1023 g 0 = true) ∧
    ([1, 2] : List Nat).all (fun n =>
      let s := modCell 0 (fun x => { x with held := [(1023, 2 - n, n)] }) (tDeal fun g => { g with left := 0 })
      decide ((coresOf 0).find? (coreFree s) = some 1) && (match reserveWindows (poolTaken s 0) 32 1 with | some rs => rs.length == 1 | none => false)) = true ∧
    (gridOver (tDeal fun g => { g with left := 0 }) 1023 { tGrid with left := 0 } = true ∧
      gridOver (tDeal fun g => { g with devs := [0, 1], left := 1, mute := true }) 1023 { tGrid with devs := [0, 1], left := 1, mute := true } = true ∧
      ([{ dealt := 1, started := 1, finished := 0, killed := 1 }] : List PeerReport).all reportOk = true) ∧
    (tfind (netOf (.cancel 1 1023 1 true) (tDeal id)).net 5 = some (.cancel 1 1023 1 true) ∧ tGrid.phase < 2) ∧
    (let m : Msg := .gfault 1023 { dev := 0, cause := 1, slot := 0, x := 0, y := 0, core := 0, pc := 0, addr := 0, block := 0 }
     ([false, true] : List Bool).all (fun coop =>
       decide (tfind (netOf m (tDeal fun g => { g with coop := coop })).net 5 = some m) && tGrid.live && decide (tGrid.phase < 3)) = true) ∧
    (1 ≠ tS.boot.device ∧ 1 ∈ ({ tGrid with devs := [0, 1] } : Grid).devs ∧ 1 ∉ tGrid.devs) ∧
    (let s := modCtx 1 (fun c => { c with pending := some (17, 0) }) (tLaunching 1)
     nextLaunch s = some (5, reqOf tS 0x2000, 4, 0x2000) ∧ ending s 1 = true ∧ ending (tLaunching 1) 1 = false) ∧
    (recordWaits (tDeal id) 1 true tGrid.compl = false ∧
      recordWaits (modCtx 1 (fun c => { c with away := [0] }) (tDeal id)) 1 true 0xFF00000000000000 = true) ∧
    (let p : PeerReport := { dealt := 2, started := 1, finished := 0, killed := 0 }
     p.started ≤ p.dealt ∧ p.finished + p.killed ≤ p.started ∧ p.dealt ≤ tGrid.left ∧ reportOk { p with killed := 1 } = true ∧
     reportOk p = false ∧ ([{ p with started := 2, finished := 1, killed := 1 }] : List PeerReport).all reportOk = true) := by
  refine ⟨by decide +kernel, ⟨tAllLive_full, by decide +kernel⟩, ?_⟩
  repeat refine ⟨by decide +kernel, ?_⟩
  decide +kernel

/-- The template of the example of R278 in the store of the context, and its early-value block at 0x2000: 4 bytes at 0x3000. -/
def tSpecT : Template := { tTmpl with body := dotBody }
def tSpec (h b : Word64) (room : Nat) : State :=
  netOf (.spec (reqOf tS 0) 4 h b speclimReset)
    (modCtx 1 (fun c => { c with tmpls := [tSpecT], rcd := { c.rcd with rsize := room } }) (mb 0x2000 16 (4 + 2 ^ 64 * 0x3000) tS))

/-- No template; a misaligned block; no room; and room for the residual at its first unit and at its last. -/
theorem witness_Specialisation :
    (nextSpec (tSpec 0 0x2000 64) = some (5, reqOf tS 0, 4, 0, 0x2000, speclimReset) ∧ templateOf (tSpec 0 0x2000 64) 1 0 = none ∧
      (0x2004 : Word64).toNat % 8 ≠ 0) ∧
    (let s := tSpec hTm 0x2000 64
     let w := ctxWho 1 true 0
     (match templateOf s 1 hTm, specReads s w 5 [(0x2000, 16)] with
       | some (c, t), .ok l =>
         (earlyParams t).length == 2 && decide (specWords 2 l.flatten = some [4, 0x3000]) && residualRoom (spentUnits s 1 1) c 1 &&
         residualFits (spentUnits s 1 1) c 1 0 && residualFits (spentUnits s 1 1) c 1 63 && !unitsFetched s 1 c 63 1 && !residualRoom [] { c with rcd := { c.rcd with rsize := 0 } } 1
       | _, _ => false) = true ∧
     (match specReads s w 5 (regionsOf (earlyParams tSpecT) [4, 0x3000]) with | .ok r => r.length == 1 | .error _ => false) = true ∧ genOf s 1 1 63 < 2 ^ 16) := by
  refine ⟨by decide +kernel, by decide +kernel, by decide +kernel, by decide +kernel⟩

/-- R205's example under STEPS = 26: the bound is hit, and the last records are left as they are; with 27 it is not. -/
theorem test_steps_bound :
    (let f := fun (n : Nat) => (walkBody (fun _ _ => 0) { bodyIn dotBody [2, 0x3000] [(0x3000, [some 0, some 3])] speclimReset true true with
      steps := n }).stepsHit
     f 26 = true ∧ f 27 = false) := by decide +kernel

/-! ### The vector class -/

/-- Operand slots 0 and 31 and tile 7 held by slot 0; s5 at the end of the first gigabyte. -/
def tVec : State :=
  modCell 0 (fun x => { x with
    ohold := [(0, { asid := 1, core := 0, slot := 0, left := false }), (31, { asid := 1, core := 0, slot := 0, left := false })]
    thold := [(7, { asid := 1, core := 0, slot := 0, left := false })] }) (sv 5 0x3FFFFF00 tS)
/-- Sixteen entries in the queue of core 0. -/
def tFullQueue : State := modCore 0 (fun k => { k with queue := List.replicate 16 { seq := 1, gid := 1, epoch := 0, instr := .azero 0, scal := [] } }) tVec

/-- Words that enter; a window too small; items that are not held; and a queue that is full. -/
theorem witness_VectorIssue :
    Enters (.vadd 31 30 29 7 .f32 .rne) tVec ∧ Enters (.vld 31 5 0 .b32 0) tVec ∧ Enters (.vst 31 5 0 .b8 0) tVec ∧
    Enters (.vgath 1 2 5 0 .b32 2) tVec ∧ Enters (.oload 31 6 5 .b8 false false none) tVec ∧ Enters (.tmma 7 0 31 none .s8 .rne false false 0) tVec ∧
    Enters (.astore 6 7 none 5 .s32 .rne false .s32) tVec ∧ Enters (.vredadd 4 31 5 0 .z32 .rne) tVec ∧
    ([.vadd 31 30 29 7 .f32 .rne, .vld 31 5 0 .b32 0, .oload 31 6 5 .b8 false false none, .tmma 7 0 31 none .s8 .rne false false 0, .avec 31 7 63] :
      List Instr).all isVector = true ∧
    (∃ n ∈ vfields (.vadd 31 30 29 7 .f32 .rne), (me (modSlot 0 (fun x => { x with win := { base := 0, size := 16 } }) tVec)).win.size ≤ n) ∧
    (∃ n ∈ osFields (.ofill 1 30 0 1), holds (cellAt tVec (myCell tVec)).ohold n tVec.issue.gid = false) ∧
    (∃ n ∈ tileFields (.avec 31 6 63), holds (cellAt tVec (myCell tVec)).thold n tVec.issue.gid = false) ∧
    (vectorFault (.vadd 31 30 29 7 .f32 .rne) tFullQueue = none ∧ blocked tFullQueue 0 (reads (.vadd 31 30 29 7 .f32 .rne)) [] = false ∧
      bankAwake tFullQueue 0 0 = true ∧ 16 ≤ (coreAt tFullQueue (myCore tFullQueue)).queue.length) := by
  unfold Enters OperandsGood
  repeat refine ⟨by decide +kernel, ?_⟩
  decide +kernel

/-- Well-formed operations of every rule. -/
theorem witness_VectorResults :
    ([.vadd 1 2 3 0 .s8 .rne, .vsub 1 2 3 7 .z64 .rne, .vmul 1 2 3 0 .s16 .rne, .vmin 1 2 3 0 .s32, .vmax 1 2 3 0 .z8, .vabs 1 2 0 .s64, .vabs 1 2 0 .f64,
      .vneg 1 2 0 .s8, .vneg 1 2 0 .h16, .vadds 1 2 3 0 .s8, .vsubs 1 2 3 0 .z8, .vmulh 1 2 3 0 .z16, .vand 1 2 3 0 .b8, .vor 1 2 3 0 .b8, .vxor 1 2 3 0 .b8,
      .vnot 1 2 0 .b64, .vshl 1 2 (.vec 3) 0 .b8, .vshrz 1 2 (.sca 5) 0 .b64, .vshrs 1 2 (.sca 5) 0 .b16, .vbcast 1 5 0 .b8, .vidx 1 5 0 .z64,
      .vperm 1 2 3 0 .b64, .vslide 1 2 3 0 .b8 31, .vmov 1 2 0 .b8, .vins 1 5 .b64 31, .vins 1 5 .s32 31, .vxpnd 1 2 7 .b64] : List Instr).all
      (fun i => i.wf && (laneRule { regs := [.m 7 1], s := [5] } i).isSome) = true ∧
    ([.vsel 1 2 3 7 .b8, .vcomp 1 2 7 .b64, .vcmp 7 2 3 0 .s8 .lt, .vcmp 7 2 3 0 .z64 .le, .vredadd 4 2 5 0 .s8 .rne, .vredmin 4 2 5 0 .z64, .mpopc 4 7 .b8,
      .mfirst 4 7 .b64, .vext 4 2 .s32 31, .vext 4 2 .b64 31] : List Instr).all Instr.wf = true ∧
    ((64 : Nat) < 2048 / 8 ∧ (31 : Nat) < 2048 / 64) := by decide +kernel

/-- Largest numbers of both signs, zeros, infinities and a NaN in every layout; every finite pattern stands for a number. -/
theorem witness_FloatRounding :
    (convertTypes.all fun t => let f := fmtOf t
      match unpack f (maxBits f false), unpack f (maxBits f true), unpack f 0, unpack f (zeroBits f true) with
      | .fin false m _, .fin true n _, .fin false 0 _, .fin true 0 _ => m != 0 && n != 0
      | _, _, _, _ => false) = true ∧
    (floatTypes.all fun t => let f := fmtOf t
      match unpack f (infBits f false), unpack f (infBits f true), unpack f (nanBits f) with
      | .inf false, .inf true, .nan => true
      | _, _, _ => false) = true ∧
    (∀ n m e, ∃ x, valueIs (.fin n m e) x) ∧ (∃ x, valueIs (.fin false 3 0) x ∧ 0 < x) ∧ ∃ x, valueIs (.fin true 3 0) x ∧ x ≠ 0 := by
  refine ⟨by decide +kernel, by decide +kernel, fun n m e => ⟨_, rfl⟩, ⟨_, rfl, by norm_num⟩, ⟨_, rfl, by norm_num⟩⟩

/-- Well-formed operations of every rule, and numbers, zeros, powers of two and others for the clauses about values. -/
theorem witness_FloatVectorResults :
    ([.vadd 1 2 3 0 .h16 .rne, .vsub 1 2 3 0 .bf16 .rtz, .vmul 1 2 3 0 .f32 .rdn, .vdiv 1 2 3 0 .f64 .rup, .vfma 1 2 3 4 7 .h16 .rne,
      .vfms 1 2 3 4 7 .f32 .rne, .vfnma 1 2 3 4 7 .f64 .rne, .vsqrt 1 2 0 .bf16 .rne, .vmin 1 2 3 0 .f32, .vmax 1 2 3 0 .f64, .vrcpa 1 2 0 .f32,
      .vrsqa 1 2 0 .f64, .vexpa 1 2 0 .h16, .vloga 1 2 0 .bf16, .vscan 1 2 7 .f32 .rne .add] : List Instr).all
      (fun i => i.wf && (floatLaneRule { regs := [], s := [] } i).any fun r => r.2.2.1.isFloat) = true ∧
    ([.vcmp 7 2 3 0 .h16 .un, .vredadd 4 2 5 0 .f64 .rne, .vredmin 4 2 5 0 .bf16, .vredmax 4 2 5 0 .f32, .vcvt 1 2 0 .e4m3 .f32 .rne 3 true,
      .vcvt 1 2 0 .f32 .e2m1 .rne 7 false, .vcvt 1 2 0 .s32 .f64 .rtz 1 false, .vcvt 1 2 0 .f32 .z8 .rne 3 false] : List Instr).all Instr.wf = true ∧
    (let f := fmtOf .f32
     unpack f 0x3F800000 = .fin false 0x800000 (-23) ∧ unpack f 0x40000000 = .fin false 0x800000 (-22) ∧ approxSpecial 0 (unpack f 0x40400000) = none ∧
     approxSpecial 3 (unpack f 0x40400000) = none ∧ (∃ e, unpack f 0x80000000 = .fin true 0 e)) ∧
    (∃ x y, valueIs (.fin false 0x800000 (-23)) x ∧ valueIs (.fin false 0x800000 (-22)) y ∧ x < y) ∧
    valueIs (.fin false 0x800000 (-22)) ((2 : ℝ) ^ (1 : Int)) ∧ valueIs (.fin true 0x800000 (-22)) (-(2 : ℝ) ^ (1 : Int)) ∧
    valueIs (.fin false 0x800000 (-21)) ((2 : ℝ) ^ (2 * (1 : Int))) ∧ valueIs (.fin false 0x800000 (-22)) ((2 : Int) : ℝ) ∧
    ([.s8, .z64] : List Ty).all Ty.isInt = true := by
  refine ⟨by decide +kernel, by decide +kernel, ⟨by decide +kernel, by decide +kernel, by decide +kernel, by decide +kernel, ⟨-149, by decide +kernel⟩⟩,
    ⟨1, 2, ?_, ?_, by norm_num⟩, ?_, ?_, ?_, ?_, by decide⟩ <;> norm_num [valueIs, zpow_ofNat, zpow_neg]

/-- The first and the last step of two pairs; products of every kind; each source of a stored element. -/
theorem witness_MatrixResults :
    (∀ q, q < 128 → (30 : OSlot).val + q / 64 < 32) ∧ ((6 : AccNo).val % 2 = 0) ∧ ((7 : AccNo) ≠ 6) ∧
    (∃ xs : List ℝ, List.Forall₂ valueIs [.fin false 3 0, .fin true 5 (-2)] xs) ∧ zerosOf true (.fin true 0 4) [.fin true 0 0] ∧
    ¬ zerosOf true (.fin false 0 4) [.fin true 0 0] ∧ unpack (fmtOf .f32) 0x7F800000 = .inf false ∧ unpack (fmtOf .e4m3) 0x7F = .nan ∧
    ([.bf16, .f32, .f64, .f32x2, .bf16x2] : List Ty).all (amoLegal .max) = true ∧ (0xFFFFFFFF : Nat) < 2 ^ Ty.f32.width := by
  refine ⟨fun q h => by omega, by decide, by decide, ⟨_, .cons rfl (.cons rfl .nil)⟩, ⟨⟨4, rfl⟩, by simp⟩, ?_, by decide +kernel, by decide +kernel,
    by decide, by decide⟩
  rintro ⟨⟨e, h⟩, -⟩
  cases h

/-- R226, R219: signed bytes, with and without saturation; R231: a comparison. -/
theorem test_vector_lanes :
    ((match vecResult { regs := [.v 2 0x7F, .v 3 0x01], s := [] } (.vadd 1 2 3 0 .s8 .rne) with | [.v _ x] => elem x.toNat 8 0 == 0x80 | _ => false) &&
     (match vecResult { regs := [.v 2 0x7F, .v 3 0x01], s := [] } (.vadds 1 2 3 0 .s8) with | [.v _ x] => elem x.toNat 8 0 == 0x7F | _ => false) &&
     (match vecResult { regs := [.v 2 0xFF, .v 3 0x01], s := [] } (.vcmp 7 2 3 0 .s8 .lt) with | [.m _ x] => x.getLsbD 0 && !x.getLsbD 1 | _ => false)) = true := by
  decide +kernel

/-- An entry of core 3's queue: a word of slot 0 there. -/
def tEntry (i : Instr) (sc : List Word64) : QEntry := { seq := 3, gid := 48, epoch := 0, instr := i, scal := sc }
def tStart : State :=
  modSlot 48 (fun x => { x with win := { base := 64, size := 8 } }) (modCore 3 (fun k => { k with queue := [tEntry (.vadd 7 6 5 0 .f32 .rne) []] }) tS)
/-- A state whose cell has one operation. -/
def tMx (m : MxOp) : State := modCell 0 (fun x => { x with mx := [m] }) (tHeld 0)
def tMma : MxKind := .mma 7 0 31 none .s8 .rne false false 1
/-- A load of a tile of bytes from 0x3FFFE000. -/
def tFill : MxKind := .load 31 0x3FFFE000 128 .b8 false false none

/-- A word that starts; the operations of the sequencer, at their first step and at their last; a load's element that its home
gives; the elements of the memory words. -/
theorem witness_WideUnits :
    (nextQueue tStart 0 = some 3 ∧ (coreAt tStart 3).queue = [tEntry (.vadd 7 6 5 0 .f32 .rne) []] ∧ bankAwake tStart 0 64 = true ∧
      (cellAt tStart 0).mx = [] ∧ repliesTo tStart 48 = [] ∧ cellOf 48 = 0 ∧ isMatrix (.vadd 7 6 5 0 .f32 .rne) = false ∧
      isVmem (.vadd 7 6 5 0 .f32 .rne) = false ∧ isVector (.vadd 7 6 5 0 .f32 .rne) = true) ∧
    ([(.zero 7, 0), (.vec 31 7 63, 0), (tMma, 0), (tMma, 63)] : List (MxKind × Nat)).all (fun (k, n) =>
      let m := tOp 9 none k n
      decide (seqPick (cellAt (tMx m) 0) = some m) && keysFrom 0 (cellAt (tMx m) 0).tile) = true ∧
    (63 + 1 = 64 * 1 ∧ (31 : Nat) + 63 / 64 < 32) ∧
    (let m := tOp 9 none tFill 8190
     let s := { tMx m with fly := true }
     loaderPick (cellAt s 0) = some m ∧ mxAt s 0 9 = some m ∧ m.steps + 1 < loadReads .b8 ∧
     elemFault s (mxWho s m) 1 (loadAddr 0x3FFFE000 128 .b8 false false 8190) = none ∧
     resolve s (mxWho s m) .read (loadAddr 0x3FFFE000 128 .b8 false false 8190) = .go (.mem 0x3FFFFFFE) ∧ poisoned s (.mem 0x3FFFFFFE) 1 = false ∧
     postedTo s 0 (0x3FFFFFFE / 128) 9 = []) ∧
    ([.vld 31 5 0 .b32 0, .vst 31 5 0 .b32 0, .vlds 31 6 5 0 .b32, .vsts 31 6 5 0 .b32, .vgath 1 2 5 0 .b32 2, .vscat 1 2 5 0 .b32 2] : List Instr).all
      (fun i =>
        let m := tOp 9 none (.vop i [0x2000, 8]) 63
        (memJob (cellAt tS 0) m).isSome && ((actives (srcMask m i) (vmemTy i))[63]?).isSome) = true := by decide +kernel

/-! ### Waits, spills, queues -/

/-- The waits of a limited park, at the limit and past it; a window that can be had; a bank in use, at 8,191 and 8,192 cycles; a
page request; and the repaired entry's memory. -/
theorem witness_FillsAndWaits :
    (∀ w ∈ ([.channel 1023 true 8, .copy 4 127 8, .barrier 4 63 1] : List Wait),
      LimitedWait (park 0 w tS) 0 ∧ (slotAt (park 0 w tS) 0).ctl.st = .parked) ∧
    LimitedWait (park 0 (.fullempty (stashLoc 0 0x7FFF8)) (modCell 0 (fun c => { c with
      feq := [(stashLoc 0 0x7FFF8, [{ gid := 0, epoch := 0, op := 0, d := 4, v := 0, clock := 0 }], [])] }) tS)) 0 ∧
    LimitedWait (park 0 (.reserve 4 0x3FFFFFF8) (resvBy 1 [0] tS)) 0 ∧
    (let s := modSlot 0 (fun x => { x with parkCnt := 6, parkLim := 5 }) (park 0 (.barrier 4 63 1) (tv 0x4000 0 0 tS))
     (slotAt s 0).parkLim ≠ 0 ∧ (slotAt s 0).parkLim < (slotAt s 0).parkCnt ∧ (slotAt s 0).trap.vec ≠ 0 ∧ bit (slotAt s 0).trap.cause 11 = false ∧
     (slotAt (modSlot 0 (fun x => { x with parkLim := 6 }) s) 0).parkCnt ≤ 6) ∧
    (let s := park 0 (.resize 8) tS
     (slotAt s 0).ctl.wait = .resize 8 ∧ (slotAt s 0).ctl.st = .parked ∧ opsPending s 0 = false ∧ windowFor s 0 8 = some 32 ∧ bankAwake s 0 32 = true) ∧
    ((0 : Nat) ∉ (cellAt tS 0).retained ∧ 0 ∉ (cellAt tS 0).waking ∧ (∃ t ∈ poolTaken tS 0, t.1 / 32 = 0) ∧
      (tfind (cellAt tS 0).lastUse 0).getD 0 + 8192 ≤ cellCycle (modCore 3 (fun k => { k with cycle := 8192 }) tS) 0 ∧
      cellCycle (modCore 3 (fun k => { k with cycle := 8191 }) tS) 0 < (tfind (cellAt tS 0).lastUse 0).getD 0 + 8192) ∧
    (31 : Nat) ∈ (cellAt (modCell 0 (fun c => { c with waking := [31] }) tS) 0).waking ∧
    (isLocal 0x3FFFFFF8 8 = true ∧ ∀ l, holdersOf tS l = []) ∧ (slotAt (park 0 (.fetch 3) tS) 0).ctl.wait = .fetch 3 ∧
    ((coreAt tS 0).lines.length < 512 ∧ (workCore (tFw tS) 1).isSome = true ∧
      (let r : PageReq := { gid := 0, epoch := 0, asid := 1, va := 0x80000000, kind := 0, item := 0, need := 0, done := none }
       tfind ({ tS with pages := [(7, r)] }).pages 7 = some r ∧ r.done = none ∧ r.kind = 0 ∧ leafHole tS r = false ∧
       leafHole (modCtx 1 (fun c => { c with tlb := [tTlb 0x80000000 0x800008000000F] }) tS) r = false ∧
       leafHole (modCtx 1 (fun c => { c with tlb := [tTlb 0x80000000 0x6000000000F] }) tS) r = true)) := by
  refine ⟨fun w hw => ?_, ?_, ?_, by decide +kernel, by decide +kernel, ⟨by decide +kernel, by decide +kernel, ⟨(0, 32), by decide +kernel⟩,
    by decide +kernel, by decide +kernel⟩, by decide +kernel, ⟨by decide +kernel, fun l => rfl⟩, by decide +kernel, by decide +kernel⟩
  · simp only [List.mem_cons, List.not_mem_nil, or_false] at hw
    rcases hw with rfl | rfl | rfl <;> exact ⟨trivial, by decide +kernel⟩
  · exact .inl ⟨(stashLoc 0 0x7FFF8, [{ gid := 0, epoch := 0, op := 0, d := 4, v := 0, clock := 0 }], []), by decide +kernel,
      { gid := 0, epoch := 0, op := 0, d := 4, v := 0, clock := 0 }, by decide +kernel, by decide +kernel⟩
  · exact ⟨(0x3FFFFFF8, { holder := some 1, fifo := [0] }), by decide +kernel, by decide +kernel⟩

/-- Two contexts of cell 0, that of `tS` and one that is switched out. -/
def tGang : State :=
  let s := modCtx 1 (fun c => { c with rcd := { c.rcd with tick := 100 }, part := { base := 0, len := 1, curBase := 0, curLen := 1, staged := none } }) tS
  { s with ctxs := s.ctxs ++ [(2, { placeCtx with born := 1, out := true, part := { base := 0, len := 1, curBase := 0, curLen := 1, staged := none },
                                                  rcd := { placeCtx.rcd with tick := 100 } })] }
/-- Its slot spilled: still to be saved, or saved. -/
def tSpilled (save restore : Bool) (s : State) : State :=
  cv (fun c => { c with st := .spilled, under := .running, req := { c.req with spill := save, restore := restore } }) s

/-- Those contexts have cells 0 and 1 and are being switched: cell 0 is quiet, and a slot of cell 1 runs; a spilled slot of the second waits
for cell 0. -/
def tPass (deadline : Option Nat) : State :=
  let two := fun (c : Ctx) => { c with part := { c.part with len := 2, curLen := 2 } }
  let s := tSpilled false false (modCtx 1 two tGang)
  let s := modSlot (64 * (partOf 0 2).getLast!) (fun _ => { slotAt tS 0 with win := { base := 32, size := 0 } }) s
  { modCtx 2 (fun c => { two c with out := false, away := partOf 0 2 }) s with
    switches := [(0, { out := 1, inn := 2, left := partOf 0 2, late := if deadline.isSome then [0] else [], deadline := deadline, part := false })]
    saves := [(saveKey 2 1, { slotAt tS 0 with ctl := { (slotAt tS 0).ctl with st := .spilled, under := .running, asid := 2 } })] }

/-- A slot to save, and one to restore; a switch that asks and one that goes through; a deadline with and without a late cell; a
change of partition with and without a live grid; clocks past the limit, and below it. -/
theorem witness_SpillsAndSwitches :
    (let s := tSpilled true false tS
     (me s).ctl.st = .spilled ∧ (me s).ctl.req.spill = true ∧ drainedForSpill s 0 = true ∧ bankAwake s 0 0 = true ∧ (me s).win.size ≤ 32 ∧
     saveArea s 1 0 = 0 ∧ isLocal 0 53248 = true ∧ ∀ l, holdersOf s l = []) ∧
    (let s := tSpilled false true tS
     (me s).ctl.req.restore = true ∧ (me s).inbox = [] ∧ (me s).ctl.under ≠ .idle ∧ windowFor s 0 (areaWindow s 0 (me s)) = some 0) ∧
    ((ctxAt tGang 1).map (fun c => (c.out, c.rcd.tick)) = some (false, 100) ∧ partOf 0 1 = [0] ∧ cellQuiet tGang 1 0 = false) ∧
    (let s := tSpilled false false tGang
     cellQuiet s 1 0 = true ∧ (ctxAt s 1).map partPending = some false ∧ nextOf 1 (sharers s 0 1) = some 2 ∧ (ctxAt s 2).map (·.out) = some true) ∧
    ([none, some 0] : List (Option Nat)).all (fun d =>
      let s := tPass d
      match ctxAt s 1, ctxAt s 2, tfind s.switches 0 with
      | some c, some e, some w => c.part.curBase == 0 && decide (w.out ≠ w.inn) && decide (w.left.filter (cellQuiet s w.out) = [0]) &&
          w.left.any (· != 0) && (cellAt s 0).mx.isEmpty && (mapsOf s 1 0).isEmpty && isWf s && keysFrom 0 s.saves && decide (w.deadline = d) &&
          (w.late.contains 0 == d.isSome) && decide (e.part.curBase = 0) && s.saves.all fun q => q.2.inbox.isEmpty && decide (q.2.ctl.under ≠ .idle) && q.1 / 16384 == 2
      | _, _, _ => false) = true ∧
    (ctxAt tGang 1).map (fun c => tfind tGang.switches c.part.curBase) = some none ∧ inboxCount (me (tSpilled true false tS)).inbox ≤ 1024 ∧
    ((List.range 256).all fun k => (mapsOf tS 1 k).isEmpty) = true ∧
    (cellAt (modCell 0 (fun c => { c with joined := false }) tGang) 0).joined = false ∧
    (let s := modCtx 1 (fun c => { c with part := { c.part with base := 1, len := 2 } }) tS
     (ctxAt s 1).map (fun c => (c.part.base, c.part.curBase, c.rcd.tick)) = some (1, 0, 0) ∧ hasLiveGrid s 1 = false ∧
     hasLiveGrid { s with grids := [(1023, tGrid)] } 1 = true ∧ runsElse s 1 1 2 = false ∧ ((List.range 256).all fun k => (mapsOf s 1 k).isEmpty) = true ∧
     runsElse { s with ctxs := s.ctxs ++ [(2, { placeCtx with part := { base := 1, len := 2, curBase := 1, curLen := 2, staged := none } })] } 1 1 2 = true) ∧
    (tS.net = [] ∧ 2 ^ 62 < (slotAt (modSlot 0 (fun x => { x with lclk := 2 ^ 62 + 1 }) tS) 0).lclk ∧
      (∀ q ∈ tS.slots, q.2.lclk ≤ 2 ^ 62) ∧ tS.saves = [] ∧ tS.mem.stamps = [] ∧ tS.linkClk ≤ 2 ^ 62) := by
  refine ⟨?_, by decide +kernel⟩
  repeat refine ⟨by decide +kernel, ?_⟩
  exact fun l => rfl

/-- A queue 3 of virtual function 127 with a control block `b` at 0x2000 (R92); its ring of 16 packets is at 0x4000. -/
def tQ (scans : Nat) (next : Option Word64) (b : Nat) : State :=
  mb 0x4000 64 (leNat (leBytes 8 1 ++ leBytes 8 0x2000)) (mb 0x2000 64 b (modCtx 1 (fun c => { c with
    queues := [(3, { cb := 0x2000, next := next, wake := false, scans := scans, barrier := false, fault := false })], rcd := { c.rcd with vf := 127 } }) (tFw tS)))
/-- The QUEUE core that serves that queue, as it acts for the context (R91). -/
def tQw (s : State) : Option Who := (ctxAt s 1).bind fun c => queueWho s 1 c 3
/-- A control block: size 2^4, halted, its error code, write and read index. -/
def tCb (log2 halted code w r : Nat) : Nat :=
  leNat (leBytes 8 0x4000 ++ leBytes 1 log2 ++ leBytes 1 halted ++ leBytes 2 code ++ leBytes 4 0 ++ leBytes 8 w ++ leBytes 8 r)

/-- Wakes of no queue, with and without a token; registrations; a block that is halted with each code; scans that find nothing,
no block, a bad block, a bad packet and a good one. -/
theorem witness_QueueEvents :
    (let s := tQ 0 none (tCb 4 0 0 0 0)
     queueOwner s 127 3 = some 1 ∧ queueOwner s 127 63 = none ∧ s.boot.handover = false ∧ 0 < tokensOf s 127 ∧
     tokensOf { s with tokens := [(127, 0)] } 127 = 0 ∧ (ctxOfVf s 127).map Prod.fst = some 1 ∧ ctxOfVf s 0 = none ∧
     ((0x20 : Word64).toNat % 64 ≠ 0 ∧ (0x40 : Word64).toNat % 64 = 0)) ∧
    ([0, 1, 3, 4] : List Nat).all (fun code =>
      let s := tQ 0 none (tCb 4 1 code 1 0)
      match tQw s with
      | some w => decide ((readBlock s w 0x2000).map (fun b => (dField b 9 1, dField b 10 2)) = some (1, code))
      | none => false) = true ∧
    ([(4, 0, 0, true), (4, 0, 1, true), (3, 0, 1, false), (17, 0, 1, false), (16, 1, 1, true)] : List (Nat × Nat × Nat × Bool)).all (fun (n, h, w, ok) =>
      let s := tQ 1 none (tCb n h 0 w 0)
      match tQw s with
      | some q => match readBlock s q 0x2000 with
        | some b => blockOk b == ok && dField b 9 1 == h && dField b 16 8 == w && dField b 24 8 == 0 &&
            decide ((readVirt (noteVirt q (lastClock s) 2 0x2000 64 s) q 2 0x4000 64).map (fun p => packetError (leNat p)) = some 0)
        | none => false
      | none => false) = true ∧
    ((tQw (tQ 1 (some 0) 0)).map (fun w => (readBlock (tQ 1 (some 0) 0) w 0x0200000000000000).isNone) = some true ∧
      packetError 0 = 1 ∧ packetError (1 + 2 * 256) = 2 ∧ packetsPending (tQ 1 none 0) 1 3 = false) := by decide +kernel

/-! ### Packets and administration -/

/-- Packet 7 of the context, of a type, with its operand at 0x2000. -/
def tPk (ty : Nat) (s : State) : State :=
  modCtx 1 (fun c => { c with packets := [{ id := 7, q := 3, index := 0, ty := ty, ptr := 0x2000, grid := none }] }) (tFw s)
/-- A stage graph (R114) of `n` stages on one core each, and a channel between the first two if there are two. -/
def tStages (n : Nat) : List Byte :=
  leBytes 2 n ++ leBytes 2 (n - 1) ++ leBytes 4 2 ++ leBytes 8 0x2000 ++ leBytes 16 0 ++
  (List.range n).flatMap (fun _ => leBytes 8 0x1000 ++ [0, 1, 32, 1] ++ leBytes 4 0 ++ leBytes 8 7 ++ leBytes 8 0) ++
  (List.range (n - 1)).flatMap (fun _ => [0, 1, 0, 8] ++ leBytes 4 256 ++ leBytes 8 0)
def tGraph (n : Nat) : State := tPk 2 (mb 0x2000 112 (leNat (tStages n)) tS)
def tStage : Stage := { entry := 0x1000, slots := 1, vwin := 32, args := 7, cores := 1, bound := [] }
/-- A graph that waits for cores, as record 1023; its stages want `n` cores each. -/
def tBind (n : Nat) : State :=
  { tS with grids := [(1023, { tGrid with
      left := 0, graph := some { stages := List.replicate 2 { tStage with cores := n }, chans := [(0, 1, false, 8, 256)], first := 0, bound := false } })] }

/-- An object (R57 to R61): 8 bytes of code, and the symbol 'a' at its start. Its length is 200 bytes. -/
def tObj (magic : Nat) : List Byte :=
  leBytes 4 magic ++ leBytes 2 1 ++ leBytes 2 4 ++ leBytes 2 3 ++ leBytes 2 0 ++ leBytes 4 64 ++ leBytes 4 0xFFFFFFFF ++ leBytes 4 0 ++ leBytes 8 200 ++
    leBytes 32 0 ++
  leBytes 2 1 ++ leBytes 2 2 ++ leBytes 4 3 ++ leBytes 4 136 ++ leBytes 4 8 ++ leBytes 8 8 ++
  leBytes 2 5 ++ leBytes 2 0 ++ leBytes 4 3 ++ leBytes 4 144 ++ leBytes 4 48 ++ leBytes 8 48 ++
  leBytes 2 6 ++ leBytes 2 0 ++ leBytes 4 1 ++ leBytes 4 192 ++ leBytes 4 3 ++ leBytes 8 3 ++
  leBytes 8 0 ++
  leBytes 24 0 ++ leBytes 4 1 ++ leBytes 2 1 ++ leBytes 2 1 ++ leBytes 12 0 ++ leBytes 4 0xFFFFFFFF ++
  [0, 97, 0] ++ leBytes 5 0
/-- A request block of LOAD at 0x2000 (R64): the object at 0x3000, the result at 0x2080, no list of exports, room for one. -/
def tLoad (magic : Nat) : State :=
  tPk 3 (mb 0x3000 200 (leNat (tObj magic)) (mb 0x2000 40 (leNat (leBytes 8 0x3000 ++ leBytes 8 200 ++ leBytes 8 0x2080 ++ leBytes 8 0x2100 ++ leBytes 4 1)) tS))
/-- Object 5, which defines 'a'. -/
def tHas : Obj := { id := 5, code := [], data := [], stash := [], syms := [{ name := [97], weak := false, addr := 0, handle := none }], deps := [] }

/-- A launch that is refused, one that finds no record, one that is taken; graphs of no form, and of two stages; a bind that must
wait and one that goes through. -/
theorem witness_PacketEvents :
    ([(0, -1), (1, 0), (16, 0)] : List (Nat × Int)).all (fun (n, st) =>
      let s := tPk 1 (tLaunching n)
      match packetAt s 7 1 with
      | some (a, c, p) => decide (a = 1) && decide (ctxAt s 1 = some c) && !launchesWait c && packetFirst c p && decide (p.ptr.toNat % 64 = 0) &&
          (match queueWho s 1 c p.q with
            | some w => match readVirt s w 2 0x2000 64 with
              | some b => decide (launchStatus s w false (leNat b) = st) && decide (dField (leNat b) 40 8 % 64 = 0)
              | none => false
            | none => false)
      | none => false) = true ∧
    (recordsFull tAllLive = true ∧ recordsFull (tPk 1 (tLaunching 1)) = false) ∧
    ([1, 2] : List Nat).all (fun n =>
      let s := tGraph n
      match packetAt s 7 2 with
      | some (_, c, p) => !launchesWait c && packetFirst c p &&
          (match (queueWho s 1 c p.q).bind fun w => readGraph s w p.ptr with
            | some (_, some d) => let xs := (entriesOf d 32 32 (dField d 0 2)).filterMap (stageOf s 1)
              graphFields d && decide (xs = List.replicate n tStage) && (bindStages (fun _ => []) (graphCores s 1) xs).isSome
            | _ => false)
      | none => false) = true ∧
    graphFields (leNat (tStages 2) + 2 ^ 40) = false ∧
    (recordWaits (tPk 1 (tLaunching 0)) 1 true 0x2000 = false ∧
      recordWaits (modCtx 1 (fun c => { c with away := [0] }) (tPk 1 (tLaunching 0))) 1 true 0xFF00000000000000 = true) ∧
    (let s := tBind 1
     let free := (graphCores s 1).filter (bindable s 1)
     (workCore (tFw s) 0).isSome = true ∧ (match bindStages (poolTaken s) free (List.replicate 2 tStage) with
       | some bs => bs.length == 2 && decide (freeRun [] 1 = some 0) && (placeRings bs 1023 0 [(0, 1, false, 8, 256)] []).isSome
       | none => false) = true ∧
     (sinksFirst 64 [(0, 1)] (List.range 2)).2 = [] ∧ bindStages (fun _ => []) (free.take 3) (List.replicate 2 { tStage with cores := 2 }) = none) := by
  refine ⟨by decide +kernel, ⟨tAllLive_full, by decide +kernel⟩, ?_⟩
  repeat refine ⟨by decide +kernel, ?_⟩
  decide +kernel

/-- An object that is none; one that loads; one whose symbol another object defines; an unload of an object that is not, of one
that another needs, and of one that goes. -/
theorem witness_LoadEvents :
    (let s := tLoad 0x42434F5A
     match packetAt s 7 3 with
     | some (_, c, p) =>
       let w := ctxWho 1 c.rcd.priv ((workCore s 3).getD 0)
       (workCore s 3).isSome && loadFirst c 7 && (match loadRequest s w p with
         | some req => dField req 24 8 % 8 == 0 && dField req 36 4 == 0 && dField req 16 8 % 8 == 0 &&
             (match readVirt s w (dField req 8 8 / 64 + 2) (dField req 0 8) (dField req 8 8) with
               | some bs => match readObject (leNat bs) 200 with
                 | .ok o => (duplicateSym c o).isNone && decide (duplicateSym { c with objs := [tHas] } o = some 1) && exportCount o == 1 && dField req 32 4 == 1 &&
                     (match stashPlaces [] o.sects.zipIdx with
                       | .ok st =>
                         let xs := itemsOf o
                         xs.length == 1 && placesFit [] c (storeTaken c 0) (storeTaken c 1) xs [0] && (unresolvedSym s 1 c o (placedAt c xs [0] st)).isNone &&
                           (match imagesOf o (placedAt c xs [0] st) (resolveSym s 1 c o (placedAt c xs [0] st)) (placedAt c xs [0] st).sects with
                             | .ok _ => true | .error _ => false)
                       | .error _ => false)
                 | .error _ => false
               | none => false)
         | none => false)
     | none => false) = true ∧
    (match readObject (leNat (tObj 0)) 200 with | .error e => decide (e = (1, 0)) | .ok _ => false) = true ∧
    (let s := tPk 4 (modCtx 1 (fun c => { c with objs := [tHas, { tHas with id := 6, syms := [], deps := [5] }] }) (mb 0x2000 8 6 tS))
     match packetAt s 7 4 with
     | some (_, c, p) => loadFirst c 7 && decide ((workCore s 3).bind (fun k => loadRequest s (ctxWho 1 c.rcd.priv k) p) = some 6) &&
         decide (c.objs.all (fun o => o.id != 7)) && decide (c.objs.any (fun o => o.id != 5 && o.deps.contains 5)) &&
         decide (c.objs.all (fun o => o.id == 6 || !o.deps.contains 6))
     | none => false) = true := by
  refine ⟨by decide +kernel, by decide +kernel, by decide +kernel⟩

/-- A request of PF0 at 0x2000 (R397): record at 0x3000, context number. -/
def tReq (rcd asid : Nat) : Nat := leNat (leBytes 8 0 ++ leBytes 8 rcd ++ leBytes 8 asid ++ leBytes 8 0x1000 ++ leBytes 8 0)
/-- A context record (R398): partition of `len` cells from `base`. -/
def tRcd (base len : Nat) : Nat :=
  leNat (leBytes 40 0xFF ++ leBytes 4 1 ++ leBytes 2 base ++ leBytes 2 len ++ leBytes 8 0 ++ leBytes 2 1 ++ leBytes 2 1 ++ leBytes 36 0 ++ leBytes 4 1)
/-- The admin queue at 0x5000 has one packet, of type `ty`; its ring is at 0x4000. -/
def tAdmin (ty rcd asid base len : Nat) (s : State) : State :=
  mb 0x3000 128 (tRcd base len) (mb 0x2000 64 (tReq rcd asid) (mb 0x4000 64 (ty + 2 ^ 64 * 0x2000) (mb 0x5000 64 (tCb 4 0 0 1 0) (tFw s))))
/-- The packet that the admin queue has: its type, its request block, and the machine once it is accepted. -/
def adminAt (s : State) : Option (Nat × Nat × State) :=
  match readPhys s 0x5000 64 with
  | none => none
  | some bs =>
    match readPhys s (dField (leNat bs) 0 8 + 64 * (dField (leNat bs) 24 8 % 2 ^ dField (leNat bs) 8 1)) 64 with
    | none => none
    | some ps =>
      let t := writeAdmin 0x5000 [(24, 8, (dField (leNat bs) 24 8 + 1) % 2 ^ 64)] s
      match readPhys t (dField (leNat ps) 8 8) 64 with
      | none => none
      | some qs =>
        if (workCore s 0).isSome = true ∧ dField (leNat bs) 9 1 ≠ 1 ∧ blockOk (leNat bs) = true ∧
            dField (leNat bs) 24 8 < dField (leNat bs) 16 8 ∧ adminError (leNat ps) = 0 ∧ dField (leNat ps) 1 1 % 2 = 0 then
          some (dField (leNat ps) 0 1, leNat qs, t)
        else none

theorem adminAt_due {s t : State} {ty q : Nat} (h : adminAt s = some (ty, q, t)) : AdminDue s 0x5000 ty q t := by
  unfold adminAt at h
  split at h
  · exact absurd h (by simp)
  · rename_i bs h1
    split at h
    · exact absurd h (by simp)
    · rename_i ps h2
      dsimp only at h
      split at h
      · exact absurd h (by simp)
      · rename_i qs h3
        split at h
        · rename_i c
          simp only [Option.some.injEq, Prod.mk.injEq] at h
          obtain ⟨rfl, rfl, rfl⟩ := h
          exact ⟨bs, ps, qs, h1, by decide, c.1, c.2.1, c.2.2.1, c.2.2.2.1, h2, c.2.2.2.2.1, rfl, .inl c.2.2.2.2.2, rfl, h3, rfl⟩
        · exact absurd h (by simp)

/-- The context of `tS` with one cell, its slot running or spilled. -/
def tOneCell : State := modCtx 1 (fun c => { c with part := { base := 0, len := 1, curBase := 0, curLen := 1, staged := none } }) tS

/-- CREATE: a misaligned record, a bad one, a number in use, a partition that meets another, and one that does not; DESTROY of no
context, of a quiet one and of one with a grid; INVALIDATE; MIGRATE to a partition that is none, of a context that can be moved and of one
that is running; a context with a request under way; a control block and packets that are bad. -/
theorem witness_AdminEvents :
    ([(0x3000, 2, 0, 1, tS), (0x3020, 2, 0, 1, tS), (0x3000, 1, 0, 1, tS), (0x3000, 2, 1, 255, tOneCell), (0x3000, 0, 1, 255, tOneCell)] :
      List (Nat × Nat × Nat × Nat × State)).all (fun (r, a, b, l, s) =>
      match adminAt (tAdmin 16 r a b l s) with
      | some (ty, q, t) => ty == 16 && dField q 8 8 == r && dField q 16 2 == a && (readPhys t r 128).isSome && decide (t.ctxs.length < 256) &&
          decide (ctxAt t 2 = none) && (a != 0 || nextAsid t != 0) && (mayShare t 0 b l 0 0 == (b != 0)) &&
          (partOf b l).all fun k => (mapsOf t 2 k).isEmpty
      | none => false) = true ∧
    (recordOk (tRcd 0 1) = true ∧ recordOk 0 = false ∧ dField (tRcd 1 255) 44 1 = 1 ∧ dField (tRcd 1 255) 46 2 = 255 ∧ 0x3020 % 64 ≠ 0 ∧
      dField (tRcd 1 255) 48 4 = 0 ∧ dField (tRcd 1 255) 52 4 = 0) ∧
    (match adminAt (tAdmin 17 0 1 0 1 (tSpilled false false tS)), adminAt (tAdmin 17 0 9 0 1 tS), adminAt (tAdmin 17 0 1 0 1 { tS with grids := [(1023, tGrid)] }) with
      | some (17, q, t), some (17, p, u), some (17, _, v) => dField q 16 2 == 1 && dField p 16 2 == 9 && decide (ctxAt u 9 = none) && !switching t 1 &&
          t.ctxs.all (fun x => x.2.pending.isNone) && hasLiveGrid v 1 && v.ctxs.all (fun x => x.2.pending.isNone) &&
          (match ctxAt t 1 with | some c => decide (sharers t c.part.curBase c.part.curLen = [1]) | none => false)
      | _, _, _ => false) = true ∧
    (match adminAt (tAdmin 18 0 1 0 1 tS), adminAt (tAdmin 18 0 9 0 1 tS) with
      | some (18, q, t), some (18, _, u) => dField q 16 2 == 1 && dField q 24 8 == 0x1000 && dField q 32 8 == 0 && (ctxAt t 1).isSome && (ctxAt u 9).isNone
      | _, _ => false) = true ∧
    ([(0, false), (1, true)] : List (Nat × Bool)).all (fun (b, still) =>
      match adminAt (tAdmin 19 0x3000 1 b 1 (if still then tSpilled false false tOneCell else tOneCell)) with
      | some (19, q, t) => decide (migrateGoal t q = some (b, 1)) && t.ctxs.all (fun x => x.2.pending.isNone) &&
          (match ctxAt t 1 with
            | some c => !partPending c && decide (c.part.len = 1) && mayShare t 1 b 1 c.rcd.tick c.rcd.deadline && (movable t 1 c == still) && !c.out
            | none => false)
      | _ => false) = true ∧
    (match adminAt (tAdmin 19 0x3000 1 0 2 tOneCell), adminAt (tAdmin 17 0 1 0 1 (modCtx 1 (fun c => { c with pending := some (17, 5) }) tS)),
        adminAt (tAdmin 19 0x3000 1 0 1 (modCtx 1 (fun c => { c with pending := some (17, 5) }) tS)) with
      | some (19, q, t), some (17, _, u), some (19, p, v) => decide (migrateGoal t q = some (0, 2)) && decide ((ctxAt t 1).map (·.part.len) = some 1) &&
          decide ((ctxAt u 1).map (·.pending) = some (some (17, 5))) && (migrateGoal v p).isSome
      | _, _, _ => false) = true ∧
    (let s := fun (log2 r base : Nat) (ty : Nat) => mb 0x4000 64 ty (mb 0x5000 64 (leNat (leBytes 8 base ++ leBytes 1 log2 ++ leBytes 7 0 ++ leBytes 8 1 ++ leBytes 8 r)) (tFw tS))
     (readPhys (s 3 0 0x4000 1) 0x5000 64).map (fun b => (blockOk (leNat b), dField (leNat b) 9 1)) = some (false, 0) ∧
     (readPhys (s 4 0 0x100000000000000 1) 0x5000 64).map (fun b => (blockOk (leNat b), dField (leNat b) 24 8, dField (leNat b) 16 8)) = some (true, 0, 1) ∧
     readPhys (s 4 0 0x100000000000000 1) 0x100000000000000 64 = none ∧
     (readPhys (s 4 0 0x4000 1) 0x4000 64).map (fun p => adminError (leNat p)) = some 1 ∧
     (readPhys (s 4 0 0x4000 1) 0x4000 64).map (fun p => adminError (leNat p + 2 ^ 9)) = some 1 ∧ (workCore (s 4 0 0x4000 1) 0).isSome = true) := by
  repeat refine ⟨by decide +kernel, ?_⟩
  decide +kernel

/-- A slot at the probe of a debugger. -/
def tProbe : State := cv (fun c => { c with st := .halted, under := .running }) (modCtx 1 (fun c => { c with attached := true }) tS)

theorem witness_DebugPort :
    (debugged tS 0 = false ∧ (ctxAt tS 1).isSome = true) ∧ AtProbe tProbe 0 ∧ (slotAt tProbe 0).ctl.under = .running ∧ (slotAt tProbe 0).ctl.wait = .none ∧
    (31 < (slotAt tProbe 0).win.size ∧ cregListed 0x17F = true) ∧
    (let s := tSpilled false false tProbe
     debugged s 0 = true ∧ (slotAt s 0).ctl.st = .spilled ∧ (slotAt s 0).ctl.req.spill = false) ∧
    (slotAt (cv (fun c => { c with st := .running }) tProbe) 0).ctl.st = .running ∧
    (let s := cv (fun c => { c with under := .parked, wait := .reply }) tProbe
     AtProbe s 0 ∧ (slotAt s 0).ctl.wait.restarts = false) := by
  unfold AtProbe; decide +kernel

/-- A configuration table that is accepted, and one whose version is older than the fuse (R403, R404). -/
def tTable : ConfigTable :=
  { signatureOk := true, version := 1, device := 511, fwColumns := [0, 15], roles := [0, 1, 2, 3] ++ List.replicate 28 4, routes := [(510, 23)], digest := 9 }
/-- Its firmware image. -/
def tImg : FwImage := { number := 1, digest := 9, writes := 2, accepts := [2] }

theorem witness_OutsideAndManagement :
    (isLocal 0x005FFFFFFF80 128 = true ∧ isLocal 0x010000000000 1 = true ∧ isLocal 0x4020000000000 8 = false ∧
      (0x005FFFFFFFF8 : Nat) % 128 + 8 ≤ 128 ∧ (∀ l, holdersOf tS l = []) ∧ 0x005FFFFFFFF8 % (Ty.s64.width / 8) = 0) ∧
    (amoInteger .add .s32x2 7 (9 : Word64).toNat).isSome = true ∧
    (refusal State.reset tTable tImg = 0 ∧ refusal { State.reset with boot := { State.reset.boot with fuse := 2 } } tTable tImg = 2 ∧
      refusal State.reset tTable { tImg with digest := 0 } = 4) ∧
    (let s := { tS with boot := { tS.boot with columns := [0, 15], roles := tTable.roles, image := some tImg } }
     s.boot.booted = true ∧ s.boot.handover = false ∧ refusal s tTable tImg = 0 ∧ tTable.fwColumns = s.boot.columns ∧ quiescent s = true ∧
     quiescent (send (.reply { gid := 0, epoch := 0, op := some 1 }) (modCtx 1 (fun c => { c with packets := [{ id := 7, q := 3, index := 0, ty := 3, ptr := 0, grid := none }] }) s)) = false ∧
     (let h := { s with boot := { s.boot with handover := true, idle := some (tImg, tTable.roles) } }
      h.boot.handover = true ∧ quiescent h = true ∧ tImg.writes ∈ tImg.accepts ∧ tImg.writes ∉ ({ tImg with accepts := [] } : FwImage).accepts)) ∧
    (∃ t : Nat, t ≤ 1050 ∧ ¬ (1050 < t)) ∧ (1050 < 1051 ∧ 0 < (cellAt (modCell 0 (fun c => { c with live := 32 }) tS) 0).live ∧ 1150 ≤ 1150) ∧
    ((1199 < 1200 ∨ 2000 < 1199) ∧ (1200 ≤ 2000 ∧ 2000 < 2001)) ∧
    ((slotAt (tv 0x4000 0 0 tS) 0).ctl.st = .running ∧ (slotAt (tv 0x4000 0 0 tS) 0).trap.vec ≠ 0 ∧ bit (slotAt (tv 0x4000 0 0 tS) 0).trap.cause 11 = false) ∧
    (readsWell tS 0x005FFFFFFF80 128 = true ∧ readsWell { tS with mem := { tS.mem with poison := [0x005FFFFFFF80 / 128] } } 0x005FFFFFFF80 128 = false ∧
      poisoned tRoutine (.mem 0x3FFFFF80) 1 = false ∧ (ctxAt tRoutine 1).map (fun c => tfind c.routines 48) = some (some tImage)) ∧
    (let s := fun (h : Option Nat) (l : List Nat) => { tS with mem := { tS.mem with resv := [(0x3FFFFFF8, { holder := h, fifo := l })] } }
     (∀ l, holdersOf (s none []) l = []) ∧ isLocal 0x3FFFFFF8 8 = true ∧ 0x3FFFFFF8 % 8 = 0 ∧ atomicFault (s none []) 0x3FFFFFF8 (.mem 0x3FFFFFF8) = none ∧
     (resvOf (s none []) 0x3FFFFFF8).holder = none ∧ (resvOf (s (some 1) []) 0x3FFFFFF8).holder = some 1 ∧
     ([[], [1]] : List (List Nat)).all (fun l => let t := s (some (2 ^ 64 + 9)) l
       decide (resvOf t 0x3FFFFFF8 = { holder := some (2 ^ 64 + 9), fifo := l }) && keysFrom 0 t.mem.resv && isWf t) = true) ∧
    (queueAway 0x4020000000000 = true ∧
      tfind ({ tS with mem := { tS.mem with resv := [(0x4020000000000, { holder := none, fifo := [0, 1] })] } }).mem.resv 0x4020000000000 =
        some { holder := none, fifo := [0, 1] }) ∧
    (let p : Plant := { hbm := [300], rails := [(800, 1000000)], inlet := 0, outlet := 0, flow := 0 }
     railPower p ≤ 1200 * 10 ^ 6 ∧ 1200 * 10 ^ 6 < railPower { p with rails := [(1000, 2000000)] }) := by
  refine ⟨⟨by decide +kernel, by decide +kernel, by decide +kernel, by decide +kernel, fun l => rfl, by decide +kernel⟩, ?_⟩
  repeat refine ⟨by decide +kernel, ?_⟩
  refine ⟨⟨fun l => rfl, by decide +kernel⟩, ?_⟩
  decide +kernel

/-! ### A step -/

/-- The bytes of the pair of ADDI s5, s5, 1 and VADD v1, v1, v2 (R28, R30, R37). -/
def tPair : List Byte := (s32R (64 + 4) 5 5 0 1 ++ v48 1 1 1 2 0 0 14 0).flatMap fun g => leBytes 2 g.toNat

/-- R43: both halves of a pair take effect: the sum, and an entry of the core's queue. -/
theorem test_step_pair :
    (match step (mb 0x1000 10 (leNat tPair) (placeState State.reset 32 0)) with
      | .next t => decide (sGet (slotAt t 0) 5 = 1 ∧ (slotAt t 0).ctl.pc = 0x100A) && ((coreAt t 0).queue.map (·.instr)).contains (.vadd 1 1 2 0 .f32 .rne)
      | _ => false) = true := by decide +kernel

/-- A word placed after reset; a pair, and its halves with and without what they wait for; one under a guard that is full and one that does not decode; an event at the head of the agenda. -/
theorem witness_StepRunsDecodedWord :
    (let s := placeState State.reset 32 (1 * 2 ^ 24 + 5 * 2 ^ 19 + 6 * 2 ^ 14 + 7 * 2 ^ 9)
     s.boot.stopped = false ∧ s.boot.booted = true ∧ s.agenda = .core 0 :: State.reset.agenda ∧ turnOf s 0 = 0 ∧
     (let x := cycle 0 (between 0 (expireWaits 0 { s with agenda := State.reset.agenda }))
      (slotAt x 0).ctl.st = .running ∧ (slotAt x 0).ctl.caught = none ∧ (cellAt x (cellOf 0)).joined = true ∧
      (match fetchWord x 0 (slotAt x 0).ctl.pc with
        | .word gs => (match decodeWord gs with | .ok w => decide (w = { guard := none, body := .single (.add 5 6 7) }) | .error _ => false)
        | .stop _ => false) = true ∧
      presOf (atIssue 0 3 x) 0 (.p (7 : GReg)) = .full)) ∧
    (let s := placeState State.reset 32 (1 * 2 ^ 24 + 5 * 2 ^ 19 + 6 * 2 ^ 14 + 7 * 2 ^ 9)
     let y := atIssue 0 5 (cycle 0 (between 0 (expireWaits 0 { s with agenda := State.reset.agenda })))
     (match fetchWord (mb 0x1000 10 (leNat tPair) s) 0 0x1000 with
       | .word gs => (match decodeWord gs with
         | .ok w => decide (w = { guard := none, body := .pair (.addiS 5 5 1) (.vadd 1 1 2 0 .f32 .rne) }) | .error _ => false)
       | .stop _ => false) = true ∧
     vectorFault (.vadd 1 1 2 0 .f32 .rne) y = none ∧ (vectorFault (.vadd 1 1 2 0 .f32 .rne) (modSlot 0 (fun x => { x with win := { base := 0, size := 0 } }) y)).isSome = true ∧
     blocked y 0 (reads (.addiS 5 5 1) ++ reads (.vadd 1 1 2 0 .f32 .rne)) (writes (.addiS 5 5 1)) = false ∧
     blocked (setPres 0 (.s 5) .owed y) 0 (reads (.addiS 5 5 1)) (writes (.addiS 5 5 1)) = true ∧
     (match exec (.addiS 5 5 1) (atHalf .scalar y) with
       | .next t => t.issue.done && (match exec (.vadd 1 1 2 0 .f32 .rne) (atHalf .vector y) with | .next u => u.issue.done | _ => false)
       | _ => false) = true ∧ y.issue.gid = 0 ∧ (slotAt (tv 0x4000 0 0 y) 0).trap.vec ≠ 0) ∧
    (match decodeWord (encodeWord { guard := some { reg := 7, neg := true }, body := .single (.add 5 6 7) }), decodeWord [0, 0] with
      | .ok w, .error _ => decide (w.guard = some { reg := 7, neg := true }) && !vectorIllegal [0, 0]
      | _, _ => false) = true ∧
    ([(.vmem, true), (.page 9, true), (.reply, false)] : List (Wait × Bool)).all (fun (w, ready) =>
      let s := placeState State.reset 32 0
      let s := modCtl 0 (fun c => { c with st := .parked, wait := w, caught := some { instr := .ldOff 4 5 .b64 0, regs := (slotAt s 0).regs } }) s
      let x := cycle 0 (between 0 (expireWaits 0 { s with agenda := [] }))
      s.agenda.head? == some (.core 0) && (cellAt x (cellOf 0)).joined && (slotAt x 0).ctl.caught.isSome && accessReady x 0 == ready) = true ∧
    isEvent .hbmScrub = true := by
  refine ⟨by decide +kernel, by decide +kernel, by decide +kernel, by decide +kernel, by decide +kernel⟩

/-- Words alone, and pairs: the first and the last major operation, and halves with one scalar register and with two. -/
theorem witness_DecodeEncode :
    ([.add 31 30 29, .li 4 0x80000000, .vadd 31 30 29 7 .f32 .rne, .nop16, .getstate 4 5 6, .tmma 7 0 31 none .s8 .rne false false 0] : List Instr).all
      (fun i => i.wf && !isEvent i) = true ∧
    ([(.add 31 30 29, .vadd 31 30 29 7 .f32 .rne), (.xya 5 6 7 true true, .vext 4 2 .b32 63), (.cmp 7 1 2 .lez, .mfirst 4 7 .b64),
      (.addiS 5 5 0x3FFF, .tmma 7 0 31 none .s8 .rne false false 0)] : List (Instr × Instr)).all (fun (i, j) =>
      i.wf && j.wf && (scalarDestV j).all (fun d => decide (scalarDestS i ≠ some d)) &&
        match encodeValue i, encodeValue j with
        | some (2, v), some (3, _) => decide (1 ≤ v / 2 ^ 24 % 64 ∧ v / 2 ^ 24 % 64 ≤ 0x10)
        | _, _ => false) = true := by decide +kernel

/-- A step from a state whose memory is in canonical form. -/
theorem witness_MemoryWfKept :
    (let s := placeState State.reset 32 (1 * 2 ^ 24 + 5 * 2 ^ 19 + 6 * 2 ^ 14 + 7 * 2 ^ 9)
     isWf s && match step s with | .next t => isWf t && decide ((slotAt t 0).ctl.pc = 0x1004) | _ => false) = true := by decide +kernel

end Sys2Proof.Machine
end

/-! # The instructions of major 0x01 (R163 to R165) -/

namespace Sys2Proof.Machine

/-! ### A word that reads two scalars and writes one -/

/-- A ready instruction whose meaning is `alu2` with `f` writes the value that a table gives it, where `f` computes that value. -/
theorem exec_of_alu2 {i : Instr} {s : State} {d e : SReg} {v w : Word64} (a b : SReg) (f : Word64 → Word64 → Word64)
    (h : Ready i s) (hv : some (e, w) = some (d, v)) (hi : exec i s = alu2 i e a b f s)
    (hf : f (sGet (me s) a) (sGet (me s) b) = w) : ∃ t, exec i s = .next t ∧ WroteS d v s t := by
  cases hv
  subst hf
  exact ⟨_, hi.trans (word_ready _ h), wroteS_putS _ _ s⟩

/-! ### Division (R164) -/

theorem divSigned_eq_signedQR (x y : Word64) :
    divSigned x y = (w64 (signedQR x.toInt y.toInt).1, w64 (signedQR x.toInt y.toInt).2) := by
  unfold divSigned signedQR
  dsimp only
  split_ifs
  · rw [w64, w64, BitVec.ofInt_toInt]
  · rfl
  · rfl

theorem divUnsigned_eq_unsignedQR (x y : Word64) :
    divUnsigned x y = (n64 (unsignedQR x.toNat y.toNat).1, n64 (unsignedQR x.toNat y.toNat).2) := by
  unfold divUnsigned unsignedQR
  split_ifs
  · rw [n64, n64, BitVec.ofNat_toNat, BitVec.setWidth_eq]
  · rw [Nat.mod_eq_sub_div_mul]

/-! ### The values of R163 and R165 over integers -/

theorem sub_eq_ofInt (x y : Word64) : x - y = BitVec.ofInt 64 (x.toInt - y.toInt) := by
  rw [sub_eq_add_neg x.toInt, BitVec.ofInt_add, BitVec.ofInt_neg, BitVec.ofInt_toInt, BitVec.ofInt_toInt, sub_eq_add_neg]

theorem mul_eq_ofInt (x y : Word64) : x * y = BitVec.ofInt 64 (x.toInt * y.toInt) := by
  rw [BitVec.ofInt_mul, BitVec.ofInt_toInt, BitVec.ofInt_toInt]

/-- Bits [127:64] of a signed product are its quotient by 2^64, rounded down. -/
theorem w64_div_eq_extractLsb' (p : Int) : w64 (p / 2 ^ 64) = (BitVec.ofInt 128 p).extractLsb' 64 64 := by
  apply BitVec.eq_of_toNat_eq
  rw [BitVec.extractLsb'_toNat, w64, BitVec.toNat_ofInt, BitVec.toNat_ofInt, Nat.shiftRight_eq_div_pow]
  omega

theorem n64_div_eq_extractLsb' (p : Nat) : n64 (p / 2 ^ 64) = (BitVec.ofNat 128 p).extractLsb' 64 64 := by
  apply BitVec.eq_of_toNat_eq
  rw [BitVec.extractLsb'_toNat, n64, BitVec.toNat_ofNat, BitVec.toNat_ofNat, Nat.shiftRight_eq_div_pow]
  omega

theorem shiftCount_lt (y : Word64) : shiftCount y < 64 := Nat.mod_lt _ (by decide)

theorem shiftLeft_eq_ofNat (x : Word64) (n : Nat) : x <<< n = BitVec.ofNat 64 (x.toNat * 2 ^ n) := by
  apply BitVec.eq_of_toNat_eq
  rw [BitVec.toNat_shiftLeft, Nat.shiftLeft_eq, BitVec.toNat_ofNat]

theorem ushiftRight_eq_ofNat (x : Word64) (n : Nat) : x >>> n = BitVec.ofNat 64 (x.toNat / 2 ^ n) := by
  rw [← Nat.shiftRight_eq_div_pow, ← BitVec.toNat_ushiftRight, BitVec.ofNat_toNat, BitVec.setWidth_eq]

theorem sshiftRight_eq_ofInt (x : Word64) (n : Nat) : x.sshiftRight n = BitVec.ofInt 64 (x.toInt / 2 ^ n) := by
  rw [BitVec.sshiftRight_eq, Int.shiftRight_eq_div_pow, Nat.cast_pow, Nat.cast_ofNat]

/-- The two parts of a rotation have no bit in common, so that they may be added. -/
theorem rotateLeft_eq_ofNat (x : Word64) {n : Nat} (h : n < 64) :
    x.rotateLeft n = BitVec.ofNat 64 (x.toNat * 2 ^ n + x.toNat / 2 ^ (64 - n)) := by
  have disjoint : x <<< n &&& x >>> (64 - n) = 0#64 := by
    ext k hk
    by_cases hn : k < n
    · simp [hn]
    · simp [show 64 ≤ 64 - n + k by omega]
  rw [BitVec.rotateLeft_def, Nat.mod_eq_of_lt h, ← BitVec.add_eq_or_of_and_eq_zero _ _ disjoint,
    shiftLeft_eq_ofNat, ushiftRight_eq_ofNat, BitVec.ofNat_add]

theorem ite_toInt_le_eq_min (x y : Word64) :
    (if x.toInt ≤ y.toInt then x else y) = BitVec.ofInt 64 (min x.toInt y.toInt) := by
  rw [min_def, apply_ite (BitVec.ofInt 64), BitVec.ofInt_toInt, BitVec.ofInt_toInt]

theorem ite_toInt_le_eq_max (x y : Word64) :
    (if x.toInt ≤ y.toInt then y else x) = BitVec.ofInt 64 (max x.toInt y.toInt) := by
  rw [max_def, apply_ite (BitVec.ofInt 64), BitVec.ofInt_toInt, BitVec.ofInt_toInt]

theorem ite_toNat_le_eq_min (x y : Word64) :
    (if x.toNat ≤ y.toNat then x else y) = BitVec.ofNat 64 (min x.toNat y.toNat) := by
  rw [min_def, apply_ite (BitVec.ofNat 64), BitVec.ofNat_toNat, BitVec.ofNat_toNat, BitVec.setWidth_eq, BitVec.setWidth_eq]

theorem ite_toNat_le_eq_max (x y : Word64) :
    (if x.toNat ≤ y.toNat then y else x) = BitVec.ofNat 64 (max x.toNat y.toNat) := by
  rw [max_def, apply_ite (BitVec.ofNat 64), BitVec.ofNat_toNat, BitVec.ofNat_toNat, BitVec.setWidth_eq, BitVec.setWidth_eq]

/-! ### The instructions -/

theorem exec_writes_divisionValue {i : Instr} {s : State} {d : SReg} {v : Word64} (h : Ready i s)
    (hv : divisionValue (me s) i = some (d, v)) : ∃ t, exec i s = .next t ∧ WroteS d v s t := by
  cases i with
  | divs _ a b => exact exec_of_alu2 a b (fun x y => (divSigned x y).1) h hv rfl (congrArg Prod.fst (divSigned_eq_signedQR _ _))
  | rems _ a b => exact exec_of_alu2 a b (fun x y => (divSigned x y).2) h hv rfl (congrArg Prod.snd (divSigned_eq_signedQR _ _))
  | divz _ a b => exact exec_of_alu2 a b (fun x y => (divUnsigned x y).1) h hv rfl (congrArg Prod.fst (divUnsigned_eq_unsignedQR _ _))
  | remz _ a b => exact exec_of_alu2 a b (fun x y => (divUnsigned x y).2) h hv rfl (congrArg Prod.snd (divUnsigned_eq_unsignedQR _ _))
  | _ => cases hv

theorem exec_writes_aluValue {i : Instr} {s : State} {d : SReg} {v : Word64} (h : Ready i s)
    (hv : aluValue (me s) i = some (d, v)) : ∃ t, exec i s = .next t ∧ WroteS d v s t := by
  cases i with
  | add _ a b => exact exec_of_alu2 a b (fun x y => x + y) h hv rfl (BitVec.add_def _ _)
  | sub _ a b => exact exec_of_alu2 a b (fun x y => x - y) h hv rfl (sub_eq_ofInt _ _)
  | mul _ a b => exact exec_of_alu2 a b (fun x y => x * y) h hv rfl (mul_eq_ofInt _ _)
  | mulhs _ a b => exact exec_of_alu2 a b (fun x y => w64 (x.toInt * y.toInt / 2 ^ 64)) h hv rfl (w64_div_eq_extractLsb' _)
  | mulhz _ a b => exact exec_of_alu2 a b (fun x y => n64 (x.toNat * y.toNat / 2 ^ 64)) h hv rfl (n64_div_eq_extractLsb' _)
  | and _ a b => exact exec_of_alu2 a b (fun x y => x &&& y) h hv rfl rfl
  | or _ a b => exact exec_of_alu2 a b (fun x y => x ||| y) h hv rfl rfl
  | xor _ a b => exact exec_of_alu2 a b (fun x y => x ^^^ y) h hv rfl rfl
  | andn _ a b => exact exec_of_alu2 a b (fun x y => x &&& ~~~y) h hv rfl rfl
  | shl _ a b => exact exec_of_alu2 a b (fun x y => x <<< shiftCount y) h hv rfl (shiftLeft_eq_ofNat _ _)
  | shrz _ a b => exact exec_of_alu2 a b (fun x y => x >>> shiftCount y) h hv rfl (ushiftRight_eq_ofNat _ _)
  | shrs _ a b => exact exec_of_alu2 a b (fun x y => x.sshiftRight (shiftCount y)) h hv rfl (sshiftRight_eq_ofInt _ _)
  | rotl _ a b => exact exec_of_alu2 a b (fun x y => x.rotateLeft (shiftCount y)) h hv rfl (rotateLeft_eq_ofNat _ (shiftCount_lt _))
  | mins _ a b => exact exec_of_alu2 a b (fun x y => if x.toInt ≤ y.toInt then x else y) h hv rfl (ite_toInt_le_eq_min _ _)
  | minz _ a b => exact exec_of_alu2 a b (fun x y => if x.toNat ≤ y.toNat then x else y) h hv rfl (ite_toNat_le_eq_min _ _)
  | maxs _ a b => exact exec_of_alu2 a b (fun x y => if x.toInt ≤ y.toInt then y else x) h hv rfl (ite_toInt_le_eq_max _ _)
  | maxz _ a b => exact exec_of_alu2 a b (fun x y => if x.toNat ≤ y.toNat then y else x) h hv rfl (ite_toNat_le_eq_max _ _)
  | _ => cases hv

/-- Settles O2: each instruction of major 0x01 is a two-operand word whose function gives the value of R164 or R165. -/
theorem integerResults : Obligations.IntegerResults :=
  ⟨fun _ _ _ _ h hv => exec_writes_divisionValue h hv, fun _ _ _ _ h hv => exec_writes_aluValue h hv⟩

end Sys2Proof.Machine

/-! # The end-of-loop check (R185) -/

namespace Sys2Proof.Machine

/-! ### What endCheck answers -/

/-- R185: an innermost record that ends at the word and has iterations left sends the slot back to START. -/
theorem endCheck_cons_again {w n : Word64} {r : LoopRec} {rest : List LoopRec} (hr : r.stop = w) (hc : 2 ≤ r.count.toNat) :
    endCheck w n (r :: rest) = ({ r with count := r.count - 1 } :: rest, r.start) := by
  rw [endCheck, if_pos hr, if_pos (Nat.lt_of_succ_le hc)]

/-- R185: an innermost record that ends at the word with its last iteration is popped, and the check looks again. -/
theorem endCheck_cons_last {w n : Word64} {r : LoopRec} {rest : List LoopRec} (hr : r.stop = w) (hc : r.count = 1) :
    endCheck w n (r :: rest) = endCheck w n rest := by
  rw [endCheck, if_pos hr, if_neg (by simp [hc])]

/-- R185: a record is popped by the end of a loop that encloses it. -/
theorem endCheck_cons_inner {w n : Word64} {r q : LoopRec} {rest : List LoopRec} (hr : r.stop ≠ w) (hq : q ∈ rest)
    (hs : q.stop = w) : endCheck w n (r :: rest) = endCheck w n rest := by
  have found : rest.any (fun q => q.stop == w) = true := List.any_eq_true.mpr ⟨q, hq, beq_iff_eq.mpr hs⟩
  rw [endCheck, if_neg hr, if_pos found]

theorem endCheck_of_forall_stop_ne {w n : Word64} {l : List LoopRec} (h : ∀ r ∈ l, r.stop ≠ w) : endCheck w n l = (l, n) := by
  cases l with
  | nil => rfl
  | cons r rest =>
    obtain ⟨hr, hrest⟩ := List.forall_mem_cons.mp h
    have notFound : ¬ rest.any (fun q => q.stop == w) = true := by simpa using hrest
    rw [endCheck, if_neg hr, if_neg notFound]

theorem endCheck_append_of_inner {w n : Word64} {inner outer : List LoopRec} {r : LoopRec} (h : ∀ q ∈ inner, q.stop ≠ w)
    (hr : r.stop = w) : endCheck w n (inner ++ r :: outer) = endCheck w n (r :: outer) := by
  induction inner with
  | nil => rfl
  | cons q qs ih =>
    obtain ⟨hq, hqs⟩ := List.forall_mem_cons.mp h
    calc endCheck w n (q :: (qs ++ r :: outer))
      _ = endCheck w n (qs ++ r :: outer) := endCheck_cons_inner hq (by simp) hr
      _ = endCheck w n (r :: outer) := ih hqs

/-! ### The words that only go on -/

/-- A word that names no register completes, whether or not it has been caught before. -/
theorem word_skip_of_no_operands {i : Instr} (hr : reads i = []) (hw : writes i = []) (s : State) :
    word i (fun _ s => skip s) s = .next (skip s) := by
  unfold word
  split
  · rfl
  · simp [whenReady, blocked, hr, hw]

theorem exec_nop_eq_skip {i : Instr} (h : i = .nop ∨ i = .nop16) (s : State) : exec i s = .next (skip s) := by
  obtain rfl | rfl := h
  · exact word_skip_of_no_operands rfl rfl s
  · exact word_skip_of_no_operands rfl rfl s

/-- R44: a word whose guard is full and false is skipped. -/
theorem wordExec_of_false_guard {s : State} {w : IWord} {q : GuardField} (hw : w.guard = some q)
    (hp : presOf s s.issue.gid (.p q.reg) = .full) (hf : pGet (me s) q.reg = q.neg) : wordExec w s = .next (skip s) := by
  have present : readBlocks s s.issue.gid (.p q.reg) = false := by simp [readBlocks, hp]
  simp [wordExec, hw, present, hf]

/-! ### The end of a park -/

theorem ctl_advance (g : SlotKey) (s : State) : (slotAt (advance g s) g).ctl =
    { (slotAt s g).ctl with
      loops := (endCheck (slotAt s g).ctl.pc (slotAt s g).ctl.npc (slotAt s g).ctl.loops).1
      pc := (endCheck (slotAt s g).ctl.pc (slotAt s g).ctl.npc (slotAt s g).ctl.loops).2 } := by
  simp [advance]

theorem ctl_unpark_of_parked {g : SlotKey} {s : State} (dest : SlotSt) (h : (slotAt s g).ctl.st = .parked) :
    (slotAt (unpark g dest s) g).ctl = { (slotAt s g).ctl with st := dest, wait := .none } := by
  simp [unpark, h]

theorem ctl_finish_of_parked {g : SlotKey} {s : State} (h : (slotAt s g).ctl.st = .parked) : (slotAt (finish g s) g).ctl =
    { (slotAt s g).ctl with
      st := .running
      wait := .none
      loops := (endCheck (slotAt s g).ctl.pc (slotAt s g).ctl.npc (slotAt s g).ctl.loops).1
      pc := (endCheck (slotAt s g).ctl.pc (slotAt s g).ctl.npc (slotAt s g).ctl.loops).2 } := by
  have parked : (slotAt (advance g s) g).ctl.st = .parked := by rw [ctl_advance]; exact h
  rw [finish, ctl_unpark_of_parked _ parked, ctl_advance]

/-- Settles O16: the inner records fall away one by one, and the first record that ends at the word decides by its count; the words
and parks that complete use `skip` and `finish`, which make this check. -/
theorem loopEnds : Obligations.LoopEnds := by
  refine ⟨fun w n l h => endCheck_of_forall_stop_ne h, fun w n inner r outer h hr hc => ?again,
    fun w n inner r outer h hr hc => ?last, fun i s h => ⟨skip s, exec_nop_eq_skip h s, wroteNothing_skip s⟩,
    fun s w q hw hp hf => ⟨skip s, wordExec_of_false_guard hw hp hf, wroteNothing_skip s⟩, fun s g h => ctl_finish_of_parked h⟩
  case again => rw [endCheck_append_of_inner h hr, endCheck_cons_again hr hc]
  case last => rw [endCheck_append_of_inner h hr, endCheck_cons_last hr hc]

end Sys2Proof.Machine
